-- ==== Sys2Proof/Word.lean ====
section
/-! DEFINITION. The register word, the byte, and the two pieces of plain arithmetic the spec's notation names
(00_scope.md rule R7). -/

namespace Sys2Proof

/-- A host register, command word, byte offset or byte length: 32 bits (10_state.md rule R21, `P_OFS_W`). -/
abbrev Word := BitVec 32

/-- One byte of BUF or OUT (20_memory.md rules R60 and R68). -/
abbrev Byte := BitVec 8

/-- `ceil_div(a, 4)` of rule R7: the number of 4-texel blocks that cover `a` texels. -/
def ceilDiv4 (a : Nat) : Nat := (a + 3) >>> 2

/-- `zext_32(v)` of rule R7 (a value that fits 32 bits, unchanged). -/
def zext32 (v : Nat) : Word := BitVec.ofNat 32 v

end Sys2Proof
end

