-- ==== Sys2Proof/Syntax.lean ====
section
/-! DEFINITION. The instructions: one constructor for each of the 31 rows of opcode_table.json (30_encoding.md rule R97),
ten host commands (rule R82) and the 21 symbols of the temporary-tree alphabet (rule R89). -/

namespace Sys2Proof

/-- The operand of a command is the field of the command word that its operand form names (rule R83). A symbol has none:
the parameter of an escape follows its code in the bitstream. -/
inductive Instr where
  | seek
  | rdbits (n : BitVec 6)
  | align
  | hbuild (t : BitVec 1)
  | hdec (t : BitVec 2)
  | tread (t : BitVec 1)
  | gettab
  | lvlinfo (i : BitVec 8)
  | unpack (i : BitVec 8)
  | clrerr
  | lit0
  | lit1
  | lit2
  | lit3
  | lit4
  | lit5
  | lit6
  | lit7
  | lit8
  | lit9
  | lit10
  | lit11
  | lit12
  | lit13
  | lit14
  | lit15
  | lit16
  | shortzero
  | longzero
  | shortrepeat
  | longrepeat
  deriving DecidableEq, Repr

end Sys2Proof
end

