-- ==== Sys2Proof/WellFormed.lean ====
section
/-! DEFINITION. Which instruction terms are legal (30_encoding.md rules R83 and R84): the two operand forms whose field
can hold an illegal value. -/

namespace Sys2Proof

/-- Form N: `n` is 0 to 32 (rules R83 and R84). -/
def legalBitCount (n : BitVec 6) : Bool := decide (n.toNat ≤ 32)

/-- Form T012: `t = 3` is illegal (rules R83 and R84). -/
def legalSlot012 (t : BitVec 2) : Bool := decide (t.toNat ≤ 2)

/-- A term that stands for a legal command word or a symbol of the alphabet. -/
def Instr.wf : Instr → Bool
  | .seek => true
  | .rdbits n => legalBitCount n
  | .align => true
  | .hbuild _ => true
  | .hdec t => legalSlot012 t
  | .tread _ => true
  | .gettab => true
  | .lvlinfo _ => true
  | .unpack _ => true
  | .clrerr => true
  | .lit0 => true
  | .lit1 => true
  | .lit2 => true
  | .lit3 => true
  | .lit4 => true
  | .lit5 => true
  | .lit6 => true
  | .lit7 => true
  | .lit8 => true
  | .lit9 => true
  | .lit10 => true
  | .lit11 => true
  | .lit12 => true
  | .lit13 => true
  | .lit14 => true
  | .lit15 => true
  | .lit16 => true
  | .shortzero => true
  | .longzero => true
  | .shortrepeat => true
  | .longrepeat => true

end Sys2Proof
end

