-- ==== Sys2Proof/Decode.lean ====
section
/-! DEFINITION. The two levels of encoding (30_encoding.md): the 32-bit command word of rules R81 to R85 and the 5-bit
symbol index of rules R89 and R97; the decoder, the encoder, and the host's door `decodeTableWord`. -/

namespace Sys2Proof

/-- Why a word is no instruction. -/
inductive DecodeError where
  | zNotZero        -- bits 23:8 of a command word are not 0 (rule R84)
  | unknownOpcode   -- `OP` is 0x00 or 0x0B to 0xFF (rule R84)
  | badOperand      -- `A` violates the operand form of the opcode (rule R84)
  | unknownSymbol   -- a symbol index of 21 or more, which cannot occur (rule R91)
  deriving DecidableEq, Repr

/-- The opcode byte `OP` of a command word (rule R81). -/
def opByte (w : Word) : BitVec 8 := w.extractLsb' 24 8

/-- The field `Z` of a command word (rule R81). -/
def zField (w : Word) : BitVec 16 := w.extractLsb' 8 16

/-- The operand byte `A` of a command word (rule R81). -/
def aByte (w : Word) : BitVec 8 := w.extractLsb' 0 8

/-- Form Z (rule R83): no operand. -/
def formZ (a : BitVec 8) (i : Instr) : Except DecodeError Instr :=
  if a = 0 then .ok i else .error .badOperand

/-- Form N (rule R83): `n = A[5:0]`, `A[7:6]` is 0 and n is at most 32. -/
def formN (a : BitVec 8) (mk : BitVec 6 → Instr) : Except DecodeError Instr :=
  if a.toNat ≤ 32 then .ok (mk (a.extractLsb' 0 6)) else .error .badOperand

/-- Form T01 (rule R83): `t = A[0]`, `A[7:1]` is 0. -/
def formT01 (a : BitVec 8) (mk : BitVec 1 → Instr) : Except DecodeError Instr :=
  if a.toNat ≤ 1 then .ok (mk (a.extractLsb' 0 1)) else .error .badOperand

/-- Form T012 (rule R83): `t = A[1:0]`, `A[7:2]` is 0 and t is not 3. -/
def formT012 (a : BitVec 8) (mk : BitVec 2 → Instr) : Except DecodeError Instr :=
  if a.toNat ≤ 2 then .ok (mk (a.extractLsb' 0 2)) else .error .badOperand

/-- Form L (rule R83): `i = A[7:0]`, every value legal. -/
def formL (a : BitVec 8) (mk : BitVec 8 → Instr) : Except DecodeError Instr := .ok (mk a)

/-- Rule R82: the opcode map. -/
def decodeOp (op : Nat) (a : BitVec 8) : Except DecodeError Instr :=
  match op with
  | 0x01 => formZ a .seek
  | 0x02 => formN a .rdbits
  | 0x03 => formZ a .align
  | 0x04 => formT01 a .hbuild
  | 0x05 => formT012 a .hdec
  | 0x06 => formT01 a .tread
  | 0x07 => formZ a .gettab
  | 0x08 => formL a .lvlinfo
  | 0x09 => formL a .unpack
  | 0x0A => formZ a .clrerr
  | _ => .error .unknownOpcode

/-- Rule R85: check `Z`, look up `OP`, check `A`, in that order. -/
def decodeCommand (w : Word) : Except DecodeError Instr :=
  if zField w = 0 then decodeOp (opByte w).toNat (aByte w) else .error .zNotZero

/-- Rule R89: the symbol that a symbol index stands for. -/
def decodeSymbol (x : Nat) : Except DecodeError Instr :=
  match x with
  | 0 => .ok .lit0
  | 1 => .ok .lit1
  | 2 => .ok .lit2
  | 3 => .ok .lit3
  | 4 => .ok .lit4
  | 5 => .ok .lit5
  | 6 => .ok .lit6
  | 7 => .ok .lit7
  | 8 => .ok .lit8
  | 9 => .ok .lit9
  | 10 => .ok .lit10
  | 11 => .ok .lit11
  | 12 => .ok .lit12
  | 13 => .ok .lit13
  | 14 => .ok .lit14
  | 15 => .ok .lit15
  | 16 => .ok .lit16
  | 17 => .ok .shortzero
  | 18 => .ok .longzero
  | 19 => .ok .shortrepeat
  | 20 => .ok .longrepeat
  | _ => .error .unknownSymbol

/-- An encoded instruction: a command word of the first level, or a symbol index of the second. -/
inductive Code where
  | command (w : Word)
  | symbol (x : BitVec 5)
  deriving DecidableEq, Repr

/-- The decoder of both levels. -/
def decode : Code → Except DecodeError Instr
  | .command w => decodeCommand w
  | .symbol x => decodeSymbol x.toNat

/-- The fields of rule R81 put together: `OP` in 31:24, `Z` = 0, `A` in 7:0. -/
def commandWord (op : BitVec 8) (a : BitVec 8) : Word := op ++ (0#16 ++ a)

/-- The encoder: the command word (rules R81 to R83) or the symbol index (rule R89) of an instruction. -/
def encode : Instr → Code
  | .seek => .command (commandWord 0x01 0)
  | .rdbits n => .command (commandWord 0x02 (n.zeroExtend 8))
  | .align => .command (commandWord 0x03 0)
  | .hbuild t => .command (commandWord 0x04 (t.zeroExtend 8))
  | .hdec t => .command (commandWord 0x05 (t.zeroExtend 8))
  | .tread t => .command (commandWord 0x06 (t.zeroExtend 8))
  | .gettab => .command (commandWord 0x07 0)
  | .lvlinfo i => .command (commandWord 0x08 i)
  | .unpack i => .command (commandWord 0x09 i)
  | .clrerr => .command (commandWord 0x0A 0)
  | .lit0 => .symbol 0
  | .lit1 => .symbol 1
  | .lit2 => .symbol 2
  | .lit3 => .symbol 3
  | .lit4 => .symbol 4
  | .lit5 => .symbol 5
  | .lit6 => .symbol 6
  | .lit7 => .symbol 7
  | .lit8 => .symbol 8
  | .lit9 => .symbol 9
  | .lit10 => .symbol 10
  | .lit11 => .symbol 11
  | .lit12 => .symbol 12
  | .lit13 => .symbol 13
  | .lit14 => .symbol 14
  | .lit15 => .symbol 15
  | .lit16 => .symbol 16
  | .shortzero => .symbol 17
  | .longzero => .symbol 18
  | .shortrepeat => .symbol 19
  | .longrepeat => .symbol 20

/-- The host's door: an instruction whose bits are w, numbered as opcode_table.json numbers them. A row of at most 8 bits
is a symbol index (format TSYM), any other a command word; a command word is one word, so there is no byte order. -/
def decodeTableWord (nbits w : Nat) : Option Instr :=
  if nbits ≤ 8 then (decodeSymbol w).toOption
  else if w < 2 ^ 32 then (decodeCommand (BitVec.ofNat 32 w)).toOption
  else none

/-- The `match` and `mask` values of a row of opcode_table.json (rules R85 and R97). -/
structure OpcodeRow where
  value : Nat
  mask  : Nat
  deriving DecidableEq, Repr

/-- The row of opcode_table.json of each instruction (rule R85: the masks of the forms Z, N, T01, T012 and L; rule R97:
mask 0x1F for a symbol). -/
def opcodeRow : Instr → OpcodeRow
  | .seek => ⟨0x01000000, 0xFFFFFFFF⟩
  | .rdbits _ => ⟨0x02000000, 0xFFFFFFC0⟩
  | .align => ⟨0x03000000, 0xFFFFFFFF⟩
  | .hbuild _ => ⟨0x04000000, 0xFFFFFFFE⟩
  | .hdec _ => ⟨0x05000000, 0xFFFFFFFC⟩
  | .tread _ => ⟨0x06000000, 0xFFFFFFFE⟩
  | .gettab => ⟨0x07000000, 0xFFFFFFFF⟩
  | .lvlinfo _ => ⟨0x08000000, 0xFFFFFF00⟩
  | .unpack _ => ⟨0x09000000, 0xFFFFFF00⟩
  | .clrerr => ⟨0x0A000000, 0xFFFFFFFF⟩
  | .lit0 => ⟨0x00, 0x1F⟩
  | .lit1 => ⟨0x01, 0x1F⟩
  | .lit2 => ⟨0x02, 0x1F⟩
  | .lit3 => ⟨0x03, 0x1F⟩
  | .lit4 => ⟨0x04, 0x1F⟩
  | .lit5 => ⟨0x05, 0x1F⟩
  | .lit6 => ⟨0x06, 0x1F⟩
  | .lit7 => ⟨0x07, 0x1F⟩
  | .lit8 => ⟨0x08, 0x1F⟩
  | .lit9 => ⟨0x09, 0x1F⟩
  | .lit10 => ⟨0x0A, 0x1F⟩
  | .lit11 => ⟨0x0B, 0x1F⟩
  | .lit12 => ⟨0x0C, 0x1F⟩
  | .lit13 => ⟨0x0D, 0x1F⟩
  | .lit14 => ⟨0x0E, 0x1F⟩
  | .lit15 => ⟨0x0F, 0x1F⟩
  | .lit16 => ⟨0x10, 0x1F⟩
  | .shortzero => ⟨0x11, 0x1F⟩
  | .longzero => ⟨0x12, 0x1F⟩
  | .shortrepeat => ⟨0x13, 0x1F⟩
  | .longrepeat => ⟨0x14, 0x1F⟩

/-- The bits of an encoded instruction as one number. -/
def Code.toNat : Code → Nat
  | .command w => w.toNat
  | .symbol x => x.toNat

/-- An encoded instruction lies in a row (rule R97). -/
def OpcodeRow.holds (r : OpcodeRow) (c : Code) : Bool := c.toNat &&& r.mask == r.value

end Sys2Proof
end

