-- ==== Sys2Proof/Machine/Slot.lean ====
section
/-! DEFINITION. The decoder slot (10_state.md rules R35 and R36): the names of the three slots and the contents of one. -/

namespace Sys2Proof.Machine

/-- The three decoder slots of rule R35, under the names of 00_scope.md rule R8. -/
inductive SlotId where
  | t0    -- `T[0]`, the main tree
  | t1    -- `T[1]`, the auxiliary tree
  | tmp   -- `T[2]`, the temporary tree
  deriving DecidableEq, Repr

/-- The slot index t of rule R8. -/
def SlotId.index : SlotId → Nat
  | .t0 => 0
  | .t1 => 1
  | .tmp => 2

/-- One decoder slot (rule R36). `depth` and `code` list `DEPTH[s]` and `CODE[s]` for `s = 0, 1, …, NS - 1`; the entry of
`code` for a symbol of depth 0 is never used. Where `valid` is false every other field is unspecified, and the host reads
of it are free values (System.lean, log entry 6). -/
structure Slot where
  valid  : Bool
  ns     : BitVec 14
  depth  : List (BitVec 5)
  code   : List (BitVec 16)
  maxlen : BitVec 5
  deriving DecidableEq, Repr

/-- The reset contents of a slot: invalid (10_state.md rules R36 and R47). The other fields are unspecified by the spec;
nothing reads the values here but an `EXPAND` that is handed `T[1]` (log entry 6). -/
def Slot.blank : Slot := { valid := false, ns := 0, depth := [], code := [], maxlen := 0 }

end Sys2Proof.Machine
end

