-- ==== Sys2Proof/Config.lean ====
section
/-! DEFINITION. What is fixed for one core: the configuration record of 00_scope.md rule R5 (92_eei_decisions.md lists
its open parameters), the constants the spec fixes, the EXPAND parameter of 43_level_unpacker.md rule R186, and the free
values (constants without a body) for what 93_implementation_defined.md gives the treatment "any value". -/

namespace Sys2Proof

/-- `P_BITORDER` (20_memory.md rule R61): the order in which the bits of one byte are consumed. -/
inductive BitOrder where
  | msbFirst
  | lsbFirst
  deriving DecidableEq, Repr

/-- How much one step of the model does. The spec allows both views and says that they agree: a command as one transition
(70_reset_and_hazards.md rule R246), or one arrow of the state machines of rules R164 and R191 (10_state.md rule R43).
The choice is the model's own (log entry 3). -/
inductive Grain where
  | whole   -- one step runs one whole command, or, inside a running table reader, one whole temporary-tree symbol
  | arrow   -- one step is one arrow of the state machine tables
  deriving DecidableEq, Repr

/-- What `EXPAND(fmt, s)` may do (rule R186): return bytes and a new context, fail with `ExpandError`, or consume bits
by `ReadBits(n)` with `0 <= n <= 32`, by `Decode(0)` and, only where `EXPAND_USES_AUX` holds, by `Decode(1)`, going on
with the value read. A tree of this type is one call's behaviour; every function that keeps the contract is one. -/
inductive ExpandProg (usesAux : Bool) where
  | done (bytes : List Byte) (ctx : Nat)
  | expandError
  | readBits (n : Fin 33) (k : Nat → ExpandProg usesAux)
  | decodeMain (k : Nat → ExpandProg usesAux)
  | decodeAux (allowed : usesAux = true) (k : Nat → ExpandProg usesAux)
  deriving Inhabited

/-- The parameters `EXPAND`, `EXPCTX0` and `EXPAND_USES_AUX` (rule R5): the default `LITERAL` of rule R187, or any other
function that keeps the contract of rule R186, named by a number. Contexts are coded as natural numbers (log entry 9). -/
inductive ExpandParam where
  | literal
  | other (id : Nat) (usesAux : Bool) (ctx0 : Nat)
  deriving DecidableEq, Repr

/-- `EXPAND_USES_AUX` (rules R186 and R187). -/
def ExpandParam.usesAux : ExpandParam → Bool
  | .literal => false
  | .other _ aux _ => aux

/-- `EXPCTX0` (rule R5); the unit value of `LITERAL` is coded as 0. -/
def ExpandParam.ctx0 : ExpandParam → Nat
  | .literal => 0
  | .other _ _ c => c

/-- The configuration record: the open parameters of 92_eei_decisions.md, and the model's own step size. -/
structure Config where
  bitOrder  : BitOrder
  szBias    : Nat
  lzBias    : Nat
  srBias    : Nat
  lrBias    : Nat
  tmpDepthW : Nat
  tmpCountW : Nat
  dimW      : Nat
  maxLevels : Nat
  expand    : ExpandParam
  grain     : Grain
  deriving DecidableEq, Repr

/-- The default values of rule R5. -/
def Config.standard : Config :=
  { bitOrder := .msbFirst, szBias := 3, lzBias := 11, srBias := 3, lrBias := 7, tmpDepthW := 3, tmpCountW := 0,
    dimW := 16, maxLevels := 16, expand := .literal, grain := .whole }

/-- The parameter values this model speaks about: field widths `ReadBits` accepts (40_bitreader.md rule R116), run
lengths that fit the 8 bits of `TR_RUN` (10_state.md rule R43), and dimensions and levels that fit the register map of
10_state.md rule R30 (log entry 2). -/
def Config.wf (c : Config) : Bool :=
  decide (c.tmpDepthW ≤ 32) && decide (c.tmpCountW ≤ 32) && decide (c.szBias ≤ 248) && decide (c.lzBias ≤ 128)
    && decide (c.srBias ≤ 252) && decide (c.lrBias ≤ 192) && decide (c.dimW ≤ 16) && decide (c.maxLevels ≤ 16)

/-- `P_TMP_ORDER` (rule R5): the symbol whose depth is the field at transmission position k. -/
def tmpOrder : List Nat :=
  [17, 18, 19, 20, 0, 8, 7, 9, 6, 10, 5, 11, 4, 12, 3, 13, 2, 14, 1, 15, 16]

/-- `P_TMP_NSYM` (rule R5). -/
def tmpNsym : Nat := 21

/-- `P_MAXDEPTH` (rule R5). -/
def maxDepth : Nat := 16

/-- The number of entries of `DA` (10_state.md rule R31), `P_NSYM_MAX` of rule R5. -/
def daSize : Nat := 16383

/-- `P_BLOCK_BYTES(fmt)` for the three known formats (rule R5); any other format has none (43_level_unpacker.md R184). -/
def blockBytes (fmt : Nat) : Option Nat :=
  if fmt = 0 then some 8 else if fmt = 1 then some 16 else if fmt = 2 then some 16 else none

/-- `LITERAL` (43_level_unpacker.md rule R187). -/
def literalExpand (sym ctx : Nat) : ExpandProg false :=
  if sym ≤ 255 then .done [BitVec.ofNat 8 sym] ctx else .expandError

/-- Any other `EXPAND`: a deterministic total function of the format, the symbol, the context and the slots `T[0]` and
`T[1]`, of which nothing but the contract is assumed (rule R186). -/
opaque Config.openExpand (id : Nat) (usesAux : Bool) (fmt sym ctx : Nat) (t0 t1 : Machine.Slot) : ExpandProg usesAux

/-- The value of a host read that the spec leaves unspecified (93_implementation_defined.md U10 and U13); the argument
is the model's counter of such reads. -/
opaque Config.freeWord : Nat → Word

/-- The contents of `DA[i]` that nothing has written since the reset number `epoch` (U7: "arbitrary values 0 to 31"). -/
opaque Config.freeDepth (epoch i : Nat) : BitVec 5

/-- The contents of `TD[i]` that nothing has written since the reset number `epoch` (U7: "any value"). -/
opaque Config.freeTmpDepth (epoch i : Nat) : Nat

end Sys2Proof
end

