-- ==== Sys2Proof/Machine/State.lean ====
section
/-! DEFINITION. The state of the core (10_state.md), of the host's queue of actions and of the model's own counters, as
plain data; the reset state (rule R47); the reasons a step can stop. -/

namespace Sys2Proof.Machine

/-- Cells by index in one canonical form: indexes strictly rising (Ops.lean, `Store.sorted`). -/
abbrev Store (α : Type) := List (Nat × α)

/-- A byte memory (BUF or OUT): cells by address, strictly rising, none equal to the byte 0 that an unlisted address
reads as (Ops.lean, `Memory.wf`; log entry 5). -/
abbrev Memory := List Host.Cell

/-- The error kinds of 60_exceptions.md rule R211, in its order. -/
inductive ErrorKind where
  | badMagic              -- 1, never raised by the core (rule R212)
  | truncatedHeader       -- 2, never raised by the core (rule R212)
  | unsupportedFormat     -- 3
  | offsetOutOfRange      -- 4
  | unexpectedEnd         -- 5
  | invalidDepths         -- 6
  | corruptStream         -- 7
  | depthArrayOverrun     -- 8
  | depthArrayUnderrun    -- 9
  | levelIndexOutOfRange  -- 10
  | levelSizeMismatch     -- 11
  | illegalCommand        -- 12
  deriving DecidableEq, Repr

/-- `STATE` (10_state.md rules R26 and R27); the value 3 never occurs. -/
inductive RunState where
  | idle
  | busy
  | error
  deriving DecidableEq, Repr

/-- `TR_STATE` (rule R43, 42_table_reader.md rule R164). -/
inductive TrState where
  | idle
  | count
  | tdepth
  | tbuild
  | sym
  | param
  | fill
  | mbuild
  deriving DecidableEq, Repr

/-- Which record of `GETTAB` the table reader is at (rule R166): before the cursor is placed, or at the record that
builds `T[0]` or `T[1]`. The spec gives `GETTAB` no state of its own; this one is the model's (log entry 4). -/
inductive GtPhase where
  | start
  | first
  | second
  deriving DecidableEq, Repr

/-- `UP_STATE` (rule R43, 43_level_unpacker.md rule R191); the symbol decoded and the bytes still to be emitted travel
with the state that uses them (log entry 4). -/
inductive UpState where
  | idle
  | check
  | seek
  | decode
  | expand (sym : Nat)
  | emit (bytes : List Byte)
  | done
  deriving DecidableEq, Repr

/-- What the host does (44_system.md rules R202 to R204, 20_memory.md rule R70), one action at a time. -/
inductive HostAction where
  | write (r : Nat) (v : Word)   -- a host write of register number r
  | read (r : Nat)               -- a host read of register number r
  | poke (a : Word) (b : Byte)   -- the host changes the byte of BUF at index a
  | reset                        -- the reset input is applied
  | pass                         -- the host lets the core go on by one step
  deriving DecidableEq, Repr

/-- Everything the spec gives the machine (10_state.md), and five fields of the model's own. -/
structure State where
  /-- The parameters the core was built with (00_scope.md rule R5); no step changes them. -/
  cfg        : Config
  /-- `CMD` (30_encoding.md rule R80). -/
  cmd        : Word
  /-- `ARG0` (rule R25). -/
  arg0       : Word
  /-- `ARG1` (rule R25). -/
  arg1       : Word
  /-- `RES` (rule R25). -/
  res        : Word
  /-- `STATUS.STATE` (rules R26 and R27). -/
  run        : RunState
  /-- `STATUS.ERR` (rules R26 and R28); `none` is the code 0. -/
  err        : Option ErrorKind
  /-- `STATUS.ERR_OP` (rules R26 and R28). -/
  errOp      : BitVec 8
  /-- `STATUS.OUT_VALID` (rules R26 and R29). -/
  outValid   : Bool
  /-- `BUF_LEN` (rule R24). -/
  bufLen     : Word
  /-- `BR_BYTE` (rule R22). -/
  brByte     : Word
  /-- `BR_BIT` (rule R22). -/
  brBit      : BitVec 3
  /-- `BR_END` (rule R23). -/
  brEnd      : Word
  /-- BUF, the host's buffer (rule R45, 20_memory.md rule R60). -/
  buf        : Memory
  /-- `TABLE_OFS` (rule R30). -/
  tableOfs   : Word
  /-- `IMG_W` (rule R30). -/
  imgW       : BitVec 16
  /-- `IMG_H` (rule R30). -/
  imgH       : BitVec 16
  /-- `LEVEL_COUNT` (rule R30): a 5-bit register whose legal values are 0 to 16. -/
  levelCount : Fin 17
  /-- `FMT` (rule R30). -/
  fmt        : BitVec 8
  /-- `LVL_OFS[0 .. 15]` (rule R30). -/
  lvlOfs     : Vector Word 16
  /-- `LVL_SIZE[0 .. 15]` (rule R30). -/
  lvlSize    : Vector Word 16
  /-- `DA[0 .. 16382]` (rule R31): the entries written since reset. -/
  da         : Store (BitVec 5)
  /-- `NSYM` (rule R32). -/
  nsym       : BitVec 14
  /-- `OFS` (rule R33). -/
  ofs        : BitVec 14
  /-- `LASTNZ` (rule R34). -/
  lastnz     : BitVec 5
  /-- `TD[0 .. 20]` (rule R38): the entries written since reset, each below `2^P_TMPDEPTH_W`. -/
  td         : Store Nat
  /-- `T[0]` (rules R35 and R36). -/
  t0         : Slot
  /-- `T[1]` (rules R35 and R36). -/
  t1         : Slot
  /-- `T[2]` (rules R35 and R36). -/
  tmp        : Slot
  /-- `LI_W` (rule R39). -/
  liW        : BitVec 16
  /-- `LI_H` (rule R39). -/
  liH        : BitVec 16
  /-- `EXP_LEN` (rule R40). -/
  expLen     : BitVec 33
  /-- `OUT_LEN` (rule R41). -/
  outLen     : BitVec 33
  /-- OUT, the output store (rule R41). -/
  out        : Memory
  /-- `EXPCTX` (rule R42), coded as a number (log entry 9). -/
  expCtx     : Nat
  /-- `TR_STATE` (rule R43). -/
  trState    : TrState
  /-- `TR_K` (rule R43). -/
  trK        : BitVec 5
  /-- `TR_SYMREG` (rule R43). -/
  trSymReg   : BitVec 5
  /-- `TR_RUN` (rule R43). -/
  trRun      : BitVec 8
  /-- `TR_FILLV` (rule R43). -/
  trFillV    : BitVec 5
  /-- The model's own: the record of `GETTAB` that is being read (log entry 4). -/
  gtPhase    : GtPhase
  /-- `UP_STATE` (rule R43). -/
  upState    : UpState
  /-- `IDX` (rule R44). -/
  idx        : Word
  /-- `T_SEL` (rule R44): a 2-bit register whose legal values are 0, 1 and 2. -/
  tSel       : SlotId
  /-- The model's own: what the host will do, first action first (log entry 1). -/
  inputs     : List HostAction
  /-- The model's own: the value the last host read returned (log entry 1). -/
  busData    : Word
  /-- The model's own: how many unspecified values host reads have returned (log entry 6). -/
  freeCount  : Nat
  /-- The model's own: how many times reset was applied (log entry 6). -/
  epoch      : Nat
  deriving DecidableEq, Repr

/-- The state right after reset (rule R47, 70_reset_and_hazards.md rule R240), of a core with the default parameters. -/
def State.reset : State :=
  { cfg := Config.standard
    cmd := 0, arg0 := 0, arg1 := 0, res := 0
    run := .idle, err := none, errOp := 0, outValid := false
    bufLen := 0, brByte := 0, brBit := 0, brEnd := 0, buf := []
    tableOfs := 0, imgW := 0, imgH := 0, levelCount := 0, fmt := 0
    lvlOfs := Vector.replicate 16 0, lvlSize := Vector.replicate 16 0
    da := [], nsym := 0, ofs := 0, lastnz := 0, td := []
    t0 := Slot.blank, t1 := Slot.blank, tmp := Slot.blank
    liW := 0, liH := 0, expLen := 0, outLen := 0, out := []
    expCtx := 0
    trState := .idle, trK := 0, trSymReg := 0, trRun := 0, trFillV := 0, gtPhase := .start, upState := .idle
    idx := 0, tSel := .t0
    inputs := [], busData := 0, freeCount := 0, epoch := 0 }

/-- Why the machine stops. None of these is an error of the spec (those are states of the machine, rule R214). -/
inductive Fault where
  /-- Raised by `readBit` (Ops.lean) when the core would read BUF at an index at or beyond `BUF_LEN`, which the spec says
  never happens (20_memory.md rule R66). Safe: no state that meets the model's invariant raises it. -/
  | bufOutOfRange
  /-- Raised by the loops of `TREAD` and `UNPACK` (TableReader.lean, LevelUnpacker.lean) when the bound on their number of
  iterations (70_reset_and_hazards.md rule R252) is used up. Safe: no state raises it. -/
  | loopBound
  /-- Raised by the state machines (Fsm.lean) in a state for which the tables of rules R164 and R191 have no arrow.
  Safe: no state that meets the model's invariant raises it. -/
  | noTransition
  deriving DecidableEq, Repr

/-- Why the model gives no outcome. -/
inductive Refusal where
  /-- Answered by `exec` for an instruction that has no meaning yet (none at present). Safe. -/
  | notModelled (mnemonic : String)
  /-- Answered by `exec` for a command while `STATE = BUSY`: a hazard violation whose effect is unspecified, to be refused
  (70_reset_and_hazards.md rule R245, 93_implementation_defined.md U8). Safe, and `step` never asks for it: a host
  write waits until the core is not busy. -/
  | commandWhileBusy
  /-- Answered by `exec` for a temporary-tree symbol where no table reader is at step 4 with entries still to be
  produced: the spec dispatches on symbols nowhere else (42_table_reader.md rule R155). Safe, and `step` never asks
  for it. -/
  | symbolNotDispatched
  deriving DecidableEq, Repr

/-- What a step, a meaning or a host action answers. -/
abbrev Out := Host.Outcome State Fault Refusal

end Sys2Proof.Machine
end

