-- ==== Sys2Proof/Machine/Ops.lean ====
section
/-! DEFINITION. The named operations over memory and registers: the stores, the result of an internal operation, raising
an error and clearing it (60_exceptions.md), launching and ending a command (30_encoding.md rule R80), the decoder slots,
the cursor and `ReadBits` (40_bitreader.md rule R112), `DA`, `TD` and OUT. -/

namespace Sys2Proof.Machine

/-! ### Stores -/

/-- The cell at an index, if there is one. -/
def Store.find {α : Type} : Store α → Nat → Option α
  | [], _ => none
  | (k, v) :: rest, a => if k = a then some v else Store.find rest a

/-- Write one cell; the indexes stay strictly rising. -/
def Store.put {α : Type} : Store α → Nat → α → Store α
  | [], a, v => [(a, v)]
  | (k, w) :: rest, a, v =>
    if a < k then (a, v) :: (k, w) :: rest
    else if a = k then (a, v) :: rest
    else (k, w) :: Store.put rest a v

/-- Remove one cell. -/
def Store.drop {α : Type} : Store α → Nat → Store α
  | [], _ => []
  | (k, w) :: rest, a => if k = a then rest else (k, w) :: Store.drop rest a

/-- Every index of the store is above a. -/
def Store.above {α : Type} (a : Nat) : Store α → Bool
  | [] => true
  | (k, _) :: rest => decide (a < k) && Store.above k rest

/-- The canonical form of a store: indexes strictly rising. -/
def Store.sorted {α : Type} : Store α → Bool
  | [] => true
  | (k, _) :: rest => Store.above k rest

/-- Write the values of a list to consecutive indexes. -/
def Store.putRun {α : Type} (m : Store α) (a : Nat) : Nat → α → Store α
  | 0, _ => m
  | n + 1, v => Store.putRun (Store.put m a v) (a + 1) n v

/-- What an unlisted address of BUF or OUT reads as (log entry 5). -/
def unlistedByte : Byte := 0

/-- The byte at an address. -/
def Memory.read (m : Memory) (a : Nat) : Byte := (Store.find m a).getD unlistedByte

/-- Write one byte; the memory keeps its canonical form. -/
def Memory.write (m : Memory) (a : Nat) (b : Byte) : Memory :=
  if b = unlistedByte then Store.drop m a else Store.put m a b

/-- The canonical form of a byte memory. -/
def Memory.wf (m : Memory) : Bool := Store.sorted m && m.all fun c => c.2 != unlistedByte

/-! ### The result of an internal operation -/

/-- Why an internal operation ended the command: a `raise` of the spec (00_scope.md rule R10), or a stop of the model. -/
inductive Stop where
  | raise (e : ErrorKind)
  | fault (f : Fault)
  deriving DecidableEq, Repr

/-- What an internal operation answers: a value and the state after it, or the state at the point of failure. Errors are
precise (60_exceptions.md rule R215): the state of a failure holds every effect before it and none after. -/
inductive Res (α : Type) where
  | ok (a : α) (s : State)
  | stop (x : Stop) (s : State)

/-- Rule R11 of 00_scope.md: what follows runs after what stands before. -/
def Res.bind {α β : Type} (r : Res α) (f : α → State → Res β) : Res β :=
  match r with
  | .ok a s => f a s
  | .stop x s => .stop x s

/-- `raise E` inside an operation (00_scope.md rule R10). -/
def raise {α : Type} (e : ErrorKind) (s : State) : Res α := .stop (.raise e) s

/-- `try X on E1 => raise E2` (00_scope.md rule R10). -/
def Res.renaming {α : Type} (r : Res α) (e1 e2 : ErrorKind) : Res α :=
  match r with
  | .stop (.raise e) s => if e = e1 then raise e2 s else .stop (.raise e) s
  | r => r

/-- `try X on any error E => f; raise E` (rules R166 and R184). -/
def Res.onError {α : Type} (r : Res α) (f : State → State) : Res α :=
  match r with
  | .stop (.raise e) s => .stop (.raise e) (f s)
  | r => r

/-! ### Errors, launch and completion -/

/-- The error code of rule R211. -/
def ErrorKind.code : ErrorKind → Nat
  | .badMagic => 1
  | .truncatedHeader => 2
  | .unsupportedFormat => 3
  | .offsetOutOfRange => 4
  | .unexpectedEnd => 5
  | .invalidDepths => 6
  | .corruptStream => 7
  | .depthArrayOverrun => 8
  | .depthArrayUnderrun => 9
  | .levelIndexOutOfRange => 10
  | .levelSizeMismatch => 11
  | .illegalCommand => 12

/-- Taking an error (60_exceptions.md rule R214): `ERR`, `ERR_OP`, `STATE`, `TR_STATE` and `UP_STATE` are written in one
action and control goes nowhere. `op` is the opcode byte of the command, or 0 for a host write (rule R229). -/
def State.raiseError (s : State) (op : BitVec 8) (e : ErrorKind) : State :=
  { s with err := some e, errOp := op, run := .error, trState := .idle, upState := .idle, gtPhase := .start }

/-- The return from an error (44_system.md rule R201, 60_exceptions.md rule R226): it restores nothing. -/
def State.clearError (s : State) : State := { s with err := none, errOp := 0, run := .idle }

/-- A command that ends without error (10_state.md rule R27): `BUSY -> IDLE`, and the machines of rule R43 are idle. -/
def State.complete (s : State) : State :=
  { s with run := .idle, trState := .idle, upState := .idle, gtPhase := .start }

/-- The end of a command: completion, or the error raised, with the opcode byte of the command word in `CMD`. -/
def finish (r : Res Unit) : Out :=
  match r with
  | .ok _ s => .next s.complete
  | .stop (.raise e) s => .next (s.raiseError (opByte s.cmd) e)
  | .stop (.fault f) _ => .fault f

/-- The host writes a legal command word w (30_encoding.md rule R80): in `IDLE` the word is kept in `CMD`, `STATE` becomes
`BUSY` and the command runs to its end as one transition (70_reset_and_hazards.md rule R246); in `ERROR` the write is
refused without effect (60_exceptions.md rule R217); in `BUSY` it is a hazard violation. A legal word stays in `CMD` also
where its body raises `IllegalCommand` for an invalid slot: DEDUCED, log entry 20. -/
def launch (w : Word) (body : State → Res Unit) (s : State) : Out :=
  match s.run with
  | .idle => finish (body { s with cmd := w, run := .busy })
  | .error => .next s
  | .busy => .refused .commandWhileBusy

/-- The host writes an illegal command word with opcode byte op (30_encoding.md rule R84, 60_exceptions.md rule R229):
in `IDLE` it raises `IllegalCommand` and no other register changes. -/
def launchIllegal (op : BitVec 8) (s : State) : Out :=
  match s.run with
  | .idle => .next (s.raiseError op .illegalCommand)
  | .error => .next s
  | .busy => .refused .commandWhileBusy

/-! ### Decoder slots -/

/-- `T[t]` (00_scope.md rule R8). -/
def State.slot (s : State) : SlotId → Slot
  | .t0 => s.t0
  | .t1 => s.t1
  | .tmp => s.tmp

/-- Write `T[t]`. -/
def State.setSlot (s : State) (t : SlotId) (x : Slot) : State :=
  match t with
  | .t0 => { s with t0 := x }
  | .t1 => { s with t1 := x }
  | .tmp => { s with tmp := x }

/-- `T[t].VALID <- 0`; the other fields of the slot become unspecified. DESIGN CHOICE (log entry 6): they are kept, and nothing
reads them but an `EXPAND` that is handed `T[1]`. -/
def State.invalidate (s : State) (t : SlotId) : State := s.setSlot t { s.slot t with valid := false }

/-! ### The cursor and ReadBits -/

/-- `POS = 8 * BR_BYTE + BR_BIT` (10_state.md rule R22). -/
def State.pos (s : State) : Nat := 8 * s.brByte.toNat + s.brBit.toNat

/-- `REM = 8 * (BR_END - BR_BYTE) - BR_BIT` (10_state.md rule R23). -/
def State.rem (s : State) : Nat := 8 * (s.brEnd.toNat - s.brByte.toNat) - s.brBit.toNat

/-- Place the cursor at the first bit of byte off with the window limit fin (rule R111). -/
def State.seekTo (s : State) (off fin : Word) : State := { s with brByte := off, brBit := 0, brEnd := fin }

/-- One bit consumed (rule R112). -/
def State.advance (s : State) : State :=
  if s.brBit = 7 then { s with brBit := 0, brByte := s.brByte + 1 } else { s with brBit := s.brBit + 1 }

/-- The next bit of byte b when k of its bits are consumed (20_memory.md rule R61). -/
def bitOfByte (o : BitOrder) (b : Byte) (k : Nat) : Nat :=
  match o with
  | .msbFirst => (b.getLsbD (7 - k)).toNat
  | .lsbFirst => (b.getLsbD k).toNat

/-- The place of the k-th bit consumed (k = 0 first) in the result (20_memory.md rule R62). The bits of r lie below the
new one, so the `|` of rule R112 is a sum. -/
def joinBit (o : BitOrder) (r k b : Nat) : Nat :=
  match o with
  | .msbFirst => 2 * r + b
  | .lsbFirst => r + 2 ^ k * b

/-- One round of the loop of rule R112: `MemRead(BR_BYTE, 1)` (00_scope.md rule R9) and the bit at the cursor. -/
def readBit (s : State) : Res Nat :=
  if s.brByte.toNat < s.bufLen.toNat then
    .ok (bitOfByte s.cfg.bitOrder (Memory.read s.buf s.brByte.toNat) s.brBit.toNat) s.advance
  else .stop (.fault .bufOutOfRange) s

/-- The loop of rule R112: n bits still to consume, k consumed, r their value so far. -/
def readLoop : Nat → Nat → Nat → State → Res Nat
  | 0, _, r, s => .ok r s
  | n + 1, k, r, s => (readBit s).bind fun b s' => readLoop n (k + 1) (joinBit s.cfg.bitOrder r k b) s'

/-- `ReadBits(n)` (40_bitreader.md rule R112). -/
def readBits (n : Nat) (s : State) : Res Nat :=
  if s.rem < n then raise .unexpectedEnd s else readLoop n 0 0 s

/-! ### `DA`, `TD` and OUT -/

/-- `DA[i]` (10_state.md rule R31): what was last written, or an arbitrary value (93_implementation_defined.md U7). -/
def State.daRead (s : State) (i : Nat) : BitVec 5 := (Store.find s.da i).getD (Config.freeDepth s.epoch i)

/-- `TD[i]` (10_state.md rule R38): what was last written, or an arbitrary value of its width (U7). -/
def State.tdRead (s : State) (i : Nat) : Nat :=
  (Store.find s.td i).getD (Config.freeTmpDepth s.epoch i % 2 ^ s.cfg.tmpDepthW)

/-- The depth array `DA[0 .. NSYM - 1]` (10_state.md rule R32). -/
def State.daList (s : State) : List Nat := (List.range s.nsym.toNat).map fun i => (s.daRead i).toNat

/-- The temporary tree's depths `TD[0 .. 20]` (10_state.md rule R38). -/
def State.tdList (s : State) : List Nat := (List.range tmpNsym).map s.tdRead

/-- `OutAppend(b)` (00_scope.md rule R9). -/
def State.outAppend (s : State) (b : Byte) : State :=
  { s with out := Memory.write s.out s.outLen.toNat b, outLen := s.outLen + 1 }

/-- `for b in bs, in order: OutAppend(b)` (43_level_unpacker.md rule R184). -/
def State.outAppendAll (s : State) : List Byte → State
  | [] => s
  | b :: bs => (s.outAppend b).outAppendAll bs

end Sys2Proof.Machine
end

