-- ==== Sys2Proof/Machine/Operands.lean ====
section
/-! DEFINITION. Operand forms (30_encoding.md rule R83) as the meanings use them, and the operand of an escape symbol:
the parameter width, the bias and the kind of rule R89 and the run length of rule R90. -/

namespace Sys2Proof.Machine

/-- The slot of form T01 (rule R83): 0 is the main tree, 1 the auxiliary tree. -/
def slotOfT01 (t : BitVec 1) : SlotId := if t = 0 then .t0 else .t1

/-- The slot of form T012 (rule R83); 3 names no slot. -/
def slotOfT012 (t : BitVec 2) : Option SlotId :=
  if t = 0 then some .t0 else if t = 1 then some .t1 else if t = 2 then some .tmp else none

/-- The command word of an instruction, the word the host writes for it (rules R81 to R83); 0 for a symbol. -/
def wordOf (i : Instr) : Word :=
  match encode i with
  | .command w => w
  | .symbol _ => 0

/-- What an escape writes (42_table_reader.md rule R161). -/
inductive RunKind where
  | zeros
  | repeats
  deriving DecidableEq, Repr

/-- An escape of the temporary-tree alphabet (rule R89). -/
structure Escape where
  width : Nat
  bias  : Nat
  kind  : RunKind
  deriving DecidableEq, Repr

/-- `SHORTZERO` (rule R89): `P_SZ_W` = 3. -/
def shortZero (c : Config) : Escape := { width := 3, bias := c.szBias, kind := .zeros }

/-- `LONGZERO` (rule R89): `P_LZ_W` = 7. -/
def longZero (c : Config) : Escape := { width := 7, bias := c.lzBias, kind := .zeros }

/-- `SHORTREPEAT` (rule R89): `P_SR_W` = 2. -/
def shortRepeat (c : Config) : Escape := { width := 2, bias := c.srBias, kind := .repeats }

/-- `LONGREPEAT` (rule R89): `P_LR_W` = 6. -/
def longRepeat (c : Config) : Escape := { width := 6, bias := c.lrBias, kind := .repeats }

/-- The escape of a symbol index (rule R89). -/
def escapeOf (c : Config) (sym : Nat) : Option Escape :=
  match sym with
  | 17 => some (shortZero c)
  | 18 => some (longZero c)
  | 19 => some (shortRepeat c)
  | 20 => some (longRepeat c)
  | _ => none

/-- Rule R90: the run length is the parameter plus the bias. -/
def Escape.runLength (e : Escape) (p : Nat) : Nat := p + e.bias

/-- The value an escape writes (rule R161): 0, or `LASTNZ`. -/
def Escape.value (e : Escape) (s : State) : BitVec 5 :=
  match e.kind with
  | .zeros => 0
  | .repeats => s.lastnz

end Sys2Proof.Machine
end

