-- ==== Sys2Proof/Machine/BitReader.lean ====
section
/-! DEFINITION. `SEEK`, `RDBITS` and `ALIGN` (40_bitreader.md). -/

namespace Sys2Proof.Machine

/-- The body of `SEEK` (rule R111). -/
def seekBody (s : State) : Res Unit :=
  if s.bufLen.toNat < s.arg1.toNat ∨ s.arg1.toNat < s.arg0.toNat then raise .offsetOutOfRange s
  else .ok () (s.seekTo s.arg0 s.arg1)

/-- `SEEK` (rule R111). -/
def execSeek (s : State) : Out := launch (wordOf .seek) seekBody s

/-- The body of `RDBITS n` (rule R113). -/
def rdbitsBody (n : Nat) (s : State) : Res Unit :=
  (readBits n s).bind fun v s' => .ok () { s' with res := zext32 v }

/-- `RDBITS n` (rule R113); an operand above 32 is an illegal command word (30_encoding.md rule R84). -/
def execRdbits (n : BitVec 6) (s : State) : Out :=
  if legalBitCount n then launch (wordOf (.rdbits n)) (rdbitsBody n.toNat) s
  else launchIllegal (opByte (wordOf (.rdbits n))) s

/-- The body of `ALIGN` (rule R114). -/
def alignBody (s : State) : Res Unit :=
  if s.brBit = 0 then .ok () s else .ok () { s with brBit := 0, brByte := s.brByte + 1 }

/-- `ALIGN` (rule R114). -/
def execAlign (s : State) : Out := launch (wordOf .align) alignBody s

end Sys2Proof.Machine
end

