-- ==== Sys2Proof/Machine/Flags.lean ====
section
/-! DEFINITION. The flags: `STATE`, the validity flags, `OUT_VALID`, `ERR` and `ERR_OP`, and the register `STATUS` in
which the host reads them (10_state.md rules R26 to R29). -/

namespace Sys2Proof.Machine

/-- The field `STATE` (rule R26). -/
def RunState.code : RunState → Nat
  | .idle => 0
  | .busy => 1
  | .error => 2

/-- The field `ERR` (rule R26): 0 for none. -/
def errCode (e : Option ErrorKind) : Nat :=
  match e with
  | none => 0
  | some k => k.code

/-- A flag as a bit. -/
def flagBit (b : Bool) : Nat := if b then 1 else 0

/-- The register `STATUS` (rule R26); bits not listed read 0. -/
def State.status (s : State) : Word :=
  BitVec.ofNat 32 (s.run.code + 2 ^ 4 * flagBit s.t0.valid + 2 ^ 5 * flagBit s.t1.valid + 2 ^ 6 * flagBit s.tmp.valid
    + 2 ^ 7 * flagBit s.outValid + 2 ^ 8 * errCode s.err + 2 ^ 12 * s.errOp.toNat)

/-- `STATUS` while `STATE = BUSY`: only `STATE` is specified (70_reset_and_hazards.md rule R247); the rest is free. -/
def busyStatus (free : Word) : Word := (free &&& 0xFFFFFFFC) ||| 1

end Sys2Proof.Machine
end

