-- ==== Sys2Proof/Machine/Huffman.lean ====
section
/-! DEFINITION. The canonical Huffman builder and decoder, `HBUILD` and `HDEC` (41_huffman.md). A depth array is a list
of numbers, one per symbol. -/

namespace Sys2Proof.Machine

/-- The depth of symbol x in the depth array d. -/
def depthAt (d : List Nat) (x : Nat) : Nat := d.getD x 0

/-- `Check(d, n)` does not raise (rule R132): the alphabet is not empty, no depth is above 16, some symbol is used. -/
def checkDepths (d : List Nat) : Bool :=
  !d.isEmpty && d.all (fun x => decide (x ≤ maxDepth)) && d.any (fun x => decide (x ≠ 0))

/-- The order of rule R133: depth ascending, then symbol ascending. -/
abbrev symbolBefore (d : List Nat) (x y : Nat) : Prop :=
  depthAt d x < depthAt d y ∨ depthAt d x = depthAt d y ∧ x ≤ y

/-- The symbols of nonzero depth, ascending. -/
def usedSymbols (d : List Nat) : List Nat := (List.range d.length).filter fun x => decide (depthAt d x ≠ 0)

/-- Put a symbol into a list that is in the order of rule R133. -/
def insertSymbol (d : List Nat) (x : Nat) : List Nat → List Nat
  | [] => [x]
  | y :: ys =>
    if symbolBefore d x y then x :: y :: ys else y :: insertSymbol d x ys

/-- `SortUsed(d, n)` (rule R133). -/
def sortUsed (d : List Nat) : List Nat := (usedSymbols d).foldr (insertSymbol d) []

/-- `K` of rule R134, the Kraft sum in units of 2^-16. -/
def kraftSum (d : List Nat) (u : List Nat) : Nat := (u.map fun x => 2 ^ (16 - depthAt d x)).sum

/-- The loop of `Assign(d, U)` (rule R133): the codes of the symbols that are left, or `none` where a code overflows its
width. -/
def assignLoop (d : List Nat) : List Nat → Nat → Nat → Option (List (Nat × Nat))
  | [], _, _ => some []
  | x :: xs, code, prev =>
    let c := code * 2 ^ (depthAt d x - prev)
    if 2 ^ depthAt d x ≤ c then none
    else (assignLoop d xs (c + 1) (depthAt d x)).map fun rest => (x, c) :: rest

/-- `Assign(d, U)` (rule R133). -/
def assign (d : List Nat) (u : List Nat) : Option (List (Nat × Nat)) := assignLoop d u 0 (depthAt d (u.headD 0))

/-- The slot that `Build` commits (rule R131). -/
def builtSlot (d : List Nat) (u : List Nat) (c : List (Nat × Nat)) : Slot :=
  { valid := true
    ns := BitVec.ofNat 14 d.length
    depth := d.map (BitVec.ofNat 5)
    code := (List.range d.length).map fun x => BitVec.ofNat 16 ((Store.find c x).getD 0)
    maxlen := BitVec.ofNat 5 (depthAt d (u.getLastD 0)) }

/-- `Build(t, d, n)` without the state (rule R131): the slot built, or `none` where it raises `InvalidDepths`. -/
def buildSlot (d : List Nat) : Option Slot :=
  if checkDepths d then
    if 2 ^ 16 < kraftSum d (sortUsed d) then none
    else (assign d (sortUsed d)).map fun c => builtSlot d (sortUsed d) c
  else none

/-- `Build(t, d, n)` (rule R131); a failed build leaves the slot invalid. -/
def build (t : SlotId) (d : List Nat) (s : State) : Res Unit :=
  match buildSlot d with
  | none => raise .invalidDepths (s.invalidate t)
  | some x => .ok () (s.setSlot t x)

/-- The body of `HBUILD t` (rule R135). -/
def hbuildBody (t : SlotId) (s : State) : Res Unit := build t s.daList s

/-- `HBUILD t` (rule R135). -/
def execHbuild (t : BitVec 1) (s : State) : Out := launch (wordOf (.hbuild t)) (hbuildBody (slotOfT01 t)) s

/-- `T[t].DEPTH[x]`, as a number. -/
def Slot.depthOf (sl : Slot) (x : Nat) : Nat := (sl.depth.getD x 0).toNat

/-- `T[t].CODE[x]`, as a number. -/
def Slot.codeOf (sl : Slot) (x : Nat) : Nat := (sl.code.getD x 0).toNat

/-- `Lookup(t, len, cand)` (rule R136). -/
def Slot.lookup (sl : Slot) (len cand : Nat) : Option Nat :=
  (List.range sl.ns.toNat).find? fun x => decide (sl.depthOf x = len) && decide (sl.codeOf x = cand)

/-- The loop of `Decode(t)` (rule R137): at most n more bits may be read, len are read and their value is cand. -/
def decodeLoop (t : SlotId) : Nat → Nat → Nat → State → Res Nat
  | 0, _, _, s => raise .corruptStream s
  | n + 1, len, cand, s =>
    (readBits 1 s).bind fun b s' =>
      match (s'.slot t).lookup (len + 1) (2 * cand + b) with
      | some x => .ok x s'
      | none => decodeLoop t n (len + 1) (2 * cand + b) s'

/-- `Decode(t)` (rule R137). -/
def decodeSym (t : SlotId) (s : State) : Res Nat := decodeLoop t (s.slot t).maxlen.toNat 0 0 s

/-- The body of `HDEC t` (rule R138). -/
def hdecBody (t : SlotId) (s : State) : Res Unit :=
  if (s.slot t).valid then (decodeSym t s).bind fun x s' => .ok () { s' with res := zext32 x }
  else raise .illegalCommand s

/-- `HDEC t` (rule R138); t = 3 is an illegal command word (30_encoding.md rule R84). -/
def execHdec (t : BitVec 2) (s : State) : Out :=
  match slotOfT012 t with
  | some x => launch (wordOf (.hdec t)) (hdecBody x) s
  | none => launchIllegal (opByte (wordOf (.hdec t))) s

end Sys2Proof.Machine
end

