-- ==== Sys2Proof/Machine/TableReader.lean ====
section
/-! DEFINITION. The Huffman table reader: `TREAD`, `GETTAB` and the 21 symbols of the temporary-tree alphabet
(42_table_reader.md). -/

namespace Sys2Proof.Machine

/-! ### Steps 1 to 3 of a record -/

/-- The first line of `TReadBody(t)` (rule R151). -/
def beginRecord (t : SlotId) (s : State) : State :=
  { (s.invalidate t).invalidate .tmp with ofs := 0, lastnz := 0 }

/-- `ReadCount()` (rule R152). -/
def readCount (s : State) : Res Unit :=
  (readBits 14 s).bind fun n s' =>
    let s'' := { s' with nsym := BitVec.ofNat 14 n }
    if n = 0 then raise .invalidDepths s'' else .ok () s''

/-- `TD[P_TMP_ORDER[k]] <- ReadBits(P_TMPDEPTH_W)` (rule R153); x is `P_TMP_ORDER[k]`. -/
def readTmpDepth (x : Nat) (s : State) : Res Unit :=
  (readBits s.cfg.tmpDepthW s).bind fun v s' => .ok () { s' with td := Store.put s'.td x v }

/-- The loop of `ReadTmpDepths()` (rules R153 and R168) over the symbols of the fields that are left. -/
def readTmpFields : List Nat → State → Res Unit
  | [], s => .ok () s
  | x :: xs, s => (readTmpDepth x s).bind fun _ s' => readTmpFields xs s'

/-- `for s <- 0 to 20: TD[s] <- 0` (rule R168). -/
def clearTmpDepths (s : State) : State := { s with td := Store.putRun s.td 0 tmpNsym 0 }

/-- `ReadTmpDepths()`: rule R153, or the variant of rule R168 where `P_TMPCOUNT_W` is not 0. -/
def readTmpDepths (s : State) : Res Unit :=
  if s.cfg.tmpCountW = 0 then readTmpFields tmpOrder s
  else
    (readBits s.cfg.tmpCountW (clearTmpDepths s)).bind fun c s' =>
      if c = 0 ∨ tmpNsym < c then raise .invalidDepths s' else readTmpFields (tmpOrder.take c) s'

/-- Step 3 (rule R154): `Build(2, TD, 21)`. -/
def buildTmp (s : State) : Res Unit := build .tmp s.tdList s

/-! ### The 21 symbols -/

/-- `Lit(v)` (rule R156), where `OFS < NSYM`. -/
def lit (v : Nat) (s : State) : Res Unit :=
  .ok () { s with da := Store.put s.da s.ofs.toNat (BitVec.ofNat 5 v)
                  ofs := s.ofs + 1
                  lastnz := if v = 0 then s.lastnz else BitVec.ofNat 5 v }

/-- The parameter of an escape and the two tests of rule R161, in the order of 92_eei_decisions.md D10: the run length. -/
def readRun (e : Escape) (s : State) : Res Nat :=
  ((readBits e.width s).renaming .unexpectedEnd .depthArrayUnderrun).bind fun p s' =>
    if e.kind = .repeats ∧ s'.lastnz = 0 then raise .corruptStream s'
    else if s'.nsym.toNat - s'.ofs.toNat < e.runLength p then raise .depthArrayOverrun s'
    else .ok (e.runLength p) s'

/-- `FillRun(w, bias, kind)` (rule R161). -/
def fillRun (e : Escape) (s : State) : Res Unit :=
  (readRun e s).bind fun run s' =>
    .ok () { s' with da := Store.putRun s'.da s'.ofs.toNat run (e.value s'), ofs := s'.ofs + BitVec.ofNat 14 run }

/-- The dispatch of step 4 (rule R155) on a symbol index. -/
def dispatchSymbol (x : Nat) (s : State) : Res Unit :=
  match escapeOf s.cfg x with
  | some e => fillRun e s
  | none => lit x s

/-- `s <- try Decode(2) on UnexpectedEnd => raise DepthArrayUnderrun` (rules R151 and R155). -/
def fetchSymbol (s : State) : Res Nat := (decodeSym .tmp s).renaming .unexpectedEnd .depthArrayUnderrun

/-- Step 4 (rule R155). Every round consumes at least one bit, so n = `REM` + 1 rounds are enough (rule R165). -/
def depthLoop : Nat → State → Res Unit
  | 0, s => .stop (.fault .loopBound) s
  | n + 1, s =>
    if s.ofs.toNat < s.nsym.toNat then
      (fetchSymbol s).bind fun x s' => (dispatchSymbol x s').bind fun _ s'' => depthLoop n s''
    else .ok () s

/-! ### `TREAD` and `GETTAB` -/

/-- Steps 1 to 3 of a record (rules R152 to R154). -/
def readHeader (s : State) : Res Unit :=
  (readCount s).bind fun _ s1 => (readTmpDepths s1).bind fun _ s2 => buildTmp s2

/-- Step 4 with its bound (rule R155). -/
def readDepths (s : State) : Res Unit := depthLoop (s.rem + 1) s

/-- `TReadBody(t)` (rule R151). -/
def treadBody (t : SlotId) (s : State) : Res Unit :=
  (readHeader (beginRecord t s)).bind fun _ s1 => (readDepths s1).bind fun _ s2 => build t s2.daList s2

/-- `TREAD t` (rule R151). -/
def execTread (t : BitVec 1) (s : State) : Out := launch (wordOf (.tread t)) (treadBody (slotOfT01 t)) s

/-- The lines of `GETTAB` before the first record (rule R166). -/
def gettabSeek (s : State) : Res Unit :=
  let s' := (s.invalidate .t0).invalidate .t1
  if s.bufLen.toNat < s.tableOfs.toNat then raise .offsetOutOfRange s' else .ok () (s'.seekTo s.tableOfs s.bufLen)

/-- The body of `GETTAB` (rule R166). -/
def gettabBody (s : State) : Res Unit :=
  (gettabSeek s).bind fun _ s1 => (treadBody .t0 s1).bind fun _ s2 =>
    (treadBody .t1 s2).onError fun s3 => s3.invalidate .t0

/-- `GETTAB` (rule R166). -/
def execGettab (s : State) : Out := launch (wordOf .gettab) gettabBody s

/-! ### The symbols as instructions -/

/-- What an error undoes of the command in `CMD`: `GETTAB` invalidates `T[0]` (rule R166), `UNPACK` empties OUT
(43_level_unpacker.md rules R184 and R191). -/
def undoOnError (s : State) : State :=
  if opByte s.cmd = 0x07 then s.invalidate .t0
  else if opByte s.cmd = 0x09 then { s with outLen := 0 }
  else s

/-- An error in the middle of the command in `CMD` (rules R164 and R191, 60_exceptions.md rule R214). -/
def failCommand (e : ErrorKind) (s : State) : Out := .next ((undoOnError s).raiseError (opByte s.cmd) e)

/-- The end of a symbol (rule R155): the reader stays at step 4, or the command ends with an error. -/
def endSymbol (r : Res Unit) : Out :=
  match r with
  | .ok _ s => .next s
  | .stop (.raise e) s => failCommand e s
  | .stop (.fault f) _ => .fault f

/-- One symbol of a running table reader (rule R155): step 4, with entries still to be produced. -/
def runSymbol (body : State → Res Unit) (s : State) : Out :=
  if s.run = .busy ∧ s.trState = .sym ∧ s.ofs.toNat < s.nsym.toNat then endSymbol (body s)
  else .refused .symbolNotDispatched

/-- `LIT0` (rule R156). -/
def execLit0 (s : State) : Out := runSymbol (lit 0) s

/-- `LIT1` (rule R156). -/
def execLit1 (s : State) : Out := runSymbol (lit 1) s

/-- `LIT2` (rule R156). -/
def execLit2 (s : State) : Out := runSymbol (lit 2) s

/-- `LIT3` (rule R156). -/
def execLit3 (s : State) : Out := runSymbol (lit 3) s

/-- `LIT4` (rule R156). -/
def execLit4 (s : State) : Out := runSymbol (lit 4) s

/-- `LIT5` (rule R156). -/
def execLit5 (s : State) : Out := runSymbol (lit 5) s

/-- `LIT6` (rule R156). -/
def execLit6 (s : State) : Out := runSymbol (lit 6) s

/-- `LIT7` (rule R156). -/
def execLit7 (s : State) : Out := runSymbol (lit 7) s

/-- `LIT8` (rule R156). -/
def execLit8 (s : State) : Out := runSymbol (lit 8) s

/-- `LIT9` (rule R156). -/
def execLit9 (s : State) : Out := runSymbol (lit 9) s

/-- `LIT10` (rule R156). -/
def execLit10 (s : State) : Out := runSymbol (lit 10) s

/-- `LIT11` (rule R156). -/
def execLit11 (s : State) : Out := runSymbol (lit 11) s

/-- `LIT12` (rule R156). -/
def execLit12 (s : State) : Out := runSymbol (lit 12) s

/-- `LIT13` (rule R156). -/
def execLit13 (s : State) : Out := runSymbol (lit 13) s

/-- `LIT14` (rule R156). -/
def execLit14 (s : State) : Out := runSymbol (lit 14) s

/-- `LIT15` (rule R156). -/
def execLit15 (s : State) : Out := runSymbol (lit 15) s

/-- `LIT16` (rule R156). -/
def execLit16 (s : State) : Out := runSymbol (lit 16) s

/-- `SHORTZERO` (rule R157). -/
def execShortzero (s : State) : Out := runSymbol (fillRun (shortZero s.cfg)) s

/-- `LONGZERO` (rule R158). -/
def execLongzero (s : State) : Out := runSymbol (fillRun (longZero s.cfg)) s

/-- `SHORTREPEAT` (rule R159). -/
def execShortrepeat (s : State) : Out := runSymbol (fillRun (shortRepeat s.cfg)) s

/-- `LONGREPEAT` (rule R160). -/
def execLongrepeat (s : State) : Out := runSymbol (fillRun (longRepeat s.cfg)) s

end Sys2Proof.Machine
end

