-- ==== Sys2Proof/Machine/LevelUnpacker.lean ====
section
/-! DEFINITION. The level unpacker: `LVLINFO` and `UNPACK` (43_level_unpacker.md). -/

namespace Sys2Proof.Machine

/-! ### Dimensions and lengths -/

/-- One dimension at level i (rule R181). -/
def levelDim (d i : Nat) : Nat := max 1 (d >>> i)

/-- `LevelDims(i)` (rule R181): the two dimensions, or `none` where it raises `LevelIndexOutOfRange`. -/
def levelDims (s : State) (i : Nat) : Option (Nat × Nat) :=
  if s.levelCount.val ≤ i then none else some (levelDim s.imgW.toNat i, levelDim s.imgH.toNat i)

/-- `ExpLen(w, h, fmt)` (rule R182) for a format of b bytes a block. -/
def expLenOf (w h b : Nat) : Nat := ceilDiv4 w * ceilDiv4 h * b

/-- `LVL_OFS[i]`; i is below `LEVEL_COUNT <= 16` where it is used. -/
def State.levelOfs (s : State) (i : Nat) : Word := s.lvlOfs[i]?.getD 0

/-- `LVL_SIZE[i]`; i is below `LEVEL_COUNT <= 16` where it is used. -/
def State.levelSize (s : State) (i : Nat) : Word := s.lvlSize[i]?.getD 0

/-- The body of `LVLINFO i` (rule R181). -/
def lvlinfoBody (i : Nat) (s : State) : Res Unit :=
  match levelDims s i with
  | none => raise .levelIndexOutOfRange s
  | some (w, h) => .ok () { s with liW := BitVec.ofNat 16 w, liH := BitVec.ofNat 16 h }

/-- `LVLINFO i` (rule R181). -/
def execLvlinfo (i : BitVec 8) (s : State) : Out := launch (wordOf (.lvlinfo i)) (lvlinfoBody i.toNat) s

/-! ### The expansion parameter -/

/-- One call of `EXPAND` (rule R186): it consumes bits on the core's own cursor, and `ExpandError` becomes
`CorruptStream` (rule R189). DESIGN CHOICE (log entry 9): a call that fails leaves `EXPCTX` as it was, since a new context
comes with the bytes that are returned. -/
def runExpand {aux : Bool} : ExpandProg aux → State → Res (List Byte)
  | .done bs ctx, s => .ok bs { s with expCtx := ctx }
  | .expandError, s => raise .corruptStream s
  | .readBits n k, s => (readBits n.val s).bind fun v s' => runExpand (k v) s'
  | .decodeMain k, s => (decodeSym .t0 s).bind fun x s' => runExpand (k x) s'
  | .decodeAux _ k, s => (decodeSym .t1 s).bind fun x s' => runExpand (k x) s'

/-- `bs <- try EXPAND(FMT, s) on ExpandError => raise CorruptStream` (rule R184) for the decoded symbol x.
DESIGN CHOICE (log entry 6): where `EXPAND_USES_AUX` does not hold `T[1]` may be invalid, and the call then sees the fields
that the invalid slot has kept. -/
def expandSym (x : Nat) (s : State) : Res (List Byte) :=
  match s.cfg.expand with
  | .literal => runExpand (literalExpand x s.expCtx) s
  | .other id aux _ => runExpand (Config.openExpand id aux s.fmt.toNat x s.expCtx s.t0 s.t1) s

/-! ### `UNPACK` -/

/-- The first line of `UNPACK i` (rule R184). -/
def beginUnpack (s : State) : State := { s with outValid := false, outLen := 0 }

/-- The four pre-checks of rule R184 in their order, and `LI_W`, `LI_H` and `EXP_LEN`. -/
def unpackCheck (i : Nat) (s : State) : Res Unit :=
  match levelDims s i with
  | none => raise .levelIndexOutOfRange s
  | some (w, h) =>
    match blockBytes s.fmt.toNat with
    | none => raise .unsupportedFormat s
    | some b =>
      if s.t0.valid = false ∨ s.cfg.expand.usesAux = true ∧ s.t1.valid = false then raise .illegalCommand s
      else if s.bufLen.toNat < (s.levelOfs i).toNat + (s.levelSize i).toNat then raise .offsetOutOfRange s
      else .ok () { s with liW := BitVec.ofNat 16 w
                           liH := BitVec.ofNat 16 h
                           expLen := BitVec.ofNat 33 (expLenOf w h b) }

/-- The cursor at the level window, and `EXPCTX <- EXPCTX0` (rules R183 and R184). -/
def unpackSeek (i : Nat) (s : State) : State :=
  { s.seekTo (s.levelOfs i) (s.levelOfs i + s.levelSize i) with expCtx := s.cfg.expand.ctx0 }

/-- One round of the loop up to the decoded symbol (rules R184 and R188). -/
def unpackDecode (s : State) : Res Nat :=
  if s.rem = 0 then raise .levelSizeMismatch s else decodeSym .t0 s

/-- The expansion of a symbol and the "more bytes" test (rules R184 and R188). -/
def unpackExpand (x : Nat) (s : State) : Res (List Byte) :=
  (expandSym x s).bind fun bs s' =>
    if s'.expLen.toNat < s'.outLen.toNat + bs.length then raise .levelSizeMismatch s' else .ok bs s'

/-- The loop of rule R185. Every round consumes at least one bit, so n = `REM` + 1 rounds are enough. -/
def unpackLoop : Nat → State → Res Unit
  | 0, s => .stop (.fault .loopBound) s
  | n + 1, s =>
    if s.outLen.toNat < s.expLen.toNat then
      (unpackDecode s).bind fun x s1 => (unpackExpand x s1).bind fun bs s2 => unpackLoop n (s2.outAppendAll bs)
    else .ok () s

/-- `UnpackBody(i)` (rule R184). -/
def unpackInner (i : Nat) (s : State) : Res Unit :=
  (unpackCheck i s).bind fun _ s1 => unpackLoop ((unpackSeek i s1).rem + 1) (unpackSeek i s1)

/-- The body of `UNPACK i` (rule R184): all or nothing. -/
def unpackBody (i : Nat) (s : State) : Res Unit :=
  ((unpackInner i (beginUnpack s)).onError fun s' => { s' with outLen := 0 }).bind fun _ s' =>
    .ok () { s' with outValid := true }

/-- `UNPACK i` (rule R184). -/
def execUnpack (i : BitVec 8) (s : State) : Out := launch (wordOf (.unpack i)) (unpackBody i.toNat) s

end Sys2Proof.Machine
end

