-- ==== Sys2Proof/Machine/System.lean ====
section
/-! DEFINITION. `CLRERR`, the host's register reads and writes, and reset (44_system.md, 10_state.md rules R21 to R44). -/

namespace Sys2Proof.Machine

/-! ### `CLRERR` -/

/-- `CLRERR` (rule R201): the only command accepted in `ERROR`. `CMD` keeps its word (30_encoding.md rule R80). -/
def execClrerr (s : State) : Out :=
  match s.run with
  | .busy => .refused .commandWhileBusy
  | _ => .next ({ s with cmd := wordOf .clrerr } : State).clearError

/-! ### Reset -/

/-- Reset (rule R202, 10_state.md rule R47): every piece of state takes its reset value, in any state. BUF is the host's
and is not touched, nor are the parameters, the host's queue and bus, or the count of free values. -/
def State.applyReset (s : State) : State :=
  { State.reset with cfg := s.cfg, buf := s.buf, expCtx := s.cfg.expand.ctx0, inputs := s.inputs, busData := s.busData,
                     freeCount := s.freeCount, epoch := s.epoch + 1 }

/-! ### Host reads -/

/-- Whether a register reads as an unspecified value (93_implementation_defined.md U10 and U13): while `BUSY`, any but
`STATUS`; otherwise the ports 0x43 to 0x46 of an invalid slot. -/
def State.readIsFree (s : State) (r : Nat) : Bool :=
  decide (s.run = .busy) || (decide (0x43 ≤ r) && decide (r ≤ 0x46) && !(s.slot s.tSel).valid)

/-- The width of a slot port (10_state.md rule R44). -/
def slotPortWidth (r : Nat) : Nat :=
  if r = 0x43 then 14 else if r = 0x44 then 5 else if r = 0x45 then 16 else if r = 0x46 then 5 else 32

/-- An unspecified value as a read returns it: `STATUS` keeps its `STATE` field while `BUSY` (rule R247), and a register
narrower than 32 bits is zero-extended (rule R21). -/
def State.freeRead (s : State) (r : Nat) : Word :=
  let free := Config.freeWord s.freeCount
  if s.run = .busy then (if r = 0x01 then busyStatus free else free)
  else BitVec.ofNat 32 (free.toNat % 2 ^ slotPortWidth r)

/-- The registers 0x00 to 0x16 (10_state.md rules R22 to R41). -/
def State.readLow (s : State) (r : Nat) : Word :=
  match r with
  | 0x00 => s.cmd
  | 0x01 => s.status
  | 0x02 => s.arg0
  | 0x03 => s.arg1
  | 0x04 => s.res
  | 0x05 => s.bufLen
  | 0x06 => s.brByte
  | 0x07 => s.brBit.zeroExtend 32
  | 0x08 => s.brEnd
  | 0x09 => s.tableOfs
  | 0x0A => s.imgW.zeroExtend 32
  | 0x0B => s.imgH.zeroExtend 32
  | 0x0C => BitVec.ofNat 32 s.levelCount.val
  | 0x0D => s.fmt.zeroExtend 32
  | 0x0E => s.nsym.zeroExtend 32
  | 0x0F => s.ofs.zeroExtend 32
  | 0x10 => s.lastnz.zeroExtend 32
  | 0x11 => s.liW.zeroExtend 32
  | 0x12 => s.liH.zeroExtend 32
  | 0x13 => s.expLen.extractLsb' 0 32
  | 0x14 => (s.expLen.extractLsb' 32 1).zeroExtend 32
  | 0x15 => s.outLen.extractLsb' 0 32
  | 0x16 => (s.outLen.extractLsb' 32 1).zeroExtend 32
  | _ => 0

/-- `T_DEPTH` (rule R44): 0 beyond the alphabet. -/
def Slot.depthPort (sl : Slot) (i : Nat) : Nat := if i < sl.ns.toNat then sl.depthOf i else 0

/-- `T_CODE` (rule R44): 0 beyond the alphabet and for a symbol without a code. -/
def Slot.codePort (sl : Slot) (i : Nat) : Nat :=
  if i < sl.ns.toNat ∧ sl.depthOf i ≠ 0 then sl.codeOf i else 0

/-- The index ports 0x40 to 0x48 (10_state.md rule R44), of a valid slot where a slot is read. -/
def State.readPort (s : State) (r : Nat) : Word :=
  match r with
  | 0x40 => s.idx
  | 0x41 => if s.idx.toNat < daSize then (s.daRead s.idx.toNat).zeroExtend 32 else 0
  | 0x42 => BitVec.ofNat 32 s.tSel.index
  | 0x43 => (s.slot s.tSel).ns.zeroExtend 32
  | 0x44 => BitVec.ofNat 32 ((s.slot s.tSel).depthPort s.idx.toNat)
  | 0x45 => BitVec.ofNat 32 ((s.slot s.tSel).codePort s.idx.toNat)
  | 0x46 => (s.slot s.tSel).maxlen.zeroExtend 32
  | 0x47 => if s.idx.toNat < s.outLen.toNat then (Memory.read s.out s.idx.toNat).zeroExtend 32 else 0
  | 0x48 => if s.idx.toNat < tmpNsym then BitVec.ofNat 32 (s.tdRead s.idx.toNat) else 0
  | _ => 0

/-- The value the spec gives register number r (rule R203); a number without a register reads 0. -/
def State.regValue (s : State) (r : Nat) : Word :=
  if r < 0x20 then s.readLow r
  else if r < 0x20 + s.cfg.maxLevels then s.levelOfs (r - 0x20)
  else if 0x30 ≤ r ∧ r < 0x30 + s.cfg.maxLevels then s.levelSize (r - 0x30)
  else s.readPort r

/-- A host read (rule R203): it answers on the bus and changes nothing else of the core. -/
def State.hostRead (s : State) (r : Nat) : State :=
  if s.readIsFree r then { s with busData := s.freeRead r, freeCount := s.freeCount + 1 }
  else { s with busData := s.regValue r }

/-! ### Host writes -/

/-- A write of `BUF_LEN` (10_state.md rule R24). -/
def State.writeBufLen (s : State) (v : Word) : State := { s with bufLen := v, brByte := 0, brBit := 0, brEnd := 0 }

/-- The host read/write registers of 10_state.md, `CMD` apart. -/
inductive HostReg where
  | arg0
  | arg1
  | bufLen
  | tableOfs
  | imgW
  | imgH
  | levelCount
  | fmt
  | nsym
  | lvlOfs (i : Nat)
  | lvlSize (i : Nat)
  | idx
  | daData
  | tSel
  deriving DecidableEq, Repr

/-- The host read/write register with number r (10_state.md rules R24, R25, R30, R32 and R44). -/
def hostReg (c : Config) (r : Nat) : Option HostReg :=
  match r with
  | 0x02 => some .arg0
  | 0x03 => some .arg1
  | 0x05 => some .bufLen
  | 0x09 => some .tableOfs
  | 0x0A => some .imgW
  | 0x0B => some .imgH
  | 0x0C => some .levelCount
  | 0x0D => some .fmt
  | 0x0E => some .nsym
  | 0x40 => some .idx
  | 0x41 => some .daData
  | 0x42 => some .tSel
  | r =>
    if 0x20 ≤ r ∧ r < 0x20 + c.maxLevels then some (.lvlOfs (r - 0x20))
    else if 0x30 ≤ r ∧ r < 0x30 + c.maxLevels then some (.lvlSize (r - 0x30))
    else none

/-- A write of v to a host read/write register (rule R204): `none` where v is not a legal value for it. -/
def State.writeReg (s : State) (reg : HostReg) (v : Word) : Option State :=
  match reg with
  | .arg0 => some { s with arg0 := v }
  | .arg1 => some { s with arg1 := v }
  | .bufLen => some (s.writeBufLen v)
  | .tableOfs => some { s with tableOfs := v }
  | .imgW => if v.toNat < 2 ^ s.cfg.dimW then some { s with imgW := v.truncate 16 } else none
  | .imgH => if v.toNat < 2 ^ s.cfg.dimW then some { s with imgH := v.truncate 16 } else none
  | .levelCount =>
    if h : v.toNat < 17 then (if v.toNat ≤ s.cfg.maxLevels then some { s with levelCount := ⟨v.toNat, h⟩ } else none)
    else none
  | .fmt => if v.toNat < 2 ^ 8 then some { s with fmt := v.truncate 8 } else none
  | .nsym => if v.toNat < 2 ^ 14 then some { s with nsym := v.truncate 14 } else none
  | .lvlOfs i => some { s with lvlOfs := s.lvlOfs.setIfInBounds i v }
  | .lvlSize i => some { s with lvlSize := s.lvlSize.setIfInBounds i v }
  | .idx => some { s with idx := v }
  | .daData =>
    if v.toNat < 2 ^ 5 ∧ s.idx.toNat < daSize then some { s with da := Store.put s.da s.idx.toNat (v.truncate 5) }
    else none
  | .tSel =>
    if v = 0 then some { s with tSel := .t0 }
    else if v = 1 then some { s with tSel := .t1 }
    else if v = 2 then some { s with tSel := .tmp }
    else none

/-- A host write to a register other than `CMD`, while not `BUSY` (rule R204, 60_exceptions.md rules R217 and R229). -/
def State.hostWrite (s : State) (r : Nat) (v : Word) : State :=
  if s.run = .error then s
  else ((hostReg s.cfg r).bind fun reg => s.writeReg reg v).getD (s.raiseError 0 .illegalCommand)

/-- The host changes a byte of BUF between commands (20_memory.md rules R70 and R73). -/
def State.hostPoke (s : State) (a : Word) (b : Byte) : State := { s with buf := Memory.write s.buf a.toNat b }

end Sys2Proof.Machine
end

