-- ==== Sys2Proof/Machine/Dispatch.lean ====
section
/-! DEFINITION. The meaning of each instruction: one arm per constructor of Instr. -/

namespace Sys2Proof.Machine

def exec (i : Instr) (s : State) : Host.Outcome State Fault Refusal :=
  match i with
  | .seek => Sys2Proof.Machine.execSeek s
  | .rdbits n => Sys2Proof.Machine.execRdbits n s
  | .align => Sys2Proof.Machine.execAlign s
  | .hbuild t => Sys2Proof.Machine.execHbuild t s
  | .hdec t => Sys2Proof.Machine.execHdec t s
  | .tread t => Sys2Proof.Machine.execTread t s
  | .gettab => Sys2Proof.Machine.execGettab s
  | .lvlinfo k => Sys2Proof.Machine.execLvlinfo k s
  | .unpack k => Sys2Proof.Machine.execUnpack k s
  | .clrerr => Sys2Proof.Machine.execClrerr s
  | .lit0 => Sys2Proof.Machine.execLit0 s
  | .lit1 => Sys2Proof.Machine.execLit1 s
  | .lit2 => Sys2Proof.Machine.execLit2 s
  | .lit3 => Sys2Proof.Machine.execLit3 s
  | .lit4 => Sys2Proof.Machine.execLit4 s
  | .lit5 => Sys2Proof.Machine.execLit5 s
  | .lit6 => Sys2Proof.Machine.execLit6 s
  | .lit7 => Sys2Proof.Machine.execLit7 s
  | .lit8 => Sys2Proof.Machine.execLit8 s
  | .lit9 => Sys2Proof.Machine.execLit9 s
  | .lit10 => Sys2Proof.Machine.execLit10 s
  | .lit11 => Sys2Proof.Machine.execLit11 s
  | .lit12 => Sys2Proof.Machine.execLit12 s
  | .lit13 => Sys2Proof.Machine.execLit13 s
  | .lit14 => Sys2Proof.Machine.execLit14 s
  | .lit15 => Sys2Proof.Machine.execLit15 s
  | .lit16 => Sys2Proof.Machine.execLit16 s
  | .shortzero => Sys2Proof.Machine.execShortzero s
  | .longzero => Sys2Proof.Machine.execLongzero s
  | .shortrepeat => Sys2Proof.Machine.execShortrepeat s
  | .longrepeat => Sys2Proof.Machine.execLongrepeat s

end Sys2Proof.Machine
end

