-- ==== Sys2Proof/Machine/Fsm.lean ====
section
/-! DEFINITION. The two state machines that refine `TREAD`, `GETTAB` and `UNPACK` (10_state.md rule R43): one function for
one arrow of the tables of 42_table_reader.md rule R164 and 43_level_unpacker.md rule R191. The slot and the level come
from the command word in `CMD`. -/

namespace Sys2Proof.Machine

/-- The slot of a running `TREAD t` (rule R151). -/
def State.treadSlot (s : State) : SlotId := slotOfT01 ((aByte s.cmd).extractLsb' 0 1)

/-- The level of a running `UNPACK i` (rule R184). -/
def State.unpackLevel (s : State) : Nat := (aByte s.cmd).toNat

/-- The slot that the record being read builds: `TREAD t` builds t (rule R151), `GETTAB` builds `T[0]` from its first record
and `T[1]` from its second (rule R166). -/
def State.recordSlot (s : State) : Option SlotId :=
  if opByte s.cmd = 0x06 then some s.treadSlot
  else if opByte s.cmd = 0x07 then
    match s.gtPhase with
    | .start => none
    | .first => some .t0
    | .second => some .t1
  else none

/-- The end of an arrow: the command goes on, ends, or fails (rules R164 and R191). -/
def endArrow (r : Res Bool) : Out :=
  match r with
  | .ok false s => .next s
  | .ok true s => .next s.complete
  | .stop (.raise e) s => failCommand e s
  | .stop (.fault f) _ => .fault f

/-- An arrow to the table reader state x. -/
def toTr (x : TrState) (r : Res Unit) : Res Bool := r.bind fun _ s => .ok false { s with trState := x }

/-- No arrow: the tables give none for this state. -/
def noArrow {α : Type} (s : State) : Res α := .stop (.fault .noTransition) s

/-- `TR_IDLE` (rule R164): begin the record, or place the cursor of a `GETTAB` (rule R166). -/
def trIdleArrow (s : State) : Res Bool :=
  match s.recordSlot with
  | some t => .ok false { beginRecord t s with trState := .count }
  | none =>
    if opByte s.cmd = 0x07 then (gettabSeek s).bind fun _ s' => .ok false { s' with gtPhase := .first } else noArrow s

/-- `TR_COUNT` (rule R164). -/
def trCountArrow (s : State) : Res Bool :=
  (readCount s).bind fun _ s' => .ok false { s' with trK := 0, trState := .tdepth }

/-- `TR_TDEPTH` (rule R164): one field. Under the variant of rule R168, for which the table gives no arrow, all fields
are read in one (log entry 4). -/
def trTdepthArrow (s : State) : Res Bool :=
  if s.cfg.tmpCountW = 0 then
    match tmpOrder[s.trK.toNat]? with
    | none => noArrow s
    | some x =>
      (readTmpDepth x s).bind fun _ s' =>
        .ok false { s' with trK := s'.trK + 1, trState := if s'.trK.toNat + 1 < tmpNsym then .tdepth else .tbuild }
  else toTr .tbuild (readTmpDepths s)

/-- `TR_TBUILD` (rule R164). -/
def trTbuildArrow (s : State) : Res Bool := toTr .sym (buildTmp s)

/-- `TR_SYM` (rule R164): decode a symbol, and write it if it is a literal. -/
def trSymArrow (s : State) : Res Bool :=
  if s.ofs.toNat < s.nsym.toNat then
    (fetchSymbol s).bind fun x s' =>
      let s'' := { s' with trSymReg := BitVec.ofNat 5 x }
      match escapeOf s.cfg x with
      | some _ => .ok false { s'' with trState := .param }
      | none => toTr .sym (lit x s'')
  else .ok false { s with trState := .mbuild }

/-- `TR_PARAM` (rule R164): the parameter and the two tests of rule R161. -/
def trParamArrow (s : State) : Res Bool :=
  match escapeOf s.cfg s.trSymReg.toNat with
  | none => noArrow s
  | some e =>
    (readRun e s).bind fun run s' =>
      .ok false { s' with trRun := BitVec.ofNat 8 run, trFillV := e.value s',
                          trState := if run = 0 then .sym else .fill }

/-- `TR_FILL` (rule R164): one entry of the run. -/
def trFillArrow (s : State) : Res Bool :=
  if s.ofs.toNat < s.nsym.toNat ∧ 0 < s.trRun.toNat then
    .ok false { s with da := Store.put s.da s.ofs.toNat s.trFillV, ofs := s.ofs + 1, trRun := s.trRun - 1,
                       trState := if s.trRun.toNat = 1 then .sym else .fill }
  else noArrow s

/-- `TR_MBUILD` (rule R164): the main build; a `GETTAB` goes on to its second record (rule R166). -/
def trMbuildArrow (s : State) : Res Bool :=
  match s.recordSlot with
  | none => noArrow s
  | some t =>
    (build t s.daList s).bind fun _ s' =>
      if s'.gtPhase = .first then .ok false { s' with trState := .idle, gtPhase := .second } else .ok true s'

/-- One arrow of the table of rule R164. -/
def tableArrow (s : State) : Out :=
  endArrow <|
    match s.trState with
    | .idle => trIdleArrow s
    | .count => trCountArrow s
    | .tdepth => trTdepthArrow s
    | .tbuild => trTbuildArrow s
    | .sym => trSymArrow s
    | .param => trParamArrow s
    | .fill => trFillArrow s
    | .mbuild => trMbuildArrow s

/-- One arrow of the table of rule R191. DESIGN CHOICE (log entry 4): the rule lets `UP_EMIT` append "one per step or all at
once", and here each arrow appends one byte, with a further arrow to `UP_DECODE` once no byte is left. -/
def unpackArrowRes (s : State) : Res Bool :=
  match s.upState with
  | .idle => .ok false { beginUnpack s with upState := .check }
  | .check => (unpackCheck s.unpackLevel s).bind fun _ s' => .ok false { s' with upState := .seek }
  | .seek => .ok false { unpackSeek s.unpackLevel s with upState := .decode }
  | .decode =>
    if s.outLen.toNat < s.expLen.toNat then
      (unpackDecode s).bind fun x s' => .ok false { s' with upState := .expand x }
    else .ok false { s with upState := .done }
  | .expand x => (unpackExpand x s).bind fun bs s' => .ok false { s' with upState := .emit bs }
  | .emit [] => .ok false { s with upState := .decode }
  | .emit (b :: bs) => .ok false { s.outAppend b with upState := .emit bs }
  | .done => .ok true { s with outValid := true }

/-- One arrow of the table of rule R191, with its error path. -/
def unpackArrow (s : State) : Out := endArrow (unpackArrowRes s)

end Sys2Proof.Machine
end

