-- ==== Sys2Proof/Machine/Fetch.lean ====
section
/-! DEFINITION. Where the next instruction comes from, and what one step does with it: the host's queue of actions
(44_system.md), the write of `CMD` (30_encoding.md rule R80), a running command (70_reset_and_hazards.md rule R246), and
the symbols a running table reader decodes from the bitstream (42_table_reader.md rule R155). -/

namespace Sys2Proof.Machine

/-! ### A running command -/

/-- A symbol is fetched by `Decode(2)` at the cursor and run as one step (rule R155). -/
def symbolStep (s : State) : Out :=
  match fetchSymbol s with
  | .ok x s' =>
    match decodeSymbol x with
    | .ok i => exec i { s' with trSymReg := BitVec.ofNat 5 x }
    | .error _ => .fault .noTransition
  | .stop (.raise e) s' => failCommand e s'
  | .stop (.fault f) _ => .fault f

/-- Whether the next step of a running table reader runs one whole symbol (log entry 3). -/
def State.atSymbol (s : State) : Bool :=
  decide (s.cfg.grain = .whole) && decide (s.trState = .sym) && decide (s.ofs.toNat < s.nsym.toNat)

/-- The first step of a command that has been written to `CMD` and not begun: an arrow of its state machine, where it has
one and steps are arrows, or the whole command. -/
def beginCommand (s : State) : Out :=
  match decodeCommand s.cmd with
  | .ok (.tread t) => if s.cfg.grain = .arrow then tableArrow s else exec (.tread t) { s with run := .idle }
  | .ok .gettab => if s.cfg.grain = .arrow then tableArrow s else exec .gettab { s with run := .idle }
  | .ok (.unpack i) => if s.cfg.grain = .arrow then unpackArrow s else exec (.unpack i) { s with run := .idle }
  | .ok i => exec i { s with run := .idle }
  | .error _ => .next (s.raiseError (opByte s.cmd) .illegalCommand)

/-- One step of the core while `BUSY`. -/
def busyStep (s : State) : Out :=
  if s.trState ≠ .idle ∨ s.gtPhase ≠ .start then (if s.atSymbol then symbolStep s else tableArrow s)
  else if s.upState ≠ .idle then unpackArrow s
  else beginCommand s

/-! ### Host actions -/

/-- The host writes w to `CMD`, while not `BUSY` (rules R80, R84 and R217). A legal word runs as one step, or, where steps
are arrows, only sets `BUSY`. -/
def commandWrite (w : Word) (s : State) : Out :=
  match decodeCommand w with
  | .ok i =>
    if s.cfg.grain = .arrow ∧ s.run = .idle then .next { s with cmd := w, run := .busy } else exec i s
  | .error _ => launchIllegal (opByte w) s

/-- The host's next action is taken, with the rest of the queue left in the state; a write or a change of BUF waits while
the core is `BUSY` (70_reset_and_hazards.md rules R245 and R248). With nothing to do the core waits (rule R241). -/
def hostStep (s : State) : Out :=
  match s.inputs with
  | .reset :: rest => .next ({ s with inputs := rest } : State).applyReset
  | .read r :: rest => .next (({ s with inputs := rest } : State).hostRead r)
  | .pass :: rest =>
    if s.run = .busy then busyStep { s with inputs := rest } else .next { s with inputs := rest }
  | .write r v :: rest =>
    if s.run = .busy then busyStep s
    else if r = 0 then commandWrite v { s with inputs := rest }
    else .next (({ s with inputs := rest } : State).hostWrite r v)
  | .poke a b :: rest =>
    if s.run = .busy then busyStep s else .next (({ s with inputs := rest } : State).hostPoke a b)
  | [] => if s.run = .busy then busyStep s else .next s

/-! ### Placing an instruction where the next step fetches -/

/-- The core ready for a command (log entry 12). -/
def State.readied (s : State) : State := { s.clearError with trState := .idle, gtPhase := .start, upState := .idle }

/-- A command word is fetched from the head of the host's queue, as a write of `CMD`. `CLRERR` is fetched in `ERROR` too. -/
def State.placeCommand (s : State) (w : Word) : State :=
  let s' := if s.run = .error ∧ w = wordOf .clrerr then s else s.readied
  { s' with cfg := { s.cfg with grain := .whole }, inputs := .write 0 w :: s.inputs }

/-- A temporary tree whose one code, the bit 0, is that of symbol x. -/
def oneSymbolTree (x : Nat) : Slot :=
  { valid := true
    ns := BitVec.ofNat 14 tmpNsym
    depth := (List.range tmpNsym).map fun y => if y = x then 1 else 0
    code := List.replicate tmpNsym 0
    maxlen := 1 }

/-- A symbol is fetched from the bitstream of a running `TREAD 0`, at step 4: here from a window of eight zero bytes, under
a tree in which the bit 0 is the symbol's code, so that every bit after it is 0. -/
def State.placeSymbol (s : State) (x : Nat) : State :=
  { s.readied with
      cfg := { s.cfg with grain := .whole }
      cmd := wordOf (.tread 0)
      run := .busy
      trState := .sym
      tmp := oneSymbolTree x
      buf := [], bufLen := 8, brByte := 0, brBit := 0, brEnd := 8
      nsym := if s.ofs.toNat < s.nsym.toNat then s.nsym else 16383
      ofs := if s.ofs.toNat < s.nsym.toNat then s.ofs else 0
      inputs := .pass :: s.inputs }

end Sys2Proof.Machine
end

