-- ==== Sys2Proof/Machine/Step.lean ====
section
/-! DEFINITION. One step of the machine, and the placing of an instruction where the next step fetches. -/

namespace Sys2Proof.Machine

/-- One step: the host's next action, or the running command (Fetch.lean). -/
def step (s : State) : Host.Outcome State Fault Refusal := hostStep s

/-- `s` with an instruction of `nbits` bits stored where the next step fetches: a row of at most 8 bits is a symbol, any
other a command word (30_encoding.md rule R97; log entry 12). -/
def State.withFetchWord (s : State) (nbits w : Nat) : State :=
  if nbits ≤ 8 then s.placeSymbol w else s.placeCommand (BitVec.ofNat 32 w)

end Sys2Proof.Machine
end

