-- ==== Sys2Proof/Safety.lean ====
section
/-! DEFINITION. What counts as a safe state and a safe run, and the words in which claims speak of the bitstream: the bits
of the window (40_bitreader.md rule R112), the bits of a field and of a code (30_encoding.md rules R86 and R87), the items
of a table record (rules R88 to R90). -/

namespace Sys2Proof.Machine

/-! ### The bits of the window -/

/-- Bit p of BUF in the numbering of rule R112: bit 8a + j is `BUF[a][7 - j]` under `MSB_FIRST` and `BUF[a][j]` under
`LSB_FIRST`. -/
def State.bitAt (s : State) (p : Nat) : Nat :=
  match s.cfg.bitOrder with
  | .msbFirst => ((Memory.read s.buf (p / 8)).getLsbD (7 - p % 8)).toNat
  | .lsbFirst => ((Memory.read s.buf (p / 8)).getLsbD (p % 8)).toNat

/-- The next n bits, the first consumed first. -/
def State.nextBits (s : State) (n : Nat) : List Nat := (List.range n).map fun k => s.bitAt (s.pos + k)

/-- The number whose binary digits are `bits`, most significant first. -/
def msbValue (bits : List Nat) : Nat := bits.foldl (fun r b => 2 * r + b) 0

/-- The number whose binary digits are `bits`, least significant first. -/
def lsbValue (bits : List Nat) : Nat := bits.foldr (fun b r => b + 2 * r) 0

/-- The unsigned integer that n consumed bits form (20_memory.md rule R62). -/
def fieldValue (o : BitOrder) (bits : List Nat) : Nat :=
  match o with
  | .msbFirst => msbValue bits
  | .lsbFirst => lsbValue bits

/-- The cursor n bits further on. -/
def State.skipBits (s : State) (n : Nat) : State :=
  { s with brByte := BitVec.ofNat 32 ((s.pos + n) / 8), brBit := BitVec.ofNat 3 ((s.pos + n) % 8) }

/-- The cursor invariant (10_state.md rules R22 and R23): `BR_BYTE <= BR_END <= BUF_LEN`, and `BR_BIT = 0` at the end. -/
def State.cursorOk (s : State) : Prop :=
  s.brByte.toNat ≤ s.brEnd.toNat ∧ s.brEnd.toNat ≤ s.bufLen.toNat ∧ (s.brByte = s.brEnd → s.brBit = 0)

/-! ### The bits of fields, codes and records -/

/-- The w binary digits of v, most significant first. -/
def msbBits (w v : Nat) : List Nat := (List.range w).map fun j => v / 2 ^ (w - 1 - j) % 2

/-- The w binary digits of v, least significant first. -/
def lsbBits (w v : Nat) : List Nat := (List.range w).map fun j => v / 2 ^ j % 2

/-- A fixed-width field as it lies in the bitstream (30_encoding.md rule R86, 20_memory.md rule R62). -/
def fieldBits (o : BitOrder) (w v : Nat) : List Nat :=
  match o with
  | .msbFirst => msbBits w v
  | .lsbFirst => lsbBits w v

/-- A Huffman-coded symbol as it lies in the bitstream, under either bit order (30_encoding.md rule R87, 20_memory.md rule
R64). -/
def Slot.codeBits (sl : Slot) (x : Nat) : List Nat := msbBits (sl.depthOf x) (sl.codeOf x)

/-- An item of a coded depth array (rule R88): a literal depth, or an escape symbol with its parameter. -/
inductive Item where
  | literal (v : Nat)
  | escape (sym : Nat) (p : Nat)
  deriving DecidableEq, Repr

/-- The symbol of an item. -/
def Item.symbol : Item → Nat
  | .literal v => v
  | .escape x _ => x

/-- An item that the alphabet and the parameter widths of rule R89 can express. -/
def Item.legal (c : Config) : Item → Bool
  | .literal v => decide (v ≤ 16)
  | .escape x p =>
    match escapeOf c x with
    | some e => decide (p < 2 ^ e.width)
    | none => false

/-- The bits of an item under a temporary tree (rules R87 to R89). -/
def Item.bits (c : Config) (tree : Slot) : Item → List Nat
  | .literal v => tree.codeBits v
  | .escape x p =>
    tree.codeBits x ++
      match escapeOf c x with
      | some e => fieldBits c.bitOrder e.width p
      | none => []

/-- The last nonzero entry of a depth array, or 0 (10_state.md rule R34). -/
def lastNonzero (d : List Nat) : Nat := (d.filter fun v => decide (v ≠ 0)).getLastD 0

/-- The entries an item adds to the depth array produced so far (rules R156 to R161), or `none` where it raises
`CorruptStream`. -/
def Item.entries (c : Config) (done : List Nat) : Item → Option (List Nat)
  | .literal v => some [v]
  | .escape x p =>
    match escapeOf c x with
    | none => none
    | some e =>
      match e.kind with
      | .zeros => some (List.replicate (e.runLength p) 0)
      | .repeats =>
        if lastNonzero done = 0 then none else some (List.replicate (e.runLength p) (lastNonzero done))

/-- The depth array that a list of items produces after `done`, of at most n entries (rules R155 and R161): every item
stands where entries are still to be produced and keeps within n. -/
def expandItems (c : Config) (n : Nat) (done : List Nat) : List Item → Option (List Nat)
  | [] => some done
  | i :: rest =>
    if done.length < n then
      match i.entries c done with
      | some l => if (done ++ l).length ≤ n then expandItems c n (done ++ l) rest else none
      | none => none
    else none

/-- The temporary-tree part of a table record (rules R88 and R94): a count field of `P_TMPCOUNT_W` bits, which is absent
where that is 0, and the depth fields of the first `count` transmission positions. -/
def tmpPartBits (c : Config) (count : Nat) (td : List Nat) : List Nat :=
  fieldBits c.bitOrder c.tmpCountW count
    ++ (tmpOrder.take count).flatMap fun x => fieldBits c.bitOrder c.tmpDepthW (depthAt td x)

/-- The temporary depths a record can carry with `count` fields (rules R88 and R94): each fits its field, those beyond the
count are 0, and without a count field all 21 are present. -/
def tmpPartLegal (c : Config) (count : Nat) (td : List Nat) : Prop :=
  td.length = tmpNsym ∧ (∀ x ∈ td, x < 2 ^ c.tmpDepthW) ∧ (∀ x ∈ tmpOrder.drop count, depthAt td x = 0)
    ∧ 1 ≤ count ∧ count ≤ tmpNsym ∧ (c.tmpCountW = 0 → count = tmpNsym) ∧ (c.tmpCountW ≠ 0 → count < 2 ^ c.tmpCountW)

/-- The part of a table record before its items (rule R88), which steps 1 to 3 read: the count, the number of depth fields
and the temporary depths, with the tree they build. -/
structure Header where
  count : Nat
  fields : Nat
  tmpDepths : List Nat
  tree : Slot

/-- A header that steps 1 to 3 read without error (rules R152 to R154): its temporary depths build its tree. -/
def Header.legal (c : Config) (h : Header) : Prop :=
  1 ≤ h.count ∧ h.count ≤ daSize ∧ tmpPartLegal c h.fields h.tmpDepths ∧ buildSlot h.tmpDepths = some h.tree

/-- The bits of a header (rule R88). -/
def Header.bits (c : Config) (h : Header) : List Nat :=
  fieldBits c.bitOrder 14 h.count ++ tmpPartBits c h.fields h.tmpDepths

/-- Items that can stand under a temporary tree: the alphabet expresses each, and each has a code (rules R87 to R89). -/
def itemsLegal (c : Config) (tree : Slot) (items : List Item) : Prop :=
  ∀ i ∈ items, i.legal c = true ∧ tree.depthOf i.symbol ≠ 0

/-- A table record (rule R88): a header, and the items under its temporary tree. -/
structure Record extends Header where
  items : List Item
  depths : List Nat
  main : Slot

/-- A record that reads without error (rules R151 to R162): its header does, its items expand to its depth array of `count`
entries, and that builds its main tree. -/
def Record.legal (c : Config) (r : Record) : Prop :=
  r.toHeader.legal c ∧ itemsLegal c r.tree r.items ∧ expandItems c r.count [] r.items = some r.depths
    ∧ r.depths.length = r.count ∧ buildSlot r.depths = some r.main

/-- The bits of a record (rule R88). -/
def Record.bits (c : Config) (r : Record) : List Nat :=
  r.toHeader.bits c ++ r.items.flatMap (Item.bits c r.tree)

/-- A bit string lies at the cursor, inside the window. -/
def State.hasBits (s : State) (bits : List Nat) : Prop := bits.length ≤ s.rem ∧ s.nextBits bits.length = bits

/-- None of the slot's codes begins the next n bits. -/
def State.noCodeIn (s : State) (sl : Slot) (n : Nat) : Prop :=
  ∀ x, x < sl.ns.toNat → sl.depthOf x ≠ 0 → ¬ sl.codeBits x <+: s.nextBits n

/-- Step 4 breaks off at the cursor of s, where `done` of `count` entries are produced, with error e and n bits consumed
(rules R155, R159 to R161 and R163): no code begins the next `MAXLEN` bits; the window ends inside a code; it ends inside
the parameter of an escape; an escape has nothing to repeat; or its run is longer than the room left. -/
def State.breaksOff (s : State) (tree : Slot) (count : Nat) (done : List Nat) (n : Nat) (e : ErrorKind) : Prop :=
  (e = .corruptStream ∧ n = tree.maxlen.toNat ∧ n ≤ s.rem ∧ s.noCodeIn tree n)
    ∨ (e = .depthArrayUnderrun ∧ n = s.rem ∧ n < tree.maxlen.toNat ∧ s.noCodeIn tree n)
    ∨ ∃ (x : Nat) (f : Escape), escapeOf s.cfg x = some f ∧ tree.depthOf x ≠ 0 ∧
        ((e = .depthArrayUnderrun ∧ n = tree.depthOf x ∧ s.hasBits (tree.codeBits x) ∧ s.rem < n + f.width)
          ∨ ∃ p, (Item.escape x p).legal s.cfg = true ∧ n = ((Item.escape x p).bits s.cfg tree).length
              ∧ s.hasBits ((Item.escape x p).bits s.cfg tree)
              ∧ ((e = .corruptStream ∧ f.kind = .repeats ∧ lastNonzero done = 0)
                ∨ (e = .depthArrayOverrun ∧ (f.kind = .repeats → lastNonzero done ≠ 0)
                    ∧ count < done.length + f.runLength p)))

/-- The data of a level under `LITERAL` breaks off at the cursor of s, where output is still owed, with error e and n bits
consumed (43_level_unpacker.md rules R187 to R189): no bit is left; the window ends inside a code; no code begins the next
`MAXLEN` bits; or the symbol that is coded there stands for no byte. -/
def State.levelBreaksOff (s : State) (n : Nat) (e : ErrorKind) : Prop :=
  (e = .levelSizeMismatch ∧ n = 0 ∧ s.rem = 0)
    ∨ (e = .unexpectedEnd ∧ n = s.rem ∧ 0 < n ∧ n < s.t0.maxlen.toNat ∧ s.noCodeIn s.t0 n)
    ∨ (e = .corruptStream ∧ n = s.t0.maxlen.toNat ∧ n ≤ s.rem ∧ s.noCodeIn s.t0 n)
    ∨ (e = .corruptStream ∧ ∃ x, 256 ≤ x ∧ x < s.t0.ns.toNat ∧ s.t0.depthOf x ≠ 0 ∧ n = s.t0.depthOf x
        ∧ s.hasBits (s.t0.codeBits x))

/-! ### Commands -/

/-- The instructions of the first level, the host's commands (30_encoding.md rule R82). -/
def isCommand (i : Instr) : Bool :=
  match encode i with
  | .command _ => true
  | .symbol _ => false

/-- `s` after a command with command word w that ends without error (30_encoding.md rule R80), in all that the command
does not write itself: `CMD` holds the word, `STATE` is `IDLE` and the machines of 10_state.md rule R43 are idle. -/
def State.ended (s : State) (w : Word) : State :=
  { s with cmd := w, run := .idle, trState := .idle, upState := .idle, gtPhase := .start }

/-- `s` after a command with command word w that raises e (60_exceptions.md rule R214), in all that the command does not
write itself. -/
def State.failed (s : State) (w : Word) (e : ErrorKind) : State :=
  { s with cmd := w, run := .error, err := some e, errOp := opByte w, trState := .idle, upState := .idle,
           gtPhase := .start }

/-- `s` after an error inside a table record of the command in `CMD` (60_exceptions.md rule R214): a `GETTAB` invalidates
`T[0]` as well (42_table_reader.md rule R166). -/
def State.failedInRecord (s : State) (e : ErrorKind) : State :=
  if opByte s.cmd = 0x07 then (s.failed s.cmd e).invalidate .t0 else s.failed s.cmd e

/-- The states after n steps, if none of them stops. -/
def runSteps : Nat → State → Option State
  | 0, s => some s
  | n + 1, s =>
    match step s with
    | .next t => runSteps n t
    | .fault _ => none
    | .refused _ => none

/-! ### Canonical codes -/

/-- The Kraft sum of a depth array in units of 2^-16 (41_huffman.md rule R134). -/
def kraft (d : List Nat) : Nat := ((d.filter fun v => decide (v ≠ 0)).map fun v => 2 ^ (16 - v)).sum

/-- The part of the Kraft sum that the symbols sorted before x have (41_huffman.md rule R133). -/
def kraftBefore (d : List Nat) (x : Nat) : Nat :=
  (((List.range d.length).filter fun y => decide (depthAt d y ≠ 0 ∧
      (depthAt d y < depthAt d x ∨ depthAt d y = depthAt d x ∧ y < x))).map fun y => 2 ^ (16 - depthAt d y)).sum

/-- n successive calls of `Decode(t)` (41_huffman.md rule R137). -/
def decodeMany (t : SlotId) : Nat → State → Res (List Nat)
  | 0, s => .ok [] s
  | n + 1, s => (decodeSym t s).bind fun x s1 => (decodeMany t n s1).bind fun xs s2 => .ok (x :: xs) s2

/-! ### The invariant -/

/-- The slot holds the tree of a depth array that its capacity holds (10_state.md rules R35 to R37). -/
def Slot.builtFor (t : SlotId) (sl : Slot) : Prop :=
  ∃ d : List Nat, buildSlot d = some sl ∧ if t = .tmp then d.length = tmpNsym else d.length ≤ daSize

/-- The places a table reader can be in while a command runs (42_table_reader.md rules R151, R164 and R166). -/
structure State.TableOk (s : State) : Prop where
  upIdle  : s.upState = .idle
  command : opByte s.cmd = 0x06 ∧ s.gtPhase = .start ∨ opByte s.cmd = 0x07 ∧ s.gtPhase ≠ .start
  begun   : s.trState = .count ∨ s.trState = .tdepth ∨ s.trState = .tbuild → s.ofs = 0
  tdepth  : s.trState = .tdepth → s.trK.toNat < tmpNsym
  symbols : s.trState = .sym ∨ s.trState = .param ∨ s.trState = .fill ∨ s.trState = .mbuild →
    s.tmp.valid = true ∧ s.ofs.toNat ≤ s.nsym.toNat
  param   : s.trState = .param → 17 ≤ s.trSymReg.toNat ∧ s.trSymReg.toNat ≤ 20
  fill    : s.trState = .fill →
    0 < s.trRun.toNat ∧ s.ofs.toNat + s.trRun.toNat ≤ s.nsym.toNat ∧ s.trFillV.toNat ≤ maxDepth

/-- The places the unpacker can be in while a command runs (43_level_unpacker.md rules R184 and R191). -/
structure State.UnpackOk (s : State) : Prop where
  trIdle     : s.trState = .idle
  gtStart    : s.gtPhase = .start
  command    : opByte s.cmd = 0x09
  outInvalid : s.outValid = false
  begun      : s.upState = .check ∨ s.upState = .seek → s.outLen = 0
  window     : s.upState = .seek →
    (s.levelOfs s.unpackLevel).toNat + (s.levelSize s.unpackLevel).toNat ≤ s.bufLen.toNat
  emit       : ∀ bs, s.upState = .emit bs → s.outLen.toNat + bs.length ≤ s.expLen.toNat
  done       : s.upState = .done → s.outLen = s.expLen

/-- What holds of the data of every state the machine can be in, also in the middle of a command. -/
structure State.DataOk (s : State) : Prop where
  cfgWf      : s.cfg.wf = true
  cursor     : s.cursorOk
  slots      : ∀ t, (s.slot t).valid = true → (s.slot t).builtFor t
  bufWf      : Memory.wf s.buf = true
  outWf      : Memory.wf s.out = true
  daSorted   : Store.sorted s.da = true
  daBound    : ∀ c ∈ s.da, c.1 < daSize
  tdSorted   : Store.sorted s.td = true
  tdBound    : ∀ c ∈ s.td, c.1 < tmpNsym ∧ c.2 < 2 ^ s.cfg.tmpDepthW
  lastnzLe   : s.lastnz.toNat ≤ maxDepth
  levels     : s.levelCount.val ≤ s.cfg.maxLevels
  outLenLe   : s.outLen.toNat ≤ s.expLen.toNat
  outWhole   : s.outValid = true → s.outLen = s.expLen
  expLenLe   : s.expLen.toNat ≤ 2 ^ 32

/-- What holds of every state the machine can be in between two steps. -/
structure State.Inv (s : State) : Prop where
  data       : s.DataOk
  errorIff   : s.run = .error ↔ s.err ≠ none
  errOpZero  : s.err = none → s.errOp = 0
  notBusy    : s.run ≠ .busy → s.trState = .idle ∧ s.gtPhase = .start ∧ s.upState = .idle
  inTable    : s.trState ≠ .idle ∨ s.gtPhase ≠ .start → s.TableOk
  inUnpack   : s.upState ≠ .idle → s.UnpackOk

/-- A safe step: the machine goes on (60_exceptions.md rule R210: every command on every input ends in `IDLE` or `ERROR`
and never reads out of bounds). -/
def safeStep (s : State) : Prop := ∃ t, step s = .next t

end Sys2Proof.Machine
end

