-- ==== Sys2Proof/Certificates/Slice0/Obligations.lean ====
section
/-! DEFINITION. The statements for the provers, one definition each, in the order of the spec's files. Where a statement
gives the state after an instruction as the state before with some fields replaced, every other field is unchanged: that
is the instruction's frame. -/

open Sys2Proof Sys2Proof.Machine

/-! ### Encoding (30_encoding.md) -/

/-- O1. Words written out from rules R81 to R83 and indices from rule R89 decode to what they stand for. -/
def Obligations.WordsDecodeAsTheOpcodeMapSays : Prop :=
  decode (.command 0x01000000) = .ok .seek ∧ decode (.command 0x02000020) = .ok (.rdbits 32)
    ∧ decode (.command 0x03000000) = .ok .align ∧ decode (.command 0x04000001) = .ok (.hbuild 1)
    ∧ decode (.command 0x05000002) = .ok (.hdec 2) ∧ decode (.command 0x06000001) = .ok (.tread 1)
    ∧ decode (.command 0x07000000) = .ok .gettab ∧ decode (.command 0x080000FF) = .ok (.lvlinfo 255)
    ∧ decode (.command 0x09000003) = .ok (.unpack 3) ∧ decode (.command 0x0A000000) = .ok .clrerr
    ∧ decode (.symbol 0b00000) = .ok .lit0 ∧ decode (.symbol 0b10000) = .ok .lit16
    ∧ decode (.symbol 0b10001) = .ok .shortzero ∧ decode (.symbol 0b10100) = .ok .longrepeat

/-- O2. Decoding and encoding agree on every instruction of both levels, with every operand at every value the encoding
admits: a code decodes to an instruction exactly where the instruction is legal and has that code (rules R81 to R85, R89). -/
def Obligations.DecodeInvertsEncode : Prop :=
  ∀ (c : Code) (i : Instr), decode c = .ok i ↔ i.wf = true ∧ encode i = c

/-- O3. Rule R84: which command words are illegal, that every other word is one of the ten commands, and that an illegal
word written in `IDLE` raises `IllegalCommand` with `ERR_OP` the opcode byte and has no other effect. That `CMD` keeps its
old word (rules R84 and R229 against rule R80) is the model's reading, log entry 7. -/
def Obligations.IllegalCommandWords : Prop :=
  ∀ (w : Word) (op z a : Nat), op = w.toNat / 2 ^ 24 → z = w.toNat / 2 ^ 8 % 2 ^ 16 → a = w.toNat % 2 ^ 8 →
    ((op = 0 ∨ 0x0B ≤ op ∨ z ≠ 0 ∨ (op = 1 ∨ op = 3 ∨ op = 7 ∨ op = 10) ∧ a ≠ 0 ∨ op = 2 ∧ 32 < a
        ∨ (op = 4 ∨ op = 6) ∧ 1 < a ∨ op = 5 ∧ 2 < a) →
      ∀ (s : State) (rest : List HostAction), s.run = .idle →
        step { s with inputs := .write 0 w :: rest } =
          .next { s with inputs := rest, run := .error, err := some .illegalCommand, errOp := BitVec.ofNat 8 op,
                         trState := .idle, upState := .idle, gtPhase := .start }) ∧
    (¬ (op = 0 ∨ 0x0B ≤ op ∨ z ≠ 0 ∨ (op = 1 ∨ op = 3 ∨ op = 7 ∨ op = 10) ∧ a ≠ 0 ∨ op = 2 ∧ 32 < a
        ∨ (op = 4 ∨ op = 6) ∧ 1 < a ∨ op = 5 ∧ 2 < a) →
      ∃ i, isCommand i = true ∧ i.wf = true ∧ encode i = .command w ∧ decodeCommand w = .ok i)

/-! ### The bit reader (20_memory.md, 40_bitreader.md) -/

/-- O4. `ReadBits(n)` in the closed form of rule R112: the digits of the value are the bits at the cursor, most significant
first under `MSB_FIRST` and least significant first under `LSB_FIRST`; the cursor moves by n; with fewer than n bits left
it raises `UnexpectedEnd` and changes nothing. -/
def Obligations.ReadBitsTakesTheBitsAtTheCursor : Prop :=
  ∀ (s : State) (n : Nat), s.cursorOk → n ≤ 32 →
    (s.rem < n → readBits n s = raise .unexpectedEnd s) ∧
    (n ≤ s.rem → ∃ (v : Nat) (b : Word) (k : BitVec 3),
      readBits n s = .ok v { s with brByte := b, brBit := k } ∧ 8 * b.toNat + k.toNat = s.pos + n ∧ v < 2 ^ n
        ∧ (s.cfg.bitOrder = .msbFirst → ∀ j, j < n →
            v.testBit (n - 1 - j) = (Memory.read s.buf ((s.pos + j) / 8)).getLsbD (7 - (s.pos + j) % 8))
        ∧ (s.cfg.bitOrder = .lsbFirst → ∀ j, j < n →
            v.testBit j = (Memory.read s.buf ((s.pos + j) / 8)).getLsbD ((s.pos + j) % 8)))

/-- O5. One read of a + b bits and two reads of a and of b bits succeed together, end at the same cursor, and their values
are related as rule R62 says (rules R62 and R115 c). -/
def Obligations.ReadBitsComposes : Prop :=
  ∀ (s : State) (a b v : Nat) (u : State), s.cursorOk → a + b ≤ 32 →
    (readBits (a + b) s = .ok v u ↔
      ∃ (x y : Nat) (t : State), readBits a s = .ok x t ∧ readBits b t = .ok y u
        ∧ v = match s.cfg.bitOrder with
              | .msbFirst => x * 2 ^ b + y
              | .lsbFirst => x + y * 2 ^ a)

/-- O6. `ReadBits` depends on no byte of BUF at or beyond `BR_END` (rules R66 and R115 d). -/
def Obligations.ReadBitsLooksOnlyAtTheWindow : Prop :=
  ∀ (s : State) (m : Memory) (n : Nat), s.cursorOk → (∀ a, a < s.brEnd.toNat → Memory.read m a = Memory.read s.buf a) →
    (∀ v u, readBits n s = .ok v u → readBits n { s with buf := m } = .ok v { u with buf := m }) ∧
    (∀ x u, readBits n s = .stop x u → readBits n { s with buf := m } = .stop x { u with buf := m })

/-- O7. `SEEK` (rule R111): word, effect and error. -/
def Obligations.SeekPlacesTheCursor : Prop :=
  encode .seek = .command 0x01000000 ∧
  ∀ s : State, s.run = .idle →
    (s.arg1.toNat ≤ s.bufLen.toNat ∧ s.arg0.toNat ≤ s.arg1.toNat →
      exec .seek s = .next { s.ended 0x01000000 with brByte := s.arg0, brBit := 0, brEnd := s.arg1 }) ∧
    (s.bufLen.toNat < s.arg1.toNat ∨ s.arg1.toNat < s.arg0.toNat →
      exec .seek s = .next (s.failed 0x01000000 .offsetOutOfRange))

/-- O8. `RDBITS n` (rule R113): word, result, cursor, and its two errors, which leave `RES` and the cursor. That `CMD` keeps
its old word where n is above 32 (rules R84 and R229 against rule R80) is the model's reading, log entry 7. -/
def Obligations.RdbitsReturnsTheNextBits : Prop :=
  ∀ (s : State) (n : BitVec 6), s.run = .idle → s.cursorOk →
    (n.toNat ≤ 32 → encode (.rdbits n) = .command (0x02000000 ||| n.zeroExtend 32)) ∧
    (n.toNat ≤ 32 → n.toNat ≤ s.rem →
      exec (.rdbits n) s = .next { (s.skipBits n.toNat).ended (0x02000000 ||| n.zeroExtend 32) with
        res := BitVec.ofNat 32 (fieldValue s.cfg.bitOrder (s.nextBits n.toNat)) }) ∧
    (n.toNat ≤ 32 → s.rem < n.toNat →
      exec (.rdbits n) s = .next (s.failed (0x02000000 ||| n.zeroExtend 32) .unexpectedEnd)) ∧
    (32 < n.toNat → exec (.rdbits n) s = .next { s.failed s.cmd .illegalCommand with errOp := 0x02 })

/-- O9. `ALIGN` (rule R114): word and effect; it cannot fail, and twice is once. -/
def Obligations.AlignGoesToTheByteBoundary : Prop :=
  encode .align = .command 0x03000000 ∧
  ∀ s : State, s.run = .idle →
    (s.brBit = 0 → exec .align s = .next (s.ended 0x03000000)) ∧
    (s.brBit ≠ 0 → exec .align s = .next { s.ended 0x03000000 with brBit := 0, brByte := s.brByte + 1 }) ∧
    (∀ t, exec .align s = .next t → exec .align t = .next t)

/-- O10. No instruction but `SEEK`, `GETTAB` and `UNPACK` moves the cursor backwards (rules R22 and R115 b). -/
def Obligations.CursorNeverMovesBack : Prop :=
  ∀ (i : Instr) (s t : State), s.DataOk → i ≠ .seek → i ≠ .gettab → (∀ k, i ≠ .unpack k) → exec i s = .next t →
    s.pos ≤ t.pos

/-! ### The canonical Huffman builder and decoder (41_huffman.md) -/

/-- O11. `HBUILD t` (rule R135): word; the slot built, whose codes are those of the closed form of rule R133; and the
failure, which leaves the slot invalid. -/
def Obligations.HbuildBuildsTheCanonicalCode : Prop :=
  ∀ (t : BitVec 1) (s : State), s.run = .idle →
    encode (.hbuild t) = .command (0x04000000 ||| t.zeroExtend 32) ∧
    ((∀ v ∈ s.daList, v ≤ 16) ∧ (∃ v ∈ s.daList, v ≠ 0) ∧ kraft s.daList ≤ 2 ^ 16 →
      ∃ sl : Slot, exec (.hbuild t) s
          = .next ((s.ended (0x04000000 ||| t.zeroExtend 32)).setSlot (if t = 0 then .t0 else .t1) sl)
        ∧ sl.valid = true ∧ sl.ns = s.nsym ∧ (∀ x, x < s.nsym.toNat → sl.depthOf x = (s.daRead x).toNat)
        ∧ (∀ x, x < s.nsym.toNat → sl.depthOf x ≤ sl.maxlen.toNat)
        ∧ (∃ x, x < s.nsym.toNat ∧ sl.depthOf x = sl.maxlen.toNat)
        ∧ (∀ x, x < s.nsym.toNat → sl.depthOf x ≠ 0 →
            sl.codeOf x * 2 ^ (16 - sl.depthOf x) = kraftBefore s.daList x)) ∧
    (¬ ((∀ v ∈ s.daList, v ≤ 16) ∧ (∃ v ∈ s.daList, v ≠ 0) ∧ kraft s.daList ≤ 2 ^ 16) →
      ∃ sl : Slot, exec (.hbuild t) s
          = .next ((s.failed (0x04000000 ||| t.zeroExtend 32) .invalidDepths).setSlot (if t = 0 then .t0 else .t1) sl)
        ∧ sl.valid = false)

/-- O12. `Build` rejects a depth array exactly where it is empty, holds a depth above 16, uses no symbol, or has a Kraft sum
above 1 (rules R132 and R134). -/
def Obligations.BuildRejectsExactlyTheMalformed : Prop :=
  ∀ d : List Nat, buildSlot d = none ↔ d = [] ∨ (∃ v ∈ d, 16 < v) ∨ (∀ v ∈ d, v = 0) ∨ 2 ^ 16 < kraft d

/-- O13. Rule R134: K and its bound; the overflow test inside `Assign` and the Kraft test reject the same arrays. -/
def Obligations.OverflowTestIsTheKraftTest : Prop :=
  ∀ d : List Nat, d.length ≤ 16383 → checkDepths d = true →
    kraftSum d (sortUsed d) = kraft d ∧ kraft d < 2 ^ 29 ∧ (assign d (sortUsed d) = none ↔ 2 ^ 16 < kraft d)
      ∧ (buildSlot d = none ↔ 2 ^ 16 < kraft d)

/-- O14. Rule R37: what holds of every valid slot. -/
def Obligations.ValidSlotsArePrefixCodes : Prop :=
  ∀ (t : SlotId) (sl : Slot), sl.builtFor t →
    sl.valid = true ∧ 1 ≤ sl.ns.toNat ∧ (∃ x, x < sl.ns.toNat ∧ sl.depthOf x ≠ 0)
      ∧ 1 ≤ sl.maxlen.toNat ∧ sl.maxlen.toNat ≤ 16
      ∧ kraft ((List.range sl.ns.toNat).map sl.depthOf) ≤ 2 ^ 16
      ∧ (∀ x, (sl.codeBits x).length = sl.depthOf x)
      ∧ (∀ x, x < sl.ns.toNat → sl.depthOf x ≠ 0 → sl.codeOf x < 2 ^ sl.depthOf x)
      ∧ (∀ x y, x < sl.ns.toNat → y < sl.ns.toNat → sl.depthOf x ≠ 0 → sl.depthOf y ≠ 0 → x ≠ y →
          ¬ sl.codeBits x <+: sl.codeBits y)

/-- O15. `HDEC t` on the code of a symbol (rules R137 and R138): the symbol in `RES`, exactly its code's bits consumed. -/
def Obligations.HdecReturnsTheCodedSymbol : Prop :=
  ∀ (t : BitVec 2) (r : SlotId) (s : State) (x : Nat), s.run = .idle → s.cursorOk → r.index = t.toNat →
    (s.slot r).builtFor r → x < (s.slot r).ns.toNat → (s.slot r).depthOf x ≠ 0 → s.hasBits ((s.slot r).codeBits x) →
    encode (.hdec t) = .command (0x05000000 ||| t.zeroExtend 32) ∧
    exec (.hdec t) s = .next { (s.skipBits ((s.slot r).depthOf x)).ended (0x05000000 ||| t.zeroExtend 32) with
      res := BitVec.ofNat 32 x }

/-- O16. The failures of `HDEC t` (rules R137 and R138): an invalid slot; no code among the next `MAXLEN` bits; the window
ending before a code; and t = 3. `RES` is unchanged, and the cursor stands where `Decode` left it. What `CMD` holds is the
model's reading: its old word where t = 3, which makes the word illegal (log entry 7), and the command's own word where the
slot is invalid (log entry 20). -/
def Obligations.HdecFails : Prop :=
  ∀ (t : BitVec 2) (s : State), s.run = .idle → s.cursorOk →
    (t = 3 → exec (.hdec t) s = .next { s.failed s.cmd .illegalCommand with errOp := 0x05 }) ∧
    (∀ r : SlotId, r.index = t.toNat →
      ((s.slot r).valid = false →
        exec (.hdec t) s = .next (s.failed (0x05000000 ||| t.zeroExtend 32) .illegalCommand)) ∧
      ((s.slot r).builtFor r → (s.slot r).maxlen.toNat ≤ s.rem →
        (∀ x, x < (s.slot r).ns.toNat → (s.slot r).depthOf x ≠ 0 →
          ¬ (s.slot r).codeBits x <+: s.nextBits (s.slot r).maxlen.toNat) →
        exec (.hdec t) s = .next ((s.skipBits (s.slot r).maxlen.toNat).failed (0x05000000 ||| t.zeroExtend 32)
          .corruptStream)) ∧
      ((s.slot r).builtFor r → s.rem < (s.slot r).maxlen.toNat →
        (∀ x, x < (s.slot r).ns.toNat → (s.slot r).depthOf x ≠ 0 → ¬ (s.slot r).codeBits x <+: s.nextBits s.rem) →
        exec (.hdec t) s = .next ((s.skipBits s.rem).failed (0x05000000 ||| t.zeroExtend 32) .unexpectedEnd)))

/-- O17. Round trip (rule R139 b): successive calls of `Decode` give back the symbols whose codes lie at the cursor. -/
def Obligations.DecodingInvertsCoding : Prop :=
  ∀ (t : SlotId) (s : State) (xs : List Nat), s.cursorOk → (s.slot t).builtFor t →
    (∀ x ∈ xs, x < (s.slot t).ns.toNat ∧ (s.slot t).depthOf x ≠ 0) → s.hasBits (xs.flatMap (s.slot t).codeBits) →
    decodeMany t xs.length s = .ok xs (s.skipBits (xs.flatMap (s.slot t).codeBits).length)

/-- O18. Completeness (rule R139 d): where the Kraft sum is 1 every string of `MAXLEN` bits begins with a code; where it is
below 1 some string does not. -/
def Obligations.CompleteCodesMatchEverything : Prop :=
  ∀ (d : List Nat) (sl : Slot), d.length ≤ daSize → buildSlot d = some sl →
    (kraft d = 2 ^ 16 → ∀ bits : List Nat, bits.length = sl.maxlen.toNat → (∀ b ∈ bits, b ≤ 1) →
      ∃ x, x < sl.ns.toNat ∧ sl.depthOf x ≠ 0 ∧ sl.codeBits x <+: bits) ∧
    (kraft d < 2 ^ 16 → ∃ bits : List Nat, bits.length = sl.maxlen.toNat ∧ (∀ b ∈ bits, b ≤ 1)
      ∧ ∀ x, x < sl.ns.toNat → sl.depthOf x ≠ 0 → ¬ sl.codeBits x <+: bits)

/-- O19. The construction scenario of rule R141: depths `[2,2,2,3,3,1]` fail; `[3,3,3,4,4,1]` give the six codes. -/
def Obligations.SourceScenario : Prop :=
  buildSlot [2, 2, 2, 3, 3, 1] = none ∧
  ∃ sl, buildSlot [3, 3, 3, 4, 4, 1] = some sl ∧ sl.codeBits 5 = [0] ∧ sl.codeBits 0 = [1, 0, 0]
    ∧ sl.codeBits 1 = [1, 0, 1] ∧ sl.codeBits 2 = [1, 1, 0] ∧ sl.codeBits 3 = [1, 1, 1, 0] ∧ sl.codeBits 4 = [1, 1, 1, 1]

/-! ### The table reader (42_table_reader.md) -/

/-- O20. `TREAD t` on a record that lies at the cursor (rules R88 to R90 and R151 to R162): the slot of the record's depth
array, its temporary tree in `T[2]`, the depths in `DA` and the temporary depths in `TD`, and the cursor on the bit after
the record. `DA` at and above the count is as before. -/
def Obligations.TreadReadsARecord : Prop :=
  ∀ (t : BitVec 1) (s : State) (r : Record), s.run = .idle → s.cursorOk → r.legal s.cfg → s.hasBits (r.bits s.cfg) →
    encode (.tread t) = .command (0x06000000 ||| t.zeroExtend 32) ∧
    ∃ (da : Store (BitVec 5)) (td : Store Nat),
      exec (.tread t) s = .next (({ (s.skipBits (r.bits s.cfg).length).ended (0x06000000 ||| t.zeroExtend 32) with
          nsym := BitVec.ofNat 14 r.count, ofs := BitVec.ofNat 14 r.count
          lastnz := BitVec.ofNat 5 (lastNonzero r.depths), tmp := r.tree, da := da, td := td } : State).setSlot
            (if t = 0 then .t0 else .t1) r.main)
        ∧ r.depths.length = r.count
        ∧ (∀ k, k < r.count → Store.find da k = some (BitVec.ofNat 5 (depthAt r.depths k)))
        ∧ (∀ k, r.count ≤ k → Store.find da k = Store.find s.da k)
        ∧ (∀ k, k < 21 → Store.find td k = some (depthAt r.tmpDepths k))

/-- O21. What `TREAD t` changes, whether it succeeds or fails; that a failure leaves slot t invalid and records `ERR_OP` and
one of the five errors of rule R151; that `DA` at and above `OFS` is as before; that `NSYM` holds the count where its 14 bits
are there and else its old value; and that `T[2]` is valid exactly where steps 1 to 3 succeeded, which is where a legal
header lies at the cursor, and then holds its tree (rules R151 to R154, R167 and R216). -/
def Obligations.TreadFrameAndFailure : Prop :=
  ∀ (t : BitVec 1) (r : SlotId) (s u : State), s.DataOk → s.run = .idle → r = (if t = 0 then .t0 else .t1) →
    exec (.tread t) s = .next u →
    u = ({ s with cmd := 0x06000000 ||| t.zeroExtend 32, run := u.run, err := u.err, errOp := u.errOp,
                  brByte := u.brByte, brBit := u.brBit, nsym := u.nsym, ofs := u.ofs, lastnz := u.lastnz, td := u.td,
                  da := u.da, tmp := u.tmp, trState := .idle, upState := .idle, gtPhase := .start } : State).setSlot r
            (u.slot r)
      ∧ (∀ k, u.ofs.toNat ≤ k → Store.find u.da k = Store.find s.da k)
      ∧ (s.rem < 14 → u.nsym = s.nsym)
      ∧ (14 ≤ s.rem → u.nsym = BitVec.ofNat 14 (fieldValue s.cfg.bitOrder (s.nextBits 14)))
      ∧ (u.tmp.valid = true → ∃ h : Header, h.legal s.cfg ∧ s.hasBits (h.bits s.cfg))
      ∧ (∀ h : Header, h.legal s.cfg → s.hasBits (h.bits s.cfg) → u.tmp = h.tree ∧ u.tmp.valid = true)
      ∧ (u.run = .idle ∧ u.err = s.err ∧ u.errOp = s.errOp ∧ (u.slot r).valid = true ∧ u.tmp.valid = true
            ∧ u.ofs = u.nsym
          ∨ u.run = .error ∧ u.errOp = 0x06 ∧ (u.slot r).valid = false
            ∧ (u.err = some .unexpectedEnd ∨ u.err = some .invalidDepths ∨ u.err = some .corruptStream
              ∨ u.err = some .depthArrayOverrun ∨ u.err = some .depthArrayUnderrun))

/-- O22. The errors of steps 1 to 3 of `TREAD t` (rules R152 to R154, R163 and R168). Step 1: fewer than 14 bits are
`UnexpectedEnd`, a count of 0 is `InvalidDepths` before any further bit is read. Then, `NSYM` holding the count: a window
that ends inside the count field of rule R168, or inside the depth field after k whole ones, is `UnexpectedEnd`; 0 or more
than 21 fields, or depths that build no tree, are `InvalidDepths`. `TD` holds the k fields read, the rest of it as before or
cleared by rule R168, `DA` is unchanged, both slots are invalid, and the cursor is where the failing read left it. -/
def Obligations.TreadHeaderErrors : Prop :=
  ∀ (t : BitVec 1) (s : State), s.run = .idle → s.cursorOk →
    (∃ sl tmp : Slot, sl.valid = false ∧ tmp.valid = false ∧
      (s.rem < 14 → exec (.tread t) s = .next
        (({ s.failed (0x06000000 ||| t.zeroExtend 32) .unexpectedEnd with ofs := 0, lastnz := 0, tmp := tmp } :
          State).setSlot (if t = 0 then .t0 else .t1) sl)) ∧
      (14 ≤ s.rem → (∀ b ∈ s.nextBits 14, b = 0) → exec (.tread t) s = .next
        (({ (s.skipBits 14).failed (0x06000000 ||| t.zeroExtend 32) .invalidDepths with
            nsym := 0, ofs := 0, lastnz := 0, tmp := tmp } : State).setSlot (if t = 0 then .t0 else .t1) sl))) ∧
    (∀ (count start fields k n : Nat) (e : ErrorKind), 14 ≤ s.rem → count = fieldValue s.cfg.bitOrder (s.nextBits 14) →
      count ≠ 0 → start = 14 + s.cfg.tmpCountW →
      fields = (if s.cfg.tmpCountW = 0 then 21
        else fieldValue s.cfg.bitOrder ((s.skipBits 14).nextBits s.cfg.tmpCountW)) →
      (s.rem < start ∧ k = 0 ∧ n = 14 ∧ e = .unexpectedEnd
        ∨ start ≤ s.rem ∧ (fields = 0 ∨ 21 < fields) ∧ k = 0 ∧ n = start ∧ e = .invalidDepths
        ∨ start ≤ s.rem ∧ fields ≤ 21 ∧ k < fields ∧ n = start + k * s.cfg.tmpDepthW ∧ n ≤ s.rem
            ∧ s.rem < n + s.cfg.tmpDepthW ∧ e = .unexpectedEnd
        ∨ 1 ≤ fields ∧ fields ≤ 21 ∧ k = fields ∧ n = start + k * s.cfg.tmpDepthW ∧ n ≤ s.rem ∧ e = .invalidDepths
            ∧ ∃ depths : List Nat, depths.length = 21 ∧ buildSlot depths = none
              ∧ (∀ j, j < fields → depthAt depths (tmpOrder.getD j 0)
                  = fieldValue s.cfg.bitOrder ((s.skipBits (start + j * s.cfg.tmpDepthW)).nextBits s.cfg.tmpDepthW))
              ∧ (∀ x ∈ tmpOrder.drop fields, depthAt depths x = 0)) →
      ∃ (sl tmp : Slot) (td : Store Nat), sl.valid = false ∧ tmp.valid = false
        ∧ exec (.tread t) s = .next (({ (s.skipBits n).failed (0x06000000 ||| t.zeroExtend 32) e with
              nsym := BitVec.ofNat 14 count, ofs := 0, lastnz := 0, tmp := tmp, td := td } : State).setSlot
                (if t = 0 then .t0 else .t1) sl)
        ∧ (∀ j, j < k → Store.find td (tmpOrder.getD j 0) = some (fieldValue s.cfg.bitOrder
              ((s.skipBits (start + j * s.cfg.tmpDepthW)).nextBits s.cfg.tmpDepthW)))
        ∧ (∀ x, x ∉ tmpOrder.take k →
              Store.find td x = if s.cfg.tmpCountW = 0 ∨ 21 ≤ x then Store.find s.td x else some 0))

/-- O23. The 17 literals `LIT0` to `LIT16` (rule R156), at step 4 of a running reader with entries still to be produced. -/
def Obligations.LiteralsWriteOneEntry : Prop :=
  ∀ (v : Nat) (i : Instr) (s : State), v ≤ 16 → decodeSymbol v = .ok i → s.run = .busy → s.trState = .sym →
    s.ofs.toNat < s.nsym.toNat →
    ∃ da : Store (BitVec 5),
      exec i s = .next { s with da := da, ofs := s.ofs + 1, lastnz := if v = 0 then s.lastnz else BitVec.ofNat 5 v }
        ∧ Store.find da s.ofs.toNat = some (BitVec.ofNat 5 v)
        ∧ ∀ k, k ≠ s.ofs.toNat → Store.find da k = Store.find s.da k

/-- O24. `SHORTZERO` and `LONGZERO` (rules R157, R158, R161 and R90): a run of zeros; `LASTNZ` stays. -/
def Obligations.ZeroRunsWriteZeros : Prop :=
  ∀ (i : Instr) (w bias : Nat) (s : State),
    (i = .shortzero ∧ w = 3 ∧ bias = s.cfg.szBias ∨ i = .longzero ∧ w = 7 ∧ bias = s.cfg.lzBias) →
    s.run = .busy → s.trState = .sym → s.ofs.toNat < s.nsym.toNat → s.cursorOk → w ≤ s.rem →
    ∀ run, run = fieldValue s.cfg.bitOrder (s.nextBits w) + bias → run ≤ s.nsym.toNat - s.ofs.toNat →
    ∃ da : Store (BitVec 5),
      exec i s = .next { s.skipBits w with da := da, ofs := BitVec.ofNat 14 (s.ofs.toNat + run) }
        ∧ (∀ k, s.ofs.toNat ≤ k → k < s.ofs.toNat + run → Store.find da k = some 0)
        ∧ ∀ k, k < s.ofs.toNat ∨ s.ofs.toNat + run ≤ k → Store.find da k = Store.find s.da k

/-- O25. `SHORTREPEAT` and `LONGREPEAT` (rules R159, R160, R161 and R90): a run of `LASTNZ`, which stays. -/
def Obligations.RepeatRunsWriteTheLastNonzero : Prop :=
  ∀ (i : Instr) (w bias : Nat) (s : State),
    (i = .shortrepeat ∧ w = 2 ∧ bias = s.cfg.srBias ∨ i = .longrepeat ∧ w = 6 ∧ bias = s.cfg.lrBias) →
    s.run = .busy → s.trState = .sym → s.ofs.toNat < s.nsym.toNat → s.cursorOk → w ≤ s.rem → s.lastnz ≠ 0 →
    ∀ run, run = fieldValue s.cfg.bitOrder (s.nextBits w) + bias → run ≤ s.nsym.toNat - s.ofs.toNat →
    ∃ da : Store (BitVec 5),
      exec i s = .next { s.skipBits w with da := da, ofs := BitVec.ofNat 14 (s.ofs.toNat + run) }
        ∧ (∀ k, s.ofs.toNat ≤ k → k < s.ofs.toNat + run → Store.find da k = some s.lastnz)
        ∧ ∀ k, k < s.ofs.toNat ∨ s.ofs.toNat + run ≤ k → Store.find da k = Store.find s.da k

/-- O26. The errors of step 4 inside a `TREAD` or a `GETTAB` and their order. `Decode(2)` first, as a step of a running reader:
`MAXLEN` bits that begin with no code are `CorruptStream`, a window that ends inside a code is `DepthArrayUnderrun` (rules
R155 and R163). Then the four escapes (rule R161): the parameter's bits, nothing to repeat, overrun. No entry of `DA` is
written. Inside a `GETTAB` each invalidates `T[0]` too (rule R166); that its other fields stay is the model's, log entry 6. -/
def Obligations.SymbolErrorsInOrder : Prop :=
  ∀ s : State, s.run = .busy → s.trState = .sym → s.ofs.toNat < s.nsym.toNat → s.cursorOk →
    opByte s.cmd = 0x06 ∨ opByte s.cmd = 0x07 →
    (s.inputs = [] → s.tmp.builtFor .tmp →
      (s.tmp.maxlen.toNat ≤ s.rem → s.noCodeIn s.tmp s.tmp.maxlen.toNat →
        step s = .next ((s.skipBits s.tmp.maxlen.toNat).failedInRecord .corruptStream)) ∧
      (s.rem < s.tmp.maxlen.toNat → s.noCodeIn s.tmp s.rem →
        step s = .next ((s.skipBits s.rem).failedInRecord .depthArrayUnderrun))) ∧
    (∀ (i : Instr) (w bias : Nat) (repeats : Bool),
      (i = .shortzero ∧ w = 3 ∧ bias = s.cfg.szBias ∧ repeats = false
        ∨ i = .longzero ∧ w = 7 ∧ bias = s.cfg.lzBias ∧ repeats = false
        ∨ i = .shortrepeat ∧ w = 2 ∧ bias = s.cfg.srBias ∧ repeats = true
        ∨ i = .longrepeat ∧ w = 6 ∧ bias = s.cfg.lrBias ∧ repeats = true) →
      (s.rem < w → exec i s = .next (s.failedInRecord .depthArrayUnderrun)) ∧
      (w ≤ s.rem → repeats = true → s.lastnz = 0 → exec i s = .next ((s.skipBits w).failedInRecord .corruptStream)) ∧
      (w ≤ s.rem → (repeats = true → s.lastnz ≠ 0) →
        s.nsym.toNat - s.ofs.toNat < fieldValue s.cfg.bitOrder (s.nextBits w) + bias →
        exec i s = .next ((s.skipBits w).failedInRecord .depthArrayOverrun)))

/-- O27. A symbol is an instruction only at step 4 of a running reader with entries still to be produced (rule R155); anywhere
else `exec` gives it no outcome. The refusal is the model's choice (log entry 10). -/
def Obligations.SymbolsNeedARunningReader : Prop :=
  ∀ (i : Instr) (s : State), isCommand i = false →
    ¬ (s.run = .busy ∧ s.trState = .sym ∧ s.ofs.toNat < s.nsym.toNat) → exec i s = .refused .symbolNotDispatched

/-- O28. `GETTAB` on two records that lie one after the other from byte `TABLE_OFS` (rules R92 and R166): `T[0]` from the
first, `T[1]`, `T[2]`, `DA`, `NSYM` from the second, and the cursor on the bit after the second. -/
def Obligations.GettabReadsTwoRecords : Prop :=
  encode .gettab = .command 0x07000000 ∧
  ∀ (s : State) (r0 r1 : Record), s.run = .idle → s.tableOfs.toNat ≤ s.bufLen.toNat → r0.legal s.cfg → r1.legal s.cfg →
    (s.seekTo s.tableOfs s.bufLen).hasBits (r0.bits s.cfg ++ r1.bits s.cfg) →
    ∃ (da : Store (BitVec 5)) (td : Store Nat),
      exec .gettab s = .next
          { ((s.seekTo s.tableOfs s.bufLen).skipBits (r0.bits s.cfg ++ r1.bits s.cfg).length).ended 0x07000000 with
            nsym := BitVec.ofNat 14 r1.count, ofs := BitVec.ofNat 14 r1.count
            lastnz := BitVec.ofNat 5 (lastNonzero r1.depths), t0 := r0.main, t1 := r1.main, tmp := r1.tree
            da := da, td := td }
        ∧ (∀ k, k < r1.count → Store.find da k = some (BitVec.ofNat 5 (depthAt r1.depths k)))
        ∧ (∀ k, r1.count ≤ k → k < r0.count → Store.find da k = some (BitVec.ofNat 5 (depthAt r0.depths k)))
        ∧ (∀ k, r1.count ≤ k → r0.count ≤ k → Store.find da k = Store.find s.da k)
        ∧ (∀ k, k < 21 → Store.find td k = some (depthAt r1.tmpDepths k))

/-- O29. What `GETTAB` changes, and that it ends with both slots valid or, after any error, with both invalid: a Table or an
error (rules R166 and R216). A table offset beyond the buffer is `OffsetOutOfRange`, and then the cursor, `T[2]`, `NSYM`, `DA`
and all else are unchanged. Otherwise its records are read as `TREAD 0` and `TREAD 1` read them, so that O20 to O22 and O59
say what it leaves: a failing record ends it as that `TREAD` ends (rule R167), the second with `T[0]` invalid too. That an
invalidated slot keeps its other fields is the model's, log entry 6, and that a failing second record leaves what the first
one wrote to `DA`, `NSYM` and `TD` is its reading of rule R167, log entry 21. -/
def Obligations.GettabGivesATableOrNone : Prop :=
  ∀ s u : State, s.DataOk → s.run = .idle → exec .gettab s = .next u →
    u = { s with cmd := 0x07000000, run := u.run, err := u.err, errOp := u.errOp, brByte := u.brByte, brBit := u.brBit,
                 brEnd := u.brEnd, nsym := u.nsym, ofs := u.ofs, lastnz := u.lastnz, td := u.td, da := u.da, t0 := u.t0,
                 t1 := u.t1, tmp := u.tmp, trState := .idle, upState := .idle, gtPhase := .start }
      ∧ (u.run = .idle ∧ u.err = s.err ∧ u.errOp = s.errOp ∧ u.t0.valid = true ∧ u.t1.valid = true
          ∨ u.run = .error ∧ u.errOp = 0x07 ∧ u.t0.valid = false ∧ u.t1.valid = false
            ∧ (u.err = some .offsetOutOfRange ∨ u.err = some .unexpectedEnd ∨ u.err = some .invalidDepths
              ∨ u.err = some .corruptStream ∨ u.err = some .depthArrayOverrun ∨ u.err = some .depthArrayUnderrun))
      ∧ (s.bufLen.toNat < s.tableOfs.toNat ↔ u.err = some .offsetOutOfRange ∧ u.run = .error)
      ∧ (s.bufLen.toNat < s.tableOfs.toNat →
          u = ((s.failed 0x07000000 .offsetOutOfRange).invalidate .t0).invalidate .t1)
      ∧ (s.tableOfs.toNat ≤ s.bufLen.toNat →
          ∃ b, exec (.tread 0) (((s.invalidate .t0).invalidate .t1).seekTo s.tableOfs s.bufLen) = .next b
            ∧ (b.run = .error ∧ u = { b with cmd := 0x07000000, errOp := 0x07 }
              ∨ b.run = .idle ∧ ∃ c, exec (.tread 1) b = .next c
                ∧ (c.run = .error ∧ u = ({ c with cmd := 0x07000000, errOp := 0x07 } : State).invalidate .t0
                  ∨ c.run = .idle ∧ u = { c with cmd := 0x07000000 })))

/-! ### The level unpacker (43_level_unpacker.md) -/

/-- O30. `LVLINFO i` (rule R181): word, the two dimensions, and its error. -/
def Obligations.LvlinfoHalvesWithAFloorOfOne : Prop :=
  ∀ (i : BitVec 8) (s : State), s.run = .idle →
    encode (.lvlinfo i) = .command (0x08000000 ||| i.zeroExtend 32) ∧
    (i.toNat < s.levelCount.val → exec (.lvlinfo i) s = .next { s.ended (0x08000000 ||| i.zeroExtend 32) with
        liW := BitVec.ofNat 16 (max 1 (s.imgW.toNat / 2 ^ i.toNat))
        liH := BitVec.ofNat 16 (max 1 (s.imgH.toNat / 2 ^ i.toNat)) }) ∧
    (s.levelCount.val ≤ i.toNat →
      exec (.lvlinfo i) s = .next (s.failed (0x08000000 ||| i.zeroExtend 32) .levelIndexOutOfRange))

/-- O31. `UNPACK i` under `LITERAL` on level data that codes the bytes of the level (rules R93, R182, R184 and R187): OUT
holds exactly those bytes, `EXP_LEN` of them, and the cursor stands after the last item. That OUT at and beyond `OUT_LEN` is
as before is the model's frame, log entry 11: the spec leaves those bytes unspecified. The number 0 for the unit context in
`EXPCTX` is the model's coding, log entry 9. -/
def Obligations.UnpackWritesTheCodedBytes : Prop :=
  ∀ (i : BitVec 8) (s : State) (w h b : Nat) (bytes : List Byte), s.run = .idle → Memory.wf s.out = true →
    s.cfg.expand = .literal → i.toNat < s.levelCount.val →
    w = max 1 (s.imgW.toNat / 2 ^ i.toNat) → h = max 1 (s.imgH.toNat / 2 ^ i.toNat) →
    (s.fmt = 0 ∧ b = 8 ∨ s.fmt = 1 ∧ b = 16 ∨ s.fmt = 2 ∧ b = 16) → s.t0.builtFor .t0 →
    (s.levelOfs i.toNat).toNat + (s.levelSize i.toNat).toNat ≤ s.bufLen.toNat →
    bytes.length = (w + 3) / 4 * ((h + 3) / 4) * b → (∀ x ∈ bytes, s.t0.depthOf x.toNat ≠ 0) →
    (s.seekTo (s.levelOfs i.toNat) (s.levelOfs i.toNat + s.levelSize i.toNat)).hasBits
      (bytes.flatMap fun x => s.t0.codeBits x.toNat) →
    encode (.unpack i) = .command (0x09000000 ||| i.zeroExtend 32) ∧
    ∃ out : Memory,
      exec (.unpack i) s = .next
          { ((s.seekTo (s.levelOfs i.toNat) (s.levelOfs i.toNat + s.levelSize i.toNat)).skipBits
              (bytes.flatMap fun x => s.t0.codeBits x.toNat).length).ended (0x09000000 ||| i.zeroExtend 32) with
            liW := BitVec.ofNat 16 w, liH := BitVec.ofNat 16 h, expLen := BitVec.ofNat 33 bytes.length
            outLen := BitVec.ofNat 33 bytes.length, outValid := true, expCtx := 0, out := out }
        ∧ (∀ (k : Nat) (hk : k < bytes.length), Memory.read out k = bytes[k])
        ∧ (∀ k, bytes.length ≤ k → Memory.read out k = Memory.read s.out k)

/-- O32. The four pre-checks of `UNPACK i` in their order (rules R183, R184 and R224), for every `EXPAND`: each leaves no
output and everything else unchanged but `CMD`. That `CMD` holds the command's word and `OUT_LEN` and `OUT_VALID` are
cleared also where the error is `IllegalCommand` (rules R80 and R184 against rule R229) is the model's reading, log entry
20. That the bytes of OUT stay is the model's choice, log entry 11: the spec leaves them unspecified after every failed
`UNPACK`. -/
def Obligations.UnpackChecksInOrder : Prop :=
  ∀ (i : BitVec 8) (s t : State) (w : Word), s.run = .idle → w = 0x09000000 ||| i.zeroExtend 32 →
    t = { s with outValid := false, outLen := 0 } →
    (s.levelCount.val ≤ i.toNat → exec (.unpack i) s = .next (t.failed w .levelIndexOutOfRange)) ∧
    (i.toNat < s.levelCount.val →
      (2 < s.fmt.toNat → exec (.unpack i) s = .next (t.failed w .unsupportedFormat)) ∧
      (s.fmt.toNat ≤ 2 →
        (s.t0.valid = false ∨ s.cfg.expand.usesAux = true ∧ s.t1.valid = false →
          exec (.unpack i) s = .next (t.failed w .illegalCommand)) ∧
        (s.t0.valid = true ∧ (s.cfg.expand.usesAux = true → s.t1.valid = true) →
          s.bufLen.toNat < (s.levelOfs i.toNat).toNat + (s.levelSize i.toNat).toNat →
          exec (.unpack i) s = .next (t.failed w .offsetOutOfRange))))

/-- O33. All or nothing (rules R190 and R192 a): for every `EXPAND`, `UNPACK i` ends, with the whole output or with an error
and none, and changes nothing but what rule R184 lists and `CMD`. That `CMD` holds the command's word where the error is
`IllegalCommand` too is the model's reading, log entry 20. -/
def Obligations.UnpackIsAllOrNothing : Prop :=
  ∀ (i : BitVec 8) (s : State), s.DataOk → s.run = .idle →
    ∃ u : State, exec (.unpack i) s = .next u
      ∧ u = { s with cmd := 0x09000000 ||| i.zeroExtend 32, run := u.run, err := u.err, errOp := u.errOp,
                     brByte := u.brByte, brBit := u.brBit, brEnd := u.brEnd, liW := u.liW, liH := u.liH,
                     expLen := u.expLen, expCtx := u.expCtx, out := u.out, outLen := u.outLen, outValid := u.outValid,
                     trState := .idle, upState := .idle, gtPhase := .start }
      ∧ (u.run = .idle ∧ u.err = s.err ∧ u.errOp = s.errOp ∧ u.outValid = true ∧ u.outLen = u.expLen
            ∧ 8 ≤ u.expLen.toNat
          ∨ u.run = .error ∧ u.errOp = 0x09 ∧ u.outValid = false ∧ u.outLen = 0
            ∧ (u.err = some .levelIndexOutOfRange ∨ u.err = some .unsupportedFormat ∨ u.err = some .illegalCommand
              ∨ u.err = some .offsetOutOfRange ∨ u.err = some .levelSizeMismatch ∨ u.err = some .unexpectedEnd
              ∨ u.err = some .corruptStream))

/-- O34. How `UNPACK i` under `LITERAL` fails inside its loop, with which error, and what it leaves (rules R184 and R187 to
R190): the level's data codes some bytes, fewer than `EXP_LEN`, and then breaks off with error e after n more bits. `LI_W`,
`LI_H` and `EXP_LEN` hold the values computed, the cursor is where the failing read left it, there is no output, the slots are
unchanged, and OUT holds anything. The number 0 for the unit context in `EXPCTX` is the model's coding, log entry 9. -/
def Obligations.UnpackFailsInsideTheLoop : Prop :=
  ∀ (i : BitVec 8) (s u : State) (w h b n : Nat) (bytes : List Byte) (e : ErrorKind), s.run = .idle →
    s.cfg.expand = .literal → i.toNat < s.levelCount.val →
    w = max 1 (s.imgW.toNat / 2 ^ i.toNat) → h = max 1 (s.imgH.toNat / 2 ^ i.toNat) →
    (s.fmt = 0 ∧ b = 8 ∨ s.fmt = 1 ∧ b = 16 ∨ s.fmt = 2 ∧ b = 16) → s.t0.builtFor .t0 →
    (s.levelOfs i.toNat).toNat + (s.levelSize i.toNat).toNat ≤ s.bufLen.toNat →
    bytes.length < (w + 3) / 4 * ((h + 3) / 4) * b → (∀ x ∈ bytes, s.t0.depthOf x.toNat ≠ 0) →
    (s.seekTo (s.levelOfs i.toNat) (s.levelOfs i.toNat + s.levelSize i.toNat)).hasBits
      (bytes.flatMap fun x => s.t0.codeBits x.toNat) →
    u = (s.seekTo (s.levelOfs i.toNat) (s.levelOfs i.toNat + s.levelSize i.toNat)).skipBits
      (bytes.flatMap fun x => s.t0.codeBits x.toNat).length →
    u.levelBreaksOff n e →
    ∃ out : Memory, exec (.unpack i) s = .next { (u.skipBits n).failed (0x09000000 ||| i.zeroExtend 32) e with
      liW := BitVec.ofNat 16 w, liH := BitVec.ofNat 16 h, expLen := BitVec.ofNat 33 ((w + 3) / 4 * ((h + 3) / 4) * b)
      outLen := 0, outValid := false, expCtx := 0, out := out }

/-- O35. `UNPACK i` depends on no byte of BUF outside the level's window, for every `EXPAND` (rules R66 and R192 c). After a
failure the bytes of OUT and `EXPCTX` are compared too, which the model fixes by log entries 11 and 9. -/
def Obligations.UnpackLooksOnlyAtItsLevel : Prop :=
  ∀ (i : BitVec 8) (s u : State) (m : Memory), s.DataOk → s.run = .idle →
    (∀ a, (s.levelOfs i.toNat).toNat ≤ a → a < (s.levelOfs i.toNat).toNat + (s.levelSize i.toNat).toNat →
      Memory.read m a = Memory.read s.buf a) →
    exec (.unpack i) s = .next u → exec (.unpack i) { s with buf := m } = .next { u with buf := m }

/-- O36. The expansion of a symbol. Under `LITERAL` it is one byte for a symbol up to 255, and `ExpandError` above (rule R187),
which `UNPACK` raises as `CorruptStream` (rules R184 and R189), and there is no auxiliary tree; the number 0 for its unit
context is the model's coding, log entry 9. For every `EXPAND`: errors of its reads propagate as themselves and `ExpandError`
becomes `CorruptStream` (rules R186 and R189), and that the state after such a failing call has the old `EXPCTX` is the
model's choice, log entry 9; an expansion that would pass `EXP_LEN` is `LevelSizeMismatch` before any byte
of it is appended, and any other stands (rule R188). -/
def Obligations.ExpansionOfASymbol : Prop :=
  ∀ (s : State) (x : Nat),
    (s.cfg.expand = .literal →
      (x ≤ 255 → expandSym x s = .ok [BitVec.ofNat 8 x] s) ∧ (256 ≤ x → expandSym x s = raise .corruptStream s)
        ∧ s.cfg.expand.usesAux = false ∧ s.cfg.expand.ctx0 = 0) ∧
    (∀ aux : Bool, runExpand (.expandError : ExpandProg aux) s = raise .corruptStream s
      ∧ (∀ (n : Fin 33) (k : Nat → ExpandProg aux), s.rem < n.val → runExpand (.readBits n k) s = raise .unexpectedEnd s)
      ∧ (∀ (k : Nat → ExpandProg aux) y t, decodeSym .t0 s = .stop y t → runExpand (.decodeMain k) s = .stop y t)
      ∧ (∀ (a : aux = true) (k : Nat → ExpandProg aux) y t, decodeSym .t1 s = .stop y t →
          runExpand (.decodeAux a k) s = .stop y t)) ∧
    (∀ y t, expandSym x s = .stop y t → unpackExpand x s = .stop y t) ∧
    (∀ bs t, s.cursorOk → expandSym x s = .ok bs t →
      t.out = s.out ∧ t.outLen = s.outLen ∧ t.expLen = s.expLen ∧
      (s.expLen.toNat < s.outLen.toNat + bs.length → unpackExpand x s = raise .levelSizeMismatch t) ∧
      (s.outLen.toNat + bs.length ≤ s.expLen.toNat → unpackExpand x s = .ok bs t))

/-! ### The system commands, the host's accesses and errors (44_system.md, 60_exceptions.md, 10_state.md) -/

/-- O37. `CLRERR` (rule R201), in `ERROR` and in `IDLE`: `ERR`, `ERR_OP` and `STATE`, and nothing else but `CMD`, which reads
back the last word written (rule R80; log entry 8). -/
def Obligations.ClrerrClearsTheError : Prop :=
  encode .clrerr = .command 0x0A000000 ∧
  ∀ s : State, s.run = .idle ∨ s.run = .error →
    exec .clrerr s = .next { s with cmd := 0x0A000000, err := none, errOp := 0, run := .idle }

/-- O38. While `STATE = ERROR` (rule R217): every command but `CLRERR`, every word that is no command, and every write to
another register change nothing at all, and reads work as usual. -/
def Obligations.ErrorStateRefusesEverythingElse : Prop :=
  ∀ (s : State) (rest : List HostAction), s.run = .error →
    (∀ i, isCommand i = true → i ≠ .clrerr → exec i s = .next s) ∧
    (∀ r v, ¬ (r = 0 ∧ v = 0x0A000000) →
      step { s with inputs := .write r v :: rest } = .next { s with inputs := rest }) ∧
    (∀ r, (0x43 ≤ r → r ≤ 0x46 → (s.slot s.tSel).valid = true) →
      step { s with inputs := .read r :: rest } = .next { s with inputs := rest, busData := s.regValue r })

/-- O39. While `STATE = BUSY` the host has no write move (rule R245): `exec` refuses a command, and a step leaves a write
waiting. The refusal and the waiting are the model's choice (log entry 10). -/
def Obligations.BusyAcceptsNoWrite : Prop :=
  ∀ s : State, s.run = .busy →
    (∀ i, isCommand i = true → i.wf = true → exec i s = .refused .commandWhileBusy) ∧
    (∀ r v rest t, s.Inv → s.inputs = .write r v :: rest → step s = .next t → t.inputs = .write r v :: rest)

/-- O40. A host write in `IDLE` to a register other than `CMD` (rules R24, R30, R44 and R204): a legal value is taken, with
the side effect of `BUF_LEN`; everything else raises `IllegalCommand` with `ERR_OP = 0` and changes no register. The bounds
that follow the parameters are the model's reading, log entry 14: `LEVEL_COUNT` up to `P_MAXLEVELS`, `LVL_OFS` and `LVL_SIZE`
below it, and `IMG_W` and `IMG_H` below `2^P_DIM_W`. -/
def Obligations.HostWrites : Prop :=
  ∀ (s t : State) (v : Word) (rest : List HostAction) (after : Nat → Out), s.run = .idle → s.cfg.maxLevels ≤ 16 →
    t = { s with inputs := rest } → (∀ r, after r = step { s with inputs := .write r v :: rest }) →
    after 0x02 = .next { t with arg0 := v } ∧ after 0x03 = .next { t with arg1 := v }
    ∧ after 0x05 = .next { t with bufLen := v, brByte := 0, brBit := 0, brEnd := 0 }
    ∧ after 0x09 = .next { t with tableOfs := v }
    ∧ (v.toNat < 2 ^ s.cfg.dimW → after 0x0A = .next { t with imgW := v.truncate 16 }
        ∧ after 0x0B = .next { t with imgH := v.truncate 16 })
    ∧ (∀ n : Fin 17, v.toNat = n.val → n.val ≤ s.cfg.maxLevels → after 0x0C = .next { t with levelCount := n })
    ∧ (v.toNat < 2 ^ 8 → after 0x0D = .next { t with fmt := v.truncate 8 })
    ∧ (v.toNat < 2 ^ 14 → after 0x0E = .next { t with nsym := v.truncate 14 })
    ∧ (∀ i : Fin 16, i.val < s.cfg.maxLevels → after (0x20 + i.val) = .next { t with lvlOfs := s.lvlOfs.set i.val v }
        ∧ after (0x30 + i.val) = .next { t with lvlSize := s.lvlSize.set i.val v })
    ∧ after 0x40 = .next { t with idx := v }
    ∧ (v.toNat < 2 ^ 5 → s.idx.toNat ≤ 16382 → ∃ da, after 0x41 = .next { t with da := da }
        ∧ ∀ k, Store.find da k = if k = s.idx.toNat then some (v.truncate 5) else Store.find s.da k)
    ∧ (∀ x : SlotId, v.toNat = x.index → after 0x42 = .next { t with tSel := x })
    ∧ (∀ r, r ≠ 0 →
        (r = 0x01 ∨ r = 0x04 ∨ 0x06 ≤ r ∧ r ≤ 0x08 ∨ 0x0F ≤ r ∧ r ≤ 0x1F ∨ 0x20 + s.cfg.maxLevels ≤ r ∧ r < 0x30
          ∨ 0x30 + s.cfg.maxLevels ≤ r ∧ r < 0x40 ∨ 0x43 ≤ r
          ∨ (r = 0x0A ∨ r = 0x0B) ∧ 2 ^ s.cfg.dimW ≤ v.toNat
          ∨ r = 0x0C ∧ (17 ≤ v.toNat ∨ s.cfg.maxLevels < v.toNat) ∨ r = 0x0D ∧ 2 ^ 8 ≤ v.toNat
          ∨ r = 0x0E ∧ 2 ^ 14 ≤ v.toNat ∨ r = 0x41 ∧ (2 ^ 5 ≤ v.toNat ∨ 16382 < s.idx.toNat)
          ∨ r = 0x42 ∧ 3 ≤ v.toNat) →
        after r = .next { t.failed t.cmd .illegalCommand with errOp := 0 })

/-- O41. A host read while not `BUSY` (rules R44 and R203): the register's value on the bus and no other effect; an
unassigned number reads 0; the ports 0x43 to 0x46 of an invalid slot read as anything. Three clauses are the model's: the
numbers from 0x20 + `P_MAXLEVELS` and from 0x30 + `P_MAXLEVELS` are unassigned (log entry 14), `TD_DATA` is the low 32 bits of
the entry (log entry 17), and a read of a port of an invalid slot is a free value and counts one in `freeCount`, its form of
an unspecified value (log entry 6). -/
def Obligations.HostReads : Prop :=
  ∀ (s t : State) (rest : List HostAction) (reads : Nat → Word → Prop), s.run ≠ .busy → s.cfg.maxLevels ≤ 16 →
    t = { s with inputs := rest } →
    (∀ r v, reads r v ↔ step { s with inputs := .read r :: rest } = .next { t with busData := v }) →
    reads 0x00 s.cmd ∧ reads 0x01 s.status ∧ reads 0x02 s.arg0 ∧ reads 0x03 s.arg1 ∧ reads 0x04 s.res
    ∧ reads 0x05 s.bufLen ∧ reads 0x06 s.brByte ∧ reads 0x07 (s.brBit.zeroExtend 32) ∧ reads 0x08 s.brEnd
    ∧ reads 0x09 s.tableOfs ∧ reads 0x0A (s.imgW.zeroExtend 32) ∧ reads 0x0B (s.imgH.zeroExtend 32)
    ∧ reads 0x0C (BitVec.ofNat 32 s.levelCount.val) ∧ reads 0x0D (s.fmt.zeroExtend 32)
    ∧ reads 0x0E (s.nsym.zeroExtend 32) ∧ reads 0x0F (s.ofs.zeroExtend 32) ∧ reads 0x10 (s.lastnz.zeroExtend 32)
    ∧ reads 0x11 (s.liW.zeroExtend 32) ∧ reads 0x12 (s.liH.zeroExtend 32)
    ∧ reads 0x13 (BitVec.ofNat 32 (s.expLen.toNat % 2 ^ 32)) ∧ reads 0x14 (BitVec.ofNat 32 (s.expLen.toNat / 2 ^ 32))
    ∧ reads 0x15 (BitVec.ofNat 32 (s.outLen.toNat % 2 ^ 32)) ∧ reads 0x16 (BitVec.ofNat 32 (s.outLen.toNat / 2 ^ 32))
    ∧ (∀ i : Fin 16, i.val < s.cfg.maxLevels → reads (0x20 + i.val) s.lvlOfs[i] ∧ reads (0x30 + i.val) s.lvlSize[i])
    ∧ reads 0x40 s.idx
    ∧ reads 0x41 (if s.idx.toNat ≤ 16382 then (s.daRead s.idx.toNat).zeroExtend 32 else 0)
    ∧ reads 0x42 (BitVec.ofNat 32 s.tSel.index)
    ∧ ((s.slot s.tSel).valid = true →
        reads 0x43 ((s.slot s.tSel).ns.zeroExtend 32)
        ∧ reads 0x44 (if s.idx.toNat < (s.slot s.tSel).ns.toNat
            then BitVec.ofNat 32 ((s.slot s.tSel).depthOf s.idx.toNat) else 0)
        ∧ reads 0x45 (if s.idx.toNat < (s.slot s.tSel).ns.toNat ∧ (s.slot s.tSel).depthOf s.idx.toNat ≠ 0
            then BitVec.ofNat 32 ((s.slot s.tSel).codeOf s.idx.toNat) else 0)
        ∧ reads 0x46 ((s.slot s.tSel).maxlen.zeroExtend 32))
    ∧ ((s.slot s.tSel).valid = false → ∀ r, 0x43 ≤ r → r ≤ 0x46 →
        ∃ v, step { s with inputs := .read r :: rest } = .next { t with busData := v, freeCount := s.freeCount + 1 })
    ∧ reads 0x47 (if s.idx.toNat < s.outLen.toNat then (Memory.read s.out s.idx.toNat).zeroExtend 32 else 0)
    ∧ reads 0x48 (if s.idx.toNat < 21 then BitVec.ofNat 32 (s.tdRead s.idx.toNat) else 0)
    ∧ (∀ r, 0x17 ≤ r ∧ r ≤ 0x1F ∨ 0x20 + s.cfg.maxLevels ≤ r ∧ r < 0x30 ∨ 0x30 + s.cfg.maxLevels ≤ r ∧ r < 0x40
        ∨ 0x49 ≤ r → reads r 0)

/-- O42. The fields of `STATUS` (rules R26 and R211). -/
def Obligations.StatusFields : Prop :=
  ∀ s : State,
    (s.status.extractLsb' 0 2).toNat = (match s.run with | .idle => 0 | .busy => 1 | .error => 2)
    ∧ s.status.getLsbD 2 = false ∧ s.status.getLsbD 3 = false
    ∧ s.status.getLsbD 4 = s.t0.valid ∧ s.status.getLsbD 5 = s.t1.valid ∧ s.status.getLsbD 6 = s.tmp.valid
    ∧ s.status.getLsbD 7 = s.outValid
    ∧ (s.status.extractLsb' 8 4).toNat = (match s.err with
        | none => 0 | some .badMagic => 1 | some .truncatedHeader => 2 | some .unsupportedFormat => 3
        | some .offsetOutOfRange => 4 | some .unexpectedEnd => 5 | some .invalidDepths => 6 | some .corruptStream => 7
        | some .depthArrayOverrun => 8 | some .depthArrayUnderrun => 9 | some .levelIndexOutOfRange => 10
        | some .levelSizeMismatch => 11 | some .illegalCommand => 12)
    ∧ s.status.extractLsb' 12 8 = s.errOp ∧ s.status.extractLsb' 20 12 = 0

/-- O43. A read while `STATE = BUSY` (rule R247) shows nothing of the core but `STATE`: one function of the register's number
and of how many free values were read before gives what is on the bus, the same for every state, and in `STATUS` it keeps
the field `STATE`. The core goes on unchanged. That such a read is a free value and counts one is the model's form of an
unspecified value, log entry 6. -/
def Obligations.BusyReadsShowOnlyState : Prop :=
  ∃ f : Nat → Nat → Word, (∀ n, (f 0x01 n).extractLsb' 0 2 = 1) ∧
    ∀ (s : State) (r : Nat) (rest : List HostAction), s.run = .busy →
      step { s with inputs := .read r :: rest }
        = .next { s with inputs := rest, busData := f r s.freeCount, freeCount := s.freeCount + 1 }

/-- O44. The reset input (rules R47, R202 and R240), in any state: every register of rule R47 at its value, a running
command abandoned, BUF untouched. -/
def Obligations.ResetInputRestoresTheResetValues : Prop :=
  ∀ (s : State) (rest : List HostAction), ∃ u : State, step { s with inputs := .reset :: rest } = .next u
    ∧ u.run = .idle ∧ u.err = none ∧ u.errOp = 0 ∧ u.cmd = 0 ∧ u.arg0 = 0 ∧ u.arg1 = 0 ∧ u.res = 0 ∧ u.bufLen = 0
    ∧ u.brByte = 0 ∧ u.brBit = 0 ∧ u.brEnd = 0 ∧ u.tableOfs = 0 ∧ u.imgW = 0 ∧ u.imgH = 0 ∧ u.levelCount = 0
    ∧ u.fmt = 0 ∧ (∀ i : Fin 16, u.lvlOfs[i] = 0 ∧ u.lvlSize[i] = 0) ∧ u.nsym = 0 ∧ u.ofs = 0 ∧ u.lastnz = 0
    ∧ u.t0.valid = false ∧ u.t1.valid = false ∧ u.tmp.valid = false ∧ u.liW = 0 ∧ u.liH = 0 ∧ u.expLen = 0
    ∧ u.outLen = 0 ∧ u.outValid = false ∧ u.expCtx = s.cfg.expand.ctx0 ∧ u.trState = .idle ∧ u.upState = .idle
    ∧ u.idx = 0 ∧ u.tSel = .t0 ∧ u.buf = s.buf ∧ u.cfg = s.cfg ∧ u.inputs = rest

/-- O45. Taking an error (rule R214): a command that is launched in `IDLE` and ends in `ERROR` has written an error kind,
`ERR_OP` with its opcode byte, and left both machines idle; `BadMagic` and `TruncatedHeader` never arise (rule R212). -/
def Obligations.RaisingRecordsTheCommand : Prop :=
  ∀ (i : Instr) (w : Word) (s u : State), s.DataOk → s.run = .idle → encode i = .command w → exec i s = .next u →
    u.run = .error →
    (∃ e, u.err = some e ∧ e ≠ .badMagic ∧ e ≠ .truncatedHeader) ∧ u.errOp = BitVec.ofNat 8 (w.toNat / 2 ^ 24)
      ∧ u.trState = .idle ∧ u.upState = .idle

/-- O46. `ERR` is sticky (rules R27 and R28): once nonzero, it and `STATE = ERROR` are changed by `CLRERR` and by reset
only. -/
def Obligations.ErrIsSticky : Prop :=
  ∀ (s u : State) (e : ErrorKind), s.Inv → s.err = some e → step s = .next u →
    u.err = some e ∧ u.errOp = s.errOp ∧ u.run = .error
      ∨ (∃ rest, s.inputs = .reset :: rest) ∨ (∃ rest, s.inputs = .write 0 0x0A000000 :: rest)

/-- O47. `RES` is written by `RDBITS` and `HDEC` only, and by no command that raises an error (rule R25). -/
def Obligations.OnlyRdbitsAndHdecWriteRes : Prop :=
  ∀ (i : Instr) (s u : State), s.DataOk → exec i s = .next u →
    (∀ n, i ≠ .rdbits n) ∧ (∀ t, i ≠ .hdec t) ∨ u.run = .error → u.res = s.res

/-- O48. A slot changes only when a build targets it (rules R20 and R36): `HBUILD t` and `TREAD t` leave the other table
slot alone, and every command but those two and `GETTAB` leaves all three. -/
def Obligations.SlotsChangeOnlyByBuilds : Prop :=
  ∀ (i : Instr) (s u : State), s.DataOk → isCommand i = true → exec i s = .next u →
    ((∀ t, i ≠ .hbuild t) ∧ (∀ t, i ≠ .tread t) ∧ i ≠ .gettab → u.t0 = s.t0 ∧ u.t1 = s.t1 ∧ u.tmp = s.tmp)
    ∧ (i = .hbuild 0 ∨ i = .tread 0 → u.t1 = s.t1) ∧ (i = .hbuild 1 ∨ i = .tread 1 → u.t0 = s.t0)
    ∧ (∀ t, i = .hbuild t → u.tmp = s.tmp)

/-- O49. No instruction writes BUF, the parameters or a register that only the host writes (rules R20, R30 and R60). -/
def Obligations.HostRegistersAreTheHosts : Prop :=
  ∀ (i : Instr) (s u : State), s.DataOk → exec i s = .next u →
    u.buf = s.buf ∧ u.bufLen = s.bufLen ∧ u.arg0 = s.arg0 ∧ u.arg1 = s.arg1 ∧ u.tableOfs = s.tableOfs
      ∧ u.imgW = s.imgW ∧ u.imgH = s.imgH ∧ u.levelCount = s.levelCount ∧ u.fmt = s.fmt ∧ u.lvlOfs = s.lvlOfs
      ∧ u.lvlSize = s.lvlSize ∧ u.idx = s.idx ∧ u.tSel = s.tSel ∧ u.cfg = s.cfg ∧ u.inputs = s.inputs

/-- O50. OUT and its registers are written by `UNPACK` only, and the depth array and its registers by the table reader only
(rules R20, R31 to R34, R38 and R41). -/
def Obligations.StoresHaveOneWriter : Prop :=
  ∀ (i : Instr) (s u : State), s.DataOk → isCommand i = true → exec i s = .next u →
    ((∀ k, i ≠ .unpack k) → u.out = s.out ∧ u.outLen = s.outLen ∧ u.outValid = s.outValid ∧ u.expLen = s.expLen)
    ∧ ((∀ t, i ≠ .tread t) ∧ i ≠ .gettab →
        u.da = s.da ∧ u.td = s.td ∧ u.nsym = s.nsym ∧ u.ofs = s.ofs ∧ u.lastnz = s.lastnz)

/-! ### Steps, runs and the whole machine (70_reset_and_hazards.md) -/

/-- O51. A step runs the decoded command: a command word at the head of the host's queue, while not `BUSY` (rule R80). How
the run is cut into steps is the model's choice within rule R246. Where steps are arrows the write of a word in `IDLE` is a
step of its own, which sets `BUSY` (log entry 3), and a command without a state machine then runs whole in the next step (log
entry 19). -/
def Obligations.StepRunsTheDecodedCommand : Prop :=
  ∀ (s : State) (w : Word) (i : Instr) (rest : List HostAction), decodeCommand w = .ok i → s.run ≠ .busy →
    (s.cfg.grain = .whole ∨ s.run = .error →
      step { s with inputs := .write 0 w :: rest } = exec i { s with inputs := rest }) ∧
    (s.cfg.grain = .arrow → s.run = .idle →
      step { s with inputs := .write 0 w :: rest } = .next { s with inputs := rest, cmd := w, run := .busy }) ∧
    (s.trState = .idle → s.gtPhase = .start → s.upState = .idle → s.cfg.grain = .whole ∨
        (∀ t, i ≠ .tread t) ∧ i ≠ .gettab ∧ (∀ k, i ≠ .unpack k) →
      step { s with inputs := [], cmd := w, run := .busy } = exec i { s with inputs := [], cmd := w, run := .idle })

/-- O52. A step runs the symbol that a running reader decodes at the cursor (rule R155). That one whole symbol is one step
where a step is not an arrow is the model's choice, log entry 3: rules R43 and R246 give a whole command and an arrow. -/
def Obligations.StepRunsTheFetchedSymbol : Prop :=
  ∀ (s : State) (x : Nat) (i : Instr) (rest : List HostAction), s.cfg.grain = .whole → s.run = .busy →
    s.trState = .sym → s.ofs.toNat < s.nsym.toNat → s.cursorOk → s.tmp.builtFor .tmp → decodeSymbol x = .ok i →
    s.tmp.depthOf x ≠ 0 → s.hasBits (s.tmp.codeBits x) →
    step { s with inputs := .pass :: rest }
        = exec i { s.skipBits (s.tmp.depthOf x) with trSymReg := BitVec.ofNat 5 x, inputs := rest }
      ∧ step { s with inputs := [] }
        = exec i { s.skipBits (s.tmp.depthOf x) with trSymReg := BitVec.ofNat 5 x, inputs := [] }

/-- O53. Every command on every input ends, in `IDLE` or in `ERROR` (rules R210 and R252). -/
def Obligations.EveryCommandEnds : Prop :=
  ∀ (i : Instr) (s : State), s.DataOk → isCommand i = true → s.run ≠ .busy →
    ∃ u, exec i s = .next u ∧ (u.run = .idle ∨ u.run = .error)

/-- O54. The state right after reset meets the invariant. -/
def Obligations.ResetMeetsTheInvariant : Prop := State.reset.Inv

/-- O55. Every step keeps the invariant: the cursor inside the window, every valid slot a canonical code, canonical stores,
`OUT_LEN` within `EXP_LEN`, `STATE = ERROR` exactly where `ERR` is nonzero, and the machines idle while not `BUSY` (rules
R22, R23, R27, R33, R34, R37, R41 and R43). -/
def Obligations.StepKeepsTheInvariant : Prop := ∀ s u : State, s.Inv → step s = .next u → u.Inv

/-- O56. From every state that meets the invariant a step goes on: the core never hangs, never reads out of bounds and is
never in an undefined state (rule R210). -/
def Obligations.StepNeverStops : Prop := ∀ s : State, s.Inv → safeStep s

/-- O57. The state machine of rule R164 and the pseudocode give the same final state: `TREAD t` and `GETTAB`, arrow by
arrow from the write of `CMD`, end as the whole command does, the scratch registers of rule R43 apart. -/
def Obligations.TableArrowsAgreeWithTheCommand : Prop :=
  ∀ (i : Instr) (w : Word) (s u : State), (i = .tread 0 ∨ i = .tread 1 ∨ i = .gettab) → encode i = .command w →
    s.DataOk → s.run = .idle → s.trState = .idle → s.gtPhase = .start → s.upState = .idle → s.cfg.grain = .arrow →
    s.inputs = [] → exec i s = .next u →
    ∃ (n : Nat) (v : State), runSteps n { s with inputs := [.write 0 w] } = some v
      ∧ u = { v with trK := u.trK, trSymReg := u.trSymReg, trRun := u.trRun, trFillV := u.trFillV }

/-- O58. The state machine of rule R191 and the pseudocode give the same final state: `UNPACK i`, arrow by arrow from the
write of `CMD`, ends as the whole command does, for every `EXPAND`. After a failure the bytes of OUT and `EXPCTX` are compared
too, which the model fixes by log entries 11 and 9. -/
def Obligations.UnpackArrowsAgreeWithTheCommand : Prop :=
  ∀ (k : BitVec 8) (w : Word) (s u : State), encode (.unpack k) = .command w →
    s.DataOk → s.run = .idle → s.trState = .idle → s.gtPhase = .start → s.upState = .idle → s.cfg.grain = .arrow →
    s.inputs = [] → exec (.unpack k) s = .next u →
    ∃ n : Nat, runSteps n { s with inputs := [.write 0 w] } = some u

/-! ### Beside the statements above -/

/-- O59. How `TREAD t` fails after its header, and what it leaves: a legal header lies at the cursor, then items that produce
`done`, and then either step 4 breaks off with error e after n more bits, or all entries are produced and step 5 rejects
them. `DA` holds the entries produced and is as before above them, `T[2]` is the header's tree, slot t is invalid, and the
cursor is where the failing read left it (rules R155, R159 to R163 and R167). -/
def Obligations.TreadFailsAfterItsHeader : Prop :=
  ∀ (t : BitVec 1) (s u : State) (h : Header) (items : List Item) (done bits : List Nat) (n : Nat) (e : ErrorKind),
    s.run = .idle → s.cursorOk → h.legal s.cfg → itemsLegal s.cfg h.tree items →
    expandItems s.cfg h.count [] items = some done →
    bits = h.bits s.cfg ++ items.flatMap (Item.bits s.cfg h.tree) → s.hasBits bits → u = s.skipBits bits.length →
    (done.length < h.count ∧ u.breaksOff h.tree h.count done n e
      ∨ done.length = h.count ∧ buildSlot done = none ∧ n = 0 ∧ e = .invalidDepths) →
    ∃ (sl : Slot) (da : Store (BitVec 5)) (td : Store Nat),
      exec (.tread t) s = .next (({ (u.skipBits n).failed (0x06000000 ||| t.zeroExtend 32) e with
          nsym := BitVec.ofNat 14 h.count, ofs := BitVec.ofNat 14 done.length
          lastnz := BitVec.ofNat 5 (lastNonzero done), tmp := h.tree, da := da, td := td } : State).setSlot
            (if t = 0 then .t0 else .t1) sl)
        ∧ sl.valid = false
        ∧ (∀ k, k < done.length → Store.find da k = some (BitVec.ofNat 5 (depthAt done k)))
        ∧ (∀ k, done.length ≤ k → Store.find da k = Store.find s.da k)
        ∧ (∀ k, k < 21 → Store.find td k = some (depthAt h.tmpDepths k))

/-- O60. The host's change of one byte of BUF (rules R70, R73 and R248): between commands that byte changes, no other byte and
nothing else of the core, the slots built and the cursor among it. That the change waits in the host's queue while `BUSY` is
the model's choice, log entry 10. -/
def Obligations.HostChangesOneByteOfBuf : Prop :=
  ∀ (s : State) (a : Word) (b : Byte) (rest : List HostAction),
    (s.run ≠ .busy → ∃ m : Memory, step { s with inputs := .poke a b :: rest } = .next { s with inputs := rest, buf := m }
      ∧ (Memory.wf s.buf = true → Memory.wf m = true
          ∧ ∀ k, Memory.read m k = if k = a.toNat then b else Memory.read s.buf k)) ∧
    (∀ t, s.run = .busy → s.Inv → s.inputs = .poke a b :: rest → step s = .next t →
      t.inputs = .poke a b :: rest ∧ t.buf = s.buf)
end

