-- ==== Sys2Proof/Laws/State.lean ====
section
/-! SUPPORT. What each named update of the state leaves in each field. -/

namespace Sys2Proof.Machine

/-! ### Raising an error (60_exceptions.md rule R214) -/

@[simp] theorem State.raiseError_cfg (s : State) (op : BitVec 8) (e : ErrorKind) : (s.raiseError op e).cfg = s.cfg := rfl
@[simp] theorem State.raiseError_cmd (s : State) (op : BitVec 8) (e : ErrorKind) : (s.raiseError op e).cmd = s.cmd := rfl
@[simp] theorem State.raiseError_arg0 (s : State) (op : BitVec 8) (e : ErrorKind) : (s.raiseError op e).arg0 = s.arg0 := rfl
@[simp] theorem State.raiseError_arg1 (s : State) (op : BitVec 8) (e : ErrorKind) : (s.raiseError op e).arg1 = s.arg1 := rfl
@[simp] theorem State.raiseError_res (s : State) (op : BitVec 8) (e : ErrorKind) : (s.raiseError op e).res = s.res := rfl
@[simp] theorem State.raiseError_run (s : State) (op : BitVec 8) (e : ErrorKind) : (s.raiseError op e).run = .error := rfl
@[simp] theorem State.raiseError_err (s : State) (op : BitVec 8) (e : ErrorKind) : (s.raiseError op e).err = some e := rfl
@[simp] theorem State.raiseError_errOp (s : State) (op : BitVec 8) (e : ErrorKind) : (s.raiseError op e).errOp = op := rfl
@[simp] theorem State.raiseError_outValid (s : State) (op : BitVec 8) (e : ErrorKind) : (s.raiseError op e).outValid = s.outValid := rfl
@[simp] theorem State.raiseError_bufLen (s : State) (op : BitVec 8) (e : ErrorKind) : (s.raiseError op e).bufLen = s.bufLen := rfl
@[simp] theorem State.raiseError_brByte (s : State) (op : BitVec 8) (e : ErrorKind) : (s.raiseError op e).brByte = s.brByte := rfl
@[simp] theorem State.raiseError_brBit (s : State) (op : BitVec 8) (e : ErrorKind) : (s.raiseError op e).brBit = s.brBit := rfl
@[simp] theorem State.raiseError_brEnd (s : State) (op : BitVec 8) (e : ErrorKind) : (s.raiseError op e).brEnd = s.brEnd := rfl
@[simp] theorem State.raiseError_buf (s : State) (op : BitVec 8) (e : ErrorKind) : (s.raiseError op e).buf = s.buf := rfl
@[simp] theorem State.raiseError_tableOfs (s : State) (op : BitVec 8) (e : ErrorKind) : (s.raiseError op e).tableOfs = s.tableOfs := rfl
@[simp] theorem State.raiseError_imgW (s : State) (op : BitVec 8) (e : ErrorKind) : (s.raiseError op e).imgW = s.imgW := rfl
@[simp] theorem State.raiseError_imgH (s : State) (op : BitVec 8) (e : ErrorKind) : (s.raiseError op e).imgH = s.imgH := rfl
@[simp] theorem State.raiseError_levelCount (s : State) (op : BitVec 8) (e : ErrorKind) : (s.raiseError op e).levelCount = s.levelCount := rfl
@[simp] theorem State.raiseError_fmt (s : State) (op : BitVec 8) (e : ErrorKind) : (s.raiseError op e).fmt = s.fmt := rfl
@[simp] theorem State.raiseError_lvlOfs (s : State) (op : BitVec 8) (e : ErrorKind) : (s.raiseError op e).lvlOfs = s.lvlOfs := rfl
@[simp] theorem State.raiseError_lvlSize (s : State) (op : BitVec 8) (e : ErrorKind) : (s.raiseError op e).lvlSize = s.lvlSize := rfl
@[simp] theorem State.raiseError_da (s : State) (op : BitVec 8) (e : ErrorKind) : (s.raiseError op e).da = s.da := rfl
@[simp] theorem State.raiseError_nsym (s : State) (op : BitVec 8) (e : ErrorKind) : (s.raiseError op e).nsym = s.nsym := rfl
@[simp] theorem State.raiseError_ofs (s : State) (op : BitVec 8) (e : ErrorKind) : (s.raiseError op e).ofs = s.ofs := rfl
@[simp] theorem State.raiseError_lastnz (s : State) (op : BitVec 8) (e : ErrorKind) : (s.raiseError op e).lastnz = s.lastnz := rfl
@[simp] theorem State.raiseError_td (s : State) (op : BitVec 8) (e : ErrorKind) : (s.raiseError op e).td = s.td := rfl
@[simp] theorem State.raiseError_t0 (s : State) (op : BitVec 8) (e : ErrorKind) : (s.raiseError op e).t0 = s.t0 := rfl
@[simp] theorem State.raiseError_t1 (s : State) (op : BitVec 8) (e : ErrorKind) : (s.raiseError op e).t1 = s.t1 := rfl
@[simp] theorem State.raiseError_tmp (s : State) (op : BitVec 8) (e : ErrorKind) : (s.raiseError op e).tmp = s.tmp := rfl
@[simp] theorem State.raiseError_liW (s : State) (op : BitVec 8) (e : ErrorKind) : (s.raiseError op e).liW = s.liW := rfl
@[simp] theorem State.raiseError_liH (s : State) (op : BitVec 8) (e : ErrorKind) : (s.raiseError op e).liH = s.liH := rfl
@[simp] theorem State.raiseError_expLen (s : State) (op : BitVec 8) (e : ErrorKind) : (s.raiseError op e).expLen = s.expLen := rfl
@[simp] theorem State.raiseError_outLen (s : State) (op : BitVec 8) (e : ErrorKind) : (s.raiseError op e).outLen = s.outLen := rfl
@[simp] theorem State.raiseError_out (s : State) (op : BitVec 8) (e : ErrorKind) : (s.raiseError op e).out = s.out := rfl
@[simp] theorem State.raiseError_expCtx (s : State) (op : BitVec 8) (e : ErrorKind) : (s.raiseError op e).expCtx = s.expCtx := rfl
@[simp] theorem State.raiseError_trState (s : State) (op : BitVec 8) (e : ErrorKind) : (s.raiseError op e).trState = .idle := rfl
@[simp] theorem State.raiseError_trK (s : State) (op : BitVec 8) (e : ErrorKind) : (s.raiseError op e).trK = s.trK := rfl
@[simp] theorem State.raiseError_trSymReg (s : State) (op : BitVec 8) (e : ErrorKind) : (s.raiseError op e).trSymReg = s.trSymReg := rfl
@[simp] theorem State.raiseError_trRun (s : State) (op : BitVec 8) (e : ErrorKind) : (s.raiseError op e).trRun = s.trRun := rfl
@[simp] theorem State.raiseError_trFillV (s : State) (op : BitVec 8) (e : ErrorKind) : (s.raiseError op e).trFillV = s.trFillV := rfl
@[simp] theorem State.raiseError_gtPhase (s : State) (op : BitVec 8) (e : ErrorKind) : (s.raiseError op e).gtPhase = .start := rfl
@[simp] theorem State.raiseError_upState (s : State) (op : BitVec 8) (e : ErrorKind) : (s.raiseError op e).upState = .idle := rfl
@[simp] theorem State.raiseError_idx (s : State) (op : BitVec 8) (e : ErrorKind) : (s.raiseError op e).idx = s.idx := rfl
@[simp] theorem State.raiseError_tSel (s : State) (op : BitVec 8) (e : ErrorKind) : (s.raiseError op e).tSel = s.tSel := rfl
@[simp] theorem State.raiseError_inputs (s : State) (op : BitVec 8) (e : ErrorKind) : (s.raiseError op e).inputs = s.inputs := rfl
@[simp] theorem State.raiseError_busData (s : State) (op : BitVec 8) (e : ErrorKind) : (s.raiseError op e).busData = s.busData := rfl
@[simp] theorem State.raiseError_freeCount (s : State) (op : BitVec 8) (e : ErrorKind) : (s.raiseError op e).freeCount = s.freeCount := rfl
@[simp] theorem State.raiseError_epoch (s : State) (op : BitVec 8) (e : ErrorKind) : (s.raiseError op e).epoch = s.epoch := rfl

/-! ### Clearing an error (44_system.md rule R201) -/

@[simp] theorem State.clearError_cfg (s : State) : (s.clearError).cfg = s.cfg := rfl
@[simp] theorem State.clearError_cmd (s : State) : (s.clearError).cmd = s.cmd := rfl
@[simp] theorem State.clearError_arg0 (s : State) : (s.clearError).arg0 = s.arg0 := rfl
@[simp] theorem State.clearError_arg1 (s : State) : (s.clearError).arg1 = s.arg1 := rfl
@[simp] theorem State.clearError_res (s : State) : (s.clearError).res = s.res := rfl
@[simp] theorem State.clearError_run (s : State) : (s.clearError).run = .idle := rfl
@[simp] theorem State.clearError_err (s : State) : (s.clearError).err = none := rfl
@[simp] theorem State.clearError_errOp (s : State) : (s.clearError).errOp = 0 := rfl
@[simp] theorem State.clearError_outValid (s : State) : (s.clearError).outValid = s.outValid := rfl
@[simp] theorem State.clearError_bufLen (s : State) : (s.clearError).bufLen = s.bufLen := rfl
@[simp] theorem State.clearError_brByte (s : State) : (s.clearError).brByte = s.brByte := rfl
@[simp] theorem State.clearError_brBit (s : State) : (s.clearError).brBit = s.brBit := rfl
@[simp] theorem State.clearError_brEnd (s : State) : (s.clearError).brEnd = s.brEnd := rfl
@[simp] theorem State.clearError_buf (s : State) : (s.clearError).buf = s.buf := rfl
@[simp] theorem State.clearError_tableOfs (s : State) : (s.clearError).tableOfs = s.tableOfs := rfl
@[simp] theorem State.clearError_imgW (s : State) : (s.clearError).imgW = s.imgW := rfl
@[simp] theorem State.clearError_imgH (s : State) : (s.clearError).imgH = s.imgH := rfl
@[simp] theorem State.clearError_levelCount (s : State) : (s.clearError).levelCount = s.levelCount := rfl
@[simp] theorem State.clearError_fmt (s : State) : (s.clearError).fmt = s.fmt := rfl
@[simp] theorem State.clearError_lvlOfs (s : State) : (s.clearError).lvlOfs = s.lvlOfs := rfl
@[simp] theorem State.clearError_lvlSize (s : State) : (s.clearError).lvlSize = s.lvlSize := rfl
@[simp] theorem State.clearError_da (s : State) : (s.clearError).da = s.da := rfl
@[simp] theorem State.clearError_nsym (s : State) : (s.clearError).nsym = s.nsym := rfl
@[simp] theorem State.clearError_ofs (s : State) : (s.clearError).ofs = s.ofs := rfl
@[simp] theorem State.clearError_lastnz (s : State) : (s.clearError).lastnz = s.lastnz := rfl
@[simp] theorem State.clearError_td (s : State) : (s.clearError).td = s.td := rfl
@[simp] theorem State.clearError_t0 (s : State) : (s.clearError).t0 = s.t0 := rfl
@[simp] theorem State.clearError_t1 (s : State) : (s.clearError).t1 = s.t1 := rfl
@[simp] theorem State.clearError_tmp (s : State) : (s.clearError).tmp = s.tmp := rfl
@[simp] theorem State.clearError_liW (s : State) : (s.clearError).liW = s.liW := rfl
@[simp] theorem State.clearError_liH (s : State) : (s.clearError).liH = s.liH := rfl
@[simp] theorem State.clearError_expLen (s : State) : (s.clearError).expLen = s.expLen := rfl
@[simp] theorem State.clearError_outLen (s : State) : (s.clearError).outLen = s.outLen := rfl
@[simp] theorem State.clearError_out (s : State) : (s.clearError).out = s.out := rfl
@[simp] theorem State.clearError_expCtx (s : State) : (s.clearError).expCtx = s.expCtx := rfl
@[simp] theorem State.clearError_trState (s : State) : (s.clearError).trState = s.trState := rfl
@[simp] theorem State.clearError_trK (s : State) : (s.clearError).trK = s.trK := rfl
@[simp] theorem State.clearError_trSymReg (s : State) : (s.clearError).trSymReg = s.trSymReg := rfl
@[simp] theorem State.clearError_trRun (s : State) : (s.clearError).trRun = s.trRun := rfl
@[simp] theorem State.clearError_trFillV (s : State) : (s.clearError).trFillV = s.trFillV := rfl
@[simp] theorem State.clearError_gtPhase (s : State) : (s.clearError).gtPhase = s.gtPhase := rfl
@[simp] theorem State.clearError_upState (s : State) : (s.clearError).upState = s.upState := rfl
@[simp] theorem State.clearError_idx (s : State) : (s.clearError).idx = s.idx := rfl
@[simp] theorem State.clearError_tSel (s : State) : (s.clearError).tSel = s.tSel := rfl
@[simp] theorem State.clearError_inputs (s : State) : (s.clearError).inputs = s.inputs := rfl
@[simp] theorem State.clearError_busData (s : State) : (s.clearError).busData = s.busData := rfl
@[simp] theorem State.clearError_freeCount (s : State) : (s.clearError).freeCount = s.freeCount := rfl
@[simp] theorem State.clearError_epoch (s : State) : (s.clearError).epoch = s.epoch := rfl

/-! ### Ending a command (10_state.md rule R27) -/

@[simp] theorem State.complete_cfg (s : State) : (s.complete).cfg = s.cfg := rfl
@[simp] theorem State.complete_cmd (s : State) : (s.complete).cmd = s.cmd := rfl
@[simp] theorem State.complete_arg0 (s : State) : (s.complete).arg0 = s.arg0 := rfl
@[simp] theorem State.complete_arg1 (s : State) : (s.complete).arg1 = s.arg1 := rfl
@[simp] theorem State.complete_res (s : State) : (s.complete).res = s.res := rfl
@[simp] theorem State.complete_run (s : State) : (s.complete).run = .idle := rfl
@[simp] theorem State.complete_err (s : State) : (s.complete).err = s.err := rfl
@[simp] theorem State.complete_errOp (s : State) : (s.complete).errOp = s.errOp := rfl
@[simp] theorem State.complete_outValid (s : State) : (s.complete).outValid = s.outValid := rfl
@[simp] theorem State.complete_bufLen (s : State) : (s.complete).bufLen = s.bufLen := rfl
@[simp] theorem State.complete_brByte (s : State) : (s.complete).brByte = s.brByte := rfl
@[simp] theorem State.complete_brBit (s : State) : (s.complete).brBit = s.brBit := rfl
@[simp] theorem State.complete_brEnd (s : State) : (s.complete).brEnd = s.brEnd := rfl
@[simp] theorem State.complete_buf (s : State) : (s.complete).buf = s.buf := rfl
@[simp] theorem State.complete_tableOfs (s : State) : (s.complete).tableOfs = s.tableOfs := rfl
@[simp] theorem State.complete_imgW (s : State) : (s.complete).imgW = s.imgW := rfl
@[simp] theorem State.complete_imgH (s : State) : (s.complete).imgH = s.imgH := rfl
@[simp] theorem State.complete_levelCount (s : State) : (s.complete).levelCount = s.levelCount := rfl
@[simp] theorem State.complete_fmt (s : State) : (s.complete).fmt = s.fmt := rfl
@[simp] theorem State.complete_lvlOfs (s : State) : (s.complete).lvlOfs = s.lvlOfs := rfl
@[simp] theorem State.complete_lvlSize (s : State) : (s.complete).lvlSize = s.lvlSize := rfl
@[simp] theorem State.complete_da (s : State) : (s.complete).da = s.da := rfl
@[simp] theorem State.complete_nsym (s : State) : (s.complete).nsym = s.nsym := rfl
@[simp] theorem State.complete_ofs (s : State) : (s.complete).ofs = s.ofs := rfl
@[simp] theorem State.complete_lastnz (s : State) : (s.complete).lastnz = s.lastnz := rfl
@[simp] theorem State.complete_td (s : State) : (s.complete).td = s.td := rfl
@[simp] theorem State.complete_t0 (s : State) : (s.complete).t0 = s.t0 := rfl
@[simp] theorem State.complete_t1 (s : State) : (s.complete).t1 = s.t1 := rfl
@[simp] theorem State.complete_tmp (s : State) : (s.complete).tmp = s.tmp := rfl
@[simp] theorem State.complete_liW (s : State) : (s.complete).liW = s.liW := rfl
@[simp] theorem State.complete_liH (s : State) : (s.complete).liH = s.liH := rfl
@[simp] theorem State.complete_expLen (s : State) : (s.complete).expLen = s.expLen := rfl
@[simp] theorem State.complete_outLen (s : State) : (s.complete).outLen = s.outLen := rfl
@[simp] theorem State.complete_out (s : State) : (s.complete).out = s.out := rfl
@[simp] theorem State.complete_expCtx (s : State) : (s.complete).expCtx = s.expCtx := rfl
@[simp] theorem State.complete_trState (s : State) : (s.complete).trState = .idle := rfl
@[simp] theorem State.complete_trK (s : State) : (s.complete).trK = s.trK := rfl
@[simp] theorem State.complete_trSymReg (s : State) : (s.complete).trSymReg = s.trSymReg := rfl
@[simp] theorem State.complete_trRun (s : State) : (s.complete).trRun = s.trRun := rfl
@[simp] theorem State.complete_trFillV (s : State) : (s.complete).trFillV = s.trFillV := rfl
@[simp] theorem State.complete_gtPhase (s : State) : (s.complete).gtPhase = .start := rfl
@[simp] theorem State.complete_upState (s : State) : (s.complete).upState = .idle := rfl
@[simp] theorem State.complete_idx (s : State) : (s.complete).idx = s.idx := rfl
@[simp] theorem State.complete_tSel (s : State) : (s.complete).tSel = s.tSel := rfl
@[simp] theorem State.complete_inputs (s : State) : (s.complete).inputs = s.inputs := rfl
@[simp] theorem State.complete_busData (s : State) : (s.complete).busData = s.busData := rfl
@[simp] theorem State.complete_freeCount (s : State) : (s.complete).freeCount = s.freeCount := rfl
@[simp] theorem State.complete_epoch (s : State) : (s.complete).epoch = s.epoch := rfl

/-! ### Placing the cursor (40_bitreader.md rule R111) -/

@[simp] theorem State.seekTo_cfg (s : State) (off fin : Word) : (s.seekTo off fin).cfg = s.cfg := rfl
@[simp] theorem State.seekTo_cmd (s : State) (off fin : Word) : (s.seekTo off fin).cmd = s.cmd := rfl
@[simp] theorem State.seekTo_arg0 (s : State) (off fin : Word) : (s.seekTo off fin).arg0 = s.arg0 := rfl
@[simp] theorem State.seekTo_arg1 (s : State) (off fin : Word) : (s.seekTo off fin).arg1 = s.arg1 := rfl
@[simp] theorem State.seekTo_res (s : State) (off fin : Word) : (s.seekTo off fin).res = s.res := rfl
@[simp] theorem State.seekTo_run (s : State) (off fin : Word) : (s.seekTo off fin).run = s.run := rfl
@[simp] theorem State.seekTo_err (s : State) (off fin : Word) : (s.seekTo off fin).err = s.err := rfl
@[simp] theorem State.seekTo_errOp (s : State) (off fin : Word) : (s.seekTo off fin).errOp = s.errOp := rfl
@[simp] theorem State.seekTo_outValid (s : State) (off fin : Word) : (s.seekTo off fin).outValid = s.outValid := rfl
@[simp] theorem State.seekTo_bufLen (s : State) (off fin : Word) : (s.seekTo off fin).bufLen = s.bufLen := rfl
@[simp] theorem State.seekTo_brByte (s : State) (off fin : Word) : (s.seekTo off fin).brByte = off := rfl
@[simp] theorem State.seekTo_brBit (s : State) (off fin : Word) : (s.seekTo off fin).brBit = 0 := rfl
@[simp] theorem State.seekTo_brEnd (s : State) (off fin : Word) : (s.seekTo off fin).brEnd = fin := rfl
@[simp] theorem State.seekTo_buf (s : State) (off fin : Word) : (s.seekTo off fin).buf = s.buf := rfl
@[simp] theorem State.seekTo_tableOfs (s : State) (off fin : Word) : (s.seekTo off fin).tableOfs = s.tableOfs := rfl
@[simp] theorem State.seekTo_imgW (s : State) (off fin : Word) : (s.seekTo off fin).imgW = s.imgW := rfl
@[simp] theorem State.seekTo_imgH (s : State) (off fin : Word) : (s.seekTo off fin).imgH = s.imgH := rfl
@[simp] theorem State.seekTo_levelCount (s : State) (off fin : Word) : (s.seekTo off fin).levelCount = s.levelCount := rfl
@[simp] theorem State.seekTo_fmt (s : State) (off fin : Word) : (s.seekTo off fin).fmt = s.fmt := rfl
@[simp] theorem State.seekTo_lvlOfs (s : State) (off fin : Word) : (s.seekTo off fin).lvlOfs = s.lvlOfs := rfl
@[simp] theorem State.seekTo_lvlSize (s : State) (off fin : Word) : (s.seekTo off fin).lvlSize = s.lvlSize := rfl
@[simp] theorem State.seekTo_da (s : State) (off fin : Word) : (s.seekTo off fin).da = s.da := rfl
@[simp] theorem State.seekTo_nsym (s : State) (off fin : Word) : (s.seekTo off fin).nsym = s.nsym := rfl
@[simp] theorem State.seekTo_ofs (s : State) (off fin : Word) : (s.seekTo off fin).ofs = s.ofs := rfl
@[simp] theorem State.seekTo_lastnz (s : State) (off fin : Word) : (s.seekTo off fin).lastnz = s.lastnz := rfl
@[simp] theorem State.seekTo_td (s : State) (off fin : Word) : (s.seekTo off fin).td = s.td := rfl
@[simp] theorem State.seekTo_t0 (s : State) (off fin : Word) : (s.seekTo off fin).t0 = s.t0 := rfl
@[simp] theorem State.seekTo_t1 (s : State) (off fin : Word) : (s.seekTo off fin).t1 = s.t1 := rfl
@[simp] theorem State.seekTo_tmp (s : State) (off fin : Word) : (s.seekTo off fin).tmp = s.tmp := rfl
@[simp] theorem State.seekTo_liW (s : State) (off fin : Word) : (s.seekTo off fin).liW = s.liW := rfl
@[simp] theorem State.seekTo_liH (s : State) (off fin : Word) : (s.seekTo off fin).liH = s.liH := rfl
@[simp] theorem State.seekTo_expLen (s : State) (off fin : Word) : (s.seekTo off fin).expLen = s.expLen := rfl
@[simp] theorem State.seekTo_outLen (s : State) (off fin : Word) : (s.seekTo off fin).outLen = s.outLen := rfl
@[simp] theorem State.seekTo_out (s : State) (off fin : Word) : (s.seekTo off fin).out = s.out := rfl
@[simp] theorem State.seekTo_expCtx (s : State) (off fin : Word) : (s.seekTo off fin).expCtx = s.expCtx := rfl
@[simp] theorem State.seekTo_trState (s : State) (off fin : Word) : (s.seekTo off fin).trState = s.trState := rfl
@[simp] theorem State.seekTo_trK (s : State) (off fin : Word) : (s.seekTo off fin).trK = s.trK := rfl
@[simp] theorem State.seekTo_trSymReg (s : State) (off fin : Word) : (s.seekTo off fin).trSymReg = s.trSymReg := rfl
@[simp] theorem State.seekTo_trRun (s : State) (off fin : Word) : (s.seekTo off fin).trRun = s.trRun := rfl
@[simp] theorem State.seekTo_trFillV (s : State) (off fin : Word) : (s.seekTo off fin).trFillV = s.trFillV := rfl
@[simp] theorem State.seekTo_gtPhase (s : State) (off fin : Word) : (s.seekTo off fin).gtPhase = s.gtPhase := rfl
@[simp] theorem State.seekTo_upState (s : State) (off fin : Word) : (s.seekTo off fin).upState = s.upState := rfl
@[simp] theorem State.seekTo_idx (s : State) (off fin : Word) : (s.seekTo off fin).idx = s.idx := rfl
@[simp] theorem State.seekTo_tSel (s : State) (off fin : Word) : (s.seekTo off fin).tSel = s.tSel := rfl
@[simp] theorem State.seekTo_inputs (s : State) (off fin : Word) : (s.seekTo off fin).inputs = s.inputs := rfl
@[simp] theorem State.seekTo_busData (s : State) (off fin : Word) : (s.seekTo off fin).busData = s.busData := rfl
@[simp] theorem State.seekTo_freeCount (s : State) (off fin : Word) : (s.seekTo off fin).freeCount = s.freeCount := rfl
@[simp] theorem State.seekTo_epoch (s : State) (off fin : Word) : (s.seekTo off fin).epoch = s.epoch := rfl

/-! ### Consuming bits (40_bitreader.md rule R112) -/

@[simp] theorem State.skipBits_cfg (s : State) (n : Nat) : (s.skipBits n).cfg = s.cfg := rfl
@[simp] theorem State.skipBits_cmd (s : State) (n : Nat) : (s.skipBits n).cmd = s.cmd := rfl
@[simp] theorem State.skipBits_arg0 (s : State) (n : Nat) : (s.skipBits n).arg0 = s.arg0 := rfl
@[simp] theorem State.skipBits_arg1 (s : State) (n : Nat) : (s.skipBits n).arg1 = s.arg1 := rfl
@[simp] theorem State.skipBits_res (s : State) (n : Nat) : (s.skipBits n).res = s.res := rfl
@[simp] theorem State.skipBits_run (s : State) (n : Nat) : (s.skipBits n).run = s.run := rfl
@[simp] theorem State.skipBits_err (s : State) (n : Nat) : (s.skipBits n).err = s.err := rfl
@[simp] theorem State.skipBits_errOp (s : State) (n : Nat) : (s.skipBits n).errOp = s.errOp := rfl
@[simp] theorem State.skipBits_outValid (s : State) (n : Nat) : (s.skipBits n).outValid = s.outValid := rfl
@[simp] theorem State.skipBits_bufLen (s : State) (n : Nat) : (s.skipBits n).bufLen = s.bufLen := rfl
@[simp] theorem State.skipBits_brByte (s : State) (n : Nat) : (s.skipBits n).brByte = BitVec.ofNat 32 ((s.pos + n) / 8) := rfl
@[simp] theorem State.skipBits_brBit (s : State) (n : Nat) : (s.skipBits n).brBit = BitVec.ofNat 3 ((s.pos + n) % 8) := rfl
@[simp] theorem State.skipBits_brEnd (s : State) (n : Nat) : (s.skipBits n).brEnd = s.brEnd := rfl
@[simp] theorem State.skipBits_buf (s : State) (n : Nat) : (s.skipBits n).buf = s.buf := rfl
@[simp] theorem State.skipBits_tableOfs (s : State) (n : Nat) : (s.skipBits n).tableOfs = s.tableOfs := rfl
@[simp] theorem State.skipBits_imgW (s : State) (n : Nat) : (s.skipBits n).imgW = s.imgW := rfl
@[simp] theorem State.skipBits_imgH (s : State) (n : Nat) : (s.skipBits n).imgH = s.imgH := rfl
@[simp] theorem State.skipBits_levelCount (s : State) (n : Nat) : (s.skipBits n).levelCount = s.levelCount := rfl
@[simp] theorem State.skipBits_fmt (s : State) (n : Nat) : (s.skipBits n).fmt = s.fmt := rfl
@[simp] theorem State.skipBits_lvlOfs (s : State) (n : Nat) : (s.skipBits n).lvlOfs = s.lvlOfs := rfl
@[simp] theorem State.skipBits_lvlSize (s : State) (n : Nat) : (s.skipBits n).lvlSize = s.lvlSize := rfl
@[simp] theorem State.skipBits_da (s : State) (n : Nat) : (s.skipBits n).da = s.da := rfl
@[simp] theorem State.skipBits_nsym (s : State) (n : Nat) : (s.skipBits n).nsym = s.nsym := rfl
@[simp] theorem State.skipBits_ofs (s : State) (n : Nat) : (s.skipBits n).ofs = s.ofs := rfl
@[simp] theorem State.skipBits_lastnz (s : State) (n : Nat) : (s.skipBits n).lastnz = s.lastnz := rfl
@[simp] theorem State.skipBits_td (s : State) (n : Nat) : (s.skipBits n).td = s.td := rfl
@[simp] theorem State.skipBits_t0 (s : State) (n : Nat) : (s.skipBits n).t0 = s.t0 := rfl
@[simp] theorem State.skipBits_t1 (s : State) (n : Nat) : (s.skipBits n).t1 = s.t1 := rfl
@[simp] theorem State.skipBits_tmp (s : State) (n : Nat) : (s.skipBits n).tmp = s.tmp := rfl
@[simp] theorem State.skipBits_liW (s : State) (n : Nat) : (s.skipBits n).liW = s.liW := rfl
@[simp] theorem State.skipBits_liH (s : State) (n : Nat) : (s.skipBits n).liH = s.liH := rfl
@[simp] theorem State.skipBits_expLen (s : State) (n : Nat) : (s.skipBits n).expLen = s.expLen := rfl
@[simp] theorem State.skipBits_outLen (s : State) (n : Nat) : (s.skipBits n).outLen = s.outLen := rfl
@[simp] theorem State.skipBits_out (s : State) (n : Nat) : (s.skipBits n).out = s.out := rfl
@[simp] theorem State.skipBits_expCtx (s : State) (n : Nat) : (s.skipBits n).expCtx = s.expCtx := rfl
@[simp] theorem State.skipBits_trState (s : State) (n : Nat) : (s.skipBits n).trState = s.trState := rfl
@[simp] theorem State.skipBits_trK (s : State) (n : Nat) : (s.skipBits n).trK = s.trK := rfl
@[simp] theorem State.skipBits_trSymReg (s : State) (n : Nat) : (s.skipBits n).trSymReg = s.trSymReg := rfl
@[simp] theorem State.skipBits_trRun (s : State) (n : Nat) : (s.skipBits n).trRun = s.trRun := rfl
@[simp] theorem State.skipBits_trFillV (s : State) (n : Nat) : (s.skipBits n).trFillV = s.trFillV := rfl
@[simp] theorem State.skipBits_gtPhase (s : State) (n : Nat) : (s.skipBits n).gtPhase = s.gtPhase := rfl
@[simp] theorem State.skipBits_upState (s : State) (n : Nat) : (s.skipBits n).upState = s.upState := rfl
@[simp] theorem State.skipBits_idx (s : State) (n : Nat) : (s.skipBits n).idx = s.idx := rfl
@[simp] theorem State.skipBits_tSel (s : State) (n : Nat) : (s.skipBits n).tSel = s.tSel := rfl
@[simp] theorem State.skipBits_inputs (s : State) (n : Nat) : (s.skipBits n).inputs = s.inputs := rfl
@[simp] theorem State.skipBits_busData (s : State) (n : Nat) : (s.skipBits n).busData = s.busData := rfl
@[simp] theorem State.skipBits_freeCount (s : State) (n : Nat) : (s.skipBits n).freeCount = s.freeCount := rfl
@[simp] theorem State.skipBits_epoch (s : State) (n : Nat) : (s.skipBits n).epoch = s.epoch := rfl

/-! ### `OutAppend` (00_scope.md rule R9) -/

@[simp] theorem State.outAppend_cfg (s : State) (b : Byte) : (s.outAppend b).cfg = s.cfg := rfl
@[simp] theorem State.outAppend_cmd (s : State) (b : Byte) : (s.outAppend b).cmd = s.cmd := rfl
@[simp] theorem State.outAppend_arg0 (s : State) (b : Byte) : (s.outAppend b).arg0 = s.arg0 := rfl
@[simp] theorem State.outAppend_arg1 (s : State) (b : Byte) : (s.outAppend b).arg1 = s.arg1 := rfl
@[simp] theorem State.outAppend_res (s : State) (b : Byte) : (s.outAppend b).res = s.res := rfl
@[simp] theorem State.outAppend_run (s : State) (b : Byte) : (s.outAppend b).run = s.run := rfl
@[simp] theorem State.outAppend_err (s : State) (b : Byte) : (s.outAppend b).err = s.err := rfl
@[simp] theorem State.outAppend_errOp (s : State) (b : Byte) : (s.outAppend b).errOp = s.errOp := rfl
@[simp] theorem State.outAppend_outValid (s : State) (b : Byte) : (s.outAppend b).outValid = s.outValid := rfl
@[simp] theorem State.outAppend_bufLen (s : State) (b : Byte) : (s.outAppend b).bufLen = s.bufLen := rfl
@[simp] theorem State.outAppend_brByte (s : State) (b : Byte) : (s.outAppend b).brByte = s.brByte := rfl
@[simp] theorem State.outAppend_brBit (s : State) (b : Byte) : (s.outAppend b).brBit = s.brBit := rfl
@[simp] theorem State.outAppend_brEnd (s : State) (b : Byte) : (s.outAppend b).brEnd = s.brEnd := rfl
@[simp] theorem State.outAppend_buf (s : State) (b : Byte) : (s.outAppend b).buf = s.buf := rfl
@[simp] theorem State.outAppend_tableOfs (s : State) (b : Byte) : (s.outAppend b).tableOfs = s.tableOfs := rfl
@[simp] theorem State.outAppend_imgW (s : State) (b : Byte) : (s.outAppend b).imgW = s.imgW := rfl
@[simp] theorem State.outAppend_imgH (s : State) (b : Byte) : (s.outAppend b).imgH = s.imgH := rfl
@[simp] theorem State.outAppend_levelCount (s : State) (b : Byte) : (s.outAppend b).levelCount = s.levelCount := rfl
@[simp] theorem State.outAppend_fmt (s : State) (b : Byte) : (s.outAppend b).fmt = s.fmt := rfl
@[simp] theorem State.outAppend_lvlOfs (s : State) (b : Byte) : (s.outAppend b).lvlOfs = s.lvlOfs := rfl
@[simp] theorem State.outAppend_lvlSize (s : State) (b : Byte) : (s.outAppend b).lvlSize = s.lvlSize := rfl
@[simp] theorem State.outAppend_da (s : State) (b : Byte) : (s.outAppend b).da = s.da := rfl
@[simp] theorem State.outAppend_nsym (s : State) (b : Byte) : (s.outAppend b).nsym = s.nsym := rfl
@[simp] theorem State.outAppend_ofs (s : State) (b : Byte) : (s.outAppend b).ofs = s.ofs := rfl
@[simp] theorem State.outAppend_lastnz (s : State) (b : Byte) : (s.outAppend b).lastnz = s.lastnz := rfl
@[simp] theorem State.outAppend_td (s : State) (b : Byte) : (s.outAppend b).td = s.td := rfl
@[simp] theorem State.outAppend_t0 (s : State) (b : Byte) : (s.outAppend b).t0 = s.t0 := rfl
@[simp] theorem State.outAppend_t1 (s : State) (b : Byte) : (s.outAppend b).t1 = s.t1 := rfl
@[simp] theorem State.outAppend_tmp (s : State) (b : Byte) : (s.outAppend b).tmp = s.tmp := rfl
@[simp] theorem State.outAppend_liW (s : State) (b : Byte) : (s.outAppend b).liW = s.liW := rfl
@[simp] theorem State.outAppend_liH (s : State) (b : Byte) : (s.outAppend b).liH = s.liH := rfl
@[simp] theorem State.outAppend_expLen (s : State) (b : Byte) : (s.outAppend b).expLen = s.expLen := rfl
@[simp] theorem State.outAppend_outLen (s : State) (b : Byte) : (s.outAppend b).outLen = s.outLen + 1 := rfl
@[simp] theorem State.outAppend_out (s : State) (b : Byte) : (s.outAppend b).out = Memory.write s.out s.outLen.toNat b := rfl
@[simp] theorem State.outAppend_expCtx (s : State) (b : Byte) : (s.outAppend b).expCtx = s.expCtx := rfl
@[simp] theorem State.outAppend_trState (s : State) (b : Byte) : (s.outAppend b).trState = s.trState := rfl
@[simp] theorem State.outAppend_trK (s : State) (b : Byte) : (s.outAppend b).trK = s.trK := rfl
@[simp] theorem State.outAppend_trSymReg (s : State) (b : Byte) : (s.outAppend b).trSymReg = s.trSymReg := rfl
@[simp] theorem State.outAppend_trRun (s : State) (b : Byte) : (s.outAppend b).trRun = s.trRun := rfl
@[simp] theorem State.outAppend_trFillV (s : State) (b : Byte) : (s.outAppend b).trFillV = s.trFillV := rfl
@[simp] theorem State.outAppend_gtPhase (s : State) (b : Byte) : (s.outAppend b).gtPhase = s.gtPhase := rfl
@[simp] theorem State.outAppend_upState (s : State) (b : Byte) : (s.outAppend b).upState = s.upState := rfl
@[simp] theorem State.outAppend_idx (s : State) (b : Byte) : (s.outAppend b).idx = s.idx := rfl
@[simp] theorem State.outAppend_tSel (s : State) (b : Byte) : (s.outAppend b).tSel = s.tSel := rfl
@[simp] theorem State.outAppend_inputs (s : State) (b : Byte) : (s.outAppend b).inputs = s.inputs := rfl
@[simp] theorem State.outAppend_busData (s : State) (b : Byte) : (s.outAppend b).busData = s.busData := rfl
@[simp] theorem State.outAppend_freeCount (s : State) (b : Byte) : (s.outAppend b).freeCount = s.freeCount := rfl
@[simp] theorem State.outAppend_epoch (s : State) (b : Byte) : (s.outAppend b).epoch = s.epoch := rfl

/-! ### Writing a slot (10_state.md rule R36) -/

@[simp] theorem State.setSlot_cfg (s : State) (t : SlotId) (x : Slot) : (s.setSlot t x).cfg = s.cfg := by cases t <;> rfl
@[simp] theorem State.setSlot_cmd (s : State) (t : SlotId) (x : Slot) : (s.setSlot t x).cmd = s.cmd := by cases t <;> rfl
@[simp] theorem State.setSlot_arg0 (s : State) (t : SlotId) (x : Slot) : (s.setSlot t x).arg0 = s.arg0 := by cases t <;> rfl
@[simp] theorem State.setSlot_arg1 (s : State) (t : SlotId) (x : Slot) : (s.setSlot t x).arg1 = s.arg1 := by cases t <;> rfl
@[simp] theorem State.setSlot_res (s : State) (t : SlotId) (x : Slot) : (s.setSlot t x).res = s.res := by cases t <;> rfl
@[simp] theorem State.setSlot_run (s : State) (t : SlotId) (x : Slot) : (s.setSlot t x).run = s.run := by cases t <;> rfl
@[simp] theorem State.setSlot_err (s : State) (t : SlotId) (x : Slot) : (s.setSlot t x).err = s.err := by cases t <;> rfl
@[simp] theorem State.setSlot_errOp (s : State) (t : SlotId) (x : Slot) : (s.setSlot t x).errOp = s.errOp := by cases t <;> rfl
@[simp] theorem State.setSlot_outValid (s : State) (t : SlotId) (x : Slot) : (s.setSlot t x).outValid = s.outValid := by cases t <;> rfl
@[simp] theorem State.setSlot_bufLen (s : State) (t : SlotId) (x : Slot) : (s.setSlot t x).bufLen = s.bufLen := by cases t <;> rfl
@[simp] theorem State.setSlot_brByte (s : State) (t : SlotId) (x : Slot) : (s.setSlot t x).brByte = s.brByte := by cases t <;> rfl
@[simp] theorem State.setSlot_brBit (s : State) (t : SlotId) (x : Slot) : (s.setSlot t x).brBit = s.brBit := by cases t <;> rfl
@[simp] theorem State.setSlot_brEnd (s : State) (t : SlotId) (x : Slot) : (s.setSlot t x).brEnd = s.brEnd := by cases t <;> rfl
@[simp] theorem State.setSlot_buf (s : State) (t : SlotId) (x : Slot) : (s.setSlot t x).buf = s.buf := by cases t <;> rfl
@[simp] theorem State.setSlot_tableOfs (s : State) (t : SlotId) (x : Slot) : (s.setSlot t x).tableOfs = s.tableOfs := by cases t <;> rfl
@[simp] theorem State.setSlot_imgW (s : State) (t : SlotId) (x : Slot) : (s.setSlot t x).imgW = s.imgW := by cases t <;> rfl
@[simp] theorem State.setSlot_imgH (s : State) (t : SlotId) (x : Slot) : (s.setSlot t x).imgH = s.imgH := by cases t <;> rfl
@[simp] theorem State.setSlot_levelCount (s : State) (t : SlotId) (x : Slot) : (s.setSlot t x).levelCount = s.levelCount := by cases t <;> rfl
@[simp] theorem State.setSlot_fmt (s : State) (t : SlotId) (x : Slot) : (s.setSlot t x).fmt = s.fmt := by cases t <;> rfl
@[simp] theorem State.setSlot_lvlOfs (s : State) (t : SlotId) (x : Slot) : (s.setSlot t x).lvlOfs = s.lvlOfs := by cases t <;> rfl
@[simp] theorem State.setSlot_lvlSize (s : State) (t : SlotId) (x : Slot) : (s.setSlot t x).lvlSize = s.lvlSize := by cases t <;> rfl
@[simp] theorem State.setSlot_da (s : State) (t : SlotId) (x : Slot) : (s.setSlot t x).da = s.da := by cases t <;> rfl
@[simp] theorem State.setSlot_nsym (s : State) (t : SlotId) (x : Slot) : (s.setSlot t x).nsym = s.nsym := by cases t <;> rfl
@[simp] theorem State.setSlot_ofs (s : State) (t : SlotId) (x : Slot) : (s.setSlot t x).ofs = s.ofs := by cases t <;> rfl
@[simp] theorem State.setSlot_lastnz (s : State) (t : SlotId) (x : Slot) : (s.setSlot t x).lastnz = s.lastnz := by cases t <;> rfl
@[simp] theorem State.setSlot_td (s : State) (t : SlotId) (x : Slot) : (s.setSlot t x).td = s.td := by cases t <;> rfl
@[simp] theorem State.setSlot_t0 (s : State) (t : SlotId) (x : Slot) : (s.setSlot t x).t0 = if t = .t0 then x else s.t0 := by cases t <;> rfl
@[simp] theorem State.setSlot_t1 (s : State) (t : SlotId) (x : Slot) : (s.setSlot t x).t1 = if t = .t1 then x else s.t1 := by cases t <;> rfl
@[simp] theorem State.setSlot_tmp (s : State) (t : SlotId) (x : Slot) : (s.setSlot t x).tmp = if t = .tmp then x else s.tmp := by cases t <;> rfl
@[simp] theorem State.setSlot_liW (s : State) (t : SlotId) (x : Slot) : (s.setSlot t x).liW = s.liW := by cases t <;> rfl
@[simp] theorem State.setSlot_liH (s : State) (t : SlotId) (x : Slot) : (s.setSlot t x).liH = s.liH := by cases t <;> rfl
@[simp] theorem State.setSlot_expLen (s : State) (t : SlotId) (x : Slot) : (s.setSlot t x).expLen = s.expLen := by cases t <;> rfl
@[simp] theorem State.setSlot_outLen (s : State) (t : SlotId) (x : Slot) : (s.setSlot t x).outLen = s.outLen := by cases t <;> rfl
@[simp] theorem State.setSlot_out (s : State) (t : SlotId) (x : Slot) : (s.setSlot t x).out = s.out := by cases t <;> rfl
@[simp] theorem State.setSlot_expCtx (s : State) (t : SlotId) (x : Slot) : (s.setSlot t x).expCtx = s.expCtx := by cases t <;> rfl
@[simp] theorem State.setSlot_trState (s : State) (t : SlotId) (x : Slot) : (s.setSlot t x).trState = s.trState := by cases t <;> rfl
@[simp] theorem State.setSlot_trK (s : State) (t : SlotId) (x : Slot) : (s.setSlot t x).trK = s.trK := by cases t <;> rfl
@[simp] theorem State.setSlot_trSymReg (s : State) (t : SlotId) (x : Slot) : (s.setSlot t x).trSymReg = s.trSymReg := by cases t <;> rfl
@[simp] theorem State.setSlot_trRun (s : State) (t : SlotId) (x : Slot) : (s.setSlot t x).trRun = s.trRun := by cases t <;> rfl
@[simp] theorem State.setSlot_trFillV (s : State) (t : SlotId) (x : Slot) : (s.setSlot t x).trFillV = s.trFillV := by cases t <;> rfl
@[simp] theorem State.setSlot_gtPhase (s : State) (t : SlotId) (x : Slot) : (s.setSlot t x).gtPhase = s.gtPhase := by cases t <;> rfl
@[simp] theorem State.setSlot_upState (s : State) (t : SlotId) (x : Slot) : (s.setSlot t x).upState = s.upState := by cases t <;> rfl
@[simp] theorem State.setSlot_idx (s : State) (t : SlotId) (x : Slot) : (s.setSlot t x).idx = s.idx := by cases t <;> rfl
@[simp] theorem State.setSlot_tSel (s : State) (t : SlotId) (x : Slot) : (s.setSlot t x).tSel = s.tSel := by cases t <;> rfl
@[simp] theorem State.setSlot_inputs (s : State) (t : SlotId) (x : Slot) : (s.setSlot t x).inputs = s.inputs := by cases t <;> rfl
@[simp] theorem State.setSlot_busData (s : State) (t : SlotId) (x : Slot) : (s.setSlot t x).busData = s.busData := by cases t <;> rfl
@[simp] theorem State.setSlot_freeCount (s : State) (t : SlotId) (x : Slot) : (s.setSlot t x).freeCount = s.freeCount := by cases t <;> rfl
@[simp] theorem State.setSlot_epoch (s : State) (t : SlotId) (x : Slot) : (s.setSlot t x).epoch = s.epoch := by cases t <;> rfl

/-! ### Slots -/

@[simp] theorem State.slot_setSlot_self (s : State) (t : SlotId) (x : Slot) : (s.setSlot t x).slot t = x := by
  cases t <;> rfl

theorem State.slot_setSlot_other (s : State) {t u : SlotId} (x : Slot) (h : u ≠ t) : (s.setSlot t x).slot u = s.slot u := by
  cases t <;> cases u <;> first | rfl | exact absurd rfl h

theorem State.slot_setSlot (s : State) (t u : SlotId) (x : Slot) :
    (s.setSlot t x).slot u = if u = t then x else s.slot u := by
  cases t <;> cases u <;> rfl

theorem State.slot_congr {s s' : State} (h0 : s'.t0 = s.t0) (h1 : s'.t1 = s.t1) (h2 : s'.tmp = s.tmp) (t : SlotId) :
    s'.slot t = s.slot t := by
  cases t <;> assumption

@[simp] theorem State.slot_skipBits (s : State) (n : Nat) (t : SlotId) : (s.skipBits n).slot t = s.slot t := by
  cases t <;> rfl

end Sys2Proof.Machine
end

