-- ==== Sys2Proof/Laws/Memory.lean ====
section
/-! SUPPORT. The laws of the stores: read after write, what a write leaves alone, and that every operation keeps the
canonical form. -/

namespace Sys2Proof.Machine

/-! ### Order -/

theorem Store.above_iff {α : Type} {a : Nat} {m : Store α} :
    Store.above a m = true ↔ Store.sorted m = true ∧ ∀ c ∈ m, a < c.1 := by
  induction m generalizing a with
  | nil => simp [Store.above, Store.sorted]
  | cons c rest ih =>
    obtain ⟨k, v⟩ := c
    simp only [Store.above, Store.sorted, Bool.and_eq_true, decide_eq_true_eq, List.mem_cons, forall_eq_or_imp]
    constructor
    · rintro ⟨h1, h2⟩
      exact ⟨h2, h1, fun c hc => Nat.lt_trans h1 ((ih.1 h2).2 c hc)⟩
    · rintro ⟨h1, h2, -⟩
      exact ⟨h2, h1⟩

theorem Store.above_mono {α : Type} {a b : Nat} {m : Store α} (hab : a ≤ b) (h : Store.above b m = true) :
    Store.above a m = true := by
  rw [Store.above_iff] at h ⊢
  exact ⟨h.1, fun c hc => Nat.lt_of_le_of_lt hab (h.2 c hc)⟩

theorem Store.sorted_cons {α : Type} {k : Nat} {v : α} {m : Store α} :
    Store.sorted ((k, v) :: m) = true ↔ Store.sorted m = true ∧ ∀ c ∈ m, k < c.1 := by
  show Store.above k m = true ↔ _
  exact Store.above_iff

/-! ### Membership -/

theorem Store.mem_put {α : Type} {m : Store α} {a : Nat} {v : α} {c : Nat × α} (h : c ∈ Store.put m a v) :
    c = (a, v) ∨ c ∈ m := by
  induction m with
  | nil => simpa [Store.put] using h
  | cons d rest ih =>
    obtain ⟨k, w⟩ := d
    simp only [Store.put] at h
    split at h
    · simpa using h
    · split at h
      · rcases List.mem_cons.1 h with h | h
        · exact .inl h
        · exact .inr (List.mem_cons_of_mem _ h)
      · rcases List.mem_cons.1 h with h | h
        · exact .inr (h ▸ List.mem_cons_self)
        · exact (ih h).imp_right (List.mem_cons_of_mem _)

theorem Store.mem_drop {α : Type} {m : Store α} {a : Nat} {c : Nat × α} (h : c ∈ Store.drop m a) : c ∈ m := by
  induction m with
  | nil => exact h
  | cons d rest ih =>
    obtain ⟨k, w⟩ := d
    simp only [Store.drop] at h
    split at h
    · exact List.mem_cons_of_mem _ h
    · rcases List.mem_cons.1 h with h | h
      · exact h ▸ List.mem_cons_self
      · exact List.mem_cons_of_mem _ (ih h)

/-- A property of cells that the old cells and the new one have is one of all cells after a write. -/
theorem Store.forall_put {α : Type} {P : Nat × α → Prop} {m : Store α} {a : Nat} {v : α} (hm : ∀ c ∈ m, P c)
    (hv : P (a, v)) : ∀ c ∈ Store.put m a v, P c := by
  intro c hc
  rcases Store.mem_put hc with rfl | h
  · exact hv
  · exact hm c h

theorem Store.forall_putRun {α : Type} {P : Nat × α → Prop} {m : Store α} {a n : Nat} {v : α} (hm : ∀ c ∈ m, P c)
    (hv : ∀ i, a ≤ i → i < a + n → P (i, v)) : ∀ c ∈ Store.putRun m a n v, P c := by
  induction n generalizing m a with
  | zero => exact hm
  | succ n ih =>
    exact ih (Store.forall_put hm (hv a (Nat.le_refl _) (by omega))) fun i h1 h2 => hv i (by omega) (by omega)

/-! ### The canonical form is kept -/

theorem Store.sorted_put {α : Type} {m : Store α} (a : Nat) (v : α) (h : Store.sorted m = true) :
    Store.sorted (Store.put m a v) = true := by
  induction m with
  | nil => rfl
  | cons d rest ih =>
    obtain ⟨k, w⟩ := d
    have hd := Store.sorted_cons.1 h
    simp only [Store.put]
    split
    · next hlt =>
      refine Store.sorted_cons.2 ⟨h, fun c hc => ?_⟩
      rcases List.mem_cons.1 hc with rfl | hc
      · exact hlt
      · exact Nat.lt_trans hlt (hd.2 c hc)
    · next hge =>
      split
      · next heq => exact Store.sorted_cons.2 ⟨hd.1, fun c hc => heq ▸ hd.2 c hc⟩
      · next hne =>
        exact Store.sorted_cons.2 ⟨ih hd.1, Store.forall_put hd.2 (show k < a by omega)⟩

theorem Store.sorted_drop {α : Type} {m : Store α} (a : Nat) (h : Store.sorted m = true) :
    Store.sorted (Store.drop m a) = true := by
  induction m with
  | nil => rfl
  | cons d rest ih =>
    obtain ⟨k, w⟩ := d
    have hd := Store.sorted_cons.1 h
    simp only [Store.drop]
    split
    · exact hd.1
    · exact Store.sorted_cons.2 ⟨ih hd.1, fun c hc => hd.2 c (Store.mem_drop hc)⟩

theorem Store.sorted_putRun {α : Type} {m : Store α} (a n : Nat) (v : α) (h : Store.sorted m = true) :
    Store.sorted (Store.putRun m a n v) = true := by
  induction n generalizing m a with
  | zero => exact h
  | succ n ih => exact ih _ (Store.sorted_put a v h)

/-! ### Read after write -/

theorem Store.find_put {α : Type} (m : Store α) (a b : Nat) (v : α) :
    Store.find (Store.put m a v) b = if b = a then some v else Store.find m b := by
  induction m with
  | nil => simp [Store.put, Store.find, eq_comm]
  | cons d rest ih =>
    obtain ⟨k, w⟩ := d
    simp only [Store.put]
    split
    · simp [Store.find, eq_comm]
    · split
      · next h => subst h; simp only [Store.find]; split <;> simp_all [eq_comm]
      · simp only [Store.find, ih]
        split <;> split <;> simp_all

@[simp] theorem Store.find_put_self {α : Type} (m : Store α) (a : Nat) (v : α) :
    Store.find (Store.put m a v) a = some v := by
  simp [Store.find_put]

theorem Store.find_put_ne {α : Type} (m : Store α) {a b : Nat} (v : α) (h : b ≠ a) :
    Store.find (Store.put m a v) b = Store.find m b := by
  simp [Store.find_put, h]

theorem Store.find_putRun {α : Type} (m : Store α) (a n b : Nat) (v : α) :
    Store.find (Store.putRun m a n v) b = if a ≤ b ∧ b < a + n then some v else Store.find m b := by
  induction n generalizing m a with
  | zero => rw [Store.putRun, if_neg (by omega)]
  | succ n ih =>
    simp only [Store.putRun, ih, Store.find_put]
    by_cases h : b = a
    · subst h; simp
    · by_cases h2 : a + 1 ≤ b ∧ b < a + 1 + n
      · rw [if_pos h2, if_pos (by omega)]
      · rw [if_neg h2, if_neg h, if_neg (by omega)]

theorem Store.find_none_of_above {α : Type} {m : Store α} {a b : Nat} (h : Store.above a m = true) (hb : b ≤ a) :
    Store.find m b = none := by
  induction m generalizing a with
  | nil => rfl
  | cons d rest ih =>
    obtain ⟨k, w⟩ := d
    simp only [Store.above, Bool.and_eq_true, decide_eq_true_eq] at h
    simp only [Store.find]
    rw [if_neg (by omega)]
    exact ih h.2 (by omega)

theorem Store.find_drop {α : Type} {m : Store α} (a b : Nat) (h : Store.sorted m = true) :
    Store.find (Store.drop m a) b = if b = a then none else Store.find m b := by
  induction m with
  | nil => simp [Store.drop, Store.find]
  | cons d rest ih =>
    obtain ⟨k, w⟩ := d
    have hd := Store.sorted_cons.1 h
    simp only [Store.drop]
    split
    · next hk =>
      subst hk
      by_cases hb : b = k
      · subst hb; simpa using Store.find_none_of_above (a := b) (Store.above_iff.2 hd) (Nat.le_refl _)
      · simp [Store.find, hb, Ne.symm hb]
    · next hk =>
      simp only [Store.find, ih hd.1]
      by_cases hb : k = b
      · subst hb; simp [hk]
      · simp [hb]

/-! ### Byte memories -/

theorem Memory.wf_iff {m : Memory} :
    Memory.wf m = true ↔ Store.sorted m = true ∧ ∀ c ∈ m, c.2 ≠ unlistedByte := by
  simp [Memory.wf]

@[simp] theorem Memory.wf_nil : Memory.wf [] = true := rfl

/-- Every write keeps the canonical form of a byte memory. -/
theorem Memory.wf_write {m : Memory} (a : Nat) (b : Byte) (h : Memory.wf m = true) :
    Memory.wf (Memory.write m a b) = true := by
  rw [Memory.wf_iff] at h ⊢
  unfold Memory.write
  split
  · exact ⟨Store.sorted_drop a h.1, fun c hc => h.2 c (Store.mem_drop hc)⟩
  · next hb => exact ⟨Store.sorted_put a b h.1, Store.forall_put h.2 hb⟩

/-- Reading after a write: the byte written at its address, every other byte as before. -/
theorem Memory.read_write {m : Memory} (a c : Nat) (b : Byte) (h : Memory.wf m = true) :
    Memory.read (Memory.write m a b) c = if c = a then b else Memory.read m c := by
  rw [Memory.wf_iff] at h
  unfold Memory.write Memory.read
  split
  · next hb => rw [Store.find_drop a c h.1]; split <;> simp_all
  · rw [Store.find_put]; split <;> simp

theorem Store.ext_of_find {α : Type} {m n : Store α} (hm : Store.sorted m = true) (hn : Store.sorted n = true)
    (h : ∀ a, Store.find m a = Store.find n a) : m = n := by
  induction m generalizing n with
  | nil =>
    cases n with
    | nil => rfl
    | cons d rest => obtain ⟨k, w⟩ := d; simpa [Store.find] using h k
  | cons c rest ih =>
    obtain ⟨k, v⟩ := c
    cases n with
    | nil => simpa [Store.find] using h k
    | cons d rest' =>
      obtain ⟨j, w⟩ := d
      have hc := Store.sorted_cons.1 hm
      have hd := Store.sorted_cons.1 hn
      have hkj : k = j := by
        rcases Nat.lt_trichotomy k j with hlt | heq | hgt
        · have h1 := h k
          simp only [Store.find, if_true] at h1
          rw [if_neg (by omega), Store.find_none_of_above (Store.above_iff.2 hd) (by omega)] at h1
          cases h1
        · exact heq
        · have h1 := h j
          simp only [Store.find, if_true] at h1
          rw [if_neg (by omega), Store.find_none_of_above (Store.above_iff.2 hc) (by omega)] at h1
          cases h1
      subst hkj
      have hvw : v = w := by simpa [Store.find] using h k
      subst hvw
      congr 1
      refine ih hc.1 hd.1 fun a => ?_
      by_cases ha : k = a
      · subst ha
        rw [Store.find_none_of_above (Store.above_iff.2 hc) (Nat.le_refl _),
          Store.find_none_of_above (Store.above_iff.2 hd) (Nat.le_refl _)]
      · simpa [Store.find, ha] using h a

/-- Two byte memories in canonical form that read alike are the same data. -/
theorem Memory.ext_of_read {m n : Memory} (hm : Memory.wf m = true) (hn : Memory.wf n = true)
    (h : ∀ a, Memory.read m a = Memory.read n a) : m = n := by
  rw [Memory.wf_iff] at hm hn
  refine Store.ext_of_find hm.1 hn.1 fun a => ?_
  have key : ∀ {l : Memory}, (∀ c ∈ l, c.2 ≠ unlistedByte) → ∀ v, Store.find l a = some v → v ≠ unlistedByte := by
    intro l
    induction l with
    | nil => intro _ v hv; cases hv
    | cons d rest ih =>
      obtain ⟨k, w⟩ := d
      intro hl v hv
      simp only [Store.find] at hv
      split at hv
      · cases hv; exact hl _ List.mem_cons_self
      · exact ih (fun c hc => hl c (List.mem_cons_of_mem _ hc)) v hv
  have ha := h a
  unfold Memory.read at ha
  cases h1 : Store.find m a with
  | none =>
    cases h2 : Store.find n a with
    | none => rfl
    | some w => rw [h1, h2] at ha; exact absurd ha.symm (key hn.2 w h2)
  | some v =>
    cases h2 : Store.find n a with
    | none => rw [h1, h2] at ha; exact absurd ha (key hm.2 v h1)
    | some w => rw [h1, h2] at ha; simpa using ha

/-! ### OUT -/

theorem State.outAppendAll_out_wf (s : State) (bs : List Byte) (h : Memory.wf s.out = true) :
    Memory.wf (s.outAppendAll bs).out = true := by
  induction bs generalizing s with
  | nil => exact h
  | cons b bs ih => exact ih _ (Memory.wf_write _ _ h)

theorem State.outAppendAll_outLen (s : State) (bs : List Byte) (h : s.outLen.toNat + bs.length < 2 ^ 33) :
    (s.outAppendAll bs).outLen.toNat = s.outLen.toNat + bs.length := by
  induction bs generalizing s with
  | nil => rfl
  | cons b bs ih =>
    have h1 : (s.outAppend b).outLen.toNat = s.outLen.toNat + 1 := by
      simp only [State.outAppend_outLen, BitVec.toNat_add]
      simp only [List.length_cons] at h
      simpa using Nat.mod_eq_of_lt (show s.outLen.toNat + 1 < 2 ^ 33 by omega)
    simp only [List.length_cons] at h
    rw [State.outAppendAll, ih _ (by omega), h1, List.length_cons]
    omega

/-- `OutAppend` of a list writes nothing but OUT and `OUT_LEN`. -/
theorem State.outAppendAll_frame (s : State) (bs : List Byte) :
    s.outAppendAll bs = { s with out := (s.outAppendAll bs).out, outLen := (s.outAppendAll bs).outLen } := by
  induction bs generalizing s with
  | nil => rfl
  | cons b bs ih => rw [State.outAppendAll, ih]; rfl

/-- Reading OUT after appending: the new bytes in order, every other byte as before. -/
theorem State.outAppendAll_read (s : State) (bs : List Byte) (a : Nat) (hwf : Memory.wf s.out = true)
    (h : s.outLen.toNat + bs.length < 2 ^ 33) :
    Memory.read (s.outAppendAll bs).out a =
      if s.outLen.toNat ≤ a then (bs[a - s.outLen.toNat]?).getD (Memory.read s.out a) else Memory.read s.out a := by
  induction bs generalizing s with
  | nil => simp [State.outAppendAll]
  | cons b bs ih =>
    simp only [List.length_cons] at h
    have h1 : (s.outAppend b).outLen.toNat = s.outLen.toNat + 1 := by
      simp only [State.outAppend_outLen, BitVec.toNat_add]
      simpa using Nat.mod_eq_of_lt (show s.outLen.toNat + 1 < 2 ^ 33 by omega)
    rw [State.outAppendAll, ih (s.outAppend b) (Memory.wf_write _ _ hwf) (by omega), h1]
    simp only [State.outAppend_out, Memory.read_write _ _ _ hwf]
    by_cases ha : a = s.outLen.toNat
    · subst ha; simp
    · by_cases hlt : s.outLen.toNat + 1 ≤ a
      · have hle : s.outLen.toNat ≤ a := by omega
        have hsub : a - s.outLen.toNat = (a - (s.outLen.toNat + 1)) + 1 := by omega
        rw [if_pos hlt, if_neg ha, if_pos hle, hsub, List.getElem?_cons_succ]
      · have hnle : ¬ s.outLen.toNat ≤ a := by omega
        rw [if_neg hlt, if_neg ha, if_neg hnle]

end Sys2Proof.Machine
end

