-- ==== Sys2Proof/Laws/BitReader.lean ====
section
/-! SUPPORT. What `ReadBits` does (40_bitreader.md rules R112 and R115), said once: the value of the bits at the cursor, the
cursor n bits further on, or `UnexpectedEnd` with nothing changed. -/

namespace Sys2Proof.Machine

/-! ### Results -/

@[simp] theorem Res.bind_ok {α β : Type} (a : α) (s : State) (f : α → State → Res β) : (Res.ok a s).bind f = f a s := rfl

@[simp] theorem Res.bind_stop {α β : Type} (x : Stop) (s : State) (f : α → State → Res β) :
    (Res.stop x s).bind f = Res.stop x s := rfl

@[simp] theorem Res.bind_raise {α β : Type} (e : ErrorKind) (s : State) (f : α → State → Res β) :
    (raise e s : Res α).bind f = raise e s := rfl

theorem Res.bind_eq_ok {α β : Type} {r : Res α} {f : α → State → Res β} {b : β} {t : State} (h : r.bind f = .ok b t) :
    ∃ a s, r = .ok a s ∧ f a s = .ok b t := by
  cases r with
  | ok a s => exact ⟨a, s, rfl, h⟩
  | stop x s => cases h

theorem Res.bind_eq_stop {α β : Type} {r : Res α} {f : α → State → Res β} {x : Stop} {t : State} (h : r.bind f = .stop x t) :
    r = .stop x t ∨ ∃ a s, r = .ok a s ∧ f a s = .stop x t := by
  cases r with
  | ok a s => exact .inr ⟨a, s, rfl, h⟩
  | stop y s => cases h; exact .inl rfl

@[simp] theorem Res.renaming_ok {α : Type} (a : α) (s : State) (e1 e2 : ErrorKind) :
    (Res.ok a s).renaming e1 e2 = .ok a s := rfl

@[simp] theorem Res.renaming_raise {α : Type} (e : ErrorKind) (s : State) (e1 e2 : ErrorKind) :
    (raise e s : Res α).renaming e1 e2 = if e = e1 then raise e2 s else raise e s := rfl

@[simp] theorem Res.renaming_fault {α : Type} (f : Fault) (s : State) (e1 e2 : ErrorKind) :
    (Res.stop (.fault f) s : Res α).renaming e1 e2 = .stop (.fault f) s := rfl

theorem Res.renaming_eq_ok {α : Type} {r : Res α} {e1 e2 : ErrorKind} {a : α} {t : State}
    (h : r.renaming e1 e2 = .ok a t) : r = .ok a t := by
  cases r with
  | ok b s => exact h
  | stop x s =>
    cases x with
    | raise e => unfold Res.renaming at h; split at h <;> (try split at h) <;> simp_all [raise]
    | fault f => cases h

/-! ### The cursor -/

theorem State.pos_lt (s : State) : s.pos < 2 ^ 35 := by
  have h1 := s.brByte.isLt
  have h2 := s.brBit.isLt
  unfold State.pos
  omega

theorem State.pos_div (s : State) : s.pos / 8 = s.brByte.toNat := by
  have h2 := s.brBit.isLt
  unfold State.pos
  omega

theorem State.pos_mod (s : State) : s.pos % 8 = s.brBit.toNat := by
  have h2 := s.brBit.isLt
  unfold State.pos
  omega

/-- Consuming one bit is one turn of the cursor of rule R112. -/
theorem State.advance_eq_skipBits (s : State) : s.advance = s.skipBits 1 := by
  have h1 := s.brByte.isLt
  have h2 := s.brBit.isLt
  unfold State.advance State.skipBits State.pos
  split
  · next h =>
    have hb : s.brBit.toNat = 7 := by rw [h]; rfl
    congr 1
    · apply BitVec.eq_of_toNat_eq
      simp only [BitVec.ofNat_eq_ofNat, BitVec.toNat_add, BitVec.toNat_ofNat, hb]
      omega
    · apply BitVec.eq_of_toNat_eq
      simp only [BitVec.ofNat_eq_ofNat, BitVec.toNat_ofNat, hb]
      omega
  · next h =>
    have hb : s.brBit.toNat ≠ 7 := fun hc => h (BitVec.eq_of_toNat_eq (by simpa using hc))
    congr 1
    · apply BitVec.eq_of_toNat_eq
      simp only [BitVec.toNat_ofNat]
      omega
    · apply BitVec.eq_of_toNat_eq
      simp only [BitVec.ofNat_eq_ofNat, BitVec.toNat_add, BitVec.toNat_ofNat]
      omega

@[simp] theorem State.skipBits_zero (s : State) : s.skipBits 0 = s := by
  have h1 := s.pos_div
  have h2 := s.pos_mod
  unfold State.skipBits
  simp only [Nat.add_zero, h1, h2]
  simp

theorem State.pos_skipBits (s : State) (n : Nat) (h : s.pos + n < 2 ^ 35) : (s.skipBits n).pos = s.pos + n := by
  unfold State.pos State.skipBits
  simp only [BitVec.toNat_ofNat]
  unfold State.pos at h ⊢
  omega

theorem State.skipBits_skipBits (s : State) (m n : Nat) (h : s.pos + m < 2 ^ 35) :
    (s.skipBits m).skipBits n = s.skipBits (m + n) := by
  have hp := s.pos_skipBits m h
  show ({ s.skipBits m with brByte := _, brBit := _ } : State) = _
  rw [hp, Nat.add_assoc]
  rfl

theorem State.rem_eq {s : State} (h : s.cursorOk) : s.rem = 8 * s.brEnd.toNat - s.pos := by
  obtain ⟨h1, -, h3⟩ := h
  unfold State.rem State.pos
  omega

theorem State.pos_le_end {s : State} (h : s.cursorOk) : s.pos ≤ 8 * s.brEnd.toNat := by
  obtain ⟨h1, -, h3⟩ := h
  have h2 := s.brBit.isLt
  unfold State.pos
  by_cases he : s.brByte = s.brEnd
  · rw [h3 he, he]; simp
  · have : s.brByte.toNat ≠ s.brEnd.toNat := fun hc => he (BitVec.eq_of_toNat_eq hc)
    omega

theorem State.pos_add_rem {s : State} (h : s.cursorOk) : s.pos + s.rem = 8 * s.brEnd.toNat := by
  have h1 := s.rem_eq h
  have h2 := s.pos_le_end h
  omega

theorem State.pos_add_lt {s : State} (h : s.cursorOk) {n : Nat} (hn : n ≤ s.rem) : s.pos + n < 2 ^ 35 := by
  have h1 := s.pos_add_rem h
  have h2 := s.brEnd.isLt
  omega

theorem State.cursorOk_skipBits {s : State} (h : s.cursorOk) {n : Nat} (hn : n ≤ s.rem) : (s.skipBits n).cursorOk := by
  have h1 := s.pos_add_rem h
  have h2 := s.brEnd.isLt
  obtain ⟨-, h5, -⟩ := h
  refine ⟨?_, h5, fun he => ?_⟩
  · simp only [State.skipBits_brByte, State.skipBits_brEnd, BitVec.toNat_ofNat]
    omega
  · have he' := congrArg BitVec.toNat he
    simp only [State.skipBits_brByte, State.skipBits_brEnd, BitVec.toNat_ofNat] at he'
    apply BitVec.eq_of_toNat_eq
    simp only [State.skipBits_brBit, BitVec.ofNat_eq_ofNat, BitVec.toNat_ofNat]
    omega

theorem State.rem_skipBits {s : State} (h : s.cursorOk) {n : Nat} (hn : n ≤ s.rem) : (s.skipBits n).rem = s.rem - n := by
  have h1 := (s.skipBits n).pos_add_rem (s.cursorOk_skipBits h hn)
  have h2 := s.pos_add_rem h
  rw [s.pos_skipBits n (s.pos_add_lt h hn)] at h1
  simp only [State.skipBits_brEnd] at h1
  omega

/-! ### The bits read -/

@[simp] theorem State.bitAt_skipBits (s : State) (n p : Nat) : (s.skipBits n).bitAt p = s.bitAt p := rfl

theorem State.bitAt_le (s : State) (p : Nat) : s.bitAt p ≤ 1 := by
  unfold State.bitAt
  split <;> exact Bool.toNat_le _

/-- The bit that `readBit` takes is the bit at `POS` (rule R112). -/
theorem State.bitOfByte_eq_bitAt (s : State) :
    bitOfByte s.cfg.bitOrder (Memory.read s.buf s.brByte.toNat) s.brBit.toNat = s.bitAt s.pos := by
  cases h : s.cfg.bitOrder <;> simp only [bitOfByte, State.bitAt, h, s.pos_div, s.pos_mod]

theorem State.nextBits_succ {s : State} (n : Nat) (h : s.pos + 1 < 2 ^ 35) :
    s.nextBits (n + 1) = s.bitAt s.pos :: (s.skipBits 1).nextBits n := by
  unfold State.nextBits
  rw [List.range_succ_eq_map, List.map_cons, List.map_map, s.pos_skipBits 1 h]
  simp only [Nat.add_zero, State.bitAt_skipBits]
  congr 1
  apply List.map_congr_left
  intro k _
  simp only [Function.comp_apply]
  congr 1
  omega

@[simp] theorem State.length_nextBits (s : State) (n : Nat) : (s.nextBits n).length = n := by
  simp [State.nextBits]

theorem State.nextBits_add {s : State} (m n : Nat) (h : s.pos + m < 2 ^ 35) :
    s.nextBits (m + n) = s.nextBits m ++ (s.skipBits m).nextBits n := by
  unfold State.nextBits
  rw [List.range_add, List.map_append, List.map_map, s.pos_skipBits m h]
  congr 1
  apply List.map_congr_left
  intro k _
  simp only [Function.comp_apply, State.bitAt_skipBits]
  congr 1
  omega

theorem State.nextBits_le {s : State} {n : Nat} : ∀ b ∈ s.nextBits n, b ≤ 1 := by
  intro b hb
  obtain ⟨k, -, rfl⟩ := List.mem_map.1 hb
  exact s.bitAt_le _

/-- The result of the loop of rule R112 on the bits still to come. -/
def joinBits (o : BitOrder) : Nat → Nat → List Nat → Nat
  | _, r, [] => r
  | k, r, b :: bs => joinBits o (k + 1) (joinBit o r k b) bs

theorem joinBits_msb (k r : Nat) (bits : List Nat) :
    joinBits .msbFirst k r bits = bits.foldl (fun r b => 2 * r + b) r := by
  induction bits generalizing k r with
  | nil => rfl
  | cons b bs ih => exact ih (k + 1) (2 * r + b)

theorem joinBits_lsb (k r : Nat) (bits : List Nat) : joinBits .lsbFirst k r bits = r + 2 ^ k * lsbValue bits := by
  induction bits generalizing k r with
  | nil => simp [joinBits, lsbValue]
  | cons b bs ih =>
    rw [joinBits, ih]
    simp only [joinBit, lsbValue, List.foldr_cons]
    ring

theorem joinBits_zero (o : BitOrder) (bits : List Nat) : joinBits o 0 0 bits = fieldValue o bits := by
  cases o with
  | msbFirst => exact joinBits_msb 0 0 bits
  | lsbFirst => simp [joinBits_lsb, fieldValue]

/-- One round of `ReadBits` inside the window. -/
theorem readBit_eq {s : State} (h : s.cursorOk) (hr : 1 ≤ s.rem) : readBit s = .ok (s.bitAt s.pos) (s.skipBits 1) := by
  have h1 := s.pos_add_rem h
  have h2 := s.pos_div
  obtain ⟨h3, h4, h5⟩ := h
  unfold readBit
  rw [if_pos (by omega), s.bitOfByte_eq_bitAt, s.advance_eq_skipBits]

theorem readLoop_eq {s : State} {n : Nat} (k r : Nat) (h : s.cursorOk) (hn : n ≤ s.rem) :
    readLoop n k r s = .ok (joinBits s.cfg.bitOrder k r (s.nextBits n)) (s.skipBits n) := by
  induction n generalizing s k r with
  | zero => simp [readLoop, State.nextBits, joinBits]
  | succ n ih =>
    have h1 : (s.skipBits 1).cursorOk := s.cursorOk_skipBits h (by omega)
    have h2 := s.rem_skipBits h (n := 1) (by omega)
    have h3 := s.pos_add_lt h (n := 1) (by omega)
    rw [readLoop, readBit_eq h (by omega), Res.bind_ok, ih (k + 1) _ h1 (by omega), s.nextBits_succ n h3,
      s.skipBits_skipBits 1 n h3, Nat.add_comm 1 n]
    rfl

/-- `ReadBits(n)` with n bits left in the window (rule R112, both closed forms). -/
theorem readBits_eq {s : State} {n : Nat} (h : s.cursorOk) (hn : n ≤ s.rem) :
    readBits n s = .ok (fieldValue s.cfg.bitOrder (s.nextBits n)) (s.skipBits n) := by
  unfold readBits
  rw [if_neg (by omega), readLoop_eq 0 0 h hn, joinBits_zero]

/-- `ReadBits(n)` with fewer than n bits left: `UnexpectedEnd`, nothing consumed (rule R112). -/
theorem readBits_short {s : State} {n : Nat} (hn : s.rem < n) : readBits n s = raise .unexpectedEnd s := by
  unfold readBits
  rw [if_pos hn]

/-- Everything `ReadBits(n)` can do at a good cursor. -/
theorem readBits_cases {s : State} (n : Nat) (h : s.cursorOk) :
    (n ≤ s.rem ∧ readBits n s = .ok (fieldValue s.cfg.bitOrder (s.nextBits n)) (s.skipBits n)) ∨
    (s.rem < n ∧ readBits n s = raise .unexpectedEnd s) := by
  by_cases hn : n ≤ s.rem
  · exact .inl ⟨hn, readBits_eq h hn⟩
  · exact .inr ⟨by omega, readBits_short (by omega)⟩

@[simp] theorem readBits_zero (s : State) : readBits 0 s = .ok 0 s := by
  simp [readBits, readLoop]

/-! ### The value of a field -/

theorem msbValue_append (a b : List Nat) : msbValue (a ++ b) = msbValue a * 2 ^ b.length + msbValue b := by
  have key : ∀ (l : List Nat) (r : Nat), l.foldl (fun r b => 2 * r + b) r = r * 2 ^ l.length + msbValue l := by
    intro l
    induction l with
    | nil => intro r; simp [msbValue]
    | cons c l ih =>
      intro r
      have h0 := ih (2 * 0 + c)
      have h1 := ih (2 * r + c)
      simp only [msbValue, List.foldl_cons, List.length_cons] at *
      rw [h1, h0]
      ring
  unfold msbValue
  rw [List.foldl_append]
  exact key b _

theorem lsbValue_append (a b : List Nat) : lsbValue (a ++ b) = lsbValue a + 2 ^ a.length * lsbValue b := by
  induction a with
  | nil => simp [lsbValue]
  | cons c l ih =>
    simp only [lsbValue, List.cons_append, List.foldr_cons, List.length_cons] at *
    rw [ih]
    ring

theorem msbValue_lt {bits : List Nat} (h : ∀ b ∈ bits, b ≤ 1) : msbValue bits < 2 ^ bits.length := by
  induction bits using List.reverseRecOn with
  | nil => simp [msbValue]
  | append_singleton l c ih =>
    have h1 := ih fun b hb => h b (List.mem_append_left _ hb)
    have h2 := h c (List.mem_append_right _ (List.mem_singleton_self c))
    rw [msbValue_append, List.length_append]
    simp only [msbValue, List.length_singleton, List.foldl_cons, List.foldl_nil, pow_succ, pow_zero] at *
    omega

theorem lsbValue_lt {bits : List Nat} (h : ∀ b ∈ bits, b ≤ 1) : lsbValue bits < 2 ^ bits.length := by
  induction bits with
  | nil => simp [lsbValue]
  | cons c l ih =>
    have h1 := ih fun b hb => h b (List.mem_cons_of_mem _ hb)
    have h2 := h c List.mem_cons_self
    simp only [lsbValue, List.foldr_cons, List.length_cons, pow_succ] at *
    omega

/-- A field of n bits is below `2^n` (rule R112). -/
theorem fieldValue_lt (s : State) (n : Nat) : fieldValue s.cfg.bitOrder (s.nextBits n) < 2 ^ n := by
  have h : ∀ b ∈ s.nextBits n, b ≤ 1 := State.nextBits_le
  cases ho : s.cfg.bitOrder with
  | msbFirst => simpa [fieldValue] using msbValue_lt h
  | lsbFirst => simpa [fieldValue] using lsbValue_lt h

theorem msbBits_succ (w v : Nat) : msbBits (w + 1) v = msbBits w (v / 2) ++ [v % 2] := by
  unfold msbBits
  rw [List.range_succ, List.map_append]
  congr 1
  · apply List.map_congr_left
    intro j hj
    have hj' := List.mem_range.1 hj
    rw [show w + 1 - 1 - j = (w - 1 - j) + 1 by omega, pow_succ, Nat.mul_comm, Nat.div_div_eq_div_mul]
  · simp

@[simp] theorem length_msbBits (w v : Nat) : (msbBits w v).length = w := by simp [msbBits]

@[simp] theorem length_lsbBits (w v : Nat) : (lsbBits w v).length = w := by simp [lsbBits]

@[simp] theorem length_fieldBits (o : BitOrder) (w v : Nat) : (fieldBits o w v).length = w := by
  cases o <;> simp [fieldBits]

/-- Reading back the digits of a number. -/
theorem msbValue_msbBits {w v : Nat} (h : v < 2 ^ w) : msbValue (msbBits w v) = v := by
  induction w generalizing v with
  | zero => simp_all [msbBits, msbValue]
  | succ w ih =>
    rw [msbBits_succ, msbValue_append, ih (by rw [pow_succ] at h; omega)]
    simp only [msbValue, List.length_singleton, List.foldl_cons, List.foldl_nil]
    omega

theorem lsbBits_succ (w v : Nat) : lsbBits (w + 1) v = v % 2 :: lsbBits w (v / 2) := by
  unfold lsbBits
  rw [List.range_succ_eq_map, List.map_cons, List.map_map]
  congr 1
  · simp
  · apply List.map_congr_left
    intro j _
    simp only [Function.comp_apply, Nat.succ_eq_add_one, pow_succ, Nat.mul_comm (2 ^ j) 2, Nat.div_div_eq_div_mul]

theorem lsbValue_lsbBits {w v : Nat} (h : v < 2 ^ w) : lsbValue (lsbBits w v) = v := by
  induction w generalizing v with
  | zero => simp_all [lsbBits, lsbValue]
  | succ w ih =>
    have h1 := ih (v := v / 2) (by rw [pow_succ] at h; omega)
    rw [lsbBits_succ]
    simp only [lsbValue, List.foldr_cons] at *
    rw [h1]
    omega

/-- A field reads back as the number written into it (rule R86). -/
theorem fieldValue_fieldBits (o : BitOrder) {w v : Nat} (h : v < 2 ^ w) : fieldValue o (fieldBits o w v) = v := by
  cases o with
  | msbFirst => exact msbValue_msbBits h
  | lsbFirst => exact lsbValue_lsbBits h

end Sys2Proof.Machine
end

