-- ==== Sys2Proof/Laws/Result.lean ====
section
/-! SUPPORT. What an internal operation can answer, as one predicate, and how it goes through sequencing and through the
two `try` forms (00_scope.md rules R10 and R11). -/

namespace Sys2Proof.Machine

/-- The operation does not stop by a fault; its value and state meet Q, or its error and state meet E. -/
def Res.Meets {α : Type} (r : Res α) (Q : α → State → Prop) (E : ErrorKind → State → Prop) : Prop :=
  match r with
  | .ok a s => Q a s
  | .stop (.raise e) s => E e s
  | .stop (.fault _) _ => False

@[simp] theorem Res.meets_ok {α : Type} {a : α} {s : State} {Q : α → State → Prop} {E : ErrorKind → State → Prop} :
    (Res.ok a s).Meets Q E ↔ Q a s := Iff.rfl

@[simp] theorem Res.meets_raise {α : Type} {e : ErrorKind} {s : State} {Q : α → State → Prop}
    {E : ErrorKind → State → Prop} : (raise e s : Res α).Meets Q E ↔ E e s := Iff.rfl

theorem Res.Meets.bind {α β : Type} {r : Res α} {f : α → State → Res β} {Q : α → State → Prop} {Q' : β → State → Prop}
    {E : ErrorKind → State → Prop} (h : r.Meets Q E) (hf : ∀ a s, Q a s → (f a s).Meets Q' E) : (r.bind f).Meets Q' E := by
  cases r with
  | ok a s => exact hf a s h
  | stop x s =>
    cases x with
    | raise e => exact h
    | fault f => exact h.elim

theorem Res.Meets.mono {α : Type} {r : Res α} {Q Q' : α → State → Prop} {E E' : ErrorKind → State → Prop}
    (h : r.Meets Q E) (hq : ∀ a s, Q a s → Q' a s) (he : ∀ e s, E e s → E' e s) : r.Meets Q' E' := by
  cases r with
  | ok a s => exact hq a s h
  | stop x s =>
    cases x with
    | raise e => exact he e s h
    | fault f => exact h.elim

theorem Res.Meets.renaming {α : Type} {r : Res α} {e1 e2 : ErrorKind} {Q : α → State → Prop}
    {E E' : ErrorKind → State → Prop} (h : r.Meets Q E) (h1 : ∀ s, E e1 s → E' e2 s)
    (h2 : ∀ e s, e ≠ e1 → E e s → E' e s) : (r.renaming e1 e2).Meets Q E' := by
  cases r with
  | ok a s => exact h
  | stop x s =>
    cases x with
    | raise e =>
      show (if e = e1 then raise e2 s else raise e s : Res α).Meets Q E'
      by_cases he : e = e1
      · subst he
        rw [if_pos rfl]
        exact h1 s h
      · rw [if_neg he]
        exact h2 e s he h
    | fault f => exact h.elim

theorem Res.Meets.onError {α : Type} {r : Res α} {f : State → State} {Q : α → State → Prop}
    {E E' : ErrorKind → State → Prop} (h : r.Meets Q E) (he : ∀ e s, E e s → E' e (f s)) : (r.onError f).Meets Q E' := by
  cases r with
  | ok a s => exact h
  | stop x s =>
    cases x with
    | raise e => exact he e s h
    | fault f => exact h.elim

/-- An operation that meets something ends, with a value or with an error. -/
theorem Res.Meets.ends {α : Type} {r : Res α} {Q : α → State → Prop} {E : ErrorKind → State → Prop} (h : r.Meets Q E) :
    (∃ a s, r = .ok a s ∧ Q a s) ∨ (∃ e s, r = raise e s ∧ E e s) := by
  cases r with
  | ok a s => exact .inl ⟨a, s, rfl, h⟩
  | stop x s =>
    cases x with
    | raise e => exact .inr ⟨e, s, rfl, h⟩
    | fault f => exact h.elim

end Sys2Proof.Machine
end

