-- ==== Sys2Proof/Laws/Command.lean ====
section
/-! SUPPORT. What launching and ending a command does (30_encoding.md rule R80, 60_exceptions.md rule R214), said once. -/

namespace Sys2Proof.Machine

/-- The state in which the body of a command starts (rule R80). -/
def State.launched (s : State) (w : Word) : State := { s with cmd := w, run := .busy }

theorem launch_idle {w : Word} {body : State → Res Unit} {s : State} (h : s.run = .idle) :
    launch w body s = finish (body (s.launched w)) := by
  unfold launch
  rw [h]
  rfl

theorem launch_error {w : Word} {body : State → Res Unit} {s : State} (h : s.run = .error) : launch w body s = .next s := by
  unfold launch
  rw [h]

theorem launch_busy {w : Word} {body : State → Res Unit} {s : State} (h : s.run = .busy) :
    launch w body s = .refused .commandWhileBusy := by
  unfold launch
  rw [h]

theorem launchIllegal_idle {op : BitVec 8} {s : State} (h : s.run = .idle) :
    launchIllegal op s = .next (s.raiseError op .illegalCommand) := by
  unfold launchIllegal
  rw [h]

theorem launchIllegal_error {op : BitVec 8} {s : State} (h : s.run = .error) : launchIllegal op s = .next s := by
  unfold launchIllegal
  rw [h]

@[simp] theorem finish_ok (a : Unit) (s : State) : finish (.ok a s) = .next s.complete := rfl

@[simp] theorem finish_raise (e : ErrorKind) (s : State) :
    finish (raise e s) = .next (s.raiseError (opByte s.cmd) e) := rfl

/-- Everything a launch can do, if it answers a next state. -/
theorem launch_next {w : Word} {body : State → Res Unit} {s u : State} (h : launch w body s = .next u) :
    (s.run = .error ∧ u = s) ∨
    (s.run = .idle ∧ ∃ t, body (s.launched w) = .ok () t ∧ u = t.complete) ∨
    (s.run = .idle ∧ ∃ e t, body (s.launched w) = raise e t ∧ u = t.raiseError (opByte t.cmd) e) := by
  cases hr : s.run with
  | idle =>
    rw [launch_idle hr] at h
    cases hb : body (s.launched w) with
    | ok a t =>
      rw [hb] at h
      exact .inr (.inl ⟨rfl, t, rfl, by cases h; rfl⟩)
    | stop x t =>
      rw [hb] at h
      cases x with
      | raise e => exact .inr (.inr ⟨rfl, e, t, rfl, by cases h; rfl⟩)
      | fault f => cases h
  | busy => rw [launch_busy hr] at h; cases h
  | error => rw [launch_error hr] at h; exact .inl ⟨rfl, by cases h; rfl⟩

/-- A command whose body meets something ends in `IDLE` or in `ERROR` (rule R80). -/
theorem launch_meets {w : Word} {body : State → Res Unit} {s : State} {Q : State → Prop} {E : ErrorKind → State → Prop}
    (hr : s.run = .idle) (h : (body (s.launched w)).Meets (fun _ => Q) E) :
    (∃ t, Q t ∧ launch w body s = .next t.complete) ∨
    (∃ e t, E e t ∧ launch w body s = .next (t.raiseError (opByte t.cmd) e)) := by
  rw [launch_idle hr]
  rcases h.ends with ⟨_, t, he, hq⟩ | ⟨e, t, he, hq⟩
  · exact .inl ⟨t, hq, by rw [he, finish_ok]⟩
  · exact .inr ⟨e, t, hq, by rw [he, finish_raise]⟩

@[simp] theorem endSymbol_ok (a : Unit) (s : State) : endSymbol (.ok a s) = .next s := rfl

@[simp] theorem endSymbol_raise (e : ErrorKind) (s : State) : endSymbol (raise e s) = failCommand e s := rfl

/-- A symbol of a running table reader (42_table_reader.md rule R155). -/
theorem runSymbol_eq {body : State → Res Unit} {s : State} (h1 : s.run = .busy) (h2 : s.trState = .sym)
    (h3 : s.ofs.toNat < s.nsym.toNat) : runSymbol body s = endSymbol (body s) := by
  unfold runSymbol
  rw [if_pos ⟨h1, h2, h3⟩]

/-- Everything a symbol can do, if it answers a next state (rule R155). -/
theorem runSymbol_next {body : State → Res Unit} {s u : State} (h : runSymbol body s = .next u) :
    s.run = .busy ∧ s.trState = .sym ∧ s.ofs.toNat < s.nsym.toNat ∧
      (body s = .ok () u ∨ ∃ e t, body s = raise e t ∧ u = (undoOnError t).raiseError (opByte t.cmd) e) := by
  unfold runSymbol at h
  split at h
  · next hc =>
    refine ⟨hc.1, hc.2.1, hc.2.2, ?_⟩
    cases hb : body s with
    | ok a t => rw [hb] at h; cases h; exact .inl rfl
    | stop x t =>
      rw [hb] at h
      cases x with
      | raise e => exact .inr ⟨e, t, rfl, by cases h; rfl⟩
      | fault f => cases h
  · cases h

end Sys2Proof.Machine
end

