-- ==== Sys2Proof/Laws/Encoding.lean ====
section
/-! SUPPORT. The command words as numbers (30_encoding.md rules R81 to R83), the symbols by their index (rule R89), and the
slots that the operand forms name. -/

namespace Sys2Proof

theorem commandWord_rdbits (n : BitVec 6) : commandWord 0x02 (n.zeroExtend 8) = 0x02000000 ||| n.zeroExtend 32 := by
  revert n
  decide +kernel

theorem commandWord_hbuild (t : BitVec 1) : commandWord 0x04 (t.zeroExtend 8) = 0x04000000 ||| t.zeroExtend 32 := by
  revert t
  decide +kernel

theorem commandWord_hdec (t : BitVec 2) : commandWord 0x05 (t.zeroExtend 8) = 0x05000000 ||| t.zeroExtend 32 := by
  revert t
  decide +kernel

theorem commandWord_tread (t : BitVec 1) : commandWord 0x06 (t.zeroExtend 8) = 0x06000000 ||| t.zeroExtend 32 := by
  revert t
  decide +kernel

theorem commandWord_lvlinfo (i : BitVec 8) : commandWord 0x08 i = 0x08000000 ||| i.zeroExtend 32 := by
  revert i
  decide +kernel

theorem commandWord_unpack (i : BitVec 8) : commandWord 0x09 i = 0x09000000 ||| i.zeroExtend 32 := by
  revert i
  decide +kernel

theorem toNat_commandWord (op a : BitVec 8) : (commandWord op a).toNat = op.toNat * 2 ^ 24 + a.toNat := by
  unfold commandWord
  have ha := a.isLt
  rw [BitVec.toNat_append, BitVec.toNat_append, ← Nat.shiftLeft_add_eq_or_of_lt, ← Nat.shiftLeft_add_eq_or_of_lt]
  · simp [Nat.shiftLeft_eq]
  · omega
  · simp; omega

@[simp] theorem opByte_commandWord (op a : BitVec 8) : opByte (commandWord op a) = op := by
  apply BitVec.eq_of_toNat_eq
  have ha := a.isLt
  have ho := op.isLt
  unfold opByte
  rw [BitVec.extractLsb'_toNat, toNat_commandWord, Nat.shiftRight_eq_div_pow]
  omega

@[simp] theorem aByte_commandWord (op a : BitVec 8) : aByte (commandWord op a) = a := by
  apply BitVec.eq_of_toNat_eq
  have ha := a.isLt
  unfold aByte
  rw [BitVec.extractLsb'_toNat, toNat_commandWord, Nat.shiftRight_eq_div_pow]
  omega

@[simp] theorem zField_commandWord (op a : BitVec 8) : zField (commandWord op a) = 0 := by
  apply BitVec.eq_of_toNat_eq
  have ha := a.isLt
  unfold zField
  rw [BitVec.extractLsb'_toNat, toNat_commandWord, Nat.shiftRight_eq_div_pow]
  show _ = 0
  omega

/-- A word whose field `Z` is 0 is made of its opcode and operand bytes (rule R81). -/
theorem commandWord_fields {w : Word} (h : zField w = 0) : commandWord (opByte w) (aByte w) = w := by
  apply BitVec.eq_of_toNat_eq
  have h1 := congrArg BitVec.toNat h
  have hw := w.isLt
  unfold zField at h1
  rw [BitVec.extractLsb'_toNat, Nat.shiftRight_eq_div_pow] at h1
  change _ = 0 at h1
  rw [toNat_commandWord]
  unfold opByte aByte
  rw [BitVec.extractLsb'_toNat, BitVec.extractLsb'_toNat, Nat.shiftRight_eq_div_pow, Nat.shiftRight_eq_div_pow]
  omega

/-- The symbols are the 21 indexes below 21 (rules R89 and R91). -/
theorem decodeSymbol_lt {x : Nat} (h : x < 21) : ∃ i, decodeSymbol x = .ok i := by
  interval_cases x <;> exact ⟨_, rfl⟩

namespace Machine

theorem slotOfT01_ne (t : BitVec 1) : slotOfT01 t ≠ .tmp := by
  revert t
  decide

theorem slotOfT012_index {t : BitVec 2} {r : SlotId} (h : r.index = t.toNat) : slotOfT012 t = some r := by
  revert t
  cases r <;> decide

end Machine

end Sys2Proof
end

