-- ==== Sys2Proof/Laws/Huffman.lean ====
section
/-! SUPPORT. What the canonical builder and the decoder do (41_huffman.md), said once. -/

namespace Sys2Proof.Machine

/-! ### The order of rule R133 -/

theorem symbolBefore_total (d : List Nat) (x y : Nat) : symbolBefore d x y ∨ symbolBefore d y x := by
  unfold symbolBefore
  omega

theorem symbolBefore_trans {d : List Nat} {x y z : Nat} (h1 : symbolBefore d x y) (h2 : symbolBefore d y z) :
    symbolBefore d x z := by
  unfold symbolBefore at *
  omega

theorem insertSymbol_perm (d : List Nat) (x : Nat) (l : List Nat) : (insertSymbol d x l).Perm (x :: l) := by
  induction l with
  | nil => exact List.Perm.refl _
  | cons y ys ih =>
    unfold insertSymbol
    split
    · exact List.Perm.refl _
    · exact (ih.cons y).trans (List.Perm.swap x y ys)

theorem insertSymbol_sorted {d : List Nat} {x : Nat} {l : List Nat} (h : l.Pairwise (symbolBefore d)) :
    (insertSymbol d x l).Pairwise (symbolBefore d) := by
  induction l with
  | nil => simp [insertSymbol]
  | cons y ys ih =>
    unfold insertSymbol
    have h' := List.pairwise_cons.1 h
    split
    · next hxy =>
      refine List.pairwise_cons.2 ⟨fun z hz => ?_, h⟩
      rcases List.mem_cons.1 hz with rfl | hz
      · exact hxy
      · exact symbolBefore_trans hxy (h'.1 z hz)
    · next hxy =>
      have hyx : symbolBefore d y x := (symbolBefore_total d x y).resolve_left hxy
      refine List.pairwise_cons.2 ⟨fun z hz => ?_, ih h'.2⟩
      rcases List.mem_cons.1 ((insertSymbol_perm d x ys).mem_iff.1 hz) with rfl | hz
      · exact hyx
      · exact h'.1 z hz

theorem sortUsed_perm (d : List Nat) : (sortUsed d).Perm (usedSymbols d) := by
  unfold sortUsed
  induction usedSymbols d with
  | nil => exact List.Perm.refl _
  | cons x xs ih => exact (insertSymbol_perm d x _).trans (ih.cons x)

/-- `SortUsed` is in the order of rule R133. -/
theorem sortUsed_sorted (d : List Nat) : (sortUsed d).Pairwise (symbolBefore d) := by
  unfold sortUsed
  induction usedSymbols d with
  | nil => exact List.Pairwise.nil
  | cons x xs ih => exact insertSymbol_sorted ih

/-- `SortUsed` lists exactly the used symbols. -/
theorem mem_sortUsed {d : List Nat} {x : Nat} : x ∈ sortUsed d ↔ x < d.length ∧ depthAt d x ≠ 0 := by
  rw [(sortUsed_perm d).mem_iff]
  simp [usedSymbols]

theorem sortUsed_nodup (d : List Nat) : (sortUsed d).Nodup :=
  (sortUsed_perm d).nodup_iff.2 (List.nodup_range.filter _)

theorem depthAt_le_of_sorted {d : List Nat} {x : Nat} {xs : List Nat} (h : (x :: xs).Pairwise (symbolBefore d)) :
    ∀ y ∈ xs, depthAt d x ≤ depthAt d y := by
  intro y hy
  have := (List.pairwise_cons.1 h).1 y hy
  unfold symbolBefore at this
  omega

/-! ### `Check` -/

theorem checkDepths_iff {d : List Nat} :
    checkDepths d = true ↔ d ≠ [] ∧ (∀ v ∈ d, v ≤ maxDepth) ∧ ∃ v ∈ d, v ≠ 0 := by
  simp [checkDepths, List.all_eq_true, List.any_eq_true, and_assoc]

theorem depthAt_mem {d : List Nat} {x : Nat} (h : x < d.length) : depthAt d x ∈ d := by
  unfold depthAt
  rw [List.getD_eq_getElem _ _ h]
  exact List.getElem_mem h

theorem depthAt_le {d : List Nat} (h : checkDepths d = true) (x : Nat) : depthAt d x ≤ 16 := by
  by_cases hx : x < d.length
  · exact (checkDepths_iff.1 h).2.1 _ (depthAt_mem hx)
  · unfold depthAt
    rw [List.getD_eq_default _ _ (by omega)]
    omega

theorem sortUsed_ne_nil {d : List Nat} (h : checkDepths d = true) : sortUsed d ≠ [] := by
  obtain ⟨-, -, v, hv, hv0⟩ := checkDepths_iff.1 h
  obtain ⟨x, hx, rfl⟩ := List.getElem_of_mem hv
  intro hnil
  have : x ∈ sortUsed d := mem_sortUsed.2 ⟨hx, by unfold depthAt; rwa [List.getD_eq_getElem _ _ hx]⟩
  rw [hnil] at this
  cases this

/-! ### The canonical codes -/

/-- The codes of rule R133 in closed form: the code of a symbol is the Kraft sum K of the symbols before it (in units of
2^-16), in the units of the symbol's own depth. -/
def codeList (d : List Nat) : Nat → List Nat → List (Nat × Nat)
  | _, [] => []
  | k, x :: xs => (x, k / 2 ^ (16 - depthAt d x)) :: codeList d (k + 2 ^ (16 - depthAt d x)) xs

@[simp] theorem kraftSum_cons (d : List Nat) (x : Nat) (xs : List Nat) :
    kraftSum d (x :: xs) = 2 ^ (16 - depthAt d x) + kraftSum d xs := by
  simp [kraftSum]

@[simp] theorem kraftSum_nil (d : List Nat) : kraftSum d [] = 0 := rfl

/-- The loop of `Assign` is the closed form, and it overflows exactly when the Kraft sum exceeds 1 (rules R133, R134). -/
theorem assignLoop_eq {d : List Nat} {xs : List Nat} {code prev : Nat} (hs : xs.Pairwise (symbolBefore d))
    (hlo : ∀ x ∈ xs, prev ≤ depthAt d x) (hhi : ∀ x ∈ xs, depthAt d x ≤ 16) (hp : prev ≤ 16) (hk : code ≤ 2 ^ prev) :
    assignLoop d xs code prev =
      if code * 2 ^ (16 - prev) + kraftSum d xs ≤ 2 ^ 16 then some (codeList d (code * 2 ^ (16 - prev)) xs) else none := by
  induction xs generalizing code prev with
  | nil =>
    have h : code * 2 ^ (16 - prev) ≤ 2 ^ 16 := by
      calc code * 2 ^ (16 - prev) ≤ 2 ^ prev * 2 ^ (16 - prev) := Nat.mul_le_mul_right _ hk
        _ = 2 ^ 16 := by rw [← pow_add]; congr 1; omega
    simp only [assignLoop, codeList, kraftSum_nil, Nat.add_zero]
    exact (if_pos h).symm
  | cons x xs ih =>
    have hx1 := hlo x List.mem_cons_self
    have hx2 := hhi x List.mem_cons_self
    have hs' := List.pairwise_cons.1 hs
    have hpow : 2 ^ depthAt d x * 2 ^ (16 - depthAt d x) = 2 ^ 16 := by rw [← pow_add]; congr 1; omega
    have hK : code * 2 ^ (depthAt d x - prev) * 2 ^ (16 - depthAt d x) = code * 2 ^ (16 - prev) := by
      rw [Nat.mul_assoc, ← pow_add]; congr 2; omega
    have hpos : 0 < 2 ^ (16 - depthAt d x) := Nat.two_pow_pos _
    unfold assignLoop
    simp only []
    split
    · next hov =>
      have h1 : 2 ^ 16 ≤ code * 2 ^ (16 - prev) := by
        rw [← hK, ← hpow]
        exact Nat.mul_le_mul_right _ hov
      rw [if_neg]
      rw [kraftSum_cons]
      omega
    · next hov =>
      rw [ih (prev := depthAt d x) hs'.2 (depthAt_le_of_sorted hs) (fun y hy => hhi y (List.mem_cons_of_mem _ hy)) hx2
        (by omega)]
      have hK' : (code * 2 ^ (depthAt d x - prev) + 1) * 2 ^ (16 - depthAt d x)
          = code * 2 ^ (16 - prev) + 2 ^ (16 - depthAt d x) := by
        rw [Nat.add_mul, hK, Nat.one_mul]
      rw [hK', kraftSum_cons, Nat.add_assoc]
      split
      · simp only [Option.map_some, codeList, ← hK, Nat.mul_div_cancel _ hpos]
      · rfl

theorem assign_eq {d : List Nat} (h : checkDepths d = true) :
    assign d (sortUsed d) =
      if kraftSum d (sortUsed d) ≤ 2 ^ 16 then some (codeList d 0 (sortUsed d)) else none := by
  have hs := sortUsed_sorted d
  have hhi : ∀ x ∈ sortUsed d, depthAt d x ≤ 16 := fun x _ => depthAt_le h x
  unfold assign
  rw [assignLoop_eq hs ?_ hhi (depthAt_le h _) (Nat.zero_le _)]
  · simp
  · cases hl : sortUsed d with
    | nil => simp
    | cons x xs =>
      rw [hl] at hs
      intro y hy
      rcases List.mem_cons.1 hy with rfl | hy
      · exact Nat.le_refl _
      · exact depthAt_le_of_sorted hs y hy

/-- Everything `Build` can do to a depth array (rules R131 to R134). -/
theorem buildSlot_eq (d : List Nat) :
    buildSlot d =
      if checkDepths d = true ∧ kraftSum d (sortUsed d) ≤ 2 ^ 16 then
        some (builtSlot d (sortUsed d) (codeList d 0 (sortUsed d)))
      else none := by
  unfold buildSlot
  by_cases hc : checkDepths d = true
  · by_cases hk : kraftSum d (sortUsed d) ≤ 2 ^ 16
    · rw [if_pos hc, if_neg (by omega), assign_eq hc, if_pos hk, if_pos ⟨hc, hk⟩]
      rfl
    · rw [if_pos hc, if_pos (by omega), if_neg (by tauto)]
  · rw [if_neg hc, if_neg (by tauto)]

theorem buildSlot_eq_some {d : List Nat} {sl : Slot} (h : buildSlot d = some sl) :
    checkDepths d = true ∧ kraftSum d (sortUsed d) ≤ 2 ^ 16
      ∧ sl = builtSlot d (sortUsed d) (codeList d 0 (sortUsed d)) := by
  rw [buildSlot_eq] at h
  split at h
  · next hc => exact ⟨hc.1, hc.2, (Option.some.inj h).symm⟩
  · cases h

/-- Everything `Build` can do to a slot (rule R131). -/
theorem build_cases (t : SlotId) (d : List Nat) (s : State) :
    (buildSlot d = none ∧ build t d s = raise .invalidDepths (s.invalidate t)) ∨
    (∃ sl, buildSlot d = some sl ∧ build t d s = .ok () (s.setSlot t sl)) := by
  unfold build
  cases buildSlot d with
  | none => exact .inl ⟨rfl, rfl⟩
  | some sl => exact .inr ⟨sl, rfl, rfl⟩

/-! ### The fields of a built slot -/

theorem builtSlot_valid {d : List Nat} {sl : Slot} (h : buildSlot d = some sl) : sl.valid = true := by
  rw [(buildSlot_eq_some h).2.2]
  rfl

theorem builtSlot_ns {d : List Nat} {sl : Slot} (h : buildSlot d = some sl) (hn : d.length ≤ daSize) :
    sl.ns.toNat = d.length := by
  rw [(buildSlot_eq_some h).2.2]
  simp only [builtSlot, BitVec.toNat_ofNat]
  exact Nat.mod_eq_of_lt (by unfold daSize at hn; omega)

theorem builtSlot_depthOf {d : List Nat} {sl : Slot} (h : buildSlot d = some sl) (x : Nat) : sl.depthOf x = depthAt d x := by
  obtain ⟨hc, -, rfl⟩ := buildSlot_eq_some h
  have hle := depthAt_le hc x
  unfold Slot.depthOf builtSlot
  simp only []
  by_cases hx : x < d.length
  · rw [List.getD_eq_getElem _ _ (by simpa using hx), List.getElem_map, BitVec.toNat_ofNat]
    unfold depthAt at hle ⊢
    rw [List.getD_eq_getElem _ _ hx] at hle ⊢
    omega
  · unfold depthAt
    rw [List.getD_eq_default _ _ (by simpa using hx), List.getD_eq_default _ _ (by omega)]
    rfl

theorem sortUsed_getLast {d : List Nat} (h : checkDepths d = true) : (sortUsed d).getLastD 0 ∈ sortUsed d := by
  cases hl : sortUsed d with
  | nil => exact absurd hl (sortUsed_ne_nil h)
  | cons x xs =>
    rw [List.getLastD_eq_getLast?, List.getLast?_eq_some_getLast (List.cons_ne_nil x xs), Option.getD_some]
    exact List.getLast_mem _

/-- `MAXLEN` is the largest depth (rule R131). -/
theorem builtSlot_maxlen {d : List Nat} {sl : Slot} (h : buildSlot d = some sl) :
    1 ≤ sl.maxlen.toNat ∧ sl.maxlen.toNat ≤ 16 ∧ (∀ x, depthAt d x ≤ sl.maxlen.toNat)
      ∧ ∃ x, x < d.length ∧ depthAt d x = sl.maxlen.toNat := by
  obtain ⟨hc, -, rfl⟩ := buildSlot_eq_some h
  have hmem := sortUsed_getLast hc
  have hle := depthAt_le hc ((sortUsed d).getLastD 0)
  have hu := mem_sortUsed.1 hmem
  have hm : (builtSlot d (sortUsed d) (codeList d 0 (sortUsed d))).maxlen.toNat
      = depthAt d ((sortUsed d).getLastD 0) := by
    simp only [builtSlot, BitVec.toNat_ofNat]
    omega
  rw [hm]
  refine ⟨by omega, hle, fun x => ?_, _, hu.1, rfl⟩
  by_cases hx : x ∈ sortUsed d
  · have hs := sortUsed_sorted d
    have hnil := sortUsed_ne_nil hc
    rw [List.getLastD_eq_getLast?, List.getLast?_eq_some_getLast hnil, Option.getD_some]
    rw [← List.dropLast_append_getLast hnil] at hx hs
    rcases List.mem_append.1 hx with hx | hx
    · have := (List.pairwise_append.1 hs).2.2 x hx _ (List.mem_singleton_self _)
      unfold symbolBefore at this
      omega
    · rw [List.mem_singleton.1 hx]
  · have : depthAt d x = 0 := by
      by_contra h0
      by_cases hlt : x < d.length
      · exact hx (mem_sortUsed.2 ⟨hlt, h0⟩)
      · exact h0 (by unfold depthAt; rw [List.getD_eq_default _ _ (by omega)])
    omega

/-! ### `Lookup` and `Decode` -/

theorem lookup_eq_some {sl : Slot} {len cand x : Nat} (h : sl.lookup len cand = some x) :
    x < sl.ns.toNat ∧ sl.depthOf x = len ∧ sl.codeOf x = cand := by
  unfold Slot.lookup at h
  have h1 := List.find?_some h
  have h2 := List.mem_of_find?_eq_some h
  simp only [Bool.and_eq_true, decide_eq_true_eq] at h1
  exact ⟨List.mem_range.1 h2, h1.1, h1.2⟩

theorem lookup_eq_none {sl : Slot} {len cand : Nat} (h : sl.lookup len cand = none) :
    ∀ x, x < sl.ns.toNat → sl.depthOf x = len → sl.codeOf x ≠ cand := by
  intro x hx hd hc
  unfold Slot.lookup at h
  have := List.find?_eq_none.1 h x (List.mem_range.2 hx)
  simp [hd, hc] at this

theorem fieldValue_one (o : BitOrder) (b : Nat) : fieldValue o [b] = b := by
  cases o <;> simp [fieldValue, msbValue, lsbValue]

theorem readBits_one {s : State} (h : s.cursorOk) (hr : 1 ≤ s.rem) :
    readBits 1 s = .ok (s.bitAt s.pos) (s.skipBits 1) := by
  have h1 := s.nextBits_succ 0 (s.pos_add_lt h hr)
  rw [readBits_eq h hr, h1]
  simp [State.nextBits, fieldValue_one]

/-- Everything the loop of `Decode` can do with at most n more bits (rule R137). -/
theorem decodeLoop_cases {t : SlotId} {s : State} (n len cand : Nat) (h : s.cursorOk) :
    (∃ x k, 1 ≤ k ∧ k ≤ n ∧ k ≤ s.rem ∧ decodeLoop t n len cand s = .ok x (s.skipBits k)
        ∧ x < (s.slot t).ns.toNat ∧ (s.slot t).depthOf x = len + k
        ∧ (s.slot t).codeOf x = cand * 2 ^ k + msbValue (s.nextBits k)) ∨
    (n ≤ s.rem ∧ decodeLoop t n len cand s = raise .corruptStream (s.skipBits n)) ∨
    (s.rem < n ∧ decodeLoop t n len cand s = raise .unexpectedEnd (s.skipBits s.rem)) := by
  induction n generalizing s len cand with
  | zero => exact .inr (.inl ⟨Nat.zero_le _, by simp [decodeLoop]⟩)
  | succ n ih =>
    by_cases hr : 1 ≤ s.rem
    · have h1 : (s.skipBits 1).cursorOk := s.cursorOk_skipBits h hr
      have h2 := s.rem_skipBits h hr
      have h3 := s.pos_add_lt h hr
      have hstep : decodeLoop t (n + 1) len cand s =
          match (s.slot t).lookup (len + 1) (2 * cand + s.bitAt s.pos) with
          | some x => .ok x (s.skipBits 1)
          | none => decodeLoop t n (len + 1) (2 * cand + s.bitAt s.pos) (s.skipBits 1) := by
        rw [decodeLoop, readBits_one h hr]
        rfl
      cases hl : (s.slot t).lookup (len + 1) (2 * cand + s.bitAt s.pos) with
      | some x =>
        rw [hl] at hstep
        obtain ⟨h4, h5, h6⟩ := lookup_eq_some hl
        refine .inl ⟨x, 1, Nat.le_refl _, by omega, hr, hstep, h4, h5, ?_⟩
        rw [s.nextBits_succ 0 h3, h6]
        simp [State.nextBits, msbValue]
        omega
      | none =>
        rw [hl] at hstep
        rcases ih (s := s.skipBits 1) (len + 1) (2 * cand + s.bitAt s.pos) h1 with
          ⟨x, k, hk1, hkn, hkr, he, hx, hd, hc⟩ | ⟨hn, he⟩ | ⟨hn, he⟩
        · refine .inl ⟨x, k + 1, by omega, by omega, by omega, ?_, ?_, ?_, ?_⟩
          · rw [hstep, he, s.skipBits_skipBits 1 k h3, Nat.add_comm 1 k]
          · simpa using hx
          · rw [State.slot_skipBits] at hd
            omega
          · rw [State.slot_skipBits] at hc
            rw [hc, s.nextBits_succ k h3, ← List.singleton_append, msbValue_append, State.length_nextBits]
            simp only [msbValue, List.foldl_cons, List.foldl_nil]
            ring
        · exact .inr (.inl ⟨by omega, by rw [hstep, he, s.skipBits_skipBits 1 n h3, Nat.add_comm 1 n]⟩)
        · refine .inr (.inr ⟨by omega, ?_⟩)
          rw [hstep, he, s.skipBits_skipBits 1 _ h3, h2, show 1 + (s.rem - 1) = s.rem by omega]
    · have hr0 : s.rem = 0 := by omega
      refine .inr (.inr ⟨by omega, ?_⟩)
      rw [decodeLoop, readBits_short (by omega), Res.bind_raise, hr0, State.skipBits_zero]

/-- Everything `Decode(t)` can do at a good cursor (rule R137). -/
theorem decodeSym_cases (t : SlotId) {s : State} (h : s.cursorOk) :
    (∃ x k, 1 ≤ k ∧ k ≤ s.rem ∧ decodeSym t s = .ok x (s.skipBits k) ∧ x < (s.slot t).ns.toNat
        ∧ (s.slot t).depthOf x = k ∧ (s.slot t).codeOf x = msbValue (s.nextBits k)) ∨
    ((s.slot t).maxlen.toNat ≤ s.rem
        ∧ decodeSym t s = raise .corruptStream (s.skipBits (s.slot t).maxlen.toNat)) ∨
    (s.rem < (s.slot t).maxlen.toNat ∧ decodeSym t s = raise .unexpectedEnd (s.skipBits s.rem)) := by
  rcases decodeLoop_cases (t := t) (s.slot t).maxlen.toNat 0 0 h with ⟨x, k, h1, -, h3, h4, h5, h6, h7⟩ | h1 | h1
  · exact .inl ⟨x, k, h1, h3, h4, h5, by omega, by simpa using h7⟩
  · exact .inr (.inl h1)
  · exact .inr (.inr h1)

end Sys2Proof.Machine
end

