-- ==== Sys2Proof/Laws/LevelUnpacker.lean ====
section
/-! SUPPORT. What the parts of the level unpacker do (43_level_unpacker.md), said once for each. -/

namespace Sys2Proof.Machine

/-! ### Dimensions and lengths -/

/-- Everything `LevelDims(i)` can do (rule R181). -/
theorem levelDims_cases (s : State) (i : Nat) :
    (s.levelCount.val ≤ i ∧ levelDims s i = none) ∨
    (i < s.levelCount.val ∧ levelDims s i = some (levelDim s.imgW.toNat i, levelDim s.imgH.toNat i)) := by
  unfold levelDims
  by_cases h : s.levelCount.val ≤ i
  · exact .inl ⟨h, if_pos h⟩
  · exact .inr ⟨by omega, if_neg h⟩

theorem levelDim_bounds {d : Nat} (hd : d < 2 ^ 16) (i : Nat) : 1 ≤ levelDim d i ∧ levelDim d i < 2 ^ 16 := by
  have h : d >>> i ≤ d := Nat.shiftRight_le d i
  unfold levelDim
  omega

/-- The dimension of a level fits the 16 bits of `LI_W` and `LI_H` (10_state.md rule R39). -/
theorem toNat_levelDim {d : Nat} (hd : d < 2 ^ 16) (i : Nat) : (BitVec.ofNat 16 (levelDim d i)).toNat = levelDim d i := by
  rw [BitVec.toNat_ofNat, Nat.mod_eq_of_lt (levelDim_bounds hd i).2]

theorem ceilDiv4_bounds {a : Nat} (h1 : 1 ≤ a) (h2 : a < 2 ^ 16) : 1 ≤ ceilDiv4 a ∧ ceilDiv4 a ≤ 2 ^ 14 := by
  unfold ceilDiv4
  rw [Nat.shiftRight_eq_div_pow]
  omega

theorem blockBytes_cases {fmt b : Nat} (h : blockBytes fmt = some b) :
    (fmt = 0 ∧ b = 8) ∨ (fmt = 1 ∧ b = 16) ∨ (fmt = 2 ∧ b = 16) := by
  unfold blockBytes at h
  split at h
  · exact .inl ⟨‹_›, (Option.some.inj h).symm⟩
  · split at h
    · exact .inr (.inl ⟨‹_›, (Option.some.inj h).symm⟩)
    · split at h
      · exact .inr (.inr ⟨‹_›, (Option.some.inj h).symm⟩)
      · cases h

/-- The range of `ExpLen` (rule R182). -/
theorem expLenOf_bounds {w h b : Nat} (hw1 : 1 ≤ w) (hw2 : w < 2 ^ 16) (hh1 : 1 ≤ h) (hh2 : h < 2 ^ 16) (hb1 : 8 ≤ b)
    (hb2 : b ≤ 16) : 8 ≤ expLenOf w h b ∧ expLenOf w h b ≤ 2 ^ 32 := by
  obtain ⟨h1, h2⟩ := ceilDiv4_bounds hw1 hw2
  obtain ⟨h3, h4⟩ := ceilDiv4_bounds hh1 hh2
  have lo : 1 * 1 * 8 ≤ ceilDiv4 w * ceilDiv4 h * b := Nat.mul_le_mul (Nat.mul_le_mul h1 h3) hb1
  have hi : ceilDiv4 w * ceilDiv4 h * b ≤ 2 ^ 14 * 2 ^ 14 * 16 := Nat.mul_le_mul (Nat.mul_le_mul h2 h4) hb2
  unfold expLenOf
  omega

/-! ### The pre-checks -/

/-- The state after the pre-checks of `UNPACK i` for a format of b bytes a block (rule R184). -/
def State.checked (s : State) (i b : Nat) : State :=
  { s with liW := BitVec.ofNat 16 (levelDim s.imgW.toNat i)
           liH := BitVec.ofNat 16 (levelDim s.imgH.toNat i)
           expLen := BitVec.ofNat 33 (expLenOf (levelDim s.imgW.toNat i) (levelDim s.imgH.toNat i) b) }

/-- Everything the four pre-checks can do, in their order (rule R184). -/
theorem unpackCheck_cases (i : Nat) (s : State) :
    (s.levelCount.val ≤ i ∧ unpackCheck i s = raise .levelIndexOutOfRange s) ∨
    (i < s.levelCount.val ∧ blockBytes s.fmt.toNat = none ∧ unpackCheck i s = raise .unsupportedFormat s) ∨
    (i < s.levelCount.val ∧ (∃ b, blockBytes s.fmt.toNat = some b)
      ∧ (s.t0.valid = false ∨ s.cfg.expand.usesAux = true ∧ s.t1.valid = false)
      ∧ unpackCheck i s = raise .illegalCommand s) ∨
    (i < s.levelCount.val ∧ (∃ b, blockBytes s.fmt.toNat = some b)
      ∧ ¬ (s.t0.valid = false ∨ s.cfg.expand.usesAux = true ∧ s.t1.valid = false)
      ∧ s.bufLen.toNat < (s.levelOfs i).toNat + (s.levelSize i).toNat ∧ unpackCheck i s = raise .offsetOutOfRange s) ∨
    (∃ b, i < s.levelCount.val ∧ blockBytes s.fmt.toNat = some b
      ∧ ¬ (s.t0.valid = false ∨ s.cfg.expand.usesAux = true ∧ s.t1.valid = false)
      ∧ (s.levelOfs i).toNat + (s.levelSize i).toNat ≤ s.bufLen.toNat ∧ unpackCheck i s = .ok () (s.checked i b)) := by
  unfold unpackCheck
  rcases levelDims_cases s i with ⟨h1, he⟩ | ⟨h1, he⟩
  · exact .inl ⟨h1, by rw [he]⟩
  · rw [he]
    cases hb : blockBytes s.fmt.toNat with
    | none => exact .inr (.inl ⟨h1, rfl, rfl⟩)
    | some b =>
      simp only
      by_cases h2 : s.t0.valid = false ∨ s.cfg.expand.usesAux = true ∧ s.t1.valid = false
      · exact .inr (.inr (.inl ⟨h1, ⟨b, rfl⟩, h2, if_pos h2⟩))
      · by_cases h3 : s.bufLen.toNat < (s.levelOfs i).toNat + (s.levelSize i).toNat
        · exact .inr (.inr (.inr (.inl ⟨h1, ⟨b, rfl⟩, h2, h3, (if_neg h2).trans (if_pos h3)⟩)))
        · exact .inr (.inr (.inr (.inr ⟨b, h1, rfl, h2, by omega, (if_neg h2).trans (if_neg h3)⟩)))

/-- The cursor of the level window is a good one (rule R183). -/
theorem unpackSeek_cursorOk {i : Nat} {s : State} (h : (s.levelOfs i).toNat + (s.levelSize i).toNat ≤ s.bufLen.toNat) :
    (unpackSeek i s).cursorOk := by
  have h1 := s.bufLen.isLt
  refine ⟨?_, ?_, fun _ => rfl⟩ <;> simp only [unpackSeek, State.seekTo, BitVec.toNat_add] <;> omega

/-! ### The loop -/

/-- Everything the decoding half of a round can do (rules R184 and R188). -/
theorem unpackDecode_cases {s : State} (h : s.cursorOk) :
    (s.rem = 0 ∧ unpackDecode s = raise .levelSizeMismatch s) ∨
    (∃ x k, 1 ≤ k ∧ k ≤ s.rem ∧ unpackDecode s = .ok x (s.skipBits k) ∧ x < s.t0.ns.toNat ∧ s.t0.depthOf x = k
        ∧ s.t0.codeOf x = msbValue (s.nextBits k)) ∨
    (s.rem ≠ 0 ∧ s.t0.maxlen.toNat ≤ s.rem ∧ unpackDecode s = raise .corruptStream (s.skipBits s.t0.maxlen.toNat)) ∨
    (s.rem ≠ 0 ∧ s.rem < s.t0.maxlen.toNat ∧ unpackDecode s = raise .unexpectedEnd (s.skipBits s.rem)) := by
  unfold unpackDecode
  by_cases h0 : s.rem = 0
  · exact .inl ⟨h0, if_pos h0⟩
  · rw [if_neg h0]
    rcases decodeSym_cases .t0 h with h1 | h1 | h1
    · exact .inr (.inl h1)
    · exact .inr (.inr (.inl ⟨h0, h1⟩))
    · exact .inr (.inr (.inr ⟨h0, h1⟩))

/-- The state is `s` with the cursor moved forward inside the window. -/
def State.MovedFrom (s' s : State) : Prop := ∃ k, k ≤ s.rem ∧ s' = s.skipBits k

/-- `UnexpectedEnd` or `CorruptStream`, the errors of `ReadBits` and `Decode` (rule R189). -/
def streamError (e : ErrorKind) : Prop := e = .unexpectedEnd ∨ e = .corruptStream

theorem readBits_moves (n : Nat) {s : State} (h : s.cursorOk) :
    (readBits n s).Meets (fun _ s' => s'.MovedFrom s) (fun e s' => streamError e ∧ s'.MovedFrom s) := by
  rcases readBits_cases n h with ⟨hn, he⟩ | ⟨hn, he⟩ <;> rw [he]
  · exact ⟨n, hn, rfl⟩
  · exact ⟨.inl rfl, 0, Nat.zero_le _, s.skipBits_zero.symm⟩

theorem decodeSym_moves (t : SlotId) {s : State} (h : s.cursorOk) :
    (decodeSym t s).Meets (fun _ s' => s'.MovedFrom s) (fun e s' => streamError e ∧ s'.MovedFrom s) := by
  rcases decodeSym_cases t h with ⟨x, k, -, hk, he, -⟩ | ⟨hk, he⟩ | ⟨-, he⟩ <;> rw [he]
  · exact ⟨k, hk, rfl⟩
  · exact ⟨.inr rfl, _, hk, rfl⟩
  · exact ⟨.inl rfl, _, Nat.le_refl _, rfl⟩

/-- What a call of `EXPAND` leaves: the cursor moved forward, and any context. -/
def State.ExpandedFrom (s' s : State) : Prop := ∃ k c, k ≤ s.rem ∧ s' = { s.skipBits k with expCtx := c }

/-- Everything a call of `EXPAND` can do to the state, whichever it is (rule R186). -/
theorem runExpand_meets {aux : Bool} (p : ExpandProg aux) {s : State} (h : s.cursorOk) :
    (runExpand p s).Meets (fun _ s' => s'.ExpandedFrom s) (fun e s' => streamError e ∧ s'.MovedFrom s) := by
  have step : ∀ {s : State}, s.cursorOk → ∀ {r : Res Nat} {f : Nat → State → Res (List Byte)},
      r.Meets (fun _ s' => s'.MovedFrom s) (fun e s' => streamError e ∧ s'.MovedFrom s) →
      (∀ a {s1 : State}, s1.cursorOk →
        (f a s1).Meets (fun _ s' => s'.ExpandedFrom s1) (fun e s' => streamError e ∧ s'.MovedFrom s1)) →
      (r.bind f).Meets (fun _ s' => s'.ExpandedFrom s) (fun e s' => streamError e ∧ s'.MovedFrom s) := by
    intro s h r f hr hf
    refine hr.bind fun a s1 ⟨k, hk, hs1⟩ => ?_
    subst hs1
    have hrem := s.rem_skipBits h hk
    have hpos := s.pos_add_lt h hk
    refine (hf a (s.cursorOk_skipBits h hk)).mono ?_ ?_
    · rintro _ s' ⟨k', c, hk', rfl⟩
      exact ⟨k + k', c, by omega, by rw [s.skipBits_skipBits k k' hpos]⟩
    · rintro e s' ⟨he, k', hk', rfl⟩
      exact ⟨he, k + k', by omega, s.skipBits_skipBits k k' hpos⟩
  induction p generalizing s with
  | done bs c => exact ⟨0, c, Nat.zero_le _, by rw [State.skipBits_zero]⟩
  | expandError => exact ⟨.inr rfl, 0, Nat.zero_le _, by rw [State.skipBits_zero]⟩
  | readBits n k ih => exact step h (readBits_moves n.val h) fun v _ h1 => ih v h1
  | decodeMain k ih => exact step h (decodeSym_moves .t0 h) fun x _ h1 => ih x h1
  | decodeAux hx k ih => exact step h (decodeSym_moves .t1 h) fun x _ h1 => ih x h1

/-- Everything the expansion of a symbol can do (rule R184). -/
theorem expandSym_meets (x : Nat) {s : State} (h : s.cursorOk) :
    (expandSym x s).Meets (fun _ s' => s'.ExpandedFrom s) (fun e s' => streamError e ∧ s'.MovedFrom s) := by
  unfold expandSym
  split
  · exact runExpand_meets _ h
  · exact runExpand_meets _ h

/-- The default expansion (rule R187). -/
theorem expandSym_literal {s : State} (h : s.cfg.expand = .literal) (x : Nat) :
    expandSym x s = if x ≤ 255 then .ok [BitVec.ofNat 8 x] s else raise .corruptStream s := by
  have he : expandSym x s = runExpand (literalExpand x s.expCtx) s := by
    unfold expandSym
    rw [h]
  rw [he]
  unfold literalExpand
  split <;> rfl

end Sys2Proof.Machine
end

