-- ==== Sys2Proof/Laws/TableReader.lean ====
section
/-! SUPPORT. What the parts of the table reader do (42_table_reader.md), said once for each. -/

namespace Sys2Proof.Machine

/-! ### Steps 1 and 2 of a record -/

/-- Everything `ReadCount()` can do (rule R152). -/
theorem readCount_cases {s : State} (h : s.cursorOk) :
    (14 ≤ s.rem ∧ fieldValue s.cfg.bitOrder (s.nextBits 14) ≠ 0 ∧ readCount s =
        .ok () { s.skipBits 14 with nsym := BitVec.ofNat 14 (fieldValue s.cfg.bitOrder (s.nextBits 14)) }) ∨
    (14 ≤ s.rem ∧ fieldValue s.cfg.bitOrder (s.nextBits 14) = 0 ∧
      readCount s = raise .invalidDepths { s.skipBits 14 with nsym := 0 }) ∨
    (s.rem < 14 ∧ readCount s = raise .unexpectedEnd s) := by
  unfold readCount
  rcases readBits_cases 14 h with ⟨hr, he⟩ | ⟨hr, he⟩
  · rw [he, Res.bind_ok]
    by_cases h0 : fieldValue s.cfg.bitOrder (s.nextBits 14) = 0
    · exact .inr (.inl ⟨hr, h0, by simp [h0]⟩)
    · exact .inl ⟨hr, h0, by simp [h0]⟩
  · exact .inr (.inr ⟨hr, by rw [he, Res.bind_raise]⟩)

/-- Everything one depth field can do (rule R153). -/
theorem readTmpDepth_cases (x : Nat) {s : State} (h : s.cursorOk) :
    (s.cfg.tmpDepthW ≤ s.rem ∧ readTmpDepth x s = .ok () { s.skipBits s.cfg.tmpDepthW with
        td := Store.put s.td x (fieldValue s.cfg.bitOrder (s.nextBits s.cfg.tmpDepthW)) }) ∨
    (s.rem < s.cfg.tmpDepthW ∧ readTmpDepth x s = raise .unexpectedEnd s) := by
  unfold readTmpDepth
  rcases readBits_cases s.cfg.tmpDepthW h with ⟨hr, he⟩ | ⟨hr, he⟩
  · exact .inl ⟨hr, by rw [he, Res.bind_ok]; rfl⟩
  · exact .inr ⟨hr, by rw [he, Res.bind_raise]⟩

/-! ### The symbols -/

/-- Everything the parameter of an escape and its two tests can do (rule R161), in their order. -/
theorem readRun_cases (e : Escape) {s : State} (h : s.cursorOk) :
    (s.rem < e.width ∧ readRun e s = raise .depthArrayUnderrun s) ∨
    (e.width ≤ s.rem ∧ e.kind = .repeats ∧ s.lastnz = 0 ∧ readRun e s = raise .corruptStream (s.skipBits e.width)) ∨
    (e.width ≤ s.rem ∧ ¬ (e.kind = .repeats ∧ s.lastnz = 0)
      ∧ s.nsym.toNat - s.ofs.toNat < e.runLength (fieldValue s.cfg.bitOrder (s.nextBits e.width))
      ∧ readRun e s = raise .depthArrayOverrun (s.skipBits e.width)) ∨
    (e.width ≤ s.rem ∧ ¬ (e.kind = .repeats ∧ s.lastnz = 0)
      ∧ e.runLength (fieldValue s.cfg.bitOrder (s.nextBits e.width)) ≤ s.nsym.toNat - s.ofs.toNat
      ∧ readRun e s = .ok (e.runLength (fieldValue s.cfg.bitOrder (s.nextBits e.width))) (s.skipBits e.width)) := by
  unfold readRun
  rcases readBits_cases e.width h with ⟨hr, he⟩ | ⟨hr, he⟩
  · rw [he, Res.renaming_ok, Res.bind_ok]
    by_cases h1 : e.kind = .repeats ∧ s.lastnz = 0
    · exact .inr (.inl ⟨hr, h1.1, h1.2, if_pos h1⟩)
    · by_cases h2 : s.nsym.toNat - s.ofs.toNat < e.runLength (fieldValue s.cfg.bitOrder (s.nextBits e.width))
      · exact .inr (.inr (.inl ⟨hr, h1, h2, (if_neg h1).trans (if_pos h2)⟩))
      · exact .inr (.inr (.inr ⟨hr, h1, by omega, (if_neg h1).trans (if_neg h2)⟩))
  · exact .inl ⟨hr, by rw [he]; rfl⟩

/-- The state after an escape that writes a run of a given length (rule R161). -/
def State.filled (s : State) (e : Escape) (run : Nat) : State :=
  { s with da := Store.putRun s.da s.ofs.toNat run (e.value s), ofs := s.ofs + BitVec.ofNat 14 run }

/-- `FillRun` is the parameter and the run (rule R161). -/
theorem fillRun_eq (e : Escape) (s : State) :
    fillRun e s = (readRun e s).bind fun run s' => .ok () (s'.filled e run) := rfl

/-- The state after a literal (rule R156). -/
def State.litAt (s : State) (v : Nat) : State :=
  { s with da := Store.put s.da s.ofs.toNat (BitVec.ofNat 5 v)
           ofs := s.ofs + 1
           lastnz := if v = 0 then s.lastnz else BitVec.ofNat 5 v }

theorem lit_eq (v : Nat) (s : State) : lit v s = .ok () (s.litAt v) := rfl

/-- A symbol index below 21 is a literal or an escape (rule R89). -/
theorem escapeOf_cases (c : Config) {x : Nat} (h : x < 21) :
    (x ≤ 16 ∧ escapeOf c x = none) ∨ (17 ≤ x ∧ ∃ e, escapeOf c x = some e) := by
  interval_cases x <;> simp [escapeOf]

/-- The run length of an escape fits the 8 bits of `TR_RUN` under parameters the model speaks about. -/
theorem escapeOf_runLength {c : Config} (hc : c.wf = true) {x : Nat} {e : Escape} (h : escapeOf c x = some e) {p : Nat}
    (hp : p < 2 ^ e.width) : e.runLength p ≤ 255 := by
  simp only [Config.wf, Bool.and_eq_true, decide_eq_true_eq] at hc
  unfold escapeOf at h
  split at h <;> simp only [Option.some.injEq, reduceCtorEq] at h <;> subst h <;>
    simp only [Escape.runLength, shortZero, longZero, shortRepeat, longRepeat] at * <;> omega

/-- Everything the fetch of a symbol can do (rule R155). -/
theorem fetchSymbol_cases {s : State} (h : s.cursorOk) :
    (∃ x k, 1 ≤ k ∧ k ≤ s.rem ∧ fetchSymbol s = .ok x (s.skipBits k) ∧ x < s.tmp.ns.toNat ∧ s.tmp.depthOf x = k
        ∧ s.tmp.codeOf x = msbValue (s.nextBits k)) ∨
    (s.tmp.maxlen.toNat ≤ s.rem ∧ fetchSymbol s = raise .corruptStream (s.skipBits s.tmp.maxlen.toNat)) ∨
    (s.rem < s.tmp.maxlen.toNat ∧ fetchSymbol s = raise .depthArrayUnderrun (s.skipBits s.rem)) := by
  unfold fetchSymbol
  rcases decodeSym_cases .tmp h with ⟨x, k, h1, h2, he, h3⟩ | ⟨h1, he⟩ | ⟨h1, he⟩
  · exact .inl ⟨x, k, h1, h2, by rw [he]; rfl, h3⟩
  · exact .inr (.inl ⟨h1, by rw [he]; rfl⟩)
  · exact .inr (.inr ⟨h1, by rw [he]; rfl⟩)

/-! ### The cursor does not see what the table reader writes -/

@[simp] theorem State.cursorOk_filled (s : State) (e : Escape) (run : Nat) : (s.filled e run).cursorOk ↔ s.cursorOk :=
  Iff.rfl

@[simp] theorem State.cursorOk_litAt (s : State) (v : Nat) : (s.litAt v).cursorOk ↔ s.cursorOk := Iff.rfl

@[simp] theorem State.rem_filled (s : State) (e : Escape) (run : Nat) : (s.filled e run).rem = s.rem := rfl

@[simp] theorem State.rem_litAt (s : State) (v : Nat) : (s.litAt v).rem = s.rem := rfl

end Sys2Proof.Machine
end

