-- ==== Sys2Proof/Laws/Invariant.lean ====
section
/-! SUPPORT. Every operation keeps what holds of the data of the state (`State.DataOk`), ends without a stop of the model,
and leaves alone what is not its own. -/

namespace Sys2Proof.Machine

/-! ### Single updates keep the data in order -/

theorem State.DataOk.skipBits {s : State} (h : s.DataOk) {n : Nat} (hn : n ≤ s.rem) : (s.skipBits n).DataOk :=
  { h with cursor := s.cursorOk_skipBits h.cursor hn }

theorem State.DataOk.seekTo {s : State} (h : s.DataOk) {off fin : Word} (h1 : off.toNat ≤ fin.toNat)
    (h2 : fin.toNat ≤ s.bufLen.toNat) : (s.seekTo off fin).DataOk :=
  { h with cursor := ⟨h1, h2, fun _ => rfl⟩ }

theorem State.DataOk.setSlot {s : State} (h : s.DataOk) (t : SlotId) {sl : Slot} (hs : sl.valid = true → sl.builtFor t) :
    (s.setSlot t sl).DataOk := by
  cases t <;> exact { h with
    slots := fun t' hv => by
      cases t' <;> first | exact hs hv | exact h.slots .t0 hv | exact h.slots .t1 hv | exact h.slots .tmp hv }

theorem State.DataOk.invalidate {s : State} (h : s.DataOk) (t : SlotId) : (s.invalidate t).DataOk :=
  h.setSlot t fun hv => by cases hv

theorem State.DataOk.putDa {s : State} (h : s.DataOk) {i : Nat} (hi : i < daSize) (v : BitVec 5) :
    ({ s with da := Store.put s.da i v } : State).DataOk :=
  { h with daSorted := Store.sorted_put i v h.daSorted, daBound := Store.forall_put h.daBound hi }

theorem State.DataOk.putTd {s : State} (h : s.DataOk) {x v : Nat} (hx : x < tmpNsym) (hv : v < 2 ^ s.cfg.tmpDepthW) :
    ({ s with td := Store.put s.td x v } : State).DataOk :=
  { h with tdSorted := Store.sorted_put x v h.tdSorted, tdBound := Store.forall_put h.tdBound ⟨hx, hv⟩ }

theorem State.DataOk.zeroTd {s : State} (h : s.DataOk) {n : Nat} (hn : n ≤ tmpNsym) :
    ({ s with td := Store.putRun s.td 0 n 0 } : State).DataOk :=
  have hb : ∀ i, 0 ≤ i → i < 0 + n → i < tmpNsym ∧ 0 < 2 ^ s.cfg.tmpDepthW := fun i _ hi =>
    ⟨by omega, Nat.two_pow_pos _⟩
  { h with tdSorted := Store.sorted_putRun 0 n 0 h.tdSorted, tdBound := Store.forall_putRun h.tdBound hb }

theorem State.DataOk.clearTmpDepths {s : State} (h : s.DataOk) : (clearTmpDepths s).DataOk := h.zeroTd (Nat.le_refl _)

theorem nsym_le (s : State) : s.nsym.toNat ≤ daSize := by
  have := s.nsym.isLt
  unfold daSize
  omega

theorem State.DataOk.litAt {s : State} (h : s.DataOk) {v : Nat} (hv : v ≤ maxDepth) (ho : s.ofs.toNat < s.nsym.toNat) :
    (s.litAt v).DataOk := by
  have hi : s.ofs.toNat < daSize := Nat.lt_of_lt_of_le ho (nsym_le s)
  have hl : (if v = 0 then s.lastnz else BitVec.ofNat 5 v).toNat ≤ maxDepth := by
    split
    · exact h.lastnzLe
    · rw [BitVec.toNat_ofNat]
      exact Nat.le_trans (Nat.mod_le _ _) hv
  have h1 := h.putDa hi (BitVec.ofNat 5 v)
  exact { h1 with lastnzLe := hl }

theorem State.DataOk.filled {s : State} (h : s.DataOk) (e : Escape) {run : Nat}
    (hr : run ≤ s.nsym.toNat - s.ofs.toNat) : (s.filled e run).DataOk :=
  have hn := nsym_le s
  { h with
    daSorted := Store.sorted_putRun _ _ _ h.daSorted
    daBound := Store.forall_putRun h.daBound fun i h1 h2 => by show i < daSize; omega }

/-! ### A built slot -/

theorem builtFor_of_build {t : SlotId} {d : List Nat} {sl : Slot} (h : buildSlot d = some sl)
    (hd : if t = .tmp then d.length = tmpNsym else d.length ≤ daSize) : sl.builtFor t := ⟨d, h, hd⟩

/-- A symbol of the temporary tree is below 21 (30_encoding.md rule R91). -/
theorem builtFor_tmp_ns {sl : Slot} (h : sl.builtFor .tmp) : sl.ns.toNat = 21 := by
  obtain ⟨d, hd, hl⟩ := h
  have hl' : d.length = 21 := by simpa [tmpNsym] using hl
  rw [builtSlot_ns hd (by rw [hl']; decide), hl']

theorem length_daList (s : State) : s.daList.length = s.nsym.toNat := by simp [State.daList]

theorem length_tdList (s : State) : s.tdList.length = tmpNsym := by simp [State.tdList]

theorem tmpOrder_lt : ∀ x ∈ tmpOrder, x < tmpNsym := by decide

/-! ### What the table reader leaves alone -/

/-- The state without what a table record writes (42_table_reader.md rule R151). -/
def State.sansReader (s : State) : State :=
  { s with brByte := 0, brBit := 0, nsym := 0, ofs := 0, lastnz := 0, td := [], da := [], t0 := Slot.blank,
           t1 := Slot.blank, tmp := Slot.blank }

/-- A field that a table record does not write. -/
theorem State.field_of_sansReader {α : Type} (f : State → α) {s s' : State} (h : s'.sansReader = s.sansReader)
    (hf : ∀ u : State, f u.sansReader = f u := by intro u; rfl) : f s' = f s := by
  rw [← hf s', ← hf s, h]

/-- What reading a part of a record for slot t can do to a state whose data is in order. -/
structure ReaderStep (t : SlotId) (s s' : State) : Prop where
  data  : s'.DataOk
  frame : s'.sansReader = s.sansReader
  other : ∀ t', t' ≠ t → t' ≠ .tmp → s'.slot t' = s.slot t'
  pos   : s.pos ≤ s'.pos

theorem ReaderStep.refl {t : SlotId} {s : State} (h : s.DataOk) : ReaderStep t s s :=
  ⟨h, rfl, fun _ _ _ => rfl, Nat.le_refl _⟩

theorem ReaderStep.trans {t : SlotId} {s1 s2 s3 : State} (h1 : ReaderStep t s1 s2) (h2 : ReaderStep t s2 s3) :
    ReaderStep t s1 s3 :=
  ⟨h2.data, h2.frame.trans h1.frame, fun t' a b => (h2.other t' a b).trans (h1.other t' a b), h1.pos.trans h2.pos⟩

theorem ReaderStep.skipBits {t : SlotId} {s : State} (h : s.DataOk) {n : Nat} (hn : n ≤ s.rem) :
    ReaderStep t s (s.skipBits n) :=
  ⟨h.skipBits hn, rfl, fun t' _ _ => by cases t' <;> rfl, by
    rw [s.pos_skipBits n (s.pos_add_lt h.cursor hn)]; omega⟩

theorem ReaderStep.setSlot {t : SlotId} {s : State} (h : s.DataOk) {t' : SlotId} {sl : Slot} (ht : t' = t ∨ t' = .tmp)
    (hs : sl.valid = true → sl.builtFor t') : ReaderStep t s (s.setSlot t' sl) := by
  refine ⟨h.setSlot t' hs, by cases t' <;> rfl, fun u h1 h2 => ?_, by cases t' <;> exact Nat.le_refl _⟩
  have hne : u ≠ t' := by
    rcases ht with rfl | rfl
    · exact h1
    · exact h2
  rw [State.slot_setSlot, if_neg hne]

/-- The errors of a table record (rule R151). -/
def tableError (e : ErrorKind) : Prop :=
  e = .unexpectedEnd ∨ e = .invalidDepths ∨ e = .corruptStream ∨ e = .depthArrayOverrun ∨ e = .depthArrayUnderrun

/-! ### The parts of a record -/

/-- A part of a record that changes no slot and leaves `OFS`. -/
structure FieldStep (t : SlotId) (s s' : State) : Prop where
  reader : ReaderStep t s s'
  ofs    : s'.ofs = s.ofs
  slots  : ∀ u, s'.slot u = s.slot u
  da     : s'.da = s.da

theorem FieldStep.trans {t : SlotId} {s1 s2 s3 : State} (h1 : FieldStep t s1 s2) (h2 : FieldStep t s2 s3) :
    FieldStep t s1 s3 :=
  ⟨h1.reader.trans h2.reader, h2.ofs.trans h1.ofs, fun u => (h2.slots u).trans (h1.slots u), h2.da.trans h1.da⟩

theorem FieldStep.skipBits {t : SlotId} {s : State} (h : s.DataOk) {n : Nat} (hn : n ≤ s.rem) :
    FieldStep t s (s.skipBits n) :=
  ⟨.skipBits h hn, rfl, fun u => by cases u <;> rfl, rfl⟩

theorem FieldStep.refl {t : SlotId} {s : State} (h : s.DataOk) : FieldStep t s s :=
  ⟨.refl h, rfl, fun _ => rfl, rfl⟩

/-- What `NSYM` holds is no part of what is in order. -/
theorem FieldStep.setNsym {t : SlotId} {s : State} (h : s.DataOk) (n : BitVec 14) : FieldStep t s { s with nsym := n } :=
  ⟨⟨{ h with }, rfl, fun u _ _ => by cases u <;> rfl, Nat.le_refl _⟩, rfl, fun u => by cases u <;> rfl, rfl⟩

theorem FieldStep.setTd {t : SlotId} {s : State} {td : Store Nat} (h : ({ s with td := td } : State).DataOk) :
    FieldStep t s { s with td := td } :=
  ⟨⟨h, rfl, fun u _ _ => by cases u <;> rfl, Nat.le_refl _⟩, rfl, fun u => by cases u <;> rfl, rfl⟩

/-- Step 1 (rule R152). -/
theorem readCount_meets (t : SlotId) {s : State} (h : s.DataOk) :
    (readCount s).Meets (fun _ s' => FieldStep t s s') (fun e s' => tableError e ∧ FieldStep t s s') := by
  rcases readCount_cases h.cursor with ⟨hr, -, he⟩ | ⟨hr, -, he⟩ | ⟨-, he⟩ <;> rw [he]
  · exact (FieldStep.skipBits h hr).trans (.setNsym (h.skipBits hr) _)
  · exact ⟨.inr (.inl rfl), (FieldStep.skipBits h hr).trans (.setNsym (h.skipBits hr) _)⟩
  · exact ⟨.inl rfl, .refl h⟩

/-- One field of step 2 (rule R153). -/
theorem readTmpDepth_meets (t : SlotId) {x : Nat} (hx : x < tmpNsym) {s : State} (h : s.DataOk) :
    (readTmpDepth x s).Meets (fun _ s' => FieldStep t s s') (fun e s' => tableError e ∧ FieldStep t s s') := by
  rcases readTmpDepth_cases x h.cursor with ⟨hr, he⟩ | ⟨-, he⟩ <;> rw [he]
  · exact (FieldStep.skipBits h hr).trans
      (.setTd (t := t) (s := s.skipBits s.cfg.tmpDepthW) ((h.skipBits hr).putTd hx (fieldValue_lt s _)))
  · exact ⟨.inl rfl, .refl h⟩

theorem readTmpFields_meets (t : SlotId) {xs : List Nat} (hx : ∀ x ∈ xs, x < tmpNsym) {s : State} (h : s.DataOk) :
    (readTmpFields xs s).Meets (fun _ s' => FieldStep t s s') (fun e s' => tableError e ∧ FieldStep t s s') := by
  induction xs generalizing s with
  | nil => exact .refl h
  | cons x xs ih =>
    refine ((readTmpDepth_meets t (hx x List.mem_cons_self) h).bind fun _ s1 h1 => ?_)
    exact (ih (fun y hy => hx y (List.mem_cons_of_mem _ hy)) h1.reader.data).mono (fun _ _ h2 => h1.trans h2)
      fun _ _ h2 => ⟨h2.1, h1.trans h2.2⟩

/-- Step 2 (rules R153 and R168). -/
theorem readTmpDepths_meets (t : SlotId) {s : State} (h : s.DataOk) :
    (readTmpDepths s).Meets (fun _ s' => FieldStep t s s') (fun e s' => tableError e ∧ FieldStep t s s') := by
  unfold readTmpDepths
  split
  · exact readTmpFields_meets t tmpOrder_lt h
  · have h0 : FieldStep t s (clearTmpDepths s) := .setTd h.clearTmpDepths
    have hd := h0.reader.data
    rcases readBits_cases s.cfg.tmpCountW hd.cursor with ⟨hr, he⟩ | ⟨-, he⟩ <;> rw [he]
    · rw [Res.bind_ok]
      have h1 := h0.trans (FieldStep.skipBits hd hr)
      split
      · exact ⟨.inr (.inl rfl), h1⟩
      · exact (readTmpFields_meets t (fun x hx => tmpOrder_lt x (List.mem_of_mem_take hx)) h1.reader.data).mono
          (fun _ _ h2 => h1.trans h2) fun _ _ h2 => ⟨h2.1, h1.trans h2.2⟩
    · exact ⟨.inl rfl, h0⟩

/-- A build (41_huffman.md rule R131). -/
theorem build_meets {t u : SlotId} (hu : u = t ∨ u = .tmp) {d : List Nat} {s : State} (h : s.DataOk)
    (hd : if u = .tmp then d.length = tmpNsym else d.length ≤ daSize) :
    (build u d s).Meets (fun _ s' => ReaderStep t s s' ∧ ∃ sl, buildSlot d = some sl ∧ s' = s.setSlot u sl)
      (fun e s' => e = .invalidDepths ∧ ReaderStep t s s' ∧ s' = s.invalidate u) := by
  rcases build_cases u d s with ⟨-, he⟩ | ⟨sl, hsl, he⟩ <;> rw [he]
  · exact ⟨rfl, .setSlot h hu (fun hv => by cases hv), rfl⟩
  · exact ⟨.setSlot h hu (fun _ => builtFor_of_build hsl hd), sl, hsl, rfl⟩

/-! ### The loop of step 4 -/

/-- What one symbol of step 4 can do: the temporary tree and `NSYM` stay, `OFS` keeps within `NSYM`, the window shrinks. -/
structure SymbolStep (t : SlotId) (s s' : State) : Prop where
  reader : ReaderStep t s s'
  slots  : ∀ u, s'.slot u = s.slot u
  nsym   : s'.nsym = s.nsym
  ofs    : s.ofs.toNat ≤ s'.ofs.toNat ∧ s'.ofs.toNat ≤ s'.nsym.toNat
  above  : ∀ k, s'.ofs.toNat ≤ k → Store.find s'.da k = Store.find s.da k
  rem    : s'.rem ≤ s.rem

theorem SymbolStep.trans {t : SlotId} {s1 s2 s3 : State} (h1 : SymbolStep t s1 s2) (h2 : SymbolStep t s2 s3) :
    SymbolStep t s1 s3 :=
  ⟨h1.reader.trans h2.reader, fun u => (h2.slots u).trans (h1.slots u), h2.nsym.trans h1.nsym,
    ⟨h1.ofs.1.trans h2.ofs.1, h2.ofs.2⟩, fun k hk => (h2.above k hk).trans (h1.above k (h2.ofs.1.trans hk)),
    h2.rem.trans h1.rem⟩

theorem SymbolStep.skipBits {t : SlotId} {s : State} (h : s.DataOk) (ho : s.ofs.toNat ≤ s.nsym.toNat) {n : Nat}
    (hn : n ≤ s.rem) : SymbolStep t s (s.skipBits n) :=
  ⟨.skipBits h hn, fun u => by cases u <;> rfl, rfl, ⟨Nat.le_refl _, ho⟩, fun _ _ => rfl, by
    rw [s.rem_skipBits h.cursor hn]; omega⟩

theorem SymbolStep.refl {t : SlotId} {s : State} (h : s.DataOk) (ho : s.ofs.toNat ≤ s.nsym.toNat) : SymbolStep t s s :=
  ⟨.refl h, fun _ => rfl, rfl, ⟨Nat.le_refl _, ho⟩, fun _ _ => rfl, Nat.le_refl _⟩

theorem SymbolStep.litAt {t : SlotId} {s : State} (h : s.DataOk) {v : Nat} (hv : v ≤ maxDepth)
    (ho : s.ofs.toNat < s.nsym.toNat) : SymbolStep t s (s.litAt v) := by
  have h1 := s.nsym.isLt
  have h2 : (s.ofs + 1).toNat = s.ofs.toNat + 1 := by rw [BitVec.toNat_add]; simp; omega
  refine ⟨⟨h.litAt hv ho, rfl, fun u _ _ => by cases u <;> rfl, Nat.le_refl _⟩, fun u => by cases u <;> rfl, rfl, ?_, ?_,
    Nat.le_refl _⟩
  · show s.ofs.toNat ≤ (s.ofs + 1).toNat ∧ (s.ofs + 1).toNat ≤ s.nsym.toNat
    omega
  · intro k hk
    have hk' : (s.ofs + 1).toNat ≤ k := hk
    exact Store.find_put_ne _ _ (by omega)

theorem SymbolStep.filled {t : SlotId} {s : State} (h : s.DataOk) (e : Escape) {run : Nat}
    (ho : s.ofs.toNat ≤ s.nsym.toNat) (hr : run ≤ s.nsym.toNat - s.ofs.toNat) : SymbolStep t s (s.filled e run) := by
  have h1 := s.nsym.isLt
  have h2 : (s.ofs + BitVec.ofNat 14 run).toNat = s.ofs.toNat + run := by
    rw [BitVec.toNat_add, BitVec.toNat_ofNat]; omega
  refine ⟨⟨h.filled e hr, rfl, fun u _ _ => by cases u <;> rfl, Nat.le_refl _⟩, fun u => by cases u <;> rfl, rfl, ?_, ?_,
    Nat.le_refl _⟩
  · show s.ofs.toNat ≤ (s.ofs + BitVec.ofNat 14 run).toNat ∧ (s.ofs + BitVec.ofNat 14 run).toNat ≤ s.nsym.toNat
    omega
  · intro k hk
    have hk' : (s.ofs + BitVec.ofNat 14 run).toNat ≤ k := hk
    show Store.find (Store.putRun s.da s.ofs.toNat run (e.value s)) k = _
    rw [Store.find_putRun, if_neg (by omega)]

/-- An escape (rule R161). -/
theorem fillRun_meets (t : SlotId) (e : Escape) {s : State} (h : s.DataOk) (ho : s.ofs.toNat ≤ s.nsym.toNat) :
    (fillRun e s).Meets (fun _ s' => SymbolStep t s s') (fun e s' => tableError e ∧ SymbolStep t s s') := by
  rw [fillRun_eq]
  rcases readRun_cases e h.cursor with ⟨-, he⟩ | ⟨hr, -, -, he⟩ | ⟨hr, -, -, he⟩ | ⟨hr, -, h1, he⟩ <;> rw [he]
  · exact ⟨.inr (.inr (.inr (.inr rfl))), .refl h ho⟩
  · exact ⟨.inr (.inr (.inl rfl)), .skipBits h ho hr⟩
  · exact ⟨.inr (.inr (.inr (.inl rfl))), .skipBits h ho hr⟩
  · exact (SymbolStep.skipBits h ho hr).trans (.filled (h.skipBits hr) e ho h1)

/-- A symbol of the alphabet (rules R156 to R161). -/
theorem dispatchSymbol_meets (t : SlotId) {x : Nat} (hx : x < 21) {s : State} (h : s.DataOk)
    (ho : s.ofs.toNat < s.nsym.toNat) :
    (dispatchSymbol x s).Meets (fun _ s' => SymbolStep t s s') (fun e s' => tableError e ∧ SymbolStep t s s') := by
  unfold dispatchSymbol
  rcases escapeOf_cases s.cfg hx with ⟨hv, he⟩ | ⟨-, e, he⟩ <;> rw [he]
  · rw [lit_eq]
    exact .litAt h hv ho
  · exact fillRun_meets t e h (by omega)

/-- The fetch of a symbol under a valid temporary tree (rule R155). -/
theorem fetchSymbol_meets (t : SlotId) {s : State} (h : s.DataOk) (ht : s.tmp.valid = true)
    (ho : s.ofs.toNat ≤ s.nsym.toNat) :
    (fetchSymbol s).Meets
      (fun x s' => x < 21 ∧ SymbolStep t s s' ∧ s'.rem < s.rem ∧ s'.ofs = s.ofs ∧ s'.trState = s.trState)
      (fun e s' => tableError e ∧ SymbolStep t s s') := by
  have hns := builtFor_tmp_ns (h.slots .tmp ht)
  change s.tmp.ns.toNat = 21 at hns
  rcases fetchSymbol_cases h.cursor with ⟨x, k, h1, h2, he, h3, -⟩ | ⟨h1, he⟩ | ⟨-, he⟩ <;> rw [he]
  · have hrem := s.rem_skipBits h.cursor h2
    exact ⟨by omega, .skipBits h ho h2, by omega, rfl, rfl⟩
  · exact ⟨.inr (.inr (.inl rfl)), .skipBits h ho h1⟩
  · exact ⟨.inr (.inr (.inr (.inr rfl))), .skipBits h ho (Nat.le_refl _)⟩

/-- Step 4 ends, with success only where `OFS = NSYM` (rules R155 and R165). -/
theorem depthLoop_meets (t : SlotId) (n : Nat) {s : State} (h : s.DataOk) (ht : s.tmp.valid = true)
    (ho : s.ofs.toNat ≤ s.nsym.toNat) (hn : s.rem < n) :
    (depthLoop n s).Meets (fun _ s' => SymbolStep t s s' ∧ s'.ofs.toNat = s'.nsym.toNat)
      (fun e s' => tableError e ∧ SymbolStep t s s') := by
  induction n generalizing s with
  | zero => omega
  | succ n ih =>
    unfold depthLoop
    split
    · next hlt =>
      refine (fetchSymbol_meets t h ht ho).bind fun x s1 ⟨hx, h1, hrem, hofs, _⟩ => ?_
      have hlt1 : s1.ofs.toNat < s1.nsym.toNat := by rw [hofs, h1.nsym]; exact hlt
      refine ((dispatchSymbol_meets t hx h1.reader.data hlt1).mono (fun _ _ h2 => h2)
        (fun e s2 h2 => ⟨h2.1, h1.trans h2.2⟩)).bind fun _ s2 h2 => ?_
      have h12 := h1.trans h2
      have ht2 : s2.tmp.valid = true := by
        rw [show s2.tmp = s.tmp from h12.slots .tmp]
        exact ht
      have hrem2 := h2.rem
      exact (ih h2.reader.data ht2 h12.ofs.2 (by omega)).mono (fun _ _ h3 => ⟨h12.trans h3.1, h3.2⟩)
        fun _ _ h3 => ⟨h3.1, h12.trans h3.2⟩
    · exact ⟨.refl h ho, by omega⟩

/-! ### A record, and the two of `GETTAB` -/

/-- The first line of `TReadBody(t)` (rule R151). -/
theorem beginRecord_step {t : SlotId} {s : State} (h : s.DataOk) (ht : t ≠ .tmp) :
    ReaderStep t s (beginRecord t s) ∧ ((beginRecord t s).slot t).valid = false
      ∧ (beginRecord t s).tmp.valid = false := by
  have h1 : ReaderStep t s (s.invalidate t) := .setSlot h (.inl rfl) (fun hv => by cases hv)
  have h2 : ReaderStep t (s.invalidate t) ((s.invalidate t).invalidate .tmp) :=
    .setSlot h1.data (.inr rfl) (fun hv => by cases hv)
  have hd := h2.data
  have h3 : ReaderStep t ((s.invalidate t).invalidate .tmp) (beginRecord t s) :=
    ⟨{ hd with lastnzLe := Nat.zero_le _ }, rfl, fun u _ _ => by cases u <;> rfl, Nat.le_refl _⟩
  refine ⟨(h1.trans h2).trans h3, ?_, rfl⟩
  cases t with
  | t0 => rfl
  | t1 => rfl
  | tmp => exact absurd rfl ht

/-- Steps 1 to 3 of a record (rules R152 to R154). -/
theorem readHeader_meets {t : SlotId} (ht : t ≠ .tmp) {s : State} (h : s.DataOk) :
    (readHeader s).Meets
      (fun _ s' => ReaderStep t s s' ∧ s'.slot t = s.slot t ∧ s'.tmp.valid = true ∧ s'.ofs = s.ofs ∧ s'.da = s.da)
      (fun e s' => tableError e ∧ ReaderStep t s s' ∧ s'.slot t = s.slot t ∧ s'.ofs = s.ofs ∧ s'.da = s.da) := by
  unfold readHeader
  refine ((readCount_meets t h).mono (fun _ _ h1 => h1) fun e s1 h1 =>
    ⟨h1.1, h1.2.reader, h1.2.slots t, h1.2.ofs, h1.2.da⟩).bind fun _ s1 h1 => ?_
  refine ((readTmpDepths_meets t h1.reader.data).mono (fun _ _ h2 => h1.trans h2) fun e s2 h2 =>
    have h12 := h1.trans h2.2
    ⟨h2.1, h12.reader, h12.slots t, h12.ofs, h12.da⟩).bind fun _ s2 h2 => ?_
  refine (build_meets (t := t) (u := .tmp) (.inr rfl) h2.reader.data (length_tdList s2)).mono ?_ ?_
  · rintro _ s3 ⟨h3, sl, hsl, rfl⟩
    refine ⟨h2.reader.trans h3, ?_, builtSlot_valid hsl, h2.ofs, h2.da⟩
    rw [State.slot_setSlot_other _ _ ht, h2.slots]
  · rintro e s3 ⟨rfl, h3, rfl⟩
    refine ⟨.inr (.inl rfl), h2.reader.trans h3, ?_, h2.ofs, h2.da⟩
    rw [State.invalidate, State.slot_setSlot_other _ _ ht, h2.slots]

/-- What a record that was read leaves. -/
structure RecordStep (t : SlotId) (s s' : State) : Prop where
  reader : ReaderStep t s s'
  above  : ∀ k, s'.ofs.toNat ≤ k → Store.find s'.da k = Store.find s.da k

/-- One run of the table reader (rules R151, R165 and R167). -/
theorem treadBody_meets {t : SlotId} (ht : t ≠ .tmp) {s : State} (h : s.DataOk) :
    (treadBody t s).Meets
      (fun _ s' => RecordStep t s s' ∧ (s'.slot t).valid = true ∧ s'.tmp.valid = true ∧ s'.ofs = s'.nsym)
      (fun e s' => tableError e ∧ RecordStep t s s' ∧ (s'.slot t).valid = false) := by
  unfold treadBody
  obtain ⟨h0, hv0, -⟩ := beginRecord_step h ht
  have hofs0 : (beginRecord t s).ofs = 0 := rfl
  have hda0 : (beginRecord t s).da = s.da := by cases t <;> rfl
  refine ((readHeader_meets ht h0.data).mono (fun _ _ h1 => h1) fun e s1 ⟨he, h1, hs1, ho1, hd1⟩ =>
    ⟨he, ⟨h0.trans h1, fun k _ => by rw [hd1, hda0]⟩, by rw [hs1]; exact hv0⟩).bind fun _ s1 ⟨h1, hs1, hv1, ho1, hd1⟩ => ?_
  have hle1 : s1.ofs.toNat ≤ s1.nsym.toNat := by rw [ho1, hofs0]; exact Nat.zero_le _
  have hd01 : s1.da = s.da := hd1.trans hda0
  refine ((depthLoop_meets t (s1.rem + 1) h1.data hv1 hle1 (Nat.lt_succ_self _)).mono (fun _ _ h2 => h2)
    fun e s2 ⟨he, h2⟩ => ⟨he, ⟨(h0.trans h1).trans h2.reader, fun k hk => by rw [h2.above k hk, hd01]⟩, by
      rw [h2.slots, hs1]; exact hv0⟩).bind fun _ s2 ⟨h2, hofs2⟩ => ?_
  have h02 := (h0.trans h1).trans h2.reader
  have hlen : if t = .tmp then s2.daList.length = tmpNsym else s2.daList.length ≤ daSize := by
    rw [if_neg ht, length_daList]
    exact nsym_le s2
  refine (build_meets (t := t) (.inl rfl) h2.reader.data hlen).mono ?_ ?_
  · rintro _ s3 ⟨h3, sl, hsl, rfl⟩
    have hda : (s2.setSlot t sl).da = s2.da := by cases t <;> rfl
    have hofs : (s2.setSlot t sl).ofs = s2.ofs := by cases t <;> rfl
    refine ⟨⟨h02.trans h3, fun k hk => ?_⟩, ?_, ?_, ?_⟩
    · rw [hda, h2.above k (by rwa [hofs] at hk), hd01]
    · rw [State.slot_setSlot_self]
      exact builtSlot_valid hsl
    · have : (s2.setSlot t sl).tmp = s2.tmp := State.slot_setSlot_other s2 sl (Ne.symm ht)
      rw [this, show s2.tmp = s1.tmp from h2.slots .tmp]
      exact hv1
    · have hns : (s2.setSlot t sl).nsym = s2.nsym := by cases t <;> rfl
      rw [hofs, hns]
      exact BitVec.eq_of_toNat_eq hofs2
  · rintro e s3 ⟨rfl, h3, rfl⟩
    have hda : (s2.invalidate t).da = s2.da := by cases t <;> rfl
    have hofs : (s2.invalidate t).ofs = s2.ofs := by cases t <;> rfl
    refine ⟨.inr (.inl rfl), ⟨h02.trans h3, fun k hk => ?_⟩, ?_⟩
    · rw [hda, h2.above k (by rwa [hofs] at hk), hd01]
    · rw [State.invalidate, State.slot_setSlot_self]

/-- What `GETTAB` leaves alone. -/
structure TableStep (s s' : State) : Prop where
  data  : s'.DataOk
  frame : ({ s'.sansReader with brEnd := 0 } : State) = { s.sansReader with brEnd := 0 }

/-- A field that `GETTAB` does not write. -/
theorem TableStep.field {α : Type} (f : State → α) {s s' : State} (h : TableStep s s')
    (hf : ∀ u : State, f { u.sansReader with brEnd := 0 } = f u := by intro u; rfl) : f s' = f s := by
  rw [← hf s', ← hf s, h.frame]

/-- The cursor of `GETTAB` (rule R166). -/
theorem gettabSeek_meets {s : State} (h : s.DataOk) :
    (gettabSeek s).Meets
      (fun _ s' => s.tableOfs.toNat ≤ s.bufLen.toNat ∧ TableStep s s' ∧ s'.t0.valid = false ∧ s'.t1.valid = false)
      (fun e s' => e = .offsetOutOfRange ∧ s.bufLen.toNat < s.tableOfs.toNat ∧ TableStep s s' ∧ s'.t0.valid = false
        ∧ s'.t1.valid = false) := by
  have hd : ((s.invalidate .t0).invalidate .t1).DataOk := (h.invalidate .t0).invalidate .t1
  unfold gettabSeek
  simp only []
  split
  · next hlt => exact ⟨rfl, hlt, ⟨hd, rfl⟩, rfl, rfl⟩
  · next hge => exact ⟨by omega, ⟨hd.seekTo (by omega) (Nat.le_refl _), rfl⟩, rfl, rfl⟩

theorem TableStep.trans {s1 s2 s3 : State} (h1 : TableStep s1 s2) (h2 : TableStep s2 s3) : TableStep s1 s3 :=
  ⟨h2.data, h2.frame.trans h1.frame⟩

theorem ReaderStep.table {t : SlotId} {s s' : State} (h : ReaderStep t s s') : TableStep s s' :=
  ⟨h.data, congrArg (fun u : State => { u with brEnd := 0 }) h.frame⟩

/-- `GETTAB` (rule R166): a Table, or an error and no Table. -/
theorem gettabBody_meets {s : State} (h : s.DataOk) :
    (gettabBody s).Meets (fun _ s' => TableStep s s' ∧ s'.t0.valid = true ∧ s'.t1.valid = true)
      (fun e s' => (e = .offsetOutOfRange ∨ tableError e) ∧ TableStep s s' ∧ s'.t0.valid = false
        ∧ s'.t1.valid = false) := by
  unfold gettabBody
  refine ((gettabSeek_meets h).mono (fun _ _ h1 => h1) fun e s1 ⟨he, _, h1⟩ => ⟨.inl he, h1⟩).bind
    fun _ s1 ⟨_, h1, hv0, hv1⟩ => ?_
  refine ((treadBody_meets (t := .t0) (fun hc => by cases hc) h1.data).mono (fun _ _ h2 => h2)
    fun e s2 ⟨he, h2, hv⟩ => ⟨.inr he, h1.trans h2.reader.table, hv, by
      rw [show s2.t1 = s1.t1 from h2.reader.other .t1 (fun hc => by cases hc) (fun hc => by cases hc)]
      exact hv1⟩).bind fun _ s2 ⟨h2, hv2, _, _⟩ => ?_
  · refine Res.Meets.onError (E := fun e s' => tableError e ∧ TableStep s s' ∧ s'.t1.valid = false)
      ((treadBody_meets (t := .t1) (fun hc => by cases hc) h2.reader.data).mono ?_ ?_) ?_
    · rintro _ s3 ⟨h3, hv3, -, -⟩
      refine ⟨(h1.trans h2.reader.table).trans h3.reader.table, ?_, hv3⟩
      rw [show s3.t0 = s2.t0 from h3.reader.other .t0 (fun hc => by cases hc) (fun hc => by cases hc)]
      exact hv2
    · rintro e s3 ⟨he, h3, hv3⟩
      exact ⟨he, (h1.trans h2.reader.table).trans h3.reader.table, hv3⟩
    · rintro e s3 ⟨he, h3, hv3⟩
      exact ⟨.inr he, ⟨h3.data.invalidate .t0, h3.frame⟩, rfl, hv3⟩

/-! ### The unpacker -/

/-- The state without what `UNPACK` writes (43_level_unpacker.md rule R184). -/
def State.sansUnpack (s : State) : State :=
  { s with brByte := 0, brBit := 0, brEnd := 0, liW := 0, liH := 0, expLen := 0, expCtx := 0, out := [], outLen := 0,
           outValid := false }

/-- A field that `UNPACK` does not write. -/
theorem State.field_of_sansUnpack {α : Type} (f : State → α) {s s' : State} (h : s'.sansUnpack = s.sansUnpack)
    (hf : ∀ u : State, f u.sansUnpack = f u := by intro u; rfl) : f s' = f s := by
  rw [← hf s', ← hf s, h]

/-- What a part of `UNPACK` can do to a state whose data is in order. -/
structure UnpackStep (s s' : State) : Prop where
  data  : s'.DataOk
  frame : s'.sansUnpack = s.sansUnpack

theorem UnpackStep.trans {s1 s2 s3 : State} (h1 : UnpackStep s1 s2) (h2 : UnpackStep s2 s3) : UnpackStep s1 s3 :=
  ⟨h2.data, h2.frame.trans h1.frame⟩

theorem UnpackStep.refl {s : State} (h : s.DataOk) : UnpackStep s s := ⟨h, rfl⟩

theorem beginUnpack_step {s : State} (h : s.DataOk) : UnpackStep s (beginUnpack s) :=
  ⟨{ h with outLenLe := Nat.zero_le _, outWhole := fun hc => by cases hc }, rfl⟩

/-- The four pre-checks keep the data in order where no output has been produced. -/
theorem checked_step {s : State} (h : s.DataOk) (ho : s.outLen = 0) (hv : s.outValid = false) {i b : Nat}
    (hb : blockBytes s.fmt.toNat = some b) :
    UnpackStep s (s.checked i b) ∧ 8 ≤ (s.checked i b).expLen.toNat := by
  have hb' : 8 ≤ b ∧ b ≤ 16 := by rcases blockBytes_cases hb with ⟨-, rfl⟩ | ⟨-, rfl⟩ | ⟨-, rfl⟩ <;> omega
  have hw := levelDim_bounds s.imgW.isLt i
  have hh := levelDim_bounds s.imgH.isLt i
  have he := expLenOf_bounds hw.1 hw.2 hh.1 hh.2 hb'.1 hb'.2
  have hx : (s.checked i b).expLen.toNat
      = expLenOf (levelDim s.imgW.toNat i) (levelDim s.imgH.toNat i) b := by
    show (BitVec.ofNat 33 _).toNat = _
    rw [BitVec.toNat_ofNat, Nat.mod_eq_of_lt (by omega)]
  refine ⟨⟨{ h with outLenLe := ?_, outWhole := fun hc => ?_, expLenLe := ?_ }, rfl⟩, by omega⟩
  · show s.outLen.toNat ≤ _
    rw [ho]
    exact Nat.zero_le _
  · rw [show (s.checked i b).outValid = s.outValid from rfl, hv] at hc
    cases hc
  · omega

theorem unpackSeek_step {s : State} (h : s.DataOk) {i : Nat}
    (hw : (s.levelOfs i).toNat + (s.levelSize i).toNat ≤ s.bufLen.toNat) : UnpackStep s (unpackSeek i s) :=
  ⟨{ h with cursor := unpackSeek_cursorOk hw }, rfl⟩

theorem UnpackStep.moved {s s' : State} (h : s.DataOk) (hm : s'.MovedFrom s) : UnpackStep s s' := by
  obtain ⟨k, hk, rfl⟩ := hm
  exact ⟨h.skipBits hk, rfl⟩

theorem UnpackStep.expanded {s s' : State} (h : s.DataOk) (hm : s'.ExpandedFrom s) : UnpackStep s s' := by
  obtain ⟨k, c, hk, rfl⟩ := hm
  have hd := h.skipBits hk
  exact ⟨{ hd with }, rfl⟩

/-- Appending bytes that keep within the expected length. -/
theorem outAppendAll_step {s : State} (h : s.DataOk) {bs : List Byte} (hb : s.outLen.toNat + bs.length ≤ s.expLen.toNat)
    (hv : s.outValid = false) :
    UnpackStep s (s.outAppendAll bs) ∧ (s.outAppendAll bs).outLen.toNat = s.outLen.toNat + bs.length := by
  have hlt : s.outLen.toNat + bs.length < 2 ^ 33 := by have := h.expLenLe; omega
  have hl := s.outAppendAll_outLen bs hlt
  have hw := s.outAppendAll_out_wf bs h.outWf
  have hf := s.outAppendAll_frame bs
  refine ⟨?_, hl⟩
  rw [hf]
  exact ⟨{ h with outWf := hw
                  outLenLe := by show (s.outAppendAll bs).outLen.toNat ≤ s.expLen.toNat; omega
                  outWhole := fun hc => by rw [show _ = s.outValid from rfl, hv] at hc; cases hc }, rfl⟩

/-- The errors of the loop of `UNPACK` (rules R188 and R189). -/
def loopError (e : ErrorKind) : Prop := e = .levelSizeMismatch ∨ streamError e

/-- The decoding half of a round. -/
theorem unpackDecode_meets {s : State} (h : s.DataOk) :
    (unpackDecode s).Meets (fun _ s' => s'.MovedFrom s ∧ s'.rem < s.rem) (fun e s' => loopError e ∧ s'.MovedFrom s) := by
  rcases unpackDecode_cases h.cursor with ⟨-, he⟩ | ⟨x, k, h1, h2, he, -⟩ | ⟨-, h1, he⟩ | ⟨-, -, he⟩ <;> rw [he]
  · exact ⟨.inl rfl, 0, Nat.zero_le _, s.skipBits_zero.symm⟩
  · have := s.rem_skipBits h.cursor h2
    exact ⟨⟨k, h2, rfl⟩, by omega⟩
  · exact ⟨.inr (.inr rfl), _, h1, rfl⟩
  · exact ⟨.inr (.inl rfl), _, Nat.le_refl _, rfl⟩

/-- The expansion half of a round. -/
theorem unpackExpand_meets (x : Nat) {s : State} (h : s.DataOk) :
    (unpackExpand x s).Meets
      (fun bs s' => s'.ExpandedFrom s ∧ s.outLen.toNat + bs.length ≤ s.expLen.toNat)
      (fun e s' => loopError e ∧ UnpackStep s s' ∧ s'.outLen = s.outLen ∧ s'.outValid = s.outValid) := by
  unfold unpackExpand
  refine ((expandSym_meets x h.cursor).mono (fun _ _ h1 => h1) fun e s1 h1 => ⟨.inr h1.1, .moved h h1.2, by
      obtain ⟨-, k, -, rfl⟩ := h1
      exact ⟨rfl, rfl⟩⟩).bind fun bs s1 h1 => ?_
  · have hs := UnpackStep.expanded h h1
    obtain ⟨k, c, hk, rfl⟩ := h1
    split
    · exact ⟨.inl rfl, hs, rfl, rfl⟩
    · next hb => exact ⟨⟨k, c, hk, rfl⟩, by simpa using hb⟩

/-- The loop of `UNPACK` ends, with success only where `OUT_LEN = EXP_LEN` (rules R185 and R192). -/
theorem unpackLoop_meets (n : Nat) {s : State} (h : s.DataOk) (hv : s.outValid = false) (hn : s.rem < n) :
    (unpackLoop n s).Meets
      (fun _ s' => UnpackStep s s' ∧ s'.outValid = false ∧ s'.expLen = s.expLen ∧ s'.outLen = s'.expLen)
      (fun e s' => loopError e ∧ UnpackStep s s' ∧ s'.outValid = false) := by
  induction n generalizing s with
  | zero => omega
  | succ n ih =>
    unfold unpackLoop
    split
    · refine ((unpackDecode_meets h).mono (fun _ _ h1 => h1) fun e s1 ⟨he, h1⟩ => ⟨he, .moved h h1, by
        obtain ⟨k, -, rfl⟩ := h1
        exact hv⟩).bind fun x s1 ⟨h1, hrem1⟩ => ?_
      have hs1 := UnpackStep.moved h h1
      obtain ⟨k1, hk1, rfl⟩ := h1
      refine ((unpackExpand_meets x hs1.data).mono (fun _ _ h2 => h2) fun e s2 ⟨he, h2, _, hv2⟩ =>
        ⟨he, hs1.trans h2, hv2.trans hv⟩).bind fun bs s2 ⟨h2, hb⟩ => ?_
      have hs2 := hs1.trans (UnpackStep.expanded hs1.data h2)
      obtain ⟨k2, c2, hk2, rfl⟩ := h2
      have hrem2 := (s.skipBits k1).rem_skipBits hs1.data.cursor hk2
      obtain ⟨h3, -⟩ := outAppendAll_step hs2.data (bs := bs) hb hv
      have hf := State.outAppendAll_frame { (s.skipBits k1).skipBits k2 with expCtx := c2 } bs
      have hv3 : (State.outAppendAll { (s.skipBits k1).skipBits k2 with expCtx := c2 } bs).outValid = false := by
        rw [hf]
        exact hv
      have hx3 : (State.outAppendAll { (s.skipBits k1).skipBits k2 with expCtx := c2 } bs).expLen = s.expLen := by
        rw [hf]
        rfl
      have hr3 : (State.outAppendAll { (s.skipBits k1).skipBits k2 with expCtx := c2 } bs).rem < n := by
        rw [hf]
        show ((s.skipBits k1).skipBits k2).rem < n
        omega
      exact (ih h3.data hv3 hr3).mono
        (fun _ _ h4 => ⟨(hs2.trans h3).trans h4.1, h4.2.1, h4.2.2.1.trans hx3, h4.2.2.2⟩)
        fun _ _ h4 => ⟨h4.1, (hs2.trans h3).trans h4.2.1, h4.2.2⟩
    · next hge =>
      exact ⟨.refl h, hv, rfl, BitVec.eq_of_toNat_eq (by have := h.outLenLe; omega)⟩

/-- The pre-check errors of `UNPACK` (rule R184). -/
def preError (e : ErrorKind) : Prop :=
  e = .levelIndexOutOfRange ∨ e = .unsupportedFormat ∨ e = .illegalCommand ∨ e = .offsetOutOfRange

/-- `UNPACK i`: the whole output, or an error and none (rules R184, R190 and R192). -/
theorem unpackBody_meets (i : Nat) {s : State} (h : s.DataOk) :
    (unpackBody i s).Meets
      (fun _ s' => UnpackStep s s' ∧ s'.outValid = true ∧ s'.outLen = s'.expLen ∧ 8 ≤ s'.expLen.toNat)
      (fun e s' => (preError e ∨ loopError e) ∧ UnpackStep s s' ∧ s'.outValid = false ∧ s'.outLen = 0) := by
  have h0 := beginUnpack_step h
  have inner : (unpackInner i (beginUnpack s)).Meets
      (fun _ s' => UnpackStep s s' ∧ s'.outValid = false ∧ s'.outLen = s'.expLen ∧ 8 ≤ s'.expLen.toNat)
      (fun e s' => (preError e ∨ loopError e) ∧ UnpackStep s s' ∧ s'.outValid = false) := by
    unfold unpackInner
    rcases unpackCheck_cases i (beginUnpack s) with
      ⟨-, he⟩ | ⟨-, -, he⟩ | ⟨-, -, -, he⟩ | ⟨-, -, -, -, he⟩ | ⟨b, hi, hb, -, hw, he⟩ <;> rw [he]
    · exact ⟨.inl (.inl rfl), h0, rfl⟩
    · exact ⟨.inl (.inr (.inl rfl)), h0, rfl⟩
    · exact ⟨.inl (.inr (.inr (.inl rfl))), h0, rfl⟩
    · exact ⟨.inl (.inr (.inr (.inr rfl))), h0, rfl⟩
    · rw [Res.bind_ok]
      obtain ⟨h1, h8⟩ := checked_step h0.data rfl rfl (i := i) hb
      have h2 := unpackSeek_step (i := i) (s := (beginUnpack s).checked i b) h1.data hw
      refine (unpackLoop_meets _ h2.data rfl (Nat.lt_succ_self _)).mono ?_ ?_
      · rintro _ s3 ⟨h3, hv3, hx3, ho3⟩
        refine ⟨((h0.trans h1).trans h2).trans h3, hv3, ho3, ?_⟩
        rw [hx3]
        exact h8
      · rintro e s3 ⟨he3, h3, hv3⟩
        exact ⟨.inr he3, ((h0.trans h1).trans h2).trans h3, hv3⟩
  unfold unpackBody
  refine (inner.onError (E' := fun e s' =>
    (preError e ∨ loopError e) ∧ UnpackStep s s' ∧ s'.outValid = false ∧ s'.outLen = 0) ?_).bind ?_
  · rintro e s1 ⟨he, h1, hv1⟩
    have hd := h1.data
    exact ⟨he, ⟨{ hd with outLenLe := Nat.zero_le _
                          outWhole := fun hc => by rw [show _ = s1.outValid from rfl, hv1] at hc; cases hc },
      h1.frame⟩, hv1, rfl⟩
  · rintro _ s1 ⟨h1, hv1, ho1, h8⟩
    have hd := h1.data
    exact ⟨⟨{ hd with outWhole := fun _ => ho1 }, h1.frame⟩, rfl, ho1, h8⟩

end Sys2Proof.Machine
end

