-- ==== Sys2Proof/Laws/PerInstr.lean ====
section
/-! SUPPORT. The statements made for every instruction, one lemma per constructor. `TableRow`: the code of a legal
instruction lies in its row of opcode_table.json, under that row's `match` and `mask` (30_encoding.md rules R85 and R97). -/

namespace Sys2Proof.Laws.TableRow

/-- The code of the instruction, where it is legal, lies in the instruction's row. -/
def Statement (i : Instr) : Prop := i.wf = true → (opcodeRow i).holds (encode i) = true

theorem seek : Statement .seek := fun _ => rfl

theorem rdbits (n : BitVec 6) : Statement (.rdbits n) := by
  unfold Statement
  revert n
  decide +kernel

theorem align : Statement .align := fun _ => rfl

theorem hbuild (t : BitVec 1) : Statement (.hbuild t) := by
  unfold Statement
  revert t
  decide +kernel

theorem hdec (t : BitVec 2) : Statement (.hdec t) := by
  unfold Statement
  revert t
  decide +kernel

theorem tread (t : BitVec 1) : Statement (.tread t) := by
  unfold Statement
  revert t
  decide +kernel

theorem gettab : Statement .gettab := fun _ => rfl

theorem lvlinfo (i : BitVec 8) : Statement (.lvlinfo i) := by
  unfold Statement
  revert i
  decide +kernel

theorem unpack (i : BitVec 8) : Statement (.unpack i) := by
  unfold Statement
  revert i
  decide +kernel

theorem clrerr : Statement .clrerr := fun _ => rfl

theorem lit0 : Statement .lit0 := fun _ => rfl

theorem lit1 : Statement .lit1 := fun _ => rfl

theorem lit2 : Statement .lit2 := fun _ => rfl

theorem lit3 : Statement .lit3 := fun _ => rfl

theorem lit4 : Statement .lit4 := fun _ => rfl

theorem lit5 : Statement .lit5 := fun _ => rfl

theorem lit6 : Statement .lit6 := fun _ => rfl

theorem lit7 : Statement .lit7 := fun _ => rfl

theorem lit8 : Statement .lit8 := fun _ => rfl

theorem lit9 : Statement .lit9 := fun _ => rfl

theorem lit10 : Statement .lit10 := fun _ => rfl

theorem lit11 : Statement .lit11 := fun _ => rfl

theorem lit12 : Statement .lit12 := fun _ => rfl

theorem lit13 : Statement .lit13 := fun _ => rfl

theorem lit14 : Statement .lit14 := fun _ => rfl

theorem lit15 : Statement .lit15 := fun _ => rfl

theorem lit16 : Statement .lit16 := fun _ => rfl

theorem shortzero : Statement .shortzero := fun _ => rfl

theorem longzero : Statement .longzero := fun _ => rfl

theorem shortrepeat : Statement .shortrepeat := fun _ => rfl

theorem longrepeat : Statement .longrepeat := fun _ => rfl

end Sys2Proof.Laws.TableRow
end

