-- ==== Sys2Proof/Laws/Simple.lean ====
section
/-! SUPPORT. What the bodies of the commands that are neither table reads nor `UNPACK` can do, said once each. -/

namespace Sys2Proof.Machine

/-- The data stays in order and the error registers stay as they are. -/
structure QuietStep (s t : State) : Prop where
  data  : t.DataOk
  err   : t.err = s.err
  errOp : t.errOp = s.errOp

theorem State.DataOk.launched {s : State} (h : s.DataOk) (w : Word) : (s.launched w).DataOk := { h with }

/-- `SEEK` (40_bitreader.md rule R111). -/
theorem seekBody_meets {s : State} (h : s.DataOk) :
    (seekBody s).Meets (fun _ t => QuietStep s t ∧ t = s.seekTo s.arg0 s.arg1) (fun e t => e = .offsetOutOfRange ∧ t = s) := by
  unfold seekBody
  split
  · exact ⟨rfl, rfl⟩
  · exact ⟨⟨h.seekTo (by omega) (by omega), rfl, rfl⟩, rfl⟩

/-- `RDBITS n` (40_bitreader.md rule R113). -/
theorem rdbitsBody_meets (n : Nat) {s : State} (h : s.DataOk) :
    (rdbitsBody n s).Meets
      (fun _ t => QuietStep s t ∧ n ≤ s.rem
        ∧ t = { s.skipBits n with res := zext32 (fieldValue s.cfg.bitOrder (s.nextBits n)) })
      (fun e t => e = .unexpectedEnd ∧ t = s ∧ s.rem < n) := by
  unfold rdbitsBody
  rcases readBits_cases n h.cursor with ⟨hr, he⟩ | ⟨hr, he⟩ <;> rw [he]
  · have hd := h.skipBits hr
    exact ⟨⟨{ hd with }, rfl, rfl⟩, hr, rfl⟩
  · exact ⟨rfl, rfl, hr⟩

/-- `ALIGN` (40_bitreader.md rule R114). -/
theorem alignBody_meets {s : State} (h : s.DataOk) :
    (alignBody s).Meets (fun _ t => QuietStep s t ∧ s.pos ≤ t.pos) (fun _ _ => False) := by
  unfold alignBody
  split
  · exact ⟨⟨h, rfl, rfl⟩, Nat.le_refl _⟩
  · next hne =>
    obtain ⟨h1, h2, h3⟩ := h.cursor
    have hlt : s.brByte.toNat ≠ s.brEnd.toNat := fun hc => hne (h3 (BitVec.eq_of_toNat_eq hc))
    have hend := s.brEnd.isLt
    have hbit := s.brBit.isLt
    have hnext : (s.brByte + 1).toNat = s.brByte.toNat + 1 := by
      rw [BitVec.toNat_add]
      exact Nat.mod_eq_of_lt (by show s.brByte.toNat + 1 < 2 ^ 32; omega)
    refine ⟨⟨{ h with cursor := ⟨?_, h2, fun _ => rfl⟩ }, rfl, rfl⟩, ?_⟩
    · show (s.brByte + 1).toNat ≤ s.brEnd.toNat
      omega
    · show s.pos ≤ 8 * (s.brByte + 1).toNat + 0
      unfold State.pos
      omega

/-- `HBUILD t` (41_huffman.md rule R135). -/
theorem hbuildBody_meets {t : SlotId} (ht : t ≠ .tmp) {s : State} (h : s.DataOk) :
    (hbuildBody t s).Meets (fun _ u => QuietStep s u ∧ ∃ sl, buildSlot s.daList = some sl ∧ u = s.setSlot t sl)
      (fun e u => e = .invalidDepths ∧ u.DataOk ∧ u = s.invalidate t) := by
  have hlen : if t = .tmp then s.daList.length = tmpNsym else s.daList.length ≤ daSize := by
    rw [if_neg ht, length_daList]
    exact nsym_le s
  refine (build_meets (t := t) (.inl rfl) h hlen).mono ?_ ?_
  · rintro _ u ⟨h1, sl, hs, rfl⟩
    exact ⟨⟨h1.data, State.field_of_sansReader State.err h1.frame, State.field_of_sansReader State.errOp h1.frame⟩, sl,
      hs, rfl⟩
  · rintro e u ⟨he, h1, rfl⟩
    exact ⟨he, h1.data, rfl⟩

/-- `HDEC t` (41_huffman.md rule R138). -/
theorem hdecBody_meets (t : SlotId) {s : State} (h : s.DataOk) :
    (hdecBody t s).Meets
      (fun _ u => QuietStep s u ∧ ∃ k x, k ≤ s.rem ∧ u = { s.skipBits k with res := zext32 x })
      (fun _ u => u.DataOk ∧ ∃ k, k ≤ s.rem ∧ u = s.skipBits k) := by
  unfold hdecBody
  split
  · refine ((decodeSym_moves t h.cursor).mono (fun _ _ h1 => h1) ?_).bind ?_
    · rintro e u ⟨-, k, hk, rfl⟩
      exact ⟨h.skipBits hk, k, hk, rfl⟩
    · rintro x u ⟨k, hk, rfl⟩
      have hd := h.skipBits hk
      exact ⟨⟨{ hd with }, rfl, rfl⟩, k, x, hk, rfl⟩
  · exact ⟨h, 0, Nat.zero_le _, (State.skipBits_zero s).symm⟩

/-- `LVLINFO i` (43_level_unpacker.md rule R181). -/
theorem lvlinfoBody_meets (i : Nat) {s : State} (h : s.DataOk) :
    (lvlinfoBody i s).Meets (fun _ t => QuietStep s t ∧ t = { s with liW := t.liW, liH := t.liH })
      (fun e t => e = .levelIndexOutOfRange ∧ t = s) := by
  unfold lvlinfoBody
  split
  · exact ⟨rfl, rfl⟩
  · exact ⟨⟨{ h with }, rfl, rfl⟩, rfl⟩

/-- A symbol of a running table reader is dispatched by its index (42_table_reader.md rule R155). -/
theorem exec_symbol_eq {x : Nat} {i : Instr} (hx : x < 21) (hi : decodeSymbol x = .ok i) {s : State} (h1 : s.run = .busy)
    (h2 : s.trState = .sym) (h3 : s.ofs.toNat < s.nsym.toNat) : exec i s = endSymbol (dispatchSymbol x s) := by
  interval_cases x <;> (cases hi; exact runSymbol_eq h1 h2 h3)

end Sys2Proof.Machine
end

