-- ==== Sys2Proof/Tests/Slice0.lean ====
section
/-! SUPPORT. Tests of the model on the spec's own vectors (95_test_vectors.md), each on one step or one instruction, and a
witness for the hypotheses of every obligation that has some. Expected values are the spec's, or worked out by hand from
its rules; none is the model's own answer. -/

set_option Elab.async false

namespace Sys2Proof.Tests

open Sys2Proof Sys2Proof.Machine

/-! ### Helpers -/

/-- The state an outcome goes on with. -/
def after : Out → State
  | .next t => t
  | .fault _ => State.reset
  | .refused _ => State.reset

/-- Whether an outcome goes on. -/
def goes : Out → Bool
  | .next _ => true
  | .fault _ => false
  | .refused _ => false

theorem next_after {o : Out} (h : goes o = true) : o = .next (after o) := by
  cases o with
  | next t => rfl
  | fault f => cases h
  | refused f => cases h

/-- Bytes laid out from address a upward. -/
def image (a : Nat) : List Nat → Memory
  | [] => []
  | b :: bs => Memory.write (image (a + 1) bs) a (BitVec.ofNat 8 b)

theorem image_wf (a : Nat) (bs : List Nat) : Memory.wf (image a bs) = true := by
  induction bs generalizing a with
  | nil => rfl
  | cons b bs ih => exact Memory.wf_write _ _ (ih _)

/-- The core with a buffer and the whole of it as its window. -/
def loaded (bs : List Nat) : State :=
  { State.reset with buf := image 0 bs, bufLen := BitVec.ofNat 32 bs.length, brEnd := BitVec.ofNat 32 bs.length }

theorem loaded_data (bs : List Nat) : (loaded bs).DataOk :=
  { cfgWf := (by decide : Config.standard.wf = true)
    cursor := ⟨Nat.zero_le _, Nat.le_refl _, fun _ => rfl⟩
    slots := fun t h => by cases t <;> cases h
    bufWf := image_wf 0 bs
    outWf := rfl
    daSorted := rfl
    daBound := fun c hc => by cases hc
    tdSorted := rfl
    tdBound := fun c hc => by cases hc
    lastnzLe := Nat.zero_le _
    levels := Nat.zero_le _
    outLenLe := Nat.le_refl _
    outWhole := fun h => by cases h
    expLenLe := Nat.zero_le _ }

/-- A core that is not at work, or has been launched and has not begun, is in order as soon as its data is. -/
theorem quiet_inv {s : State} (h : s.DataOk) (he : s.run = .error ↔ s.err ≠ none) (ho : s.err = none → s.errOp = 0)
    (ht : s.trState = .idle ∧ s.gtPhase = .start ∧ s.upState = .idle) : s.Inv :=
  { data := h
    errorIff := he
    errOpZero := ho
    notBusy := fun _ => ht
    inTable := fun hc => by
      rcases hc with hc | hc
      · exact absurd ht.1 hc
      · exact absurd ht.2.1 hc
    inUnpack := fun hc => absurd ht.2.2 hc }

/-- A depth array in `DA`. -/
def withDepths (s : State) (d : List Nat) : State :=
  { s with nsym := BitVec.ofNat 14 d.length, da := (List.range d.length).map fun x => (x, BitVec.ofNat 5 (depthAt d x)) }

/-- The slot of a depth array, or an invalid one. -/
def slotOf (d : List Nat) : Slot := (buildSlot d).getD Slot.blank

/-- The bytes of `DA` from 0 on. -/
def depths (s : State) (n : Nat) : List Nat := (List.range n).map fun i => (s.daRead i).toNat

/-- The bytes of OUT. -/
def output (s : State) : List Nat := (List.range s.outLen.toNat).map fun i => (Memory.read s.out i).toNat

/-- The code bits of the first n symbols of a slot. -/
def codes (sl : Slot) (n : Nat) : List (List Nat) := (List.range n).map sl.codeBits

/-- The cursor (`BR_BYTE`, `BR_BIT`). -/
def cursor (s : State) : Nat × Nat := (s.brByte.toNat, s.brBit.toNat)

/-- The error registers. -/
def errors (s : State) : RunState × Option ErrorKind × Nat := (s.run, s.err, s.errOp.toNat)

/-! ### WellFormed: an ill-formed term for each check (rule R84) -/

theorem test_wf_refuses_33_bits : (Instr.rdbits 33).wf = false := by decide

theorem test_wf_allows_32_bits : (Instr.rdbits 32).wf = true := by decide

theorem test_wf_refuses_slot_3 : (Instr.hdec 3).wf = false := by decide

/-! ### Decoding: words written out from rules R81 to R83 (fields OP, Z, A), indices from rule R89 -/

theorem test_decode_seek : decodeCommand 0b00000001_0000000000000000_00000000 = .ok .seek := by decide

theorem test_decode_rdbits : decodeCommand 0b00000010_0000000000000000_00001110 = .ok (.rdbits 14) := by decide

theorem test_decode_align : decodeCommand 0b00000011_0000000000000000_00000000 = .ok .align := by decide

theorem test_decode_hbuild : decodeCommand 0b00000100_0000000000000000_00000001 = .ok (.hbuild 1) := by decide

theorem test_decode_hdec : decodeCommand 0b00000101_0000000000000000_00000010 = .ok (.hdec 2) := by decide

theorem test_decode_tread : decodeCommand 0b00000110_0000000000000000_00000001 = .ok (.tread 1) := by decide

theorem test_decode_gettab : decodeCommand 0b00000111_0000000000000000_00000000 = .ok .gettab := by decide

theorem test_decode_lvlinfo : decodeCommand 0b00001000_0000000000000000_10000001 = .ok (.lvlinfo 129) := by decide

theorem test_decode_unpack : decodeCommand 0b00001001_0000000000000000_10000001 = .ok (.unpack 129) := by decide

theorem test_decode_clrerr : decodeCommand 0b00001010_0000000000000000_00000000 = .ok .clrerr := by decide

theorem test_decode_lit0 : decode (.symbol 0b00000) = .ok .lit0 := by decide

theorem test_decode_lit1 : decode (.symbol 0b00001) = .ok .lit1 := by decide

theorem test_decode_lit2 : decode (.symbol 0b00010) = .ok .lit2 := by decide

theorem test_decode_lit3 : decode (.symbol 0b00011) = .ok .lit3 := by decide

theorem test_decode_lit4 : decode (.symbol 0b00100) = .ok .lit4 := by decide

theorem test_decode_lit5 : decode (.symbol 0b00101) = .ok .lit5 := by decide

theorem test_decode_lit6 : decode (.symbol 0b00110) = .ok .lit6 := by decide

theorem test_decode_lit7 : decode (.symbol 0b00111) = .ok .lit7 := by decide

theorem test_decode_lit8 : decode (.symbol 0b01000) = .ok .lit8 := by decide

theorem test_decode_lit9 : decode (.symbol 0b01001) = .ok .lit9 := by decide

theorem test_decode_lit10 : decode (.symbol 0b01010) = .ok .lit10 := by decide

theorem test_decode_lit11 : decode (.symbol 0b01011) = .ok .lit11 := by decide

theorem test_decode_lit12 : decode (.symbol 0b01100) = .ok .lit12 := by decide

theorem test_decode_lit13 : decode (.symbol 0b01101) = .ok .lit13 := by decide

theorem test_decode_lit14 : decode (.symbol 0b01110) = .ok .lit14 := by decide

theorem test_decode_lit15 : decode (.symbol 0b01111) = .ok .lit15 := by decide

theorem test_decode_lit16 : decode (.symbol 0b10000) = .ok .lit16 := by decide

theorem test_decode_shortzero : decode (.symbol 0b10001) = .ok .shortzero := by decide

theorem test_decode_longzero : decode (.symbol 0b10010) = .ok .longzero := by decide

theorem test_decode_shortrepeat : decode (.symbol 0b10011) = .ok .shortrepeat := by decide

theorem test_decode_longrepeat : decode (.symbol 0b10100) = .ok .longrepeat := by decide

/-- Reserved and illegal words (rules R84 and R91; vectors U1, U2, U3, D9, H14, T14), and a symbol that does not exist. -/
theorem test_decode_refuses :
    decodeCommand 0x00000000 = .error .unknownOpcode ∧ decodeCommand 0x0B000000 = .error .unknownOpcode
      ∧ decodeCommand 0xFF000000 = .error .unknownOpcode ∧ decodeCommand 0x02000021 = .error .badOperand
      ∧ decodeCommand 0x02000100 = .error .zNotZero ∧ decodeCommand 0x03000001 = .error .badOperand
      ∧ decodeCommand 0x05000003 = .error .badOperand ∧ decodeCommand 0x04000002 = .error .badOperand
      ∧ decodeCommand 0x06000002 = .error .badOperand ∧ decodeSymbol 21 = .error .unknownSymbol := by decide

/-! ### The bit reader (vectors B1 to B19) -/

def b0 : State := loaded [0x12, 0x34, 0x56, 0x78, 0x9A]

def b0Lsb : State := { b0 with cfg := { Config.standard with bitOrder := .lsbFirst } }

/-- `SEEK 1, 2` of vector B15. -/
theorem test_seek_places_cursor :
    cursor (after (exec .seek { b0 with arg0 := 1, arg1 := 2 })) = (1, 0)
      ∧ (after (exec .seek { b0 with arg0 := 1, arg1 := 2 })).brEnd = 2 := by decide

/-- Vector B13. -/
theorem test_seek_beyond_buffer :
    errors (after (exec .seek { b0 with arg1 := 6 })) = (.error, some .offsetOutOfRange, 1)
      ∧ (after (exec .seek { b0 with arg1 := 6 })).brEnd = 5 := by decide

/-- Vectors B1 and B2. -/
theorem test_rdbits_32 :
    (after (exec (.rdbits 32) b0)).res = 0x12345678 ∧ (after (exec (.rdbits 32) b0Lsb)).res = 0x78563412
      ∧ cursor (after (exec (.rdbits 32) b0)) = (4, 0) := by decide +kernel

/-- Vectors B3 and B4: 32 bits that touch five bytes. -/
theorem test_rdbits_unaligned :
    (after (exec (.rdbits 32) { b0 with brBit := 4 })).res = 0x23456789
      ∧ (after (exec (.rdbits 32) { b0Lsb with brBit := 4 })).res = 0xA7856341
      ∧ cursor (after (exec (.rdbits 32) { b0 with brBit := 4 })) = (4, 4) := by decide +kernel

/-- Vector B16. -/
theorem test_align_skips_to_next_byte : cursor (after (exec .align { b0 with brBit := 3 })) = (1, 0) := by decide

/-- Vector B18. -/
theorem test_align_at_the_end :
    cursor (after (exec .align { b0 with brByte := 5 })) = (5, 0)
      ∧ (after (exec .align { b0 with brByte := 5 })).run = .idle := by decide

/-! ### The Huffman builder and decoder (vectors H1 to H10, D1 to D5) -/

/-- Vector H1: the codes of the source's scenario. -/
theorem test_hbuild_codes :
    codes (after (exec (.hbuild 0) (withDepths State.reset [3, 3, 3, 4, 4, 1]))).t0 6
      = [[1, 0, 0], [1, 0, 1], [1, 1, 0], [1, 1, 1, 0], [1, 1, 1, 1], [0]]
      ∧ (after (exec (.hbuild 0) (withDepths State.reset [3, 3, 3, 4, 4, 1]))).t0.maxlen = 4 := by decide +kernel

/-- Vectors H2 and H6. -/
theorem test_hbuild_refuses :
    errors (after (exec (.hbuild 1) (withDepths State.reset [2, 2, 2, 3, 3, 1]))) = (.error, some .invalidDepths, 4)
      ∧ errors (after (exec (.hbuild 1) State.reset)) = (.error, some .invalidDepths, 4)
      ∧ errors (after (exec (.hbuild 1) (withDepths State.reset [17]))) = (.error, some .invalidDepths, 4) := by
  decide +kernel

/-- Vectors D1 and D2: the first symbol under either bit order. -/
theorem test_hdec_symbol :
    (after (exec (.hdec 0) { loaded [0x4E] with t0 := slotOf [3, 3, 3, 4, 4, 1], brBit := 1 })).res = 0
      ∧ cursor (after (exec (.hdec 0) { loaded [0x4E] with t0 := slotOf [3, 3, 3, 4, 4, 1], brBit := 1 })) = (0, 4)
      ∧ (after (exec (.hdec 0) { loaded [0x72] with cfg := b0Lsb.cfg, t0 := slotOf [3, 3, 3, 4, 4, 1], brBit := 4 })).res
          = 3 := by decide +kernel

/-- Vector D3. -/
theorem test_hdec_no_code :
    errors (after (exec (.hdec 0) { loaded [0xC0] with t0 := slotOf [2, 2, 3] })) = (.error, some .corruptStream, 5)
      ∧ cursor (after (exec (.hdec 0) { loaded [0xC0] with t0 := slotOf [2, 2, 3] })) = (0, 3) := by decide +kernel

/-! ### The table reader (vectors T1 to T13) -/

def t1Bytes : List Nat := [0x00, 0x50, 0x34, 0x00, 0x00, 0x00, 0x10, 0x41, 0x80, 0x06, 0x23, 0x80, 0x60, 0xCB, 0xE8]

/-- Vector T1. -/
theorem test_tread_record :
    depths (after (exec (.tread 0) (loaded t1Bytes))) 20
      = [2, 3, 3, 3, 3, 0, 0, 0, 0, 0, 0, 0, 0, 0, 0, 0, 4, 4, 4, 4]
      ∧ cursor (after (exec (.tread 0) (loaded t1Bytes))) = (12, 6)
      ∧ (after (exec (.tread 0) (loaded t1Bytes))).lastnz = 4
      ∧ (after (exec (.tread 0) (loaded t1Bytes))).t0.codeBits 16 = [1, 1, 0, 0] := by decide +kernel

/-- Vector T3: the overrun writes nothing of the run. -/
theorem test_tread_overrun :
    errors (after (exec (.tread 0) (loaded [0x00, 0x10, 0x02, 0, 0, 0, 0, 0, 0x80, 0x02, 0x80])))
        = (.error, some .depthArrayOverrun, 6)
      ∧ (after (exec (.tread 0) (loaded [0x00, 0x10, 0x02, 0, 0, 0, 0, 0, 0x80, 0x02, 0x80]))).da = [(0, 2)]
      ∧ cursor (after (exec (.tread 0) (loaded [0x00, 0x10, 0x02, 0, 0, 0, 0, 0, 0x80, 0x02, 0x80]))) = (10, 1) := by
  decide +kernel

/-- The container of program P3, with its header in the registers. -/
def p3 : State :=
  { loaded [0xFF, 0xFF, 0x00, 0x10, 0x00, 0x00, 0x00, 0x00, 0x00, 0x21, 0x04, 0x05, 0x80, 0x02, 0x90, 0x00, 0x00, 0x00, 0x00,
      0x00, 0x00, 0x40, 0x80, 0x00, 0xAA, 0xDF, 0x70, 0x4D, 0xC8] with
    tableOfs := 2, imgW := 8, imgH := 4, levelCount := 2, fmt := 0
    lvlOfs := (Vector.replicate 16 0).set 0 23 |>.set 1 27
    lvlSize := (Vector.replicate 16 0).set 0 4 |>.set 1 2 }

/-- `p3` after `GETTAB`, in what `UNPACK` uses. -/
def p3Read : State := { p3 with t0 := slotOf [1, 2, 3, 3] }

/-- Program P3, line `GETTAB`. -/
theorem test_gettab_two_records :
    codes (after (exec .gettab p3)).t0 4 = [[0], [1, 0], [1, 1, 0], [1, 1, 1]]
      ∧ codes (after (exec .gettab p3)).t1 5 = [[], [], [], [0], [1]]
      ∧ cursor (after (exec .gettab p3)) = (22, 6) ∧ depths (after (exec .gettab p3)) 5 = [0, 0, 0, 1, 1] := by
  decide +kernel

/-- A table offset beyond the buffer (rule R166). -/
theorem test_gettab_beyond_buffer :
    errors (after (exec .gettab { p3 with tableOfs := 30 })) = (.error, some .offsetOutOfRange, 7) := by decide +kernel

/-! ### The temporary-tree symbols -/

/-- A reader of `TREAD 0` at step 4 with n entries to produce. -/
def running (bs : List Nat) (n : Nat) : State :=
  { loaded bs with cmd := 0x06000000, run := .busy, trState := .sym, nsym := BitVec.ofNat 14 n }

/-- Rule R156: each literal writes its own depth. -/
theorem test_literals_write_depths :
    (List.range 17).map (fun v => match decodeSymbol v with
      | .ok i => depths (after (exec i (running [] 1))) 1
      | .error _ => []) = (List.range 17).map fun v => [v] := by decide +kernel

/-- Rule R156: `LIT0` leaves `LASTNZ`, another literal sets it. -/
theorem test_literals_and_lastnz :
    (after (exec .lit0 { running [] 1 with lastnz := 9 })).lastnz = 9
      ∧ (after (exec .lit16 { running [] 1 with lastnz := 9 })).lastnz = 16 := by decide +kernel

/-- Vector T2: `SHORTZERO`, parameter `010`. -/
theorem test_shortzero_run :
    depths (after (exec .shortzero (running [0x40] 13))) 5 = [0, 0, 0, 0, 0]
      ∧ (after (exec .shortzero (running [0x40] 13))).ofs = 5
      ∧ cursor (after (exec .shortzero (running [0x40] 13))) = (0, 3) := by decide +kernel

/-- Vector T6b: `LONGZERO`, parameter `1111111`. -/
theorem test_longzero_run :
    (after (exec .longzero (running [0xFE] 138))).ofs = 138
      ∧ depths (after (exec .longzero (running [0xFE] 138))) 138 = List.replicate 138 0 := by decide +kernel

/-- Vector T1: `SHORTREPEAT`, parameter `00`, repeats 3. -/
theorem test_shortrepeat_run :
    (after (exec .shortrepeat { running [0x00] 20 with ofs := 2, lastnz := 3 })).da = [(2, 3), (3, 3), (4, 3)]
      ∧ (after (exec .shortrepeat { running [0x00] 20 with ofs := 2, lastnz := 3 })).ofs = 5 := by decide +kernel

/-- Vector T5: nothing to repeat, after the parameter is read. -/
theorem test_shortrepeat_nothing :
    errors (after (exec .shortrepeat (running [0x00] 5))) = (.error, some .corruptStream, 6)
      ∧ cursor (after (exec .shortrepeat (running [0x00] 5))) = (0, 2) := by decide +kernel

/-- Vector T2: `LONGREPEAT`, parameter `000000`, repeats 8. -/
theorem test_longrepeat_run :
    (after (exec .longrepeat { running [0x00] 13 with ofs := 6, lastnz := 8 })).ofs = 13
      ∧ (after (exec .longrepeat { running [0x00] 13 with ofs := 6, lastnz := 8 })).da.map (fun c => c.2.toNat)
          = [8, 8, 8, 8, 8, 8, 8] := by decide +kernel

/-! ### Levels, the system commands and the host (vectors L1 to L5, U1 to U11, programs P3 and P4) -/

/-- Vector L1. -/
theorem test_lvlinfo_halves :
    (List.range 5).map (fun i =>
        let t := after (exec (.lvlinfo (BitVec.ofNat 8 i)) { State.reset with imgW := 20, imgH := 6, levelCount := 5 })
        (t.liW.toNat, t.liH.toNat)) = [(20, 6), (10, 3), (5, 1), (2, 1), (1, 1)] := by decide +kernel

/-- Vector L2. -/
theorem test_lvlinfo_beyond_levels :
    errors (after (exec (.lvlinfo 5) { State.reset with imgW := 20, imgH := 6, levelCount := 5 }))
      = (.error, some .levelIndexOutOfRange, 8) := by decide

/-- Program P3, line `UNPACK 1`. -/
theorem test_unpack_level :
    output (after (exec (.unpack 1) p3Read)) = [0, 1, 0, 2, 3, 0, 0, 1]
      ∧ cursor (after (exec (.unpack 1) p3Read)) = (28, 6) ∧ (after (exec (.unpack 1) p3Read)).outValid = true := by
  decide +kernel

/-- Program P4, the level window cut inside an item. -/
theorem test_unpack_cut_level :
    errors (after (exec (.unpack 0) { p3Read with lvlSize := p3Read.lvlSize.set 0 3 })) = (.error, some .unexpectedEnd, 9)
      ∧ (after (exec (.unpack 0) { p3Read with lvlSize := p3Read.lvlSize.set 0 3 })).outLen = 0
      ∧ cursor (after (exec (.unpack 0) { p3Read with lvlSize := p3Read.lvlSize.set 0 3 })) = (26, 0) := by
  decide +kernel

/-- Vector L5. -/
theorem test_exp_len :
    expLenOf 4 4 8 = 8 ∧ expLenOf 5 5 16 = 64 ∧ expLenOf 1 1 16 = 16 ∧ expLenOf 20 6 8 = 80
      ∧ expLenOf 65535 65535 16 = 2 ^ 32 := by decide

/-- Vector U5. -/
theorem test_clrerr :
    errors (after (exec .clrerr { b0 with run := .error, err := some .unexpectedEnd, errOp := 2 })) = (.idle, none, 0) := by
  decide

/-- Vectors U2 and U9: what the host may not write. -/
theorem test_illegal_writes :
    errors (after (step { b0 with inputs := [.write 0 0x0B000000] })) = (.error, some .illegalCommand, 0x0B)
      ∧ errors (after (step { b0 with inputs := [.write 0x0C 17] })) = (.error, some .illegalCommand, 0)
      ∧ errors (after (step { b0 with inputs := [.write 0x01 0] })) = (.error, some .illegalCommand, 0)
      ∧ errors (after (step { b0 with idx := 16383, inputs := [.write 0x41 1] })) = (.error, some .illegalCommand, 0) := by
  decide +kernel

/-- Program P4, line `RD STATUS`. -/
theorem test_status_read :
    (after (step { b0 with run := .error, err := some .unexpectedEnd, errOp := 9, t0 := slotOf [1], t1 := slotOf [1],
                           tmp := slotOf [1], inputs := [.read 0x01] })).busData = 0x00009572 := by decide +kernel

/-- A command word written by the host runs as one step, and the table reader's state machine begins with `TR_COUNT`
(rules R246 and R164). -/
theorem test_grains :
    (after (step { b0 with inputs := [.write 0 0x02000010] })).res = 0x1234
      ∧ (after (step { b0 with cfg := { Config.standard with grain := .arrow }, cmd := 0x06000000, run := .busy })).trState
          = .count := by decide +kernel

/-! ### Witnesses: states and operands that meet the hypotheses of each obligation, clause by clause -/

theorem b0_cursor : b0.cursorOk := ⟨by decide, by decide, fun _ => rfl⟩

/-- The six-symbol tree of vector H1, as `T[0]`. -/
def h1 : Slot := slotOf [3, 3, 3, 4, 4, 1]

theorem h1_built : h1.builtFor .t0 := ⟨[3, 3, 3, 4, 4, 1], by decide +kernel, by decide⟩

/-- A temporary tree in which `LIT2` has the code 0 and `SHORTREPEAT` the code 1 (vector T3). -/
def t3Depths : List Nat := [0, 0, 1, 0, 0, 0, 0, 0, 0, 0, 0, 0, 0, 0, 0, 0, 0, 0, 0, 1, 0]

theorem t3_built : (slotOf t3Depths).builtFor .tmp := ⟨t3Depths, by decide +kernel, by decide⟩

theorem p3_data : p3.DataOk :=
  { loaded_data _ with levels := (by decide : 2 ≤ 16) }

theorem p3Read_data : p3Read.DataOk :=
  { p3_data with
    slots := fun t h => by
      cases t with
      | t0 => exact ⟨[1, 2, 3, 3], by decide +kernel, by decide⟩
      | t1 => cases h
      | tmp => cases h }

theorem b0_data : b0.DataOk := loaded_data _

theorem b0_inv : b0.Inv := quiet_inv b0_data (by decide) (fun _ => rfl) ⟨rfl, rfl, rfl⟩

/-- O3: an illegal word for each way to be one, at its boundary, and the legal words next to them. -/
theorem witness_O3 :
    b0.run = .idle ∧ (0x00FFFFFF : Word).toNat / 2 ^ 24 = 0 ∧ (0x0B000000 : Word).toNat / 2 ^ 24 = 0x0B
      ∧ (0x01000100 : Word).toNat / 2 ^ 8 % 2 ^ 16 = 1 ∧ (0x01000001 : Word).toNat % 2 ^ 8 = 1
      ∧ (0x02000021 : Word).toNat % 2 ^ 8 = 33 ∧ (0x04000002 : Word).toNat % 2 ^ 8 = 2
      ∧ (0x05000003 : Word).toNat % 2 ^ 8 = 3 ∧ (0x02000020 : Word).toNat % 2 ^ 8 = 32
      ∧ (0x0A000000 : Word).toNat / 2 ^ 24 = 10 := by decide

/-- O4, O5: 32 bits where exactly 32 are left, and where 31 are. -/
theorem witness_O4_O5 :
    ({ b0 with brEnd := 4 } : State).cursorOk ∧ ({ b0 with brEnd := 4 } : State).rem = 32
      ∧ ({ b0 with brEnd := 4, brBit := 1 } : State).cursorOk ∧ ({ b0 with brEnd := 4, brBit := 1 } : State).rem = 31
      ∧ ({ b0Lsb with brEnd := 4 } : State).cursorOk :=
  ⟨⟨by decide, by decide, fun h => by cases h⟩, by decide, ⟨by decide, by decide, fun h => by cases h⟩, by decide,
    ⟨by decide, by decide, fun h => by cases h⟩⟩

/-- O6: another byte right behind the window. -/
theorem witness_O6 :
    ({ b0 with brEnd := 4 } : State).cursorOk ∧ Memory.write b0.buf 4 0xFF ≠ b0.buf
      ∧ ∀ a, a < ({ b0 with brEnd := 4 } : State).brEnd.toNat →
          Memory.read (Memory.write b0.buf 4 0xFF) a = Memory.read ({ b0 with brEnd := 4 } : State).buf a := by
  refine ⟨⟨by decide, by decide, fun h => by cases h⟩, by decide, fun a h => ?_⟩
  rw [Memory.read_write _ _ _ b0_data.bufWf, if_neg]
  have h' : a < 4 := h
  omega

/-- O7: `SEEK` at both boundaries, and one beyond each. -/
theorem witness_O7 :
    b0.run = .idle ∧ ({ b0 with arg0 := 5, arg1 := 5 } : State).arg1.toNat ≤ b0.bufLen.toNat
      ∧ b0.bufLen.toNat < ({ b0 with arg1 := 6 } : State).arg1.toNat
      ∧ ({ b0 with arg0 := 3, arg1 := 2 } : State).arg1.toNat < ({ b0 with arg0 := 3, arg1 := 2 } : State).arg0.toNat := by
  decide

/-- O8: 32 bits of 32, 32 bits of 31, and the operand 33. -/
theorem witness_O8 :
    b0.run = .idle ∧ ({ b0 with brEnd := 4 } : State).cursorOk ∧ (32 : BitVec 6).toNat ≤ ({ b0 with brEnd := 4 } : State).rem
      ∧ ({ b0 with brEnd := 4, brBit := 1 } : State).cursorOk
      ∧ ({ b0 with brEnd := 4, brBit := 1 } : State).rem < (32 : BitVec 6).toNat ∧ 32 < (33 : BitVec 6).toNat :=
  ⟨rfl, witness_O4_O5.1, by decide, witness_O4_O5.2.2.1, by decide, by decide⟩

/-- O9: both cases, and a state that `ALIGN` answers. -/
theorem witness_O9 :
    b0.run = .idle ∧ b0.brBit = 0 ∧ ({ b0 with brBit := 7 } : State).brBit ≠ 0 ∧ ∃ t, exec .align b0 = .next t :=
  ⟨rfl, rfl, by decide, _, next_after rfl⟩

/-- O10, O47, O49: an instruction that goes on from data in order. -/
theorem witness_O10_O47_O49 : b0.DataOk ∧ (Instr.rdbits 8 ≠ .seek ∧ Instr.rdbits 8 ≠ .gettab) ∧
    (∃ t, exec (.rdbits 8) b0 = .next t) ∧ ∃ t, exec .align b0 = .next t :=
  ⟨b0_data, by decide, ⟨_, next_after (by decide +kernel)⟩, _, next_after rfl⟩

/-- O11: depths that build (Kraft sum exactly 1), and depths that do not (no symbol used; one depth 17; Kraft sum above 1). -/
theorem witness_O11 :
    (withDepths State.reset [3, 3, 3, 4, 4, 1]).run = .idle
      ∧ (withDepths State.reset [3, 3, 3, 4, 4, 1]).daList = [3, 3, 3, 4, 4, 1] ∧ kraft [3, 3, 3, 4, 4, 1] = 2 ^ 16
      ∧ State.reset.daList = [] ∧ (withDepths State.reset [17]).daList = [17]
      ∧ (withDepths State.reset [1, 1, 16]).daList = [1, 1, 16] ∧ kraft [1, 1, 16] = 2 ^ 16 + 1 := by decide +kernel

/-- O13: depths that pass the checks, on both sides of the Kraft bound. -/
theorem witness_O13 :
    checkDepths [3, 3, 3, 4, 4, 1] = true ∧ checkDepths [1, 1, 16] = true ∧ [1, 1, 16].length ≤ 16383 := by decide

/-- O14: a slot of each kind that is built. -/
theorem witness_O14 : h1.builtFor .t0 ∧ (slotOf t3Depths).builtFor .tmp := ⟨h1_built, t3_built⟩

/-- O15: vector D1, at its first and its last symbol. -/
theorem witness_O15 :
    ({ loaded [0x4E] with t0 := h1 } : State).run = .idle ∧ ({ loaded [0x4E] with t0 := h1 } : State).cursorOk
      ∧ SlotId.t0.index = (0 : BitVec 2).toNat ∧ h1.builtFor .t0 ∧ 5 < h1.ns.toNat ∧ h1.depthOf 5 ≠ 0
      ∧ ({ loaded [0x4E] with t0 := h1 } : State).hasBits (h1.codeBits 5)
      ∧ ({ loaded [0x4E] with t0 := h1, brBit := 4 } : State).hasBits (h1.codeBits 3) :=
  ⟨rfl, ⟨by decide, by decide, fun _ => rfl⟩, rfl, h1_built, by decide +kernel, by decide +kernel,
    ⟨by decide +kernel, by decide +kernel⟩, by decide +kernel, by decide +kernel⟩

/-- O16: the operand 3; an invalid slot; vector D3 with exactly `MAXLEN` bits left; one bit fewer. -/
theorem witness_O16 :
    (loaded [0xC0]).run = .idle ∧ (loaded [0xC0]).cursorOk ∧ (loaded [0xC0]).t0.valid = false
      ∧ (slotOf [2, 2, 3]).builtFor .t0
      ∧ (slotOf [2, 2, 3]).maxlen.toNat = ({ loaded [0xC0] with brBit := 5 } : State).rem
      ∧ ({ loaded [0x06] with brBit := 5 } : State).nextBits 3 = [1, 1, 0]
      ∧ (List.range 3).map (slotOf [2, 2, 3]).codeBits = [[0, 0], [0, 1], [1, 0, 0]]
      ∧ ({ loaded [0x03] with brBit := 6 } : State).rem = 2
      ∧ ({ loaded [0x03] with brBit := 6 } : State).nextBits 2 = [1, 1] :=
  ⟨rfl, ⟨by decide, by decide, fun _ => rfl⟩, rfl, ⟨[2, 2, 3], by decide +kernel, by decide⟩, by decide +kernel,
    by decide +kernel, by decide +kernel, by decide +kernel, by decide +kernel⟩

/-- O17: vector D1, all three symbols, to the end of the window. -/
theorem witness_O17 :
    ({ loaded [0x4E] with t0 := h1 } : State).cursorOk ∧ h1.builtFor .t0
      ∧ (∀ x ∈ [5, 0, 3], x < h1.ns.toNat ∧ h1.depthOf x ≠ 0)
      ∧ ({ loaded [0x4E] with t0 := h1 } : State).hasBits ([5, 0, 3].flatMap h1.codeBits) :=
  ⟨⟨by decide, by decide, fun _ => rfl⟩, h1_built, by decide +kernel, by decide +kernel, by decide +kernel⟩

/-- O18: a complete and an incomplete array, and bits of the length `MAXLEN`. -/
theorem witness_O18 :
    buildSlot [3, 3, 3, 4, 4, 1] = some h1 ∧ kraft [3, 3, 3, 4, 4, 1] = 2 ^ 16 ∧ [1, 0, 1, 1].length = h1.maxlen.toNat
      ∧ (∃ sl, buildSlot [2, 2, 3] = some sl) ∧ kraft [2, 2, 3] < 2 ^ 16 :=
  ⟨by decide +kernel, by decide, by decide +kernel, ⟨slotOf [2, 2, 3], by decide +kernel⟩, by decide⟩

/-- The record of vector T3b. -/
def t3Record : Record :=
  { count := 4, fields := 21, tmpDepths := t3Depths, tree := slotOf t3Depths
    items := [.literal 2, .escape 19 0], depths := [2, 2, 2, 2], main := slotOf [2, 2, 2, 2] }

def t3b : State := loaded [0x00, 0x10, 0x02, 0, 0, 0, 0, 0, 0x80, 0x02, 0x00]

theorem t3Record_legal : t3Record.legal Config.standard :=
  ⟨⟨by decide, by decide, ⟨by decide, by decide, by decide, by decide, by decide, by decide, by decide⟩, by decide +kernel⟩,
    by unfold itemsLegal; decide +kernel, by decide +kernel, rfl, by decide +kernel⟩

/-- O20: vector T3b is the record it holds, under `P_TMPCOUNT_W = 0`. -/
theorem witness_O20 : t3b.run = .idle ∧ t3b.cursorOk ∧ t3Record.legal t3b.cfg ∧ t3b.hasBits (t3Record.bits t3b.cfg) :=
  ⟨rfl, ⟨by decide, by decide, fun _ => rfl⟩, t3Record_legal, by decide +kernel, by decide +kernel⟩

/-- O20, with the count field of rule R94: one field of 5 bits and 21 depth fields. -/
theorem witness_O20_count_field : t3Record.legal { Config.standard with tmpCountW := 5 } :=
  ⟨⟨by decide, by decide, ⟨by decide, by decide, by decide, by decide, by decide, by decide, by decide⟩, by decide +kernel⟩,
    by unfold itemsLegal; decide +kernel, by decide +kernel, rfl, by decide +kernel⟩

/-- O21, O48, O50: a `TREAD` that succeeds, with a legal header at the cursor; one that fails with 16 bits left, and one that
fails with 13. -/
theorem witness_O21_O48_O50 :
    t3b.DataOk ∧ t3b.run = .idle ∧ (∃ u, exec (.tread 0) t3b = .next u ∧ u.run = .idle ∧ u.tmp.valid = true)
      ∧ t3Record.toHeader.legal t3b.cfg ∧ t3b.hasBits (t3Record.toHeader.bits t3b.cfg)
      ∧ (loaded [0, 0]).DataOk ∧ (loaded [0, 0]).rem = 16 ∧ (∃ u, exec (.tread 1) (loaded [0, 0]) = .next u ∧ u.run = .error)
      ∧ ({ loaded [0, 0] with brBit := 3 } : State).DataOk ∧ ({ loaded [0, 0] with brBit := 3 } : State).rem = 13
      ∧ ∃ u, exec (.tread 1) { loaded [0, 0] with brBit := 3 } = .next u ∧ u.run = .error :=
  ⟨loaded_data _, rfl, ⟨_, next_after (by decide +kernel), by decide +kernel, by decide +kernel⟩, t3Record_legal.1,
    ⟨by decide +kernel, by decide +kernel⟩, loaded_data _, by decide, ⟨_, next_after (by decide +kernel), by decide +kernel⟩,
    { loaded_data [0, 0] with cursor := ⟨by decide, by decide, fun h => by cases h⟩ }, by decide, _,
    next_after (by decide +kernel), by decide +kernel⟩

/-- The bytes of a bit string under `MSB_FIRST`; its length is a multiple of 8. -/
def packed : List Nat → List Nat
  | a :: b :: c :: d :: e :: f :: g :: h :: rest => msbValue [a, b, c, d, e, f, g, h] :: packed rest
  | _ => []

/-- A core whose window ends exactly after a bit string that lies at the cursor. -/
def facing (bits : List Nat) : State :=
  let k := (8 - bits.length % 8) % 8
  { loaded (packed (List.replicate k 0 ++ bits)) with brBit := BitVec.ofNat 3 k }

/-- O22, step 1: 13 bits left, and 14 bits that are all 0. -/
theorem witness_O22_count :
    ({ loaded [0, 0] with brBit := 3 } : State).cursorOk ∧ ({ loaded [0, 0] with brBit := 3 } : State).rem = 13
      ∧ ({ loaded [0, 0] with brBit := 2 } : State).cursorOk ∧ ({ loaded [0, 0] with brBit := 2 } : State).rem = 14
      ∧ ∀ b ∈ ({ loaded [0, 0] with brBit := 2 } : State).nextBits 14, b = 0 :=
  ⟨⟨by decide, by decide, fun h => by cases h⟩, by decide, ⟨by decide, by decide, fun h => by cases h⟩, by decide,
    by decide +kernel⟩

/-- The count 1 and some bits after it, under the variant of rule R168 with a count field of 5 bits. -/
def varied (bits : List Nat) : State :=
  { facing (fieldBits .msbFirst 14 1 ++ bits) with cfg := { Config.standard with tmpCountW := 5 } }

/-- O22, steps 2 and 3: one bit of a count field missing; 0 fields and 22; 20 depth fields and 2 bits of the last; no bit of
the only field; and all-zero depths, of 21 fields and of one. -/
theorem witness_O22 :
    fieldValue .msbFirst ((varied [0, 0, 0, 0]).nextBits 14) = 1 ∧ (varied [0, 0, 0, 0]).cursorOk
      ∧ (varied [0, 0, 0, 0]).rem = 18 ∧ (varied [0, 0, 0, 0, 0]).rem = 19
      ∧ fieldValue .msbFirst (((varied [0, 0, 0, 0, 0]).skipBits 14).nextBits 5) = 0
      ∧ fieldValue .msbFirst (((varied [1, 0, 1, 1, 0]).skipBits 14).nextBits 5) = 22
      ∧ (facing (fieldBits .msbFirst 14 1 ++ List.replicate 62 0)).cursorOk
      ∧ (facing (fieldBits .msbFirst 14 1 ++ List.replicate 62 0)).rem = 14 + 20 * 3 + 2
      ∧ fieldValue .msbFirst (((varied [0, 0, 0, 0, 1]).skipBits 14).nextBits 5) = 1 ∧ (varied [0, 0, 0, 0, 1]).rem = 19
      ∧ (facing (fieldBits .msbFirst 14 1 ++ List.replicate 63 0)).rem = 14 + 21 * 3
      ∧ (varied [0, 0, 0, 0, 1, 0, 0, 0]).rem = 19 + 1 * 3 ∧ buildSlot (List.replicate 21 0) = none
      ∧ (∀ j, j < 21 → depthAt (List.replicate 21 0) (tmpOrder.getD j 0) = fieldValue .msbFirst
          (((facing (fieldBits .msbFirst 14 1 ++ List.replicate 63 0)).skipBits (14 + j * 3)).nextBits 3))
      ∧ ∀ x ∈ tmpOrder.drop 1, depthAt (List.replicate 21 0) x = 0 := by
  unfold State.cursorOk
  decide +kernel

/-- O23: the last entry still to be produced, for the literals 0 and 16. -/
theorem witness_O23 :
    decodeSymbol 0 = .ok .lit0 ∧ decodeSymbol 16 = .ok .lit16 ∧ (running [] 1).run = .busy ∧ (running [] 1).trState = .sym
      ∧ (running [] 1).ofs.toNat < (running [] 1).nsym.toNat := by decide

/-- O24: runs that end exactly at `NSYM`, with exactly the parameter's bits left for `SHORTZERO`. -/
theorem witness_O24 :
    (running [0x40] 5).cursorOk ∧ 3 ≤ ({ running [0x02] 5 with brBit := 5 } : State).rem
      ∧ ({ running [0x02] 5 with brBit := 5 } : State).rem = 3
      ∧ fieldValue .msbFirst ((running [0x40] 5).nextBits 3) + 3 = 5
      ∧ fieldValue .msbFirst ((running [0xFE] 138).nextBits 7) + 11 = 138 ∧ 7 ≤ (running [0xFE] 138).rem :=
  ⟨⟨by decide, by decide, fun _ => rfl⟩, by decide, by decide, by decide +kernel, by decide +kernel, by decide⟩

/-- O25: runs that end exactly at `NSYM`. -/
theorem witness_O25 :
    (running [0x00] 3).cursorOk ∧ 2 ≤ (running [0x00] 3).rem ∧ ({ running [0x00] 3 with lastnz := 16 } : State).lastnz ≠ 0
      ∧ fieldValue .msbFirst ((running [0x00] 3).nextBits 2) + 3 = 3
      ∧ fieldValue .msbFirst ((running [0x00] 7).nextBits 6) + 7 = 7 :=
  ⟨⟨by decide, by decide, fun _ => rfl⟩, by decide, by decide, by decide +kernel, by decide +kernel⟩

/-- A temporary tree with the one code 00, of the symbol 2, so that its code is incomplete. -/
def twoZeros : List Nat := [0, 0, 2] ++ List.replicate 18 0

/-- O26: exactly `MAXLEN` bits left and no code among them, one bit left of a code; then one bit too few for a parameter;
exactly the parameter's bits and nothing to repeat; a run one entry too long. -/
theorem witness_O26 :
    (slotOf twoZeros).builtFor .tmp
      ∧ ({ running [0x03] 5 with brBit := 6, tmp := slotOf twoZeros } : State).cursorOk
      ∧ ({ running [0x03] 5 with brBit := 6, tmp := slotOf twoZeros } : State).rem = (slotOf twoZeros).maxlen.toNat
      ∧ ({ running [0x03] 5 with brBit := 6, tmp := slotOf twoZeros } : State).noCodeIn (slotOf twoZeros) 2
      ∧ ({ running [0x00] 5 with brBit := 7, tmp := slotOf twoZeros } : State).cursorOk
      ∧ ({ running [0x00] 5 with brBit := 7, tmp := slotOf twoZeros } : State).rem = 1
      ∧ ({ running [0x00] 5 with brBit := 7, tmp := slotOf twoZeros } : State).noCodeIn (slotOf twoZeros) 1
      ∧ (running [0x00] 5).inputs = []
      ∧ ({ running [0x00] 5 with brBit := 6 } : State).cursorOk ∧ ({ running [0x00] 5 with brBit := 6 } : State).rem = 2
      ∧ opByte (running [0x00] 5).cmd = 0x06 ∧ opByte ({ running [0x00] 5 with cmd := 0x07000000 } : State).cmd = 0x07
      ∧ (running [0x00] 5).lastnz = 0
      ∧ (running [0x40] 4).nsym.toNat - (running [0x40] 4).ofs.toNat
          < fieldValue .msbFirst ((running [0x40] 4).nextBits 3) + 3 :=
  ⟨⟨twoZeros, by decide +kernel, by decide⟩, ⟨by decide, by decide, fun h => by cases h⟩, by decide +kernel,
    by unfold State.noCodeIn; decide +kernel, ⟨by decide, by decide, fun h => by cases h⟩, by decide,
    by unfold State.noCodeIn; decide +kernel, rfl, ⟨by decide, by decide, fun h => by cases h⟩, by decide, by decide, by decide,
    rfl, by decide +kernel⟩

/-- O27: no reader runs; a reader with nothing left to produce. -/
theorem witness_O27 :
    isCommand .lit0 = false ∧ ¬ (b0.run = .busy ∧ b0.trState = .sym ∧ b0.ofs.toNat < b0.nsym.toNat)
      ∧ ¬ ((running [] 0).run = .busy ∧ (running [] 0).trState = .sym
        ∧ (running [] 0).ofs.toNat < (running [] 0).nsym.toNat) := by decide

/-- The first record of program P3. -/
def p3First : Record :=
  { count := 4, fields := 21, tmpDepths := [0, 2, 2, 1] ++ List.replicate 17 0
    tree := slotOf ([0, 2, 2, 1] ++ List.replicate 17 0)
    items := [.literal 1, .literal 2, .literal 3, .literal 3], depths := [1, 2, 3, 3], main := slotOf [1, 2, 3, 3] }

/-- The second record of program P3. -/
def p3Second : Record :=
  { count := 5, fields := 21, tmpDepths := [0, 1] ++ List.replicate 15 0 ++ [1, 0, 0, 0]
    tree := slotOf ([0, 1] ++ List.replicate 15 0 ++ [1, 0, 0, 0])
    items := [.escape 17 0, .literal 1, .literal 1], depths := [0, 0, 0, 1, 1], main := slotOf [0, 0, 0, 1, 1] }

/-- O28: program P3. -/
theorem witness_O28 :
    p3.run = .idle ∧ p3.tableOfs.toNat ≤ p3.bufLen.toNat ∧ p3First.legal p3.cfg ∧ p3Second.legal p3.cfg
      ∧ (p3.seekTo p3.tableOfs p3.bufLen).hasBits (p3First.bits p3.cfg ++ p3Second.bits p3.cfg) :=
  ⟨rfl, by decide,
    ⟨⟨by decide, by decide, ⟨by decide, by decide, by decide, by decide, by decide, by decide, by decide⟩, by decide +kernel⟩,
      by unfold itemsLegal; decide +kernel, by decide +kernel, rfl, by decide +kernel⟩,
    ⟨⟨by decide, by decide, ⟨by decide, by decide, by decide, by decide, by decide, by decide, by decide⟩, by decide +kernel⟩,
      by unfold itemsLegal; decide +kernel, by decide +kernel, rfl, by decide +kernel⟩,
    by decide +kernel, by decide +kernel⟩

/-- O29: a `GETTAB` that succeeds; one whose offset is one beyond the buffer; one at its end, where the first record fails;
and one whose second record is cut. -/
theorem witness_O29 :
    p3.DataOk ∧ p3.run = .idle ∧ (∃ u, exec .gettab p3 = .next u ∧ u.run = .idle)
      ∧ ({ p3 with tableOfs := 30 } : State).DataOk ∧ ({ p3 with tableOfs := 29 } : State).DataOk
      ∧ ({ p3 with bufLen := 20, brEnd := 20 } : State).DataOk
      ∧ (∃ u, exec .gettab { p3 with tableOfs := 30 } = .next u ∧ u.err = some .offsetOutOfRange)
      ∧ (∃ u, exec .gettab { p3 with tableOfs := 29 } = .next u ∧ u.err = some .unexpectedEnd ∧ u.nsym = p3.nsym)
      ∧ ∃ u, exec .gettab { p3 with bufLen := 20, brEnd := 20 } = .next u ∧ u.err = some .unexpectedEnd ∧ u.nsym = 5 :=
  ⟨p3_data, rfl, ⟨_, next_after (by decide +kernel), by decide +kernel⟩, { p3_data with }, { p3_data with },
    { p3_data with cursor := ⟨by decide, by decide, fun h => by cases h⟩ },
    ⟨_, next_after (by decide +kernel), by decide +kernel⟩,
    ⟨_, next_after (by decide +kernel), by decide +kernel, by decide +kernel⟩, _, next_after (by decide +kernel),
    by decide +kernel, by decide +kernel⟩

/-- O30: the last level and the first that does not exist. -/
theorem witness_O30 :
    p3.run = .idle ∧ (1 : BitVec 8).toNat < p3.levelCount.val ∧ p3.levelCount.val ≤ (2 : BitVec 8).toNat := by decide

theorem p3Tree_built : (slotOf [1, 2, 3, 3]).builtFor .t0 := ⟨[1, 2, 3, 3], by decide +kernel, by decide⟩

/-- O31: program P3, line `UNPACK 1`. -/
theorem witness_O31 :
    p3Read.run = .idle ∧ Memory.wf p3Read.out = true ∧ p3Read.cfg.expand = .literal
      ∧ (1 : BitVec 8).toNat < p3Read.levelCount.val ∧ max 1 (p3Read.imgW.toNat / 2 ^ 1) = 4
      ∧ max 1 (p3Read.imgH.toNat / 2 ^ 1) = 2 ∧ p3Read.fmt = 0 ∧ p3Read.t0.builtFor .t0
      ∧ (p3Read.levelOfs 1).toNat + (p3Read.levelSize 1).toNat ≤ p3Read.bufLen.toNat
      ∧ ([0, 1, 0, 2, 3, 0, 0, 1] : List Byte).length = (4 + 3) / 4 * ((2 + 3) / 4) * 8
      ∧ (∀ x ∈ ([0, 1, 0, 2, 3, 0, 0, 1] : List Byte), p3Read.t0.depthOf x.toNat ≠ 0)
      ∧ (p3Read.seekTo (p3Read.levelOfs 1) (p3Read.levelOfs 1 + p3Read.levelSize 1)).hasBits
          (([0, 1, 0, 2, 3, 0, 0, 1] : List Byte).flatMap fun x => p3Read.t0.codeBits x.toNat) :=
  ⟨rfl, rfl, rfl, by decide, by decide, by decide, rfl, p3Tree_built, by decide +kernel, by decide, by decide +kernel,
    by decide +kernel, by decide +kernel⟩

/-- O32: the first level that does not exist, the first unknown format, an invalid `T[0]`, an invalid `T[1]` that `EXPAND`
uses, and a window one byte beyond the buffer (vectors U6 to U8). -/
theorem witness_O32 :
    p3.run = .idle ∧ p3.levelCount.val ≤ (2 : BitVec 8).toNat ∧ (1 : BitVec 8).toNat < p3.levelCount.val
      ∧ 2 < ({ p3 with fmt := 3 } : State).fmt.toNat ∧ ({ p3 with fmt := 2 } : State).fmt.toNat ≤ 2 ∧ p3.t0.valid = false
      ∧ (ExpandParam.other 0 true 0).usesAux = true ∧ p3Read.t1.valid = false ∧ p3Read.t0.valid = true
      ∧ p3Read.cfg.expand.usesAux = false
      ∧ ({ p3Read with bufLen := 28 } : State).bufLen.toNat < (p3Read.levelOfs 1).toNat + (p3Read.levelSize 1).toNat := by
  decide +kernel

/-- O33, O53: a command on data in order. -/
theorem witness_O33_O53 : p3Read.DataOk ∧ p3Read.run = .idle ∧ p3Read.run ≠ .busy ∧ isCommand (.unpack 1) = true :=
  ⟨p3Read_data, rfl, by decide, rfl⟩

/-- A core with a main tree, before a level of 16 bytes whose window holds a bit string. -/
def levelOf (bits : List Nat) (sl : Slot) : State :=
  { loaded (packed bits) with
    t0 := sl, imgW := 8, imgH := 4, levelCount := 1
    lvlSize := (Vector.replicate 16 0).set 0 (BitVec.ofNat 32 (bits.length / 8)) }

/-- A main tree with the code 0 for the symbol 170 and the code 10 for the symbol 256. -/
def wideDepths : List Nat := ((List.replicate 257 0).set 170 1).set 256 2

/-- What O34 asks of a level that codes some bytes and then breaks off. -/
def levelCut (bits d : List Nat) (bytes : List Byte) (n : Nat) (e : ErrorKind) : Prop :=
  let s := levelOf bits (slotOf d)
  let u := s.seekTo (s.levelOfs 0) (s.levelOfs 0 + s.levelSize 0)
  (buildSlot d = some (slotOf d) ∧ d.length ≤ daSize) ∧ (s.levelOfs 0).toNat + (s.levelSize 0).toNat ≤ s.bufLen.toNat
    ∧ bytes.length < (8 + 3) / 4 * ((4 + 3) / 4) * 8 ∧ (∀ x ∈ bytes, (slotOf d).depthOf x.toNat ≠ 0)
    ∧ u.hasBits (bytes.flatMap fun x => (slotOf d).codeBits x.toNat)
    ∧ (u.skipBits (bytes.flatMap fun x => (slotOf d).codeBits x.toNat).length).levelBreaksOff n e

/-- O34: program P4, the window that ends after 12 of 16 bytes; a level of size 0; one bit of a code; exactly `MAXLEN` bits
that are no code; and a coded symbol above 255. -/
theorem witness_O34 :
    levelCut [0, 0, 0, 0, 0, 0, 0, 0, 1, 0, 1, 0, 1, 0, 1, 0] [1, 2, 3, 3] [0, 0, 0, 0, 0, 0, 0, 0, 1, 1, 1, 1] 0
        .levelSizeMismatch
      ∧ levelCut [] [1, 2, 3, 3] [] 0 .levelSizeMismatch
      ∧ levelCut [0, 0, 0, 0, 0, 0, 0, 1] [1, 2, 3, 3] [0, 0, 0, 0, 0, 0, 0] 1 .unexpectedEnd
      ∧ levelCut [0, 0, 0, 0, 0, 0, 1, 1] [1, 2] [0, 0, 0, 0, 0, 0] 2 .corruptStream
      ∧ levelCut [0, 0, 0, 0, 0, 0, 1, 0] wideDepths [170, 170, 170, 170, 170, 170] 2 .corruptStream := by
  unfold levelCut State.levelBreaksOff State.noCodeIn State.hasBits
  exact ⟨⟨by decide +kernel, by decide +kernel, by decide +kernel, by decide +kernel, by decide +kernel,
      .inl (by decide +kernel)⟩,
    ⟨by decide +kernel, by decide +kernel, by decide +kernel, by decide +kernel, by decide +kernel, .inl (by decide +kernel)⟩,
    ⟨by decide +kernel, by decide +kernel, by decide +kernel, by decide +kernel, by decide +kernel,
      .inr (.inl (by decide +kernel))⟩,
    ⟨by decide +kernel, by decide +kernel, by decide +kernel, by decide +kernel, by decide +kernel,
      .inr (.inr (.inl (by decide +kernel)))⟩,
    ⟨by decide +kernel, by decide +kernel, by decide +kernel, by decide +kernel, by decide +kernel,
      .inr (.inr (.inr ⟨rfl, 256, by decide +kernel⟩))⟩⟩

/-- O35: a byte changed right before the level's window. -/
theorem witness_O35 :
    p3Read.DataOk ∧ p3Read.run = .idle ∧ Memory.write p3Read.buf 26 0 ≠ p3Read.buf
      ∧ (∀ a, (p3Read.levelOfs 1).toNat ≤ a → a < (p3Read.levelOfs 1).toNat + (p3Read.levelSize 1).toNat →
          Memory.read (Memory.write p3Read.buf 26 0) a = Memory.read p3Read.buf a)
      ∧ ∃ u, exec (.unpack 1) p3Read = .next u ∧ u.outValid = true := by
  refine ⟨p3Read_data, rfl, by decide +kernel, fun a h _ => ?_, _, next_after (by decide +kernel), by decide +kernel⟩
  have h' : 27 ≤ a := h
  rw [Memory.read_write _ _ _ p3Read_data.bufWf, if_neg (by omega)]

/-- O36: a core under `LITERAL`, with room for no byte and for one; a window too short for a read, and one without a code of
an invalid slot. -/
theorem witness_O36 :
    b0.cfg.expand = .literal ∧ b0.cursorOk ∧ expandSym 255 b0 = .ok [255] b0
      ∧ b0.expLen.toNat < b0.outLen.toNat + ([255] : List Byte).length
      ∧ ({ b0 with expLen := 1 } : State).outLen.toNat + ([255] : List Byte).length
          ≤ ({ b0 with expLen := 1 } : State).expLen.toNat
      ∧ expandSym 256 b0 = .stop (.raise .corruptStream) b0 ∧ b0.rem = 40 ∧ (State.reset).rem < (1 : Fin 33).val
      ∧ decodeSym .t0 b0 = .stop (.raise .corruptStream) b0 ∧ decodeSym .t1 b0 = .stop (.raise .corruptStream) b0 :=
  ⟨rfl, b0_cursor, rfl, by decide, by decide, rfl, by decide, by decide, rfl, rfl⟩

/-- A core with an error pending. -/
def failing : State := { b0 with run := .error, err := some .unexpectedEnd, errOp := 2 }

theorem failing_data : failing.DataOk := { b0_data with }

theorem failing_inv : failing.Inv := quiet_inv failing_data (by decide) (fun h => by cases h) ⟨rfl, rfl, rfl⟩

/-- O37, O38: `IDLE` and `ERROR`; a write that is not `CLRERR`; a slot that may be read. -/
theorem witness_O37_O38 :
    b0.run = .idle ∧ failing.run = .error ∧ isCommand (.rdbits 1) = true ∧ Instr.rdbits 1 ≠ .clrerr
      ∧ ¬ ((0x02 : Nat) = 0 ∧ (7 : Word) = 0x0A000000)
      ∧ (({ failing with t0 := h1 } : State).slot ({ failing with t0 := h1 } : State).tSel).valid = true := by
  decide +kernel

/-- A `TREAD 0` that has been written and not begun. -/
def launching : State := { t3b with cmd := 0x06000000, run := .busy }

theorem launching_data : launching.DataOk := { loaded_data _ with }

/-- O39: a write waits at a busy core. -/
theorem witness_O39 :
    launching.run = .busy ∧ isCommand .align = true ∧ Instr.align.wf = true
      ∧ ({ launching with inputs := [.write 0x02 7] } : State).Inv
      ∧ ∃ t, step { launching with inputs := [.write 0x02 7] } = .next t :=
  ⟨rfl, rfl, rfl,
    quiet_inv { launching_data with } (by decide) (fun _ => rfl) ⟨rfl, rfl, rfl⟩, _, next_after (by decide +kernel)⟩

/-- O40: for each register with a bound the last legal value and the first illegal one. -/
theorem witness_O40 :
    b0.run = .idle ∧ b0.cfg.maxLevels ≤ 16 ∧ (0xFFFF : Word).toNat < 2 ^ b0.cfg.dimW ∧ 2 ^ b0.cfg.dimW ≤ (0x10000 : Word).toNat
      ∧ (16 : Word).toNat = (16 : Fin 17).val ∧ (16 : Fin 17).val ≤ b0.cfg.maxLevels ∧ 17 ≤ (17 : Word).toNat
      ∧ (0xFF : Word).toNat < 2 ^ 8 ∧ 2 ^ 8 ≤ (0x100 : Word).toNat ∧ (0x3FFF : Word).toNat < 2 ^ 14
      ∧ 2 ^ 14 ≤ (0x4000 : Word).toNat ∧ (15 : Fin 16).val < b0.cfg.maxLevels ∧ (31 : Word).toNat < 2 ^ 5
      ∧ 2 ^ 5 ≤ (32 : Word).toNat ∧ ({ b0 with idx := 16382 } : State).idx.toNat ≤ 16382
      ∧ 16382 < ({ b0 with idx := 16383 } : State).idx.toNat ∧ (2 : Word).toNat = SlotId.tmp.index ∧ 3 ≤ (3 : Word).toNat := by
  decide

/-- O41: a core that may be read, with a valid slot and with an invalid one, and with fewer than 16 levels. -/
theorem witness_O41 :
    b0.run ≠ .busy ∧ b0.cfg.maxLevels ≤ 16 ∧ (15 : Fin 16).val < b0.cfg.maxLevels ∧ (b0.slot b0.tSel).valid = false
      ∧ (({ b0 with t0 := h1 } : State).slot .t0).valid = true
      ∧ 0x20 + ({ Config.standard with maxLevels := 15 } : Config).maxLevels ≤ 0x2F := by decide +kernel

/-- O43: a busy core. -/
theorem witness_O43 : launching.run = .busy := rfl

/-- O45: vector U11, and an illegal operand. -/
theorem witness_O45 :
    State.reset.run = .idle ∧ encode (.rdbits 1) = .command 0x02000001 ∧ b0.DataOk
      ∧ (∃ u, exec (.rdbits 33) b0 = .next u ∧ u.run = .error)
      ∧ ∃ u, exec (.hbuild 0) b0 = .next u ∧ u.run = .error :=
  ⟨rfl, by decide, b0_data, ⟨_, next_after (by decide +kernel), by decide +kernel⟩, _, next_after (by decide +kernel),
    by decide +kernel⟩

/-- O46: an error pending, a command refused, `CLRERR` and reset. -/
theorem witness_O46 :
    ({ failing with inputs := [.write 0 0x02000001] } : State).Inv ∧ failing.err = some .unexpectedEnd
      ∧ (∃ u, step { failing with inputs := [.write 0 0x02000001] } = .next u)
      ∧ ({ failing with inputs := [.write 0 0x0A000000] } : State).Inv
      ∧ (∃ u, step { failing with inputs := [.write 0 0x0A000000] } = .next u)
      ∧ ∃ u, step { failing with inputs := [.reset] } = .next u :=
  ⟨quiet_inv { failing_data with } (by decide) (fun h => by cases h) ⟨rfl, rfl, rfl⟩, rfl, ⟨_, next_after (by decide +kernel)⟩,
    quiet_inv { failing_data with } (by decide) (fun h => by cases h) ⟨rfl, rfl, rfl⟩, ⟨_, next_after (by decide +kernel)⟩,
    _, next_after (by decide +kernel)⟩

/-- O51: a legal word, at a core in `IDLE`, under either size of step, and in `ERROR`. -/
theorem witness_O51 :
    decodeCommand 0x06000000 = .ok (.tread 0) ∧ decodeCommand 0x02000008 = .ok (.rdbits 8) ∧ b0.run ≠ .busy
      ∧ b0.cfg.grain = .whole ∧ b0.run = .idle ∧ failing.run = .error ∧ b0.trState = .idle ∧ b0.gtPhase = .start
      ∧ b0.upState = .idle ∧ ({ Config.standard with grain := .arrow } : Config).grain = .arrow := by decide

/-- A reader at step 4 with the items of vector T3b before it. -/
def reading : State := { running [0x40] 4 with tmp := slotOf t3Depths }

/-- O52: the code `0` of `LIT2` and then the code `1` of `SHORTREPEAT` lie at the cursor. -/
theorem witness_O52 :
    reading.cfg.grain = .whole ∧ reading.run = .busy ∧ reading.trState = .sym ∧ reading.ofs.toNat < reading.nsym.toNat
      ∧ reading.cursorOk ∧ reading.tmp.builtFor .tmp ∧ decodeSymbol 2 = .ok .lit2 ∧ reading.tmp.depthOf 2 ≠ 0
      ∧ reading.hasBits (reading.tmp.codeBits 2)
      ∧ ({ reading with brBit := 1, ofs := 1, lastnz := 2 } : State).hasBits (reading.tmp.codeBits 19) :=
  ⟨rfl, rfl, rfl, by decide, ⟨by decide, by decide, fun _ => rfl⟩, t3_built, rfl, by decide +kernel,
    ⟨by decide +kernel, by decide +kernel⟩, by decide +kernel, by decide +kernel⟩

/-- O55, O56: a state that meets the invariant and goes on; one in the middle of a record. -/
theorem witness_O55_O56 :
    ({ b0 with inputs := [.write 0 0x02000008] } : State).Inv
      ∧ (∃ u, step { b0 with inputs := [.write 0 0x02000008] } = .next u) ∧ reading.Inv
      ∧ ∃ u, step reading = .next u := by
  refine ⟨quiet_inv { b0_data with } (by decide) (fun _ => rfl) ⟨rfl, rfl, rfl⟩, ⟨_, next_after (by decide +kernel)⟩, ?_,
    _, next_after (by decide +kernel)⟩
  have hd := loaded_data [0x40]
  exact
    { data :=
        { hd with
          slots := fun t h => by
            cases t with
            | t0 => cases h
            | t1 => cases h
            | tmp => exact t3_built }
      errorIff := by decide
      errOpZero := fun _ => rfl
      notBusy := fun h => absurd rfl h
      inTable := fun _ =>
        { upIdle := rfl
          command := .inl ⟨by decide, rfl⟩
          begun := fun h => by rcases h with h | h | h <;> cases h
          tdepth := fun h => by cases h
          symbols := fun _ => ⟨by decide +kernel, by decide⟩
          param := fun h => by cases h
          fill := fun h => by cases h }
      inUnpack := fun h => absurd rfl h }

/-- O57, O58: cores whose steps are arrows, before a `TREAD 0`, a `GETTAB` and an `UNPACK 1`. -/
theorem witness_O57_O58 :
    ({ t3b with cfg := { Config.standard with grain := .arrow } } : State).DataOk
      ∧ ({ p3Read with cfg := { Config.standard with grain := .arrow } } : State).DataOk
      ∧ encode (.tread 0) = .command 0x06000000 ∧ encode .gettab = .command 0x07000000
      ∧ encode (.unpack 1) = .command 0x09000001
      ∧ (∃ u, exec (.tread 0) { t3b with cfg := { Config.standard with grain := .arrow } } = .next u ∧ u.run = .idle)
      ∧ (∃ u, exec .gettab { p3 with cfg := { Config.standard with grain := .arrow } } = .next u ∧ u.run = .idle)
      ∧ ∃ u, exec (.unpack 1) { p3Read with cfg := { Config.standard with grain := .arrow } } = .next u ∧ u.run = .idle := by
  have h1 := loaded_data [0x00, 0x10, 0x02, 0, 0, 0, 0, 0, 0x80, 0x02, 0x00]
  have h2 := p3Read_data
  exact ⟨{ h1 with cfgWf := by decide }, { h2 with cfgWf := by decide }, by decide, by decide, by decide,
    ⟨_, next_after (by decide +kernel), by decide +kernel⟩, ⟨_, next_after (by decide +kernel), by decide +kernel⟩, _,
    next_after (by decide +kernel), by decide +kernel⟩

/-- A temporary tree with the codes 00 of `LIT2`, 01 of `SHORTZERO` and 10 of `SHORTREPEAT`; 11 is no code. -/
def threeCodes : List Nat := [0, 0, 2] ++ List.replicate 14 0 ++ [2, 0, 2, 0]

def cutHeader : Header := { count := 4, fields := 21, tmpDepths := threeCodes, tree := slotOf threeCodes }

/-- The bits of that header and of some items. -/
def cutBits (items : List Item) : List Nat :=
  cutHeader.bits Config.standard ++ items.flatMap (Item.bits Config.standard (slotOf threeCodes))

/-- What O59 asks of a core in which `tail` follows the header and the items, but for what then happens. -/
def cutAt (items : List Item) (done tail : List Nat) : Prop :=
  (facing (cutBits items ++ tail)).run = .idle ∧ (facing (cutBits items ++ tail)).cursorOk
    ∧ itemsLegal Config.standard (slotOf threeCodes) items ∧ expandItems Config.standard 4 [] items = some done
    ∧ (facing (cutBits items ++ tail)).hasBits (cutBits items)

/-- The cursor after the items. -/
def cutEnd (items : List Item) (tail : List Nat) : State :=
  (facing (cutBits items ++ tail)).skipBits (cutBits items).length

/-- O59: a legal header, and each way to fail after it at a boundary: exactly `MAXLEN` bits without a code; one bit of a code;
one parameter bit too few; nothing to repeat; a run one entry too long; and an array that step 5 rejects. -/
theorem witness_O59 :
    cutHeader.legal Config.standard
      ∧ (cutAt [.literal 2] [2] [1, 1] ∧ (cutEnd [.literal 2] [1, 1]).breaksOff (slotOf threeCodes) 4 [2] 2 .corruptStream)
      ∧ (cutAt [.literal 2] [2] [0] ∧ (cutEnd [.literal 2] [0]).breaksOff (slotOf threeCodes) 4 [2] 1 .depthArrayUnderrun)
      ∧ (cutAt [.literal 2] [2] [0, 1, 0, 0]
        ∧ (cutEnd [.literal 2] [0, 1, 0, 0]).breaksOff (slotOf threeCodes) 4 [2] 2 .depthArrayUnderrun)
      ∧ (cutAt [] [] [1, 0, 1, 1] ∧ (cutEnd [] [1, 0, 1, 1]).breaksOff (slotOf threeCodes) 4 [] 4 .corruptStream)
      ∧ (cutAt [.literal 2] [2] [0, 1, 0, 0, 1]
        ∧ (cutEnd [.literal 2] [0, 1, 0, 0, 1]).breaksOff (slotOf threeCodes) 4 [2] 5 .depthArrayOverrun)
      ∧ cutAt [.escape 17 1] [0, 0, 0, 0] [] ∧ buildSlot [0, 0, 0, 0] = none := by
  unfold cutAt itemsLegal State.cursorOk State.breaksOff State.noCodeIn State.hasBits
  exact ⟨⟨by decide, by decide, ⟨by decide, by decide, by decide, by decide, by decide, by decide, by decide⟩,
      by decide +kernel⟩,
    ⟨by decide +kernel, .inl (by decide +kernel)⟩, ⟨by decide +kernel, .inr (.inl (by decide +kernel))⟩,
    ⟨by decide +kernel, .inr (.inr ⟨17, _, rfl, by decide +kernel, .inl (by decide +kernel)⟩)⟩,
    ⟨by decide +kernel, .inr (.inr ⟨19, _, rfl, by decide +kernel, .inr ⟨3, by decide +kernel, by decide +kernel,
      by decide +kernel, .inl (by decide +kernel)⟩⟩)⟩,
    ⟨by decide +kernel, .inr (.inr ⟨17, _, rfl, by decide +kernel, .inr ⟨1, by decide +kernel, by decide +kernel,
      by decide +kernel, .inr (by decide +kernel)⟩⟩)⟩,
    by decide +kernel, by decide +kernel⟩

/-- O60: a core between commands, after an error too, and a busy core at which a change of BUF waits. -/
theorem witness_O60 :
    b0.run ≠ .busy ∧ Memory.wf b0.buf = true ∧ failing.run ≠ .busy ∧ launching.run = .busy
      ∧ ({ launching with inputs := [.poke 0 7] } : State).Inv
      ∧ ∃ t, step { launching with inputs := [.poke 0 7] } = .next t :=
  ⟨by decide, image_wf 0 _, by decide, rfl, quiet_inv { launching_data with } (by decide) (fun _ => rfl) ⟨rfl, rfl, rfl⟩, _,
    next_after (by decide +kernel)⟩

end Sys2Proof.Tests
end

section
/-! The registers of the two state machines (10_state.md rule R43) seen as one piece of the state, and the operations of
the pseudocode that neither read nor write them. -/

namespace Sys2Proof.Machine

/-! ### The registers of the state machines -/

/-- What says where a running state machine is: the registers of rule R43 and the record of a `GETTAB`. -/
structure Scratch where
  trState  : TrState
  trK      : BitVec 5
  trSymReg : BitVec 5
  trRun    : BitVec 8
  trFillV  : BitVec 5
  gtPhase  : GtPhase
  upState  : UpState

def State.scratch (s : State) : Scratch :=
  { trState := s.trState, trK := s.trK, trSymReg := s.trSymReg, trRun := s.trRun, trFillV := s.trFillV,
    gtPhase := s.gtPhase, upState := s.upState }

/-- The data of `s`, with the state machines at the place c. -/
def State.withScratch (s : State) (c : Scratch) : State :=
  { s with trState := c.trState, trK := c.trK, trSymReg := c.trSymReg, trRun := c.trRun, trFillV := c.trFillV,
           gtPhase := c.gtPhase, upState := c.upState }

@[simp] theorem State.slot_withScratch (s : State) (c : Scratch) (t : SlotId) :
    (s.withScratch c).slot t = s.slot t := by cases t <;> rfl

theorem State.setSlot_withScratch (s : State) (c : Scratch) (t : SlotId) (x : Slot) :
    (s.withScratch c).setSlot t x = (s.setSlot t x).withScratch c := by cases t <;> rfl

theorem State.invalidate_withScratch (s : State) (c : Scratch) (t : SlotId) :
    (s.withScratch c).invalidate t = (s.invalidate t).withScratch c := by
  unfold State.invalidate
  rw [State.slot_withScratch, State.setSlot_withScratch]

theorem State.advance_withScratch (s : State) (c : Scratch) :
    (s.withScratch c).advance = s.advance.withScratch c := by
  show (if s.brBit = 7 then _ else _) = (if s.brBit = 7 then _ else _ : State).withScratch c
  split <;> rfl

/-! ### Operations blind to them -/

/-- The same answer, with the state machines at the place c. -/
def Res.withScratch {α : Type} (c : Scratch) : Res α → Res α
  | .ok a s => .ok a (s.withScratch c)
  | .stop x s => .stop x (s.withScratch c)

/-- The operation neither reads nor writes the registers of the state machines. -/
def Blind {α : Type} (op : State → Res α) : Prop := ∀ c s, op (s.withScratch c) = (op s).withScratch c

section
variable {α β γ : Type}

theorem Blind.ok {a : State → α} {h : State → State} (ha : ∀ c s, a (s.withScratch c) = a s)
    (hh : ∀ c s, h (s.withScratch c) = (h s).withScratch c) : Blind fun s => .ok (a s) (h s) := by
  intro c s
  show Res.ok _ _ = Res.ok _ _
  rw [ha, hh]

theorem Blind.stop (x : Stop) {h : State → State} (hh : ∀ c s, h (s.withScratch c) = (h s).withScratch c) :
    Blind (α := α) fun s => .stop x (h s) := by
  intro c s
  show Res.stop _ _ = Res.stop _ _
  rw [hh]

theorem Blind.raise (e : ErrorKind) : Blind (α := α) (raise e) := .stop _ fun _ _ => rfl

theorem Blind.bind {op : State → Res α} {f : α → State → Res β} (h : Blind op) (hf : ∀ a, Blind (f a)) :
    Blind fun s => (op s).bind f := by
  intro c s
  show (op (s.withScratch c)).bind f = ((op s).bind f).withScratch c
  rw [h c s]
  cases op s with
  | ok a s1 => exact hf a c s1
  | stop x s1 => rfl

theorem Blind.ite {P : State → Prop} [DecidablePred P] {f g : State → Res α} (hP : ∀ c s, P (s.withScratch c) ↔ P s)
    (hf : Blind f) (hg : Blind g) : Blind fun s => if P s then f s else g s := by
  intro c s
  show (if P (s.withScratch c) then _ else _) = (if P s then _ else _ : Res α).withScratch c
  by_cases h : P s
  · rw [if_pos ((hP c s).2 h), if_pos h]
    exact hf c s
  · rw [if_neg (fun h' => h ((hP c s).1 h')), if_neg h]
    exact hg c s

/-- An operation that is chosen by a part of the state. -/
theorem Blind.choose {p : State → γ} {op : γ → State → Res α} (hp : ∀ c s, p (s.withScratch c) = p s)
    (h : ∀ x, Blind (op x)) : Blind fun s => op (p s) s := by
  intro c s
  show op (p (s.withScratch c)) (s.withScratch c) = _
  rw [hp]
  exact h _ c s

theorem Blind.renaming {op : State → Res α} (h : Blind op) (e1 e2 : ErrorKind) :
    Blind fun s => (op s).renaming e1 e2 := by
  intro c s
  show (op (s.withScratch c)).renaming e1 e2 = ((op s).renaming e1 e2).withScratch c
  rw [h c s]
  rcases op s with ⟨a, s1⟩ | ⟨e | f, s1⟩
  · rfl
  · show (if e = e1 then _ else _ : Res α) = (if e = e1 then _ else _ : Res α).withScratch c
    split <;> rfl
  · rfl

end

/-! ### The bit reader and the decoder -/

theorem readBit_blind : Blind readBit :=
  .ite (fun _ _ => .rfl) (.ok (fun _ _ => rfl) fun c s => s.advance_withScratch c) (.stop _ fun _ _ => rfl)

theorem readLoop_blind (n k r : Nat) : Blind (readLoop n k r) := by
  induction n generalizing k r with
  | zero => exact .ok (fun _ _ => rfl) fun _ _ => rfl
  | succ n ih =>
    intro c s
    exact Blind.bind (f := fun b s' => readLoop n (k + 1) (joinBit s.cfg.bitOrder r k b) s') readBit_blind
      (fun b => ih _ _) c s

theorem readBits_blind (n : Nat) : Blind (readBits n) :=
  .ite (fun _ _ => .rfl) (.raise _) (readLoop_blind n 0 0)

theorem decodeLoop_blind (t : SlotId) (n len cand : Nat) : Blind (decodeLoop t n len cand) := by
  induction n generalizing len cand with
  | zero => exact .raise _
  | succ n ih =>
    refine .bind (readBits_blind 1) fun b => .choose (p := fun s => (s.slot t).lookup (len + 1) (2 * cand + b))
      (op := fun x s => match x with
        | some x => .ok x s
        | none => decodeLoop t n (len + 1) (2 * cand + b) s) (fun c s => by rw [s.slot_withScratch]) fun x => ?_
    cases x with
    | none => exact ih _ _
    | some x => exact .ok (fun _ _ => rfl) fun _ _ => rfl

theorem decodeSym_blind (t : SlotId) : Blind (decodeSym t) :=
  .choose (p := fun s => (s.slot t).maxlen.toNat) (op := fun n s => decodeLoop t n 0 0 s)
    (fun c s => by rw [s.slot_withScratch]) fun n => decodeLoop_blind t n 0 0

theorem build_blind (t : SlotId) (d : List Nat) : Blind (build t d) := by
  unfold build
  cases buildSlot d with
  | none => exact .stop _ fun c s => s.invalidate_withScratch c t
  | some x => exact .ok (fun _ _ => rfl) fun c s => s.setSlot_withScratch c t x

/-! ### The table reader -/

theorem readCount_blind : Blind readCount :=
  .bind (readBits_blind 14) fun n =>
    .ite (P := fun _ => n = 0) (fun _ _ => .rfl) (.stop _ fun _ _ => rfl) (.ok (fun _ _ => rfl) fun _ _ => rfl)

theorem readTmpDepth_blind (x : Nat) : Blind (readTmpDepth x) :=
  .choose (p := fun s => s.cfg.tmpDepthW)
    (op := fun w s => (readBits w s).bind fun v s' => .ok () { s' with td := Store.put s'.td x v }) (fun _ _ => rfl)
    fun w => .bind (readBits_blind w) fun _ => .ok (fun _ _ => rfl) fun _ _ => rfl

theorem readTmpFields_blind (xs : List Nat) : Blind (readTmpFields xs) := by
  induction xs with
  | nil => exact .ok (fun _ _ => rfl) fun _ _ => rfl
  | cons x xs ih => exact .bind (readTmpDepth_blind x) fun _ => ih

theorem clearTmpDepths_withScratch (s : State) (c : Scratch) :
    clearTmpDepths (s.withScratch c) = (clearTmpDepths s).withScratch c := by
  simp only [clearTmpDepths, State.withScratch]

theorem readTmpDepths_blind : Blind readTmpDepths := by
  refine .ite (fun _ _ => .rfl) (readTmpFields_blind _) fun c s => ?_
  rw [clearTmpDepths_withScratch]
  exact Blind.bind (readBits_blind s.cfg.tmpCountW) (fun n =>
    .ite (P := fun _ => n = 0 ∨ tmpNsym < n) (fun _ _ => .rfl) (.raise _) (readTmpFields_blind _)) c (clearTmpDepths s)

theorem buildTmp_blind : Blind buildTmp :=
  .choose (p := State.tdList) (op := build .tmp) (fun _ _ => rfl) fun d => build_blind .tmp d

theorem fetchSymbol_blind : Blind fetchSymbol := (decodeSym_blind .tmp).renaming _ _

theorem readRun_blind (e : Escape) : Blind (readRun e) :=
  .bind ((readBits_blind e.width).renaming _ _) fun _ =>
    .ite (fun _ _ => .rfl) (.raise _) (.ite (fun _ _ => .rfl) (.raise _) (.ok (fun _ _ => rfl) fun _ _ => rfl))

theorem gettabSeek_blind : Blind gettabSeek := by
  have h : ∀ (c : Scratch) (s : State), ((s.withScratch c).invalidate .t0).invalidate .t1
      = ((s.invalidate .t0).invalidate .t1).withScratch c :=
    fun c s => by rw [s.invalidate_withScratch, State.invalidate_withScratch]
  exact .ite (P := fun s => s.bufLen.toNat < s.tableOfs.toNat) (fun _ _ => .rfl) (.stop _ h)
    (.ok (h := fun s => ((s.invalidate .t0).invalidate .t1).seekTo s.tableOfs s.bufLen) (fun _ _ => rfl)
      fun c s => by rw [h]; rfl)

/-! ### The unpacker -/

theorem unpackCheck_blind (i : Nat) : Blind (unpackCheck i) := by
  intro c s
  show unpackCheck i (s.withScratch c) = _
  have hd : levelDims (s.withScratch c) i = levelDims s i := rfl
  unfold unpackCheck
  rw [hd]
  rcases levelDims s i with _ | ⟨w, h⟩
  · rfl
  · simp only
    rw [show (s.withScratch c).fmt = s.fmt from rfl]
    cases blockBytes s.fmt.toNat with
    | none => rfl
    | some b =>
      exact Blind.ite (P := fun s => s.t0.valid = false ∨ s.cfg.expand.usesAux = true ∧ s.t1.valid = false)
        (fun _ _ => .rfl) (.raise _) (.ite (P := fun s => s.bufLen.toNat < (s.levelOfs i).toNat + (s.levelSize i).toNat)
          (fun _ _ => .rfl) (.raise _) (.ok (a := fun _ => ()) (h := fun s =>
          { s with liW := BitVec.ofNat 16 w, liH := BitVec.ofNat 16 h, expLen := BitVec.ofNat 33 (expLenOf w h b) })
          (fun _ _ => rfl) fun _ _ => rfl)) c s

theorem unpackDecode_blind : Blind unpackDecode := .ite (fun _ _ => .rfl) (.raise _) (decodeSym_blind .t0)

theorem runExpand_blind {aux : Bool} (p : ExpandProg aux) : Blind (runExpand p) := by
  induction p with
  | done bs ctx => exact .ok (fun _ _ => rfl) fun _ _ => rfl
  | expandError => exact .raise _
  | readBits n k ih => exact .bind (readBits_blind _) ih
  | decodeMain k ih => exact .bind (decodeSym_blind .t0) ih
  | decodeAux _ k ih => exact .bind (decodeSym_blind .t1) ih

theorem expandSym_blind (x : Nat) : Blind (expandSym x) := by
  intro c s
  unfold expandSym
  rw [show (s.withScratch c).cfg = s.cfg from rfl]
  cases s.cfg.expand with
  | literal => exact runExpand_blind _ c s
  | other id aux ctx0 => exact runExpand_blind _ c s

theorem unpackExpand_blind (x : Nat) : Blind (unpackExpand x) :=
  .bind (expandSym_blind x) fun _ => .ite (fun _ _ => .rfl) (.raise _) (.ok (fun _ _ => rfl) fun _ _ => rfl)

end Sys2Proof.Machine
end

section
/-! How a run of arrows is compared with a whole command: from an outcome of an arrow the steps that follow lead where
the command leads. -/

namespace Sys2Proof.Machine

/-- Where the whole command answers the state u, the arrow answers a state from which some steps reach a state that R
relates to u. -/
def Ends (R : State → State → Prop) (arrow command : Out) : Prop :=
  ∀ u, command = .next u → ∃ m n v, arrow = .next m ∧ runSteps n m = some v ∧ R u v

section
variable {R : State → State → Prop}

theorem Ends.here {u v : State} (h : R u v) : Ends R (.next v) (.next u) := by
  intro u' hu
  cases hu
  exact ⟨v, 0, v, rfl, rfl, h⟩

theorem Ends.step {m : State} {o : Out} (h : Ends R (step m) o) : Ends R (.next m) o := by
  intro u hu
  obtain ⟨m', n, v, hm, hn, hv⟩ := h u hu
  exact ⟨m, n + 1, v, rfl, by rw [runSteps, hm]; exact hn, hv⟩

@[simp] theorem endArrow_next (s : State) : endArrow (.ok false s) = .next s := rfl

/-- An arrow that begins with the operation with which the rest of the command begins: both go on alike from what the
operation answers. K is what the command makes of the answer of its rest. -/
theorem Ends.bind {α β : Type} {op : State → Res α} {s : State} {Q : α → State → Prop} {E : ErrorKind → State → Prop}
    {c : Scratch} {f : α → State → Res Bool} {k : α → State → Res β} {K : Res β → Out} (hb : Blind op)
    (hm : (op s).Meets Q E) (hok : ∀ a s1, Q a s1 → Ends R (endArrow (f a (s1.withScratch c))) (K (k a s1)))
    (herr : ∀ e s1, E e s1 → Ends R (failCommand e (s1.withScratch c)) (K (raise e s1))) :
    Ends R (endArrow ((op (s.withScratch c)).bind f)) (K ((op s).bind k)) := by
  rw [hb c s]
  rcases hm.ends with ⟨a, s1, he, hq⟩ | ⟨e, s1, he, hq⟩ <;> rw [he]
  · exact hok a s1 hq
  · exact herr e s1 hq

end

/-! ### Steps of a running command -/

/-- A running command with word w, where steps are arrows and the host leaves it alone. -/
structure State.Running (w : Word) (s : State) : Prop where
  run    : s.run = .busy
  inputs : s.inputs = []
  grain  : s.cfg.grain = .arrow
  cmd    : s.cmd = w

theorem State.Running.withScratch {w : Word} {s : State} (h : s.Running w) (c : Scratch) :
    (s.withScratch c).Running w :=
  ⟨h.run, h.inputs, h.grain, h.cmd⟩

theorem State.Running.opByte_withScratch {op a : BitVec 8} {s : State} (h : s.Running (commandWord op a))
    (c : Scratch) : opByte (s.withScratch c).cmd = op := by
  rw [(h.withScratch c).cmd, opByte_commandWord]

/-- What a busy core does with nothing in the host's queue (70_reset_and_hazards.md rule R246). -/
theorem State.Running.step_eq {w : Word} {m : State} (h : m.Running w) : step m = busyStep m := by
  unfold step hostStep
  rw [h.inputs]
  exact if_pos h.run

/-- The write of a command word, where steps are arrows, only sets `BUSY` (30_encoding.md rule R80). -/
theorem step_write {i : Instr} {w : Word} {s : State} (hw : decodeCommand w = .ok i) (hr : s.run = .idle)
    (hg : s.cfg.grain = .arrow) (hi : s.inputs = []) :
    step { s with inputs := [.write 0 w] } = .next (s.launched w) := by
  have hidle : s.run ≠ .busy := by
    rw [hr]
    decide
  show (if s.run = .busy then _ else commandWrite w { s with inputs := [] }) = _
  rw [if_neg hidle]
  unfold commandWrite
  rw [hw]
  show (if s.cfg.grain = .arrow ∧ s.run = .idle then _ else _) = _
  rw [if_pos ⟨hg, hr⟩, ← hi]
  rfl

/-- A command that is compared with its arrows, from the write of `CMD` on. -/
theorem Ends.launch {R : State → State → Prop} {i : Instr} {w : Word} {body : State → Res Unit} {s u : State}
    (hw : decodeCommand w = .ok i) (hr : s.run = .idle) (hg : s.cfg.grain = .arrow) (hi : s.inputs = [])
    (h : Ends R (.next (s.launched w)) (finish (body (s.launched w)))) (hu : launch w body s = .next u) :
    ∃ n v, runSteps n { s with inputs := [.write 0 w] } = some v ∧ R u v := by
  rw [← step_write hw hr hg hi, ← launch_idle hr] at h
  obtain ⟨m, n, v, hm, hn, hv⟩ := h u hu
  exact ⟨n + 1, v, by rw [runSteps, hm]; exact hn, hv⟩

end Sys2Proof.Machine
end

section
/-! `UNPACK` arrow by arrow (43_level_unpacker.md rule R191) ends as the whole command does. -/

namespace Sys2Proof.Machine

/-- The same place, with `UP_STATE` at x. -/
def Scratch.up (c : Scratch) (x : UpState) : Scratch := { c with upState := x }

/-- The data of a state in the middle of `UNPACK k`, where the registers of the state machines hold c but for
`UP_STATE`. -/
structure State.Unpacking (k : BitVec 8) (c : Scratch) (s : State) : Prop where
  running    : s.Running (commandWord 0x09 k)
  data       : s.DataOk
  scratch    : s.scratch = c
  trIdle     : c.trState = .idle
  gtStart    : c.gtPhase = .start
  outInvalid : s.outValid = false

/-- What the command makes of the answer of `UnpackBody` (rule R184): all or nothing. -/
def unpackEnd (r : Res Unit) : Out :=
  finish ((r.onError fun s => { s with outLen := 0 }).bind fun _ s => .ok () { s with outValid := true })

section
variable {k : BitVec 8} {c : Scratch} {s : State}

theorem State.Unpacking.keep {s' : State} (h : s.Unpacking k c) (hs : UnpackStep s s') (hv : s'.outValid = false) :
    s'.Unpacking k c where
  running :=
    { run := (State.field_of_sansUnpack State.run hs.frame).trans h.running.run
      inputs := (State.field_of_sansUnpack State.inputs hs.frame).trans h.running.inputs
      grain := (State.field_of_sansUnpack (fun u => u.cfg.grain) hs.frame).trans h.running.grain
      cmd := (State.field_of_sansUnpack State.cmd hs.frame).trans h.running.cmd }
  data := hs.data
  scratch := (State.field_of_sansUnpack State.scratch hs.frame).trans h.scratch
  trIdle := h.trIdle
  gtStart := h.gtStart
  outInvalid := hv

theorem decodeCommand_unpack (k : BitVec 8) : decodeCommand (commandWord 0x09 k) = .ok (.unpack k) := by
  unfold decodeCommand
  rw [zField_commandWord, opByte_commandWord, aByte_commandWord]
  rfl

/-- A step of a running `UNPACK` is an arrow of rule R191. -/
theorem step_unpackArrow {m : State} (h : m.Running (commandWord 0x09 k)) (htr : m.trState = .idle)
    (hgt : m.gtPhase = .start) : step m = unpackArrow m := by
  have hnot : ¬ (m.trState ≠ .idle ∨ m.gtPhase ≠ .start) := by
    rintro (hn | hn)
    · exact hn htr
    · exact hn hgt
  rw [h.step_eq, busyStep, if_neg hnot]
  by_cases hx : m.upState = .idle
  · rw [if_neg (fun hn => hn hx), beginCommand, h.cmd, decodeCommand_unpack]
    exact if_pos h.grain
  · exact if_pos hx

/-- From a state in the middle of `UNPACK` the next step is the next arrow. -/
theorem State.Unpacking.ends {o : Out} (h : s.Unpacking k c) (x : UpState)
    (he : Ends Eq (unpackArrow (s.withScratch (c.up x))) o) : Ends Eq (.next (s.withScratch (c.up x))) o := by
  refine .step ?_
  rwa [step_unpackArrow (h.running.withScratch (c.up x)) h.trIdle h.gtStart]

theorem State.Unpacking.level_eq (h : s.Unpacking k c) (x : UpState) :
    (s.withScratch (c.up x)).unpackLevel = k.toNat := by
  rw [State.unpackLevel, (h.running.withScratch _).cmd, aByte_commandWord]

/-! ### The arrows of rule R191 -/

theorem unpackArrow_idle {m : State} (h : m.upState = .idle) :
    unpackArrow m = .next { beginUnpack m with upState := .check } := by
  rw [unpackArrow, unpackArrowRes, h]
  rfl

theorem unpackArrow_check {m : State} (h : m.upState = .check) :
    unpackArrow m
      = endArrow ((unpackCheck m.unpackLevel m).bind fun _ s' => .ok false { s' with upState := .seek }) := by
  rw [unpackArrow, unpackArrowRes, h]

theorem unpackArrow_seek {m : State} (h : m.upState = .seek) :
    unpackArrow m = .next { unpackSeek m.unpackLevel m with upState := .decode } := by
  rw [unpackArrow, unpackArrowRes, h]
  rfl

theorem unpackArrow_decode {m : State} (h : m.upState = .decode) (hlt : m.outLen.toNat < m.expLen.toNat) :
    unpackArrow m = endArrow ((unpackDecode m).bind fun x s' => .ok false { s' with upState := .expand x }) := by
  rw [unpackArrow, unpackArrowRes, h]
  exact congrArg endArrow (if_pos hlt)

theorem unpackArrow_decode_last {m : State} (h : m.upState = .decode) (hge : ¬ m.outLen.toNat < m.expLen.toNat) :
    unpackArrow m = .next { m with upState := .done } := by
  rw [unpackArrow, unpackArrowRes, h]
  exact congrArg endArrow (if_neg hge)

theorem unpackArrow_expand {m : State} {x : Nat} (h : m.upState = .expand x) :
    unpackArrow m = endArrow ((unpackExpand x m).bind fun bs s' => .ok false { s' with upState := .emit bs }) := by
  rw [unpackArrow, unpackArrowRes, h]

theorem unpackArrow_emit_nil {m : State} (h : m.upState = .emit []) :
    unpackArrow m = .next { m with upState := .decode } := by
  rw [unpackArrow, unpackArrowRes, h]
  rfl

theorem unpackArrow_emit_cons {m : State} {b : Byte} {bs : List Byte} (h : m.upState = .emit (b :: bs)) :
    unpackArrow m = .next { m.outAppend b with upState := .emit bs } := by
  rw [unpackArrow, unpackArrowRes, h]
  rfl

theorem unpackArrow_done {m : State} (h : m.upState = .done) :
    unpackArrow m = .next ({ m with outValid := true } : State).complete := by
  rw [unpackArrow, unpackArrowRes, h]
  rfl

/-! ### The command and its arrows go on alike -/

/-- What an error in the middle of `UNPACK` undoes (rule R191). -/
theorem undoOnError_unpack {m : State} (h : opByte m.cmd = 0x09) : undoOnError m = { m with outLen := 0 } := by
  unfold undoOnError
  rw [h]
  rfl

/-- An error in the middle of `UNPACK` (rules R184 and R191). -/
theorem State.Unpacking.fails (h : s.Unpacking k c) (x : UpState) (e : ErrorKind) :
    Ends Eq (failCommand e (s.withScratch (c.up x))) (unpackEnd (raise e s)) := by
  rw [failCommand, undoOnError_unpack (h.running.opByte_withScratch _)]
  have hc := h.scratch
  subst hc
  exact .here rfl

theorem State.Unpacking.append (h : s.Unpacking k c) {bs : List Byte}
    (hlen : s.outLen.toNat + bs.length ≤ s.expLen.toNat) : (s.outAppendAll bs).Unpacking k c := by
  refine h.keep (outAppendAll_step h.data hlen h.outInvalid).1 ?_
  rw [State.outAppendAll_frame]
  exact h.outInvalid

theorem State.rem_outAppendAll (s : State) (bs : List Byte) : (s.outAppendAll bs).rem = s.rem := by
  rw [State.outAppendAll_frame]
  rfl

/-- `UP_EMIT`: the bytes of an expansion are appended one an arrow. -/
theorem ends_emit {o : Out} (bs : List Byte) (h : s.Unpacking k c)
    (hlen : s.outLen.toNat + bs.length ≤ s.expLen.toNat)
    (ho : Ends Eq (.next ((s.outAppendAll bs).withScratch (c.up .decode))) o) :
    Ends Eq (.next (s.withScratch (c.up (.emit bs)))) o := by
  induction bs generalizing s with
  | nil =>
    refine h.ends _ ?_
    rw [unpackArrow_emit_nil rfl]
    exact ho
  | cons b bs ih =>
    rw [List.length_cons] at hlen
    have hl : s.outLen.toNat + [b].length ≤ s.expLen.toNat := by
      rw [List.length_singleton]
      omega
    have hout : (s.outAppend b).outLen.toNat = s.outLen.toNat + 1 := (outAppendAll_step h.data hl h.outInvalid).2
    refine h.ends _ ?_
    rw [unpackArrow_emit_cons rfl]
    refine ih (s := s.outAppend b) (h.append hl) ?_ ho
    rw [hout, State.outAppend_expLen]
    omega

/-- `UP_EXPAND` and `UP_EMIT`: the expansion of a symbol, where what follows goes on alike. -/
theorem ends_expand (x : Nat) (h : s.Unpacking k c) {rest : State → Res Unit}
    (hk : ∀ s1, s1.Unpacking k c → s1.rem ≤ s.rem →
      Ends Eq (.next (s1.withScratch (c.up .decode))) (unpackEnd (rest s1))) :
    Ends Eq (.next (s.withScratch (c.up (.expand x))))
      (unpackEnd ((unpackExpand x s).bind fun bs s1 => rest (s1.outAppendAll bs))) := by
  refine h.ends _ ?_
  rw [unpackArrow_expand rfl]
  refine .bind (unpackExpand_blind x) (unpackExpand_meets x h.data) (fun bs s1 ⟨hex, hlen⟩ => ?_)
    fun e s1 ⟨_, hs, _, hv⟩ => (h.keep hs (hv.trans h.outInvalid)).fails _ e
  have hs := UnpackStep.expanded h.data hex
  obtain ⟨hv1, hlen1, hrem1⟩ :
      s1.outValid = false ∧ s1.outLen.toNat + bs.length ≤ s1.expLen.toNat ∧ s1.rem ≤ s.rem := by
    obtain ⟨j, ctx, hj, rfl⟩ := hex
    exact ⟨h.outInvalid, hlen, (s.rem_skipBits h.data.cursor hj).trans_le (Nat.sub_le _ _)⟩
  have h1 := h.keep hs hv1
  refine ends_emit (s := s1) (c := c) bs h1 hlen1 (hk _ (h1.append hlen1) ?_)
  rwa [State.rem_outAppendAll]

/-- The loop of rule R185, from `UP_DECODE` to the end of the command. -/
theorem ends_unpackLoop (n : Nat) (h : s.Unpacking k c) (hn : s.rem < n) :
    Ends Eq (.next (s.withScratch (c.up .decode))) (unpackEnd (unpackLoop n s)) := by
  induction n generalizing s with
  | zero => omega
  | succ n ih =>
    refine h.ends _ ?_
    by_cases hlt : s.outLen.toNat < s.expLen.toNat
    · have hmoved : ∀ {s1 : State}, s1.MovedFrom s → s1.Unpacking k c := by
        rintro _ ⟨j, hj, rfl⟩
        exact h.keep (.moved h.data ⟨j, hj, rfl⟩) h.outInvalid
      rw [unpackArrow_decode (m := s.withScratch (c.up .decode)) rfl hlt, unpackLoop, if_pos hlt]
      exact .bind unpackDecode_blind (unpackDecode_meets h.data)
        (fun x s1 ⟨hmv, hrem⟩ => ends_expand (s := s1) (c := c) x (hmoved hmv)
          fun s2 h2 hrem2 => ih h2 (by omega))
        fun e s1 ⟨_, hmv⟩ => (hmoved hmv).fails _ e
    · rw [unpackArrow_decode_last (m := s.withScratch (c.up .decode)) rfl hlt, unpackLoop, if_neg hlt]
      refine h.ends .done ?_
      rw [unpackArrow_done rfl]
      have hc := h.scratch
      subst hc
      exact .here rfl

/-- `UNPACK` from its second arrow on: the pre-checks, the cursor and the loop. -/
theorem ends_unpackInner (h : s.Unpacking k c) (ho : s.outLen = 0) :
    Ends Eq (.next (s.withScratch (c.up .check))) (unpackEnd (unpackInner k.toNat s)) := by
  have hm : (unpackCheck k.toNat s).Meets
      (fun _ s1 => s1.Unpacking k c ∧ (s1.levelOfs k.toNat).toNat + (s1.levelSize k.toNat).toNat ≤ s1.bufLen.toNat)
      (fun _ s1 => s1.Unpacking k c) := by
    rcases unpackCheck_cases k.toNat s with
      ⟨-, he⟩ | ⟨-, -, he⟩ | ⟨-, -, -, he⟩ | ⟨-, -, -, -, he⟩ | ⟨b, -, hb, -, hw, he⟩ <;> rw [he]
    · exact h
    · exact h
    · exact h
    · exact h
    · exact ⟨h.keep (checked_step h.data ho h.outInvalid hb).1 h.outInvalid, hw⟩
  refine h.ends _ ?_
  rw [unpackArrow_check rfl, h.level_eq]
  refine .bind (unpackCheck_blind _) hm (fun _ s1 ⟨h1, hw⟩ => ?_) fun e s1 h1 => h1.fails _ e
  refine h1.ends .seek ?_
  rw [unpackArrow_seek rfl, h1.level_eq]
  exact ends_unpackLoop (s := unpackSeek k.toNat s1) (c := c) _ (h1.keep (unpackSeek_step h1.data hw) h1.outInvalid)
    (Nat.lt_succ_self _)

/-- `UNPACK` from its first arrow on. -/
theorem ends_unpack (h : s.Running (commandWord 0x09 k)) (hd : s.DataOk) (htr : s.trState = .idle)
    (hgt : s.gtPhase = .start) (hup : s.upState = .idle) : Ends Eq (.next s) (finish (unpackBody k.toNat s)) := by
  have hs := beginUnpack_step hd
  refine .step ?_
  rw [step_unpackArrow h htr hgt, unpackArrow_idle hup]
  exact ends_unpackInner (s := beginUnpack s) (c := s.scratch)
    ⟨⟨h.run, h.inputs, h.grain, h.cmd⟩, hs.data, rfl, htr, hgt, rfl⟩ rfl

end

end Sys2Proof.Machine

open Sys2Proof Sys2Proof.Machine

/-- Settles O58: at each arrow of rule R191 the rest of the command and the rest of the arrows go on alike. -/
theorem unpackArrowsAgreeWithTheCommand : Obligations.UnpackArrowsAgreeWithTheCommand := by
  intro k w s u hw hd hr htr hgt hup hg hi hu
  obtain rfl : commandWord 0x09 k = w := Code.command.inj hw
  have hrun : (s.launched (commandWord 0x09 k)).Running (commandWord 0x09 k) := ⟨rfl, hi, hg, rfl⟩
  obtain ⟨n, v, hn, rfl⟩ := Ends.launch (decodeCommand_unpack k) hr hg hi (ends_unpack hrun { hd with } htr hgt hup) hu
  exact ⟨n, hn⟩

end

section
/-! `TREAD t` and `GETTAB` arrow by arrow (42_table_reader.md rules R164 and R166) end as the whole commands do. -/

namespace Sys2Proof.Machine

/-- The states agree apart from the scratch registers of the table reader (10_state.md rule R43). -/
def SameData (u v : State) : Prop :=
  u = { v with trK := u.trK, trSymReg := u.trSymReg, trRun := u.trRun, trFillV := u.trFillV }

/-- The place of a table reader in state x, at the record p of a `GETTAB`. -/
structure Scratch.At (c : Scratch) (p : GtPhase) (x : TrState) : Prop where
  phase : c.gtPhase = p
  state : c.trState = x
  up    : c.upState = .idle

/-- The command words of the table reader (30_encoding.md rule R82). -/
def readsTable (w : Word) : Prop := (∃ t, decodeCommand w = .ok (.tread t)) ∨ decodeCommand w = .ok .gettab

/-- The data of a state in the middle of a record for slot t. -/
structure State.InRecord (w : Word) (t : SlotId) (s : State) : Prop where
  running : s.Running w
  data    : s.DataOk
  invalid : (s.slot t).valid = false

theorem Res.bind_assoc {α β γ : Type} (r : Res α) (f : α → State → Res β) (g : β → State → Res γ) :
    (r.bind f).bind g = r.bind fun a s => (f a s).bind g := by cases r <;> rfl

theorem Res.bind_unit (r : Res Unit) : (r.bind fun _ s => .ok () s) = r := by cases r <;> rfl

section
variable {w : Word} {t : SlotId} {p : GtPhase} {s s1 : State} {c : Scratch} {x : TrState} {o : Out}

theorem State.Running.table (h : s.Running w) (hs : TableStep s s1) : s1.Running w where
  run := (hs.field State.run).trans h.run
  inputs := (hs.field State.inputs).trans h.inputs
  grain := (hs.field fun u => u.cfg.grain).trans h.grain
  cmd := (hs.field State.cmd).trans h.cmd

theorem State.InRecord.keep (h : s.InRecord w t) (hs : ReaderStep t s s1) (ht : s1.slot t = s.slot t) :
    s1.InRecord w t where
  running := h.running.table hs.table
  data := hs.data
  invalid := by rw [ht]; exact h.invalid

/-! ### A step is an arrow -/

theorem step_tableArrow {m : State} (h : m.Running w) (hw : readsTable w) (hu : m.upState = .idle) :
    step m = tableArrow m := by
  have hat : m.atSymbol = false := by simp [State.atSymbol, h.grain]
  rw [h.step_eq, busyStep, hat]
  by_cases hbegun : m.trState ≠ .idle ∨ m.gtPhase ≠ .start
  · rw [if_pos hbegun]
    rfl
  · rw [if_neg hbegun, if_neg (fun hn => hn hu), beginCommand, h.cmd]
    rcases hw with ⟨t, ht⟩ | ht <;> rw [ht] <;> exact if_pos h.grain

theorem tableArrow_idle {m : State} (h : m.trState = .idle) : tableArrow m = endArrow (trIdleArrow m) := by
  rw [tableArrow, h]

theorem tableArrow_count {m : State} (h : m.trState = .count) : tableArrow m = endArrow (trCountArrow m) := by
  rw [tableArrow, h]

theorem tableArrow_tdepth {m : State} (h : m.trState = .tdepth) : tableArrow m = endArrow (trTdepthArrow m) := by
  rw [tableArrow, h]

theorem tableArrow_tbuild {m : State} (h : m.trState = .tbuild) : tableArrow m = endArrow (trTbuildArrow m) := by
  rw [tableArrow, h]

theorem tableArrow_sym {m : State} (h : m.trState = .sym) : tableArrow m = endArrow (trSymArrow m) := by
  rw [tableArrow, h]

theorem tableArrow_param {m : State} (h : m.trState = .param) : tableArrow m = endArrow (trParamArrow m) := by
  rw [tableArrow, h]

theorem tableArrow_fill {m : State} (h : m.trState = .fill) : tableArrow m = endArrow (trFillArrow m) := by
  rw [tableArrow, h]

theorem tableArrow_mbuild {m : State} (h : m.trState = .mbuild) : tableArrow m = endArrow (trMbuildArrow m) := by
  rw [tableArrow, h]

/-- From a state in the middle of a table command the next step is the next arrow. -/
theorem State.Running.ends {R : State → State → Prop} (h : s.Running w) (hw : readsTable w) (hc : c.At p x)
    (he : Ends R (tableArrow (s.withScratch c)) o) : Ends R (.next (s.withScratch c)) o := by
  refine .step ?_
  rwa [step_tableArrow (h.withScratch c) hw hc.up]

end

/-! ### The arrows of one record -/

/-- How a command with word w uses its record for slot t, read at the record p of a `GETTAB`: K is what the command
makes of the record's answer. An error in the record and the end of the record lead where K leads. -/
structure RecordEnd (w : Word) (t : SlotId) (p : GtPhase) (K : Res Unit → Out) : Prop where
  word   : readsTable w
  notTmp : t ≠ .tmp
  slot   : ∀ m : State, m.cmd = w → m.gtPhase = p → m.recordSlot = some t
  fails  : ∀ e s c, State.InRecord w t s → Ends SameData (failCommand e (s.withScratch c)) (K (raise e s))
  done   : ∀ s c, State.Running w s → s.DataOk → c.At p .mbuild →
    Ends SameData (endArrow
      (if p = .first then .ok false (s.withScratch { c with trState := .idle, gtPhase := .second })
      else .ok true (s.withScratch c))) (K (.ok () s))

section
variable {w : Word} {t : SlotId} {p : GtPhase} {K : Res Unit → Out} {s : State} {c : Scratch}

/-- `TR_MBUILD`. -/
theorem ends_mbuild (hK : RecordEnd w t p K) (h : s.InRecord w t) (hc : c.At p .mbuild) :
    Ends SameData (.next (s.withScratch c)) (K (build t s.daList s)) := by
  refine h.running.ends hK.word hc ?_
  have hlen : if t = .tmp then s.daList.length = tmpNsym else s.daList.length ≤ daSize := by
    rw [if_neg hK.notTmp, length_daList]
    exact nsym_le s
  rw [tableArrow_mbuild hc.state, trMbuildArrow, hK.slot (s.withScratch c) h.running.cmd hc.phase,
    ← Res.bind_unit (build t s.daList s)]
  refine .bind (build_blind t s.daList) (build_meets (t := t) (.inl rfl) h.data hlen) ?_ ?_
  · rintro _ s1 ⟨hs, -, -, -⟩
    have hp : (s1.withScratch c).gtPhase = p := hc.phase
    simp only [hp]
    exact hK.done s1 c (h.running.table hs.table) hs.data hc
  · rintro e s1 ⟨-, hs, rfl⟩
    exact hK.fails e _ c ⟨h.running.table hs.table, hs.data, by rw [State.invalidate, State.slot_setSlot_self]⟩

@[simp] theorem State.filled_zero (s : State) (e : Escape) : s.filled e 0 = s := by
  simp [State.filled, Store.putRun]

theorem toNat_ofs_succ {s : State} (h : s.ofs.toNat < s.nsym.toNat) : (s.ofs + 1).toNat = s.ofs.toNat + 1 := by
  have h1 := s.nsym.isLt
  rw [BitVec.toNat_add]
  exact Nat.mod_eq_of_lt (show s.ofs.toNat + 1 < 2 ^ 14 by omega)

/-- A run is its first entry and the run that is left. -/
theorem State.filled_succ (s : State) (e : Escape) (n : Nat) (ho : s.ofs.toNat < s.nsym.toNat) :
    s.filled e (n + 1)
      = ({ s with da := Store.put s.da s.ofs.toNat (e.value s), ofs := s.ofs + 1 } : State).filled e n := by
  have hsum : s.ofs + 1 + BitVec.ofNat 14 n = s.ofs + BitVec.ofNat 14 (n + 1) := by
    rw [BitVec.add_assoc, Nat.add_comm n 1, BitVec.ofNat_add, BitVec.ofNat_eq_ofNat]
  unfold State.filled
  simp only [toNat_ofs_succ ho, hsum, Store.putRun]
  rfl

/-- `TR_FILL`: the entries of a run are written one an arrow. -/
theorem ends_fill {R : State → State → Prop} {o : Out} (e : Escape) (run : Nat) (h : s.Running w) (hw : readsTable w)
    (hroom : s.ofs.toNat + run ≤ s.nsym.toNat) (hrun : run ≤ 255) (hc : c.At p (if run = 0 then .sym else .fill))
    (hr : c.trRun = BitVec.ofNat 8 run) (hv : c.trFillV = e.value s)
    (hk : ∀ c1, c1.At p .sym → Ends R (.next ((s.filled e run).withScratch c1)) o) :
    Ends R (.next (s.withScratch c)) o := by
  induction run generalizing s c with
  | zero => simpa using hk c hc
  | succ n ih =>
    have hn : c.trRun.toNat = n + 1 := by rw [hr, BitVec.toNat_ofNat]; omega
    have hlt : s.ofs.toNat < s.nsym.toNat := by omega
    have hgo : (s.withScratch c).ofs.toNat < (s.withScratch c).nsym.toNat ∧ 0 < (s.withScratch c).trRun.toNat :=
      ⟨hlt, show 0 < c.trRun.toNat by omega⟩
    have hofs : (s.ofs + 1).toNat = s.ofs.toNat + 1 := toNat_ofs_succ hlt
    refine h.ends hw hc ?_
    rw [tableArrow_fill hc.state, trFillArrow, if_pos hgo, endArrow_next,
      show (s.withScratch c).trFillV = e.value s from hv]
    refine ih (s := { s with da := Store.put s.da s.ofs.toNat (e.value s), ofs := s.ofs + 1 })
      (c := { c with
        trRun := c.trRun - 1, trFillV := e.value s, trState := if c.trRun.toNat = 1 then .sym else .fill })
      ⟨h.run, h.inputs, h.grain, h.cmd⟩ ?_ (by omega) ⟨hc.phase, ?_, hc.up⟩ ?_ rfl fun c1 hc1 => ?_
    · show (s.ofs + 1).toNat + n ≤ s.nsym.toNat
      omega
    · simp only [hn, Nat.add_eq_right]
    · show c.trRun - 1 = _
      rw [hr, BitVec.ofNat_add]
      exact BitVec.add_sub_cancel _ _
    · rw [← State.filled_succ s e n hlt]
      exact hk c1 hc1

/-- The parameter of an escape (rule R161), within the 8 bits of `TR_RUN` and the entries still to be produced. -/
theorem readRun_meets (t : SlotId) {x : Nat} {e : Escape} (hx : escapeOf s.cfg x = some e) (h : s.DataOk)
    (ho : s.ofs.toNat ≤ s.nsym.toNat) :
    (readRun e s).Meets (fun run s1 => run ≤ 255 ∧ run ≤ s1.nsym.toNat - s1.ofs.toNat ∧ SymbolStep t s s1)
      (fun _ s1 => SymbolStep t s s1) := by
  rcases readRun_cases e h.cursor with ⟨-, he⟩ | ⟨hr, -, -, he⟩ | ⟨hr, -, -, he⟩ | ⟨hr, -, hle, he⟩ <;> rw [he]
  · exact .refl h ho
  · exact .skipBits h ho hr
  · exact .skipBits h ho hr
  · exact ⟨escapeOf_runLength h.cfgWf hx (fieldValue_lt s _), hle, .skipBits h ho hr⟩

theorem State.InRecord.symbol {s1 : State} (h : s.InRecord w t) (hs : SymbolStep t s s1) : s1.InRecord w t :=
  h.keep hs.reader (hs.slots t)

/-- `TR_PARAM` and the run: an escape is read and filled in. -/
theorem ends_escape (hK : RecordEnd w t p K) (h : s.InRecord w t) (ho : s.ofs.toNat ≤ s.nsym.toNat) {x : Nat}
    {e : Escape} (hx : escapeOf s.cfg x = some e) (hx21 : x < 21) (hc : c.At p .param)
    (hsym : c.trSymReg = BitVec.ofNat 5 x) {rest : Unit → State → Res Unit}
    (hk : ∀ s1 c1, SymbolStep t s s1 → c1.At p .sym → Ends SameData (.next (s1.withScratch c1)) (K (rest () s1))) :
    Ends SameData (.next (s.withScratch c)) (K ((fillRun e s).bind rest)) := by
  have hreg : (s.withScratch c).trSymReg.toNat = x := by
    rw [show (s.withScratch c).trSymReg = _ from hsym, BitVec.toNat_ofNat]
    omega
  refine h.running.ends hK.word hc ?_
  rw [tableArrow_param hc.state, trParamArrow, hreg, show escapeOf (s.withScratch c).cfg x = _ from hx, fillRun_eq,
    Res.bind_assoc]
  refine .bind (readRun_blind e) (readRun_meets t hx h.data ho) (fun run s1 ⟨h255, hroom, hs⟩ => ?_)
    fun e s1 hs => hK.fails e s1 c (h.symbol hs)
  have hofs := hs.ofs.2
  refine ends_fill (s := s1)
    (c := { c with
      trRun := BitVec.ofNat 8 run, trFillV := e.value s1, trState := if run = 0 then .sym else .fill })
    e run (h.symbol hs).running hK.word (by omega) h255 ⟨hc.phase, rfl, hc.up⟩ rfl rfl fun c1 hc1 => ?_
  exact hk (s1.filled e run) c1 (hs.trans (.filled hs.reader.data e hofs hroom)) hc1

/-- Step 4 and step 5 of a record, from `TR_SYM` on (rules R155 and R164). -/
theorem ends_depthLoop (hK : RecordEnd w t p K) (n : Nat) (h : s.InRecord w t) (ht : s.tmp.valid = true)
    (ho : s.ofs.toNat ≤ s.nsym.toNat) (hn : s.rem < n) (hc : c.At p .sym) :
    Ends SameData (.next (s.withScratch c)) (K ((depthLoop n s).bind fun _ s1 => build t s1.daList s1)) := by
  induction n generalizing s c with
  | zero => omega
  | succ n ih =>
    refine h.running.ends hK.word hc ?_
    rw [tableArrow_sym hc.state, trSymArrow, depthLoop]
    by_cases hlt : s.ofs.toNat < s.nsym.toNat
    · rw [if_pos (show (s.withScratch c).ofs.toNat < (s.withScratch c).nsym.toNat from hlt), if_pos hlt, Res.bind_assoc]
      refine .bind fetchSymbol_blind (fetchSymbol_meets t h.data ht ho) (fun x s1 ⟨hx, hs, hrem, hofs, _⟩ => ?_)
        fun e s1 ⟨_, hs⟩ => hK.fails e s1 c (h.symbol hs)
      have hcfg : s1.cfg = s.cfg := State.field_of_sansReader State.cfg hs.reader.frame
      have hlt1 : s1.ofs.toNat < s1.nsym.toNat := by rw [hofs, hs.nsym]; exact hlt
      -- what follows the symbol, from any state that the symbol leaves
      have hnext : ∀ s2 c2, SymbolStep t s1 s2 → c2.At p .sym → Ends SameData (.next (s2.withScratch c2))
          (K ((depthLoop n s2).bind fun _ s3 => build t s3.daList s3)) := by
        intro s2 c2 hs2 hc2
        have h12 := hs.trans hs2
        have hrem2 := hs2.rem
        refine ih (h.symbol h12) ?_ h12.ofs.2 (by omega) hc2
        rw [show s2.tmp = s.tmp from h12.slots .tmp]
        exact ht
      rw [Res.bind_assoc, dispatchSymbol, hcfg, show (s.withScratch c).cfg = s.cfg from rfl]
      rcases escapeOf_cases s.cfg hx with ⟨hv, he⟩ | ⟨-, e, he⟩ <;> simp only [he]
      · exact hnext (s1.litAt x) { c with trSymReg := BitVec.ofNat 5 x, trState := .sym }
          (.litAt hs.reader.data hv hlt1) ⟨hc.phase, rfl, hc.up⟩
      · exact ends_escape (s := s1) (c := { c with trSymReg := BitVec.ofNat 5 x, trState := .param }) hK (h.symbol hs)
          (by omega) (hcfg ▸ he) hx ⟨hc.phase, rfl, hc.up⟩ rfl hnext
    · rw [if_neg (show ¬ (s.withScratch c).ofs.toNat < (s.withScratch c).nsym.toNat from hlt), if_neg hlt]
      exact ends_mbuild (c := { c with trState := .mbuild }) hK h ⟨hc.phase, rfl, hc.up⟩

/-- `TR_TBUILD` and what follows it. -/
theorem ends_tbuild (hK : RecordEnd w t p K) (h : s.InRecord w t) (ho : s.ofs = 0) (hc : c.At p .tbuild) :
    Ends SameData (.next (s.withScratch c))
      (K ((buildTmp s).bind fun _ s1 => (readDepths s1).bind fun _ s2 => build t s2.daList s2)) := by
  refine h.running.ends hK.word hc ?_
  rw [tableArrow_tbuild hc.state, trTbuildArrow, toTr]
  refine .bind buildTmp_blind (build_meets (t := t) (u := .tmp) (.inr rfl) h.data (length_tdList s)) ?_ ?_
  · rintro _ s1 ⟨hs, sl, hsl, rfl⟩
    exact ends_depthLoop (c := { c with trState := .sym }) hK _
      (h.keep hs (State.slot_setSlot_other s sl hK.notTmp)) (builtSlot_valid hsl)
      (by rw [State.setSlot_ofs, ho]; exact Nat.zero_le _) (Nat.lt_succ_self _) ⟨hc.phase, rfl, hc.up⟩
  · rintro e s1 ⟨-, hs, rfl⟩
    exact hK.fails e _ c (h.keep hs (State.slot_setSlot_other s _ hK.notTmp))

theorem State.InRecord.field {s1 : State} (h : s.InRecord w t) (hs : FieldStep t s s1) : s1.InRecord w t :=
  h.keep hs.reader (hs.slots t)

/-- `TR_TDEPTH`: the m depth fields from transmission position k on are read one an arrow (rule R153). -/
theorem ends_tmpFields (hK : RecordEnd w t p K) (m k : Nat) (hm : k + m = tmpNsym) (h : s.InRecord w t) (ho : s.ofs = 0)
    (hv : s.cfg.tmpCountW = 0) (hc : c.At p (if k < tmpNsym then .tdepth else .tbuild)) (hck : c.trK = BitVec.ofNat 5 k)
    {rest : Unit → State → Res Unit}
    (hk : ∀ s1 c1, s1.InRecord w t → s1.ofs = 0 → c1.At p .tbuild →
      Ends SameData (.next (s1.withScratch c1)) (K (rest () s1))) :
    Ends SameData (.next (s.withScratch c)) (K ((readTmpFields (tmpOrder.drop k) s).bind rest)) := by
  induction m generalizing k s c with
  | zero =>
    obtain rfl : k = tmpNsym := by omega
    exact hk s c h ho hc
  | succ m ih =>
    have hlt : k < tmpOrder.length := show k < tmpNsym by omega
    have hkn : (s.withScratch c).trK.toNat = k := by
      rw [show (s.withScratch c).trK = _ from hck, BitVec.toNat_ofNat]
      unfold tmpNsym at hm
      omega
    rw [if_pos (show k < tmpNsym from hlt)] at hc
    refine h.running.ends hK.word hc ?_
    rw [tableArrow_tdepth hc.state, trTdepthArrow, if_pos (show (s.withScratch c).cfg.tmpCountW = 0 from hv), hkn,
      List.getElem?_eq_getElem hlt, List.drop_eq_getElem_cons hlt, readTmpFields, Res.bind_assoc]
    refine .bind (readTmpDepth_blind _) (readTmpDepth_meets t (tmpOrder_lt _ (List.getElem_mem hlt)) h.data)
      (fun _ s1 hs => ?_) fun e s1 ⟨_, hs⟩ => hK.fails e s1 c (h.field hs)
    have hcfg : s1.cfg = s.cfg := State.field_of_sansReader State.cfg hs.reader.frame
    refine ih (s := s1)
      (c := { c with trK := c.trK + 1, trState := if c.trK.toNat + 1 < tmpNsym then .tdepth else .tbuild })
      (k + 1) (by omega) (h.field hs) (hs.ofs.trans ho) (by rw [hcfg]; exact hv) ⟨hc.phase, ?_, hc.up⟩ ?_
    · show (if c.trK.toNat + 1 < tmpNsym then _ else _) = _
      rw [show c.trK.toNat = k from hkn]
    · show c.trK + 1 = _
      rw [hck, BitVec.ofNat_add, BitVec.ofNat_eq_ofNat]

/-- `TR_TDEPTH` and what follows it, with and without the count field of rule R168. -/
theorem ends_tdepth (hK : RecordEnd w t p K) (h : s.InRecord w t) (ho : s.ofs = 0) (hc : c.At p .tdepth)
    (hck : c.trK = 0) :
    Ends SameData (.next (s.withScratch c)) (K ((readTmpDepths s).bind fun _ s1 => (buildTmp s1).bind fun _ s2 =>
      (readDepths s2).bind fun _ s3 => build t s3.daList s3)) := by
  by_cases hv : s.cfg.tmpCountW = 0
  · rw [readTmpDepths, if_pos hv]
    exact ends_tmpFields hK tmpNsym 0 rfl h ho hv hc hck fun s1 c1 h1 ho1 hc1 => ends_tbuild hK h1 ho1 hc1
  · refine h.running.ends hK.word hc ?_
    rw [tableArrow_tdepth hc.state, trTdepthArrow, if_neg (show (s.withScratch c).cfg.tmpCountW ≠ 0 from hv), toTr]
    exact .bind readTmpDepths_blind (readTmpDepths_meets t h.data)
      (fun _ s1 hs => ends_tbuild (c := { c with trState := .tbuild }) hK (h.field hs) (hs.ofs.trans ho)
        ⟨hc.phase, rfl, hc.up⟩)
      fun e s1 ⟨_, hs⟩ => hK.fails e s1 c (h.field hs)

theorem beginRecord_withScratch (t : SlotId) (s : State) (c : Scratch) :
    beginRecord t (s.withScratch c) = (beginRecord t s).withScratch c := by
  unfold beginRecord
  rw [s.invalidate_withScratch, State.invalidate_withScratch]
  rfl

/-- A whole record, from `TR_IDLE` on (rules R151 and R164). -/
theorem ends_record (hK : RecordEnd w t p K) (h : s.Running w) (hd : s.DataOk) (hc : c.At p .idle) :
    Ends SameData (.next (s.withScratch c)) (K (treadBody t s)) := by
  obtain ⟨hs0, hv0, -⟩ := beginRecord_step hd hK.notTmp
  have h0 : (beginRecord t s).InRecord w t := ⟨h.table hs0.table, hs0.data, hv0⟩
  have hc0 : ({ c with trState := .count } : Scratch).At p .count := ⟨hc.phase, rfl, hc.up⟩
  have hbody : treadBody t s = (readCount (beginRecord t s)).bind fun _ s1 => (readTmpDepths s1).bind fun _ s2 =>
      (buildTmp s2).bind fun _ s3 => (readDepths s3).bind fun _ s4 => build t s4.daList s4 := by
    simp only [treadBody, readHeader, Res.bind_assoc]
  have hbegin : tableArrow (s.withScratch c) = .next ((beginRecord t s).withScratch { c with trState := .count }) := by
    rw [tableArrow_idle hc.state, trIdleArrow, hK.slot (s.withScratch c) h.cmd hc.phase]
    show Host.Outcome.next ({ beginRecord t (s.withScratch c) with trState := .count } : State) = _
    rw [beginRecord_withScratch]
    rfl
  refine h.ends hK.word hc ?_
  rw [hbegin, hbody]
  refine h0.running.ends hK.word hc0 ?_
  rw [tableArrow_count hc0.state, trCountArrow]
  exact .bind readCount_blind (readCount_meets t h0.data)
    (fun _ s1 hs => ends_tdepth (c := { c with trK := 0, trState := .tdepth }) hK (h0.field hs) hs.ofs
      ⟨hc.phase, rfl, hc.up⟩ rfl)
    fun e s1 ⟨_, hs⟩ => hK.fails e s1 _ (h0.field hs)

end

/-! ### `TREAD t`: one record -/

theorem decodeCommand_tread (t : BitVec 1) : decodeCommand (commandWord 0x06 (t.zeroExtend 8)) = .ok (.tread t) := by
  revert t
  decide

/-- The operand of form T01 reads back (30_encoding.md rule R83). -/
theorem extractLsb'_zeroExtend_t01 (t : BitVec 1) : (t.zeroExtend 8).extractLsb' 0 1 = t := by
  revert t
  decide

/-- An error in the middle of `TREAD` undoes nothing (rule R164). -/
theorem undoOnError_tread {m : State} (h : opByte m.cmd = 0x06) : undoOnError m = m := by
  unfold undoOnError
  rw [h]
  rfl

/-- `TREAD t` is one record, and no error is handled beyond it (rule R151). -/
theorem tread_recordEnd (t : BitVec 1) :
    RecordEnd (commandWord 0x06 (t.zeroExtend 8)) (slotOfT01 t) .start finish where
  word := .inl ⟨t, decodeCommand_tread t⟩
  notTmp := slotOfT01_ne t
  slot m hm _ := by
    unfold State.recordSlot State.treadSlot
    rw [hm, opByte_commandWord, aByte_commandWord, extractLsb'_zeroExtend_t01]
    rfl
  fails e s c h := by
    rw [failCommand, undoOnError_tread (h.running.opByte_withScratch c)]
    exact .here rfl
  done s c _ _ _ := .here rfl

/-! ### `GETTAB`: two records -/

theorem decodeCommand_gettab : decodeCommand (commandWord 0x07 0) = .ok .gettab := by decide

theorem State.invalidate_of_invalid {s : State} {t : SlotId} (h : (s.slot t).valid = false) : s.invalidate t = s := by
  have hs : { s.slot t with valid := false } = s.slot t := by rw [← h]
  rw [State.invalidate, hs]
  cases t <;> rfl

/-- An error in the middle of `GETTAB` leaves no table (rule R166). -/
theorem undoOnError_gettab {m : State} (h : m.cmd = commandWord 0x07 0) : undoOnError m = m.invalidate .t0 := by
  unfold undoOnError
  rw [h, opByte_commandWord]
  rfl

/-- What `GETTAB` makes of the answer of its second record (rule R166). -/
def secondEnd (r : Res Unit) : Out := finish (r.onError fun s => s.invalidate .t0)

/-- What `GETTAB` makes of the answer of its first record (rule R166). -/
def firstEnd (r : Res Unit) : Out :=
  finish (r.bind fun _ s => (treadBody .t1 s).onError fun s => s.invalidate .t0)

/-- An error in the second record takes `T[0]` with it, and the command ends with the record (rule R166). -/
theorem gettab_recordEnd_second : RecordEnd (commandWord 0x07 0) .t1 .second secondEnd where
  word := .inr decodeCommand_gettab
  notTmp := by decide
  slot m hm hp := by
    unfold State.recordSlot
    rw [hm, hp, opByte_commandWord]
    rfl
  fails e s c h := by
    rw [failCommand, undoOnError_gettab (m := s.withScratch c) h.running.cmd]
    exact .here rfl
  done s c _ _ _ := .here rfl

/-- An error in the first record finds `T[0]` invalid already, and its end leads to the second record (rule R166). -/
theorem gettab_recordEnd_first : RecordEnd (commandWord 0x07 0) .t0 .first firstEnd where
  word := .inr decodeCommand_gettab
  notTmp := by decide
  slot m hm hp := by
    unfold State.recordSlot
    rw [hm, hp, opByte_commandWord]
    rfl
  fails e s c h := by
    rw [failCommand, undoOnError_gettab (m := s.withScratch c) h.running.cmd,
      State.invalidate_withScratch, State.invalidate_of_invalid h.invalid]
    exact .here rfl
  done s c h hd hc := ends_record gettab_recordEnd_second h hd ⟨rfl, rfl, hc.up⟩

/-- `GETTAB` from its first arrow on, which places the cursor. -/
theorem ends_gettab {s : State} {c : Scratch} (h : s.Running (commandWord 0x07 0)) (hd : s.DataOk)
    (hc : c.At .start .idle) : Ends SameData (.next (s.withScratch c)) (finish (gettabBody s)) := by
  have hnone : (s.withScratch c).recordSlot = none := by
    unfold State.recordSlot
    rw [h.opByte_withScratch, show (s.withScratch c).gtPhase = _ from hc.phase]
    rfl
  refine h.ends (.inr decodeCommand_gettab) hc ?_
  rw [tableArrow_idle hc.state, trIdleArrow, hnone]
  simp only [h.opByte_withScratch, if_true]
  refine .bind gettabSeek_blind (gettabSeek_meets hd) (fun _ s1 ⟨_, hs, _⟩ => ?_) fun e s1 ⟨_, _, hs, hv, _⟩ => ?_
  · exact ends_record (c := { c with gtPhase := .first }) gettab_recordEnd_first (h.table hs) hs.data
      ⟨rfl, hc.state, hc.up⟩
  · exact gettab_recordEnd_first.fails e s1 c ⟨h.table hs, hs.data, hv⟩

end Sys2Proof.Machine

open Sys2Proof Sys2Proof.Machine

/-- Settles O57: at each arrow of rule R164 the rest of the command and the rest of the arrows go on alike, record by
record. -/
theorem tableArrowsAgreeWithTheCommand : Obligations.TableArrowsAgreeWithTheCommand := by
  intro i w s u hcase hw hd hr htr hgt hup hg hi hu
  have hl : (s.launched w).DataOk := { hd with }
  have hrun : (s.launched w).Running w := ⟨rfl, hi, hg, rfl⟩
  have hc : s.scratch.At .start .idle := ⟨hgt, htr, hup⟩
  have htread : ∀ t, i = .tread t → ∃ n v, runSteps n { s with inputs := [.write 0 w] } = some v ∧ SameData u v := by
    rintro t rfl
    obtain rfl : commandWord 0x06 (t.zeroExtend 8) = w := Code.command.inj hw
    exact Ends.launch (decodeCommand_tread t) hr hg hi (ends_record (tread_recordEnd t) hrun hl hc) hu
  rcases hcase with hi0 | hi1 | rfl
  · exact htread 0 hi0
  · exact htread 1 hi1
  · obtain rfl : commandWord 0x07 0 = w := Code.command.inj hw
    exact Ends.launch decodeCommand_gettab hr hg hi (ends_gettab hrun hl hc) hu

end

section
/-! The canonical codes as intervals (41_huffman.md rules R133 and R134): in units of 2^-16 each used symbol has an
interval of length `2^(16 - depth)` that begins at its code, and the intervals of two symbols do not meet. -/

namespace Sys2Proof.Machine

/-- The code of a symbol among the codes of rule R133. -/
def codeIn (d : List Nat) (k : Nat) (xs : List Nat) (x : Nat) : Nat := (Store.find (codeList d k xs) x).getD 0

/-- The width of a symbol's interval. -/
def codeWidth (d : List Nat) (x : Nat) : Nat := 2 ^ (16 - depthAt d x)

theorem codeWidth_pos (d : List Nat) (x : Nat) : 0 < codeWidth d x := Nat.two_pow_pos _

@[simp] theorem codeIn_head (d : List Nat) (k x : Nat) (xs : List Nat) :
    codeIn d k (x :: xs) x = k / codeWidth d x := by
  simp [codeIn, codeList, Store.find, codeWidth]

theorem codeIn_tail {d : List Nat} {k x y : Nat} {xs : List Nat} (h : x ≠ y) :
    codeIn d k (x :: xs) y = codeIn d (k + codeWidth d x) xs y := by
  simp [codeIn, codeList, Store.find, codeWidth, h]

/-- In the order of rule R133 the intervals get no wider. -/
theorem codeWidth_dvd {d : List Nat} {x y : Nat} (h : depthAt d x ≤ depthAt d y) : codeWidth d y ∣ codeWidth d x :=
  Nat.pow_dvd_pow 2 (by omega)

section
variable {d : List Nat} {k : Nat} {xs : List Nat}

theorem codeWidth_dvd_tail {x : Nat} (hs : (x :: xs).Pairwise (symbolBefore d))
    (hk : ∀ y ∈ x :: xs, codeWidth d y ∣ k) : ∀ y ∈ xs, codeWidth d y ∣ k + codeWidth d x := fun y hy =>
  (hk y (List.mem_cons_of_mem _ hy)).add (codeWidth_dvd (depthAt_le_of_sorted hs y hy))

/-- The interval of a symbol lies between the sum k that was there before and the whole Kraft sum. -/
theorem codeIn_interval (hs : xs.Pairwise (symbolBefore d)) (hnd : xs.Nodup) (hk : ∀ x ∈ xs, codeWidth d x ∣ k)
    {x : Nat} (hx : x ∈ xs) : k ≤ codeIn d k xs x * codeWidth d x
      ∧ (codeIn d k xs x + 1) * codeWidth d x ≤ k + kraftSum d xs := by
  induction xs generalizing k with
  | nil => cases hx
  | cons y ys ih =>
    have hsum : kraftSum d (y :: ys) = codeWidth d y + kraftSum d ys := kraftSum_cons d y ys
    by_cases hxy : y = x
    · subst hxy
      rw [codeIn_head, Nat.add_mul, Nat.div_mul_cancel (hk y List.mem_cons_self)]
      omega
    · have hx' : x ∈ ys := (List.mem_cons.1 hx).resolve_left (Ne.symm hxy)
      rw [codeIn_tail hxy]
      have := ih hs.of_cons hnd.of_cons (codeWidth_dvd_tail hs hk) hx'
      omega

/-- The intervals of two symbols do not meet. -/
theorem codeIn_disjoint (hs : xs.Pairwise (symbolBefore d)) (hnd : xs.Nodup) (hk : ∀ x ∈ xs, codeWidth d x ∣ k)
    {x y : Nat} (hx : x ∈ xs) (hy : y ∈ xs) (hne : x ≠ y) :
    (codeIn d k xs x + 1) * codeWidth d x ≤ codeIn d k xs y * codeWidth d y
      ∨ (codeIn d k xs y + 1) * codeWidth d y ≤ codeIn d k xs x * codeWidth d x := by
  induction xs generalizing k with
  | nil => cases hx
  | cons z zs ih =>
    have hk' := codeWidth_dvd_tail hs hk
    -- the head's interval ends where those of the tail begin
    have hhead : ∀ w ∈ zs, z ≠ w → (codeIn d k (z :: zs) z + 1) * codeWidth d z
        ≤ codeIn d k (z :: zs) w * codeWidth d w := by
      intro w hw hzw
      rw [codeIn_head, codeIn_tail hzw, Nat.add_mul, Nat.div_mul_cancel (hk z List.mem_cons_self), Nat.one_mul]
      exact (codeIn_interval hs.of_cons hnd.of_cons hk' hw).1
    rcases List.mem_cons.1 hx with rfl | hx'
    · exact .inl (hhead y ((List.mem_cons.1 hy).resolve_left (Ne.symm hne)) hne)
    · rcases List.mem_cons.1 hy with rfl | hy'
      · exact .inr (hhead x hx' (Ne.symm hne))
      · have hz := (List.nodup_cons.1 hnd).1
        rw [codeIn_tail (fun h : z = x => hz (h ▸ hx')),
          codeIn_tail (fun h : z = y => hz (h ▸ hy'))]
        exact ih hs.of_cons hnd.of_cons hk' hx' hy'

end

/-! ### The codes of a built slot -/

section
variable {d : List Nat} {sl : Slot}

/-- A code is below `2^depth` as soon as its interval ends within the unit. -/
theorem lt_of_interval {x c : Nat} (hx : depthAt d x ≤ 16) (h : (c + 1) * codeWidth d x ≤ 2 ^ 16) :
    c < 2 ^ depthAt d x := by
  have hpow : 2 ^ depthAt d x * codeWidth d x = 2 ^ 16 := by
    rw [codeWidth, ← pow_add, Nat.add_sub_of_le hx]
  rw [← hpow] at h
  exact Nat.le_of_mul_le_mul_right h (codeWidth_pos d x)

theorem builtSlot_interval (h : buildSlot d = some sl) {x : Nat} (hx : x ∈ sortUsed d) :
    (codeIn d 0 (sortUsed d) x + 1) * codeWidth d x ≤ 2 ^ 16 := by
  obtain ⟨-, hk, -⟩ := buildSlot_eq_some h
  have := (codeIn_interval (k := 0) (sortUsed_sorted d) (sortUsed_nodup d) (fun _ _ => dvd_zero _) hx).2
  omega

theorem builtSlot_codeOf (h : buildSlot d = some sl) {x : Nat} (hx : x ∈ sortUsed d) :
    sl.codeOf x = codeIn d 0 (sortUsed d) x := by
  obtain ⟨hc, -, hsl⟩ := buildSlot_eq_some h
  have hle := depthAt_le hc x
  have hlt := lt_of_interval hle (builtSlot_interval h hx)
  have hpow : 2 ^ depthAt d x ≤ 2 ^ 16 := Nat.pow_le_pow_right (by decide) hle
  have hxl := (mem_sortUsed.1 hx).1
  rw [hsl, Slot.codeOf, builtSlot, List.getD_eq_getElem _ _ (by simpa using hxl), List.getElem_map,
    List.getElem_range, BitVec.toNat_ofNat]
  exact Nat.mod_eq_of_lt (by unfold codeIn at hlt; omega)

theorem builtSlot_codeOf_lt (h : buildSlot d = some sl) {x : Nat} (hx : x ∈ sortUsed d) :
    sl.codeOf x < 2 ^ depthAt d x := by
  rw [builtSlot_codeOf h hx]
  exact lt_of_interval (depthAt_le (buildSlot_eq_some h).1 x) (builtSlot_interval h hx)

theorem builtSlot_disjoint (h : buildSlot d = some sl) {x y : Nat} (hx : x ∈ sortUsed d) (hy : y ∈ sortUsed d)
    (hne : x ≠ y) : (sl.codeOf x + 1) * codeWidth d x ≤ sl.codeOf y * codeWidth d y
      ∨ (sl.codeOf y + 1) * codeWidth d y ≤ sl.codeOf x * codeWidth d x := by
  rw [builtSlot_codeOf h hx, builtSlot_codeOf h hy]
  exact codeIn_disjoint (sortUsed_sorted d) (sortUsed_nodup d) (fun _ _ => dvd_zero _) hx hy hne

end

/-! ### A code that begins another is an interval around it -/

theorem msbBits_le (w v : Nat) : ∀ b ∈ msbBits w v, b ≤ 1 := by
  intro b hb
  obtain ⟨j, -, rfl⟩ := List.mem_map.1 hb
  omega

/-- The digits of u begin those of v: v is u with further digits after it. -/
theorem msbBits_begins {a b u v : Nat} (hu : u < 2 ^ a) (hv : v < 2 ^ b) (h : msbBits a u <+: msbBits b v) :
    ∃ r, b = a + r ∧ u * 2 ^ r ≤ v ∧ v < (u + 1) * 2 ^ r := by
  obtain ⟨rest, hrest⟩ := h
  have hlen := congrArg List.length hrest
  rw [List.length_append, length_msbBits, length_msbBits] at hlen
  have hval := congrArg msbValue hrest
  rw [msbValue_append, msbValue_msbBits hu, msbValue_msbBits hv] at hval
  have hlt : msbValue rest < 2 ^ rest.length :=
    msbValue_lt fun c hc => msbBits_le b v c (hrest ▸ List.mem_append_right _ hc)
  refine ⟨rest.length, hlen.symm, by omega, ?_⟩
  rw [Nat.add_mul]
  omega

/-- No code of a built slot begins another (10_state.md rule R37). -/
theorem builtSlot_not_begins {d : List Nat} {sl : Slot} (h : buildSlot d = some sl) {x y : Nat} (hx : x ∈ sortUsed d)
    (hy : y ∈ sortUsed d) (hne : x ≠ y) : ¬ sl.codeBits x <+: sl.codeBits y := by
  intro hpre
  have hle := depthAt_le (buildSlot_eq_some h).1 y
  have hw := codeWidth_pos d y
  unfold Slot.codeBits at hpre
  rw [builtSlot_depthOf h, builtSlot_depthOf h] at hpre
  obtain ⟨r, hr, hlo, hhi⟩ := msbBits_begins (builtSlot_codeOf_lt h hx) (builtSlot_codeOf_lt h hy) hpre
  have hwidth : codeWidth d x = 2 ^ r * codeWidth d y := by
    unfold codeWidth
    rw [← pow_add]
    congr 1
    omega
  have hlo' := Nat.mul_le_mul_right (codeWidth d y) hlo
  have hhi' := Nat.mul_lt_mul_of_pos_right hhi hw
  have hdis := builtSlot_disjoint h hx hy hne
  rw [hwidth, ← Nat.mul_assoc, ← Nat.mul_assoc, Nat.add_mul (sl.codeOf y), Nat.one_mul] at hdis
  omega

/-! ### The Kraft sum -/

theorem map_depthAt_range (d : List Nat) : (List.range d.length).map (depthAt d) = d := by
  apply List.ext_getElem
  · simp
  · intro i hi _
    simp only [List.length_map, List.length_range] at hi
    simp [depthAt, hi]

/-- K of rule R134, summed in any order. -/
theorem kraftSum_sortUsed (d : List Nat) : kraftSum d (sortUsed d) = kraft d := by
  have hperm : kraftSum d (sortUsed d) = kraftSum d (usedSymbols d) := ((sortUsed_perm d).map _).sum_eq
  have hmap : d.filter (fun v => decide (v ≠ 0)) = (usedSymbols d).map (depthAt d) := by
    conv_lhs => rw [← map_depthAt_range d]
    rw [List.filter_map]
    rfl
  rw [hperm, kraft, hmap, List.map_map]
  rfl

/-- The depths that a slot was built for, read back. -/
theorem builtSlot_depths {d : List Nat} {sl : Slot} (h : buildSlot d = some sl) (hn : d.length ≤ daSize) :
    (List.range sl.ns.toNat).map sl.depthOf = d := by
  rw [builtSlot_ns h hn]
  exact (List.map_congr_left fun x _ => builtSlot_depthOf h x).trans (map_depthAt_range d)

/-- The depth array of a valid slot (10_state.md rules R35 to R37). -/
theorem Slot.builtFor.exists_depths {t : SlotId} {sl : Slot} (h : sl.builtFor t) :
    ∃ d, buildSlot d = some sl ∧ d.length ≤ daSize := by
  obtain ⟨d, hd, hlen⟩ := h
  refine ⟨d, hd, ?_⟩
  split at hlen
  · rw [hlen]
    decide
  · exact hlen

end Sys2Proof.Machine

open Sys2Proof Sys2Proof.Machine

/-- Settles O14: the codes are disjoint intervals, and a code that began another would be an interval around it. -/
theorem validSlotsArePrefixCodes : Obligations.ValidSlotsArePrefixCodes := by
  intro t sl hb
  obtain ⟨d, hd, hlen⟩ := hb.exists_depths
  obtain ⟨-, hkraft, -⟩ := buildSlot_eq_some hd
  obtain ⟨hm1, hm16, -, x0, hx0, hdepth0⟩ := builtSlot_maxlen hd
  have hns := builtSlot_ns hd hlen
  have hdepth := builtSlot_depthOf hd
  have hused : ∀ x, x < sl.ns.toNat → sl.depthOf x ≠ 0 → x ∈ sortUsed d := fun x hx h0 =>
    mem_sortUsed.2 ⟨hns ▸ hx, hdepth x ▸ h0⟩
  refine ⟨builtSlot_valid hd, by omega, ⟨x0, by omega, by rw [hdepth]; omega⟩, hm1, hm16, ?_,
    fun x => length_msbBits _ _, fun x hx h0 => ?_, fun x y hx hy hx0 hy0 hne => ?_⟩
  · rw [builtSlot_depths hd hlen, ← kraftSum_sortUsed]
    exact hkraft
  · rw [hdepth]
    exact builtSlot_codeOf_lt hd (hused x hx h0)
  · exact builtSlot_not_begins hd (hused x hx hx0) (hused y hy hy0) hne

end

section
/-! What every command and every symbol can do to the state, said once for all of them: which part of the state the body
of a command may write, and how a command and a symbol end. -/

namespace Sys2Proof.Machine

/-! ### What the body of a command may write -/

/-- The state without what the body of a command may write (40_bitreader.md, 41_huffman.md, 42_table_reader.md,
43_level_unpacker.md). `CLRERR` has no body, nor has a symbol. -/
def sansBody (i : Instr) (s : State) : State :=
  match i with
  | .seek => { s with brByte := 0, brBit := 0, brEnd := 0 }
  | .rdbits _ => { s with brByte := 0, brBit := 0, res := 0 }
  | .align => { s with brByte := 0, brBit := 0 }
  | .hbuild t => { s with t0 := if t = 0 then Slot.blank else s.t0, t1 := if t = 0 then s.t1 else Slot.blank }
  | .hdec _ => { s with brByte := 0, brBit := 0, res := 0 }
  | .tread t => { s.sansReader with t0 := if t = 0 then Slot.blank else s.t0, t1 := if t = 0 then s.t1 else Slot.blank }
  | .gettab => { s.sansReader with brEnd := 0 }
  | .lvlinfo _ => { s with liW := 0, liH := 0 }
  | .unpack _ => s.sansUnpack
  | _ => s

/-- What the body of command i can do to a state whose data is in order. -/
structure CommandStep (i : Instr) (s t : State) : Prop where
  data    : t.DataOk
  frame   : sansBody i t = sansBody i s
  forward : i ≠ .seek → i ≠ .gettab → (∀ k, i ≠ .unpack k) → s.pos ≤ t.pos

theorem CommandStep.refl {i : Instr} {s : State} (h : s.DataOk) : CommandStep i s s :=
  ⟨h, rfl, fun _ _ _ => Nat.le_refl _⟩

theorem CommandStep.of_eq {i : Instr} {s t : State} (h : s.DataOk) (ht : t = s) :
    CommandStep i s t ∧ t.res = s.res := by
  subst ht
  exact ⟨.refl h, rfl⟩

/-- A field that the body of i does not write. -/
theorem CommandStep.field {α : Type} (f : State → α) {i : Instr} {s t : State} (h : CommandStep i s t)
    (hf : ∀ u, f (sansBody i u) = f u) : f t = f s := by
  rw [← hf t, ← hf s, h.frame]

theorem CommandStep.err {i : Instr} {s t : State} (h : CommandStep i s t) : t.err = s.err :=
  h.field State.err fun u => by cases i <;> rfl

theorem CommandStep.errOp {i : Instr} {s t : State} (h : CommandStep i s t) : t.errOp = s.errOp :=
  h.field State.errOp fun u => by cases i <;> rfl

theorem State.pos_le_skipBits {s : State} (h : s.cursorOk) {n : Nat} (hn : n ≤ s.rem) : s.pos ≤ (s.skipBits n).pos := by
  rw [s.pos_skipBits n (s.pos_add_lt h hn)]
  omega

/-! ### The bodies of the commands -/

/-- The body is one of command i: it may write what i may, and where it fails it has not written `RES`. -/
def IsBodyOf (i : Instr) (body : State → Res Unit) : Prop :=
  ∀ s : State, s.DataOk →
    (body s).Meets (fun _ t => CommandStep i s t) (fun _ t => CommandStep i s t ∧ t.res = s.res)

theorem Res.Meets.and {α : Type} {r : Res α} {Q Q' : α → State → Prop} {E E' : ErrorKind → State → Prop}
    (h : r.Meets Q E) (h' : r.Meets Q' E') : r.Meets (fun a s => Q a s ∧ Q' a s) (fun e s => E e s ∧ E' e s) := by
  cases r with
  | ok a s => exact ⟨h, h'⟩
  | stop x s =>
    cases x with
    | raise e => exact ⟨h, h'⟩
    | fault f => exact h.elim

theorem seek_isBody : IsBodyOf .seek seekBody := fun s h =>
  (seekBody_meets h).mono (fun _ _ ⟨hq, ht⟩ => ⟨hq.data, by rw [ht]; rfl, fun hne => absurd rfl hne⟩)
    fun _ _ ⟨_, ht⟩ => CommandStep.of_eq h ht

theorem rdbits_isBody (n : BitVec 6) : IsBodyOf (.rdbits n) (rdbitsBody n.toNat) := fun s h =>
  (rdbitsBody_meets n.toNat h).mono
    (fun _ _ ⟨hq, hn, ht⟩ => ⟨hq.data, by rw [ht]; rfl, fun _ _ _ => ht ▸ s.pos_le_skipBits h.cursor hn⟩)
    fun _ _ ⟨_, ht, _⟩ => CommandStep.of_eq h ht

theorem alignBody_frame (s : State) :
    (alignBody s).Meets (fun _ t => sansBody .align t = sansBody .align s) (fun _ _ => False) := by
  unfold alignBody
  split <;> exact rfl

theorem align_isBody : IsBodyOf .align alignBody := fun s h =>
  ((alignBody_meets h).and (alignBody_frame s)).mono (fun _ _ ⟨⟨hq, hpos⟩, hf⟩ => ⟨hq.data, hf, fun _ _ _ => hpos⟩)
    fun _ _ ⟨hf, _⟩ => hf.elim

theorem sansBody_hbuild_setSlot (t : BitVec 1) (s : State) (sl : Slot) :
    sansBody (.hbuild t) (s.setSlot (slotOfT01 t) sl) = sansBody (.hbuild t) s := by
  by_cases h : t = 0
  · simp only [sansBody, slotOfT01, if_pos h, State.setSlot]
  · simp only [sansBody, slotOfT01, if_neg h, State.setSlot]

theorem hbuild_isBody (t : BitVec 1) : IsBodyOf (.hbuild t) (hbuildBody (slotOfT01 t)) := by
  intro s h
  have hpos : ∀ sl, (s.setSlot (slotOfT01 t) sl).pos = s.pos := fun sl => by cases slotOfT01 t <;> rfl
  refine (hbuildBody_meets (slotOfT01_ne t) h).mono ?_ ?_
  · rintro _ _ ⟨hq, sl, -, rfl⟩
    exact ⟨hq.data, sansBody_hbuild_setSlot t s sl, fun _ _ _ => (hpos sl).ge⟩
  · rintro _ _ ⟨-, hd, rfl⟩
    exact ⟨⟨hd, sansBody_hbuild_setSlot t s _, fun _ _ _ => (hpos _).ge⟩, State.setSlot_res s _ _⟩

theorem hdec_isBody (t : BitVec 2) (x : SlotId) : IsBodyOf (.hdec t) (hdecBody x) := by
  intro s h
  refine (hdecBody_meets x h).mono ?_ ?_
  · rintro _ _ ⟨hq, k, v, hk, rfl⟩
    exact ⟨hq.data, rfl, fun _ _ _ => s.pos_le_skipBits h.cursor hk⟩
  · rintro _ _ ⟨hd, k, hk, rfl⟩
    exact ⟨⟨hd, rfl, fun _ _ _ => s.pos_le_skipBits h.cursor hk⟩, rfl⟩

/-- A record for the slot of form T01 leaves the other table slot alone (10_state.md rule R36). -/
theorem ReaderStep.tread {t : BitVec 1} {s u : State} (h : ReaderStep (slotOfT01 t) s u) :
    CommandStep (.tread t) s u := by
  refine ⟨h.data, ?_, fun _ _ _ => h.pos⟩
  unfold sansBody
  by_cases ht : t = 0
  · have h1 : u.t1 = s.t1 := h.other .t1 (by rw [slotOfT01, if_pos ht]; decide) (by decide)
    simp only [if_pos ht, h1, h.frame]
  · have h0 : u.t0 = s.t0 := h.other .t0 (by rw [slotOfT01, if_neg ht]; decide) (by decide)
    simp only [if_neg ht, h0, h.frame]

theorem tread_isBody (t : BitVec 1) : IsBodyOf (.tread t) (treadBody (slotOfT01 t)) := fun _ h =>
  (treadBody_meets (slotOfT01_ne t) h).mono (fun _ _ ⟨hr, _⟩ => hr.reader.tread)
    fun _ _ ⟨_, hr, _⟩ => ⟨hr.reader.tread, State.field_of_sansReader State.res hr.reader.frame⟩

theorem TableStep.gettab {s u : State} (h : TableStep s u) : CommandStep .gettab s u :=
  ⟨h.data, h.frame, fun _ hne => absurd rfl hne⟩

theorem gettab_isBody : IsBodyOf .gettab gettabBody := fun _ h =>
  (gettabBody_meets h).mono (fun _ _ ⟨ht, _⟩ => ht.gettab) fun _ _ ⟨_, ht, _⟩ => ⟨ht.gettab, ht.field State.res⟩

theorem lvlinfo_isBody (k : BitVec 8) : IsBodyOf (.lvlinfo k) (lvlinfoBody k.toNat) := fun _ h =>
  (lvlinfoBody_meets k.toNat h).mono
    (fun _ _ ⟨hq, ht⟩ => ⟨hq.data, (congrArg (sansBody (.lvlinfo k)) ht).trans rfl,
      fun _ _ _ => ((congrArg State.pos ht).trans rfl).ge⟩)
    fun _ _ ⟨_, ht⟩ => CommandStep.of_eq h ht

theorem UnpackStep.unpack (k : BitVec 8) {s u : State} (h : UnpackStep s u) : CommandStep (.unpack k) s u :=
  ⟨h.data, h.frame, fun _ _ hne => absurd rfl (hne k)⟩

theorem unpack_isBody (k : BitVec 8) : IsBodyOf (.unpack k) (unpackBody k.toNat) := fun _ h =>
  (unpackBody_meets k.toNat h).mono (fun _ _ ⟨hu, _⟩ => hu.unpack k)
    fun _ _ ⟨_, hu, _⟩ => ⟨hu.unpack k, State.field_of_sansUnpack State.res hu.frame⟩

/-! ### How a command ends -/

/-- The states in which command i can leave a core that was not `BUSY` (30_encoding.md rule R80): in `ERROR` it is
ignored, but for `CLRERR`; in `IDLE` it ends, or its body fails, or its word was illegal. -/
inductive CommandOutcome (i : Instr) (s : State) : State → Prop where
  | ignored (hr : s.run = .error) (hi : i ≠ .clrerr) : CommandOutcome i s s
  | cleared (hr : s.run ≠ .busy) (hi : i = .clrerr) :
      CommandOutcome i s ({ s with cmd := wordOf .clrerr } : State).clearError
  | done {w : Word} {t : State} (hr : s.run = .idle) (ht : CommandStep i (s.launched w) t) :
      CommandOutcome i s t.complete
  | failed {w : Word} {t : State} {op : BitVec 8} {e : ErrorKind} (hr : s.run = .idle)
      (ht : CommandStep i (s.launched w) t) (hres : t.res = s.res) : CommandOutcome i s (t.raiseError op e)

section
variable {i : Instr} {s u : State}

theorem launch_outcome {body : State → Res Unit} (w : Word) (hb : IsBodyOf i body) (hi : i ≠ .clrerr) (hd : s.DataOk)
    (hr : s.run ≠ .busy) : ∃ u, launch w body s = .next u ∧ CommandOutcome i s u := by
  cases hrun : s.run with
  | idle =>
    rcases launch_meets hrun (hb _ (hd.launched w)) with ⟨t, ht, he⟩ | ⟨e, t, ⟨ht, hres⟩, he⟩
    · exact ⟨_, he, .done hrun ht⟩
    · exact ⟨_, he, .failed hrun ht hres⟩
  | busy => exact absurd hrun hr
  | error => exact ⟨s, launch_error hrun, .ignored hrun hi⟩

theorem launchIllegal_outcome (op : BitVec 8) (hi : i ≠ .clrerr) (hd : s.DataOk) (hr : s.run ≠ .busy) :
    ∃ u, launchIllegal op s = .next u ∧ CommandOutcome i s u := by
  cases hrun : s.run with
  | idle =>
    have ht : CommandStep i (s.launched s.cmd) (s.launched s.cmd) := .refl (hd.launched s.cmd)
    exact ⟨_, launchIllegal_idle hrun, .failed (t := s.launched s.cmd) hrun ht rfl⟩
  | busy => exact absurd hrun hr
  | error => exact ⟨s, launchIllegal_error hrun, .ignored hrun hi⟩

theorem execClrerr_outcome (hr : s.run ≠ .busy) : ∃ u, exec .clrerr s = .next u ∧ CommandOutcome .clrerr s u := by
  refine ⟨_, ?_, .cleared hr rfl⟩
  show execClrerr s = _
  unfold execClrerr
  cases hrun : s.run with
  | busy => exact absurd hrun hr
  | idle => rfl
  | error => rfl

/-- Everything a command can do to a core that is not `BUSY` (rule R80). -/
theorem exec_command_outcome (hd : s.DataOk) (hi : isCommand i = true) (hr : s.run ≠ .busy) :
    ∃ u, exec i s = .next u ∧ CommandOutcome i s u := by
  cases i with
  | seek => exact launch_outcome _ seek_isBody (by simp) hd hr
  | rdbits n =>
    show ∃ u, execRdbits n s = .next u ∧ _
    unfold execRdbits
    split
    · exact launch_outcome _ (rdbits_isBody n) (by simp) hd hr
    · exact launchIllegal_outcome _ (by simp) hd hr
  | align => exact launch_outcome _ align_isBody (by simp) hd hr
  | hbuild t => exact launch_outcome _ (hbuild_isBody t) (by simp) hd hr
  | hdec t =>
    show ∃ u, execHdec t s = .next u ∧ _
    unfold execHdec
    split
    · exact launch_outcome _ (hdec_isBody t _) (by simp) hd hr
    · exact launchIllegal_outcome _ (by simp) hd hr
  | tread t => exact launch_outcome _ (tread_isBody t) (by simp) hd hr
  | gettab => exact launch_outcome _ gettab_isBody (by simp) hd hr
  | lvlinfo k => exact launch_outcome _ (lvlinfo_isBody k) (by simp) hd hr
  | unpack k => exact launch_outcome _ (unpack_isBody k) (by simp) hd hr
  | clrerr => exact execClrerr_outcome hr
  | _ => cases hi

theorem launchIllegal_busy {op : BitVec 8} (h : s.run = .busy) :
    launchIllegal op s = .refused .commandWhileBusy := by
  unfold launchIllegal
  rw [h]

/-- A command while `BUSY` is refused (70_reset_and_hazards.md rule R245). -/
theorem exec_command_busy (hi : isCommand i = true) (hr : s.run = .busy) : exec i s = .refused .commandWhileBusy := by
  cases i with
  | rdbits n =>
    show execRdbits n s = _
    unfold execRdbits
    split
    · exact launch_busy hr
    · exact launchIllegal_busy hr
  | hdec t =>
    show execHdec t s = _
    unfold execHdec
    split
    · exact launch_busy hr
    · exact launchIllegal_busy hr
  | clrerr =>
    show execClrerr s = _
    unfold execClrerr
    rw [hr]
  | seek | align | hbuild | tread | gettab | lvlinfo | unpack => exact launch_busy hr
  | _ => cases hi

theorem CommandOutcome.of_exec (hd : s.DataOk) (hi : isCommand i = true) (he : exec i s = .next u) :
    CommandOutcome i s u := by
  by_cases hr : s.run = .busy
  · rw [exec_command_busy hi hr] at he
    cases he
  · obtain ⟨v, hv, ho⟩ := exec_command_outcome hd hi hr
    obtain rfl : v = u := by simpa [hv] using he
    exact ho

/-! ### What no command writes -/

/-- The state without what launching, ending and clearing write (rule R80, 60_exceptions.md rule R214, 44_system.md rule
R201). -/
def State.sansControl (s : State) : State :=
  { s with cmd := 0, run := .idle, err := none, errOp := 0, trState := .idle, upState := .idle, gtPhase := .start }

/-- A field that neither the body of a command writes nor its launch and its end. -/
theorem CommandOutcome.field {α : Type} (f : State → α) (h : CommandOutcome i s u)
    (hb : ∀ v, f (sansBody i v) = f v) (hc : ∀ v : State, f v.sansControl = f v := by intro v; rfl) : f u = f s := by
  have same : ∀ {v w : State}, v.sansControl = w.sansControl → f v = f w := fun {v w} hvw => by
    rw [← hc v, ← hc w, hvw]
  cases h with
  | ignored => rfl
  | cleared => exact same rfl
  | @done w t _ ht => exact (same (v := t.complete) (w := t) rfl).trans ((ht.field f hb).trans (same rfl))
  | @failed w t op e _ ht _ =>
    exact (same (v := t.raiseError op e) (w := t) rfl).trans ((ht.field f hb).trans (same rfl))

end

/-! ### How a symbol ends -/

/-- The index of a symbol in the second level of the encoding (30_encoding.md rule R89); 0 for a command. -/
def symbolIndex (i : Instr) : Nat :=
  match encode i with
  | .command _ => 0
  | .symbol x => x.toNat

theorem decodeSymbol_symbolIndex {i : Instr} (h : isCommand i = false) :
    symbolIndex i < 21 ∧ decodeSymbol (symbolIndex i) = .ok i := by
  cases i with
  | seek | rdbits | align | hbuild | hdec | tread | gettab | lvlinfo | unpack | clrerr => cases h
  | _ => exact ⟨by decide, rfl⟩

/-- A symbol is dispatched by its index (42_table_reader.md rule R155). -/
theorem exec_symbol {x : Nat} {i : Instr} (hx : x < 21) (hi : decodeSymbol x = .ok i) (s : State) :
    exec i s = runSymbol (dispatchSymbol x) s := by
  interval_cases x <;> (cases hi; rfl)

/-- The states in which a symbol can leave a running table reader (rules R155 and R164). -/
inductive SymbolOutcome (s : State) : State → Prop where
  | went {t : State} (h : SymbolStep .t0 s t) : SymbolOutcome s t
  | failed {t : State} {op : BitVec 8} {e : ErrorKind} (h : SymbolStep .t0 s t) :
      SymbolOutcome s ((undoOnError t).raiseError op e)

theorem SymbolOutcome.of_exec {i : Instr} {s u : State} (hd : s.DataOk) (hi : isCommand i = false)
    (he : exec i s = .next u) : SymbolOutcome s u := by
  obtain ⟨hx, hdec⟩ := decodeSymbol_symbolIndex hi
  rw [exec_symbol hx hdec] at he
  obtain ⟨-, -, hlt, hend⟩ := runSymbol_next he
  have hm := dispatchSymbol_meets .t0 hx hd hlt
  rcases hend with hok | ⟨e, t, hfail, rfl⟩
  · rw [hok] at hm
    exact .went hm
  · rw [hfail] at hm
    exact .failed hm.2

/-- A field that no symbol writes. -/
theorem SymbolOutcome.field {α : Type} (f : State → α) {s u : State} (h : SymbolOutcome s u)
    (hf : ∀ v : State, f { v.sansControl.sansReader with outLen := 0 } = f v := by intro v; rfl) : f u = f s := by
  have same : ∀ {v w : State}, ({ v.sansControl.sansReader with outLen := 0 } : State)
      = { w.sansControl.sansReader with outLen := 0 } → f v = f w := fun {v w} hvw => by rw [← hf v, ← hf w, hvw]
  have step : ∀ {t : State}, SymbolStep .t0 s t → f t = f s := fun ht =>
    same (congrArg (fun v : State => { v.sansControl with outLen := 0 }) ht.reader.frame)
  cases h with
  | went ht => exact step ht
  | @failed t op e ht =>
    refine Eq.trans (same ?_) (step ht)
    unfold undoOnError
    split
    · rfl
    · split <;> rfl

end Sys2Proof.Machine
end

section
/-! What holds of every instruction: the cursor, `RES`, the slots, the host's registers and the stores. -/

namespace Sys2Proof.Machine

theorem State.pos_undoOnError (s : State) : (undoOnError s).pos = s.pos := by
  unfold undoOnError
  split
  · rfl
  · split <;> rfl

theorem CommandOutcome.pos_le {i : Instr} {s u : State} (h : CommandOutcome i s u) (h1 : i ≠ .seek) (h2 : i ≠ .gettab)
    (h3 : ∀ k, i ≠ .unpack k) : s.pos ≤ u.pos := by
  cases h with
  | ignored => exact Nat.le_refl _
  | cleared => exact Nat.le_refl _
  | done _ ht => exact ht.forward h1 h2 h3
  | failed _ ht => exact ht.forward h1 h2 h3

theorem SymbolOutcome.pos_le {s u : State} (h : SymbolOutcome s u) : s.pos ≤ u.pos := by
  cases h with
  | went ht => exact ht.reader.pos
  | @failed t op e ht => exact ht.reader.pos.trans t.pos_undoOnError.ge

theorem CommandOutcome.res_eq_of_error {i : Instr} {s u : State} (h : CommandOutcome i s u) (hu : u.run = .error) :
    u.res = s.res := by
  cases h with
  | ignored => rfl
  | cleared => rfl
  | done => cases hu
  | failed _ _ hres => exact hres

/-- BUF, the parameters and what only the host writes (10_state.md rules R20 and R30, 20_memory.md rule R60). -/
def State.hostView (s : State) :=
  (s.buf, s.bufLen, s.arg0, s.arg1, s.tableOfs, s.imgW, s.imgH, s.levelCount, s.fmt, s.lvlOfs, s.lvlSize, s.idx,
    s.tSel, s.cfg, s.inputs)

theorem hostView_sansBody (i : Instr) (s : State) : (sansBody i s).hostView = s.hostView := by
  cases i <;> rfl

theorem exec_hostView {i : Instr} {s u : State} (hd : s.DataOk) (he : exec i s = .next u) :
    u.hostView = s.hostView := by
  cases hi : isCommand i with
  | true => exact (CommandOutcome.of_exec hd hi he).field State.hostView (hostView_sansBody i)
  | false => exact (SymbolOutcome.of_exec hd hi he).field State.hostView

end Sys2Proof.Machine

open Sys2Proof Sys2Proof.Machine

/-- Settles O10: bits are only consumed, except where a command places the cursor. -/
theorem cursorNeverMovesBack : Obligations.CursorNeverMovesBack := by
  intro i s u hd h1 h2 h3 he
  cases hi : isCommand i with
  | true => exact (CommandOutcome.of_exec hd hi he).pos_le h1 h2 h3
  | false => exact (SymbolOutcome.of_exec hd hi he).pos_le

/-- Settles O47: no other body writes `RES`, and a body that fails has not written it. -/
theorem onlyRdbitsAndHdecWriteRes : Obligations.OnlyRdbitsAndHdecWriteRes := by
  intro i s u hd he hcase
  cases hi : isCommand i with
  | false => exact (SymbolOutcome.of_exec hd hi he).field State.res
  | true =>
    have ho := CommandOutcome.of_exec hd hi he
    rcases hcase with ⟨hrd, hhd⟩ | herr
    · refine ho.field State.res fun v => ?_
      cases i with
      | rdbits n => exact absurd rfl (hrd n)
      | hdec t => exact absurd rfl (hhd t)
      | _ => rfl
    · exact ho.res_eq_of_error herr

/-- Settles O48: a body writes the slots that its command builds, and no other. -/
theorem slotsChangeOnlyByBuilds : Obligations.SlotsChangeOnlyByBuilds := by
  intro i s u hd hi he
  have ho := CommandOutcome.of_exec hd hi he
  refine ⟨fun ⟨hhb, htr, hgt⟩ => ?_, fun h => ?_, fun h => ?_, fun t h => ?_⟩
  · have hslots := ho.field (fun v => (v.t0, v.t1, v.tmp)) fun v => by
      cases i with
      | hbuild t => exact absurd rfl (hhb t)
      | tread t => exact absurd rfl (htr t)
      | gettab => exact absurd rfl hgt
      | _ => rfl
    simpa only [Prod.mk.injEq] using hslots
  · exact ho.field State.t1 fun v => by rcases h with rfl | rfl <;> rfl
  · exact ho.field State.t0 fun v => by rcases h with rfl | rfl <;> rfl
  · exact ho.field State.tmp fun v => by subst h; rfl

/-- Settles O49: none of them is among what a command or a symbol may write. -/
theorem hostRegistersAreTheHosts : Obligations.HostRegistersAreTheHosts := by
  intro i s u hd he
  simpa only [State.hostView, Prod.mk.injEq] using exec_hostView hd he

/-- Settles O50: only the body of `UNPACK` may write OUT, and only the table reader the depth arrays. -/
theorem storesHaveOneWriter : Obligations.StoresHaveOneWriter := by
  intro i s u hd hi he
  have ho := CommandOutcome.of_exec hd hi he
  refine ⟨fun hup => ?_, fun ⟨htr, hgt⟩ => ?_⟩
  · have hout := ho.field (fun v => (v.out, v.outLen, v.outValid, v.expLen)) fun v => by
      cases i with
      | unpack k => exact absurd rfl (hup k)
      | _ => rfl
    simpa only [Prod.mk.injEq] using hout
  · have harrays := ho.field (fun v => (v.da, v.td, v.nsym, v.ofs, v.lastnz)) fun v => by
      cases i with
      | tread t => exact absurd rfl (htr t)
      | gettab => exact absurd rfl hgt
      | _ => rfl
    simpa only [Prod.mk.injEq] using harrays

end

section
/-! The invariant (10_state.md rules R22 to R43) between commands: at reset, and over every action of the host. -/

namespace Sys2Proof.Machine

/-! ### Encoding -/

theorem formZ_ok {a : BitVec 8} {i j : Instr} (h : formZ a i = .ok j) : a = 0 ∧ i = j := by
  unfold formZ at h
  split at h
  · next ha => exact ⟨ha, Except.ok.inj h⟩
  · cases h

/-- An operand byte below `2^n` is its low n bits. -/
theorem zeroExtend_extractLsb' {n : Nat} {a : BitVec 8} (h : a.toNat < 2 ^ n) :
    (a.extractLsb' 0 n).zeroExtend 8 = a := by
  apply BitVec.eq_of_toNat_eq
  have ha := a.isLt
  simp only [BitVec.truncate_eq_setWidth, BitVec.toNat_setWidth, BitVec.extractLsb'_toNat, Nat.shiftRight_zero]
  rw [Nat.mod_eq_of_lt h, Nat.mod_eq_of_lt ha]

theorem formN_ok {a : BitVec 8} {mk : BitVec 6 → Instr} {j : Instr} (h : formN a mk = .ok j) :
    ∃ n, mk n = j ∧ n.zeroExtend 8 = a := by
  unfold formN at h
  split at h
  · next ha => exact ⟨_, Except.ok.inj h, zeroExtend_extractLsb' (by omega)⟩
  · cases h

theorem formT01_ok {a : BitVec 8} {mk : BitVec 1 → Instr} {j : Instr} (h : formT01 a mk = .ok j) :
    ∃ t, mk t = j ∧ t.zeroExtend 8 = a := by
  unfold formT01 at h
  split at h
  · next ha => exact ⟨_, Except.ok.inj h, zeroExtend_extractLsb' (by omega)⟩
  · cases h

theorem formT012_ok {a : BitVec 8} {mk : BitVec 2 → Instr} {j : Instr} (h : formT012 a mk = .ok j) :
    ∃ t, mk t = j ∧ t.zeroExtend 8 = a := by
  unfold formT012 at h
  split at h
  · next ha => exact ⟨_, Except.ok.inj h, zeroExtend_extractLsb' (by omega)⟩
  · cases h

/-- A command that the opcode map gives has the word it was decoded from (30_encoding.md rule R82). -/
theorem encode_of_decodeOp {op a : BitVec 8} {i : Instr} (h : decodeOp op.toNat a = .ok i) :
    encode i = .command (commandWord op a) := by
  have hop : ∀ {n : BitVec 8}, op.toNat = n.toNat → op = n := BitVec.eq_of_toNat_eq
  unfold decodeOp at h
  split at h
  · next hn =>
    obtain ⟨rfl, rfl⟩ := formZ_ok h
    rw [hop (n := 0x01) hn]
    rfl
  · next hn =>
    obtain ⟨n, rfl, rfl⟩ := formN_ok h
    rw [hop (n := 0x02) hn]
    rfl
  · next hn =>
    obtain ⟨rfl, rfl⟩ := formZ_ok h
    rw [hop (n := 0x03) hn]
    rfl
  · next hn =>
    obtain ⟨t, rfl, rfl⟩ := formT01_ok h
    rw [hop (n := 0x04) hn]
    rfl
  · next hn =>
    obtain ⟨t, rfl, rfl⟩ := formT012_ok h
    rw [hop (n := 0x05) hn]
    rfl
  · next hn =>
    obtain ⟨t, rfl, rfl⟩ := formT01_ok h
    rw [hop (n := 0x06) hn]
    rfl
  · next hn =>
    obtain ⟨rfl, rfl⟩ := formZ_ok h
    rw [hop (n := 0x07) hn]
    rfl
  · next hn =>
    obtain rfl := Except.ok.inj h
    rw [hop (n := 0x08) hn]
    rfl
  · next hn =>
    obtain rfl := Except.ok.inj h
    rw [hop (n := 0x09) hn]
    rfl
  · next hn =>
    obtain ⟨rfl, rfl⟩ := formZ_ok h
    rw [hop (n := 0x0A) hn]
    rfl
  · cases h

/-- A command word is the word of the command it decodes to (rules R81 to R85). -/
theorem encode_of_decodeCommand {w : Word} {i : Instr} (h : decodeCommand w = .ok i) : encode i = .command w := by
  unfold decodeCommand at h
  split at h
  · next hz => rw [encode_of_decodeOp h, commandWord_fields hz]
  · cases h

/-- The first level holds commands only (rule R82). -/
theorem decodeCommand_isCommand {w : Word} {i : Instr} (h : decodeCommand w = .ok i) : isCommand i = true := by
  rw [isCommand, encode_of_decodeCommand h]

/-! ### The invariant of a core at rest -/

/-- The outcome goes on, with a state that P holds of. -/
def GoesTo (o : Out) (P : State → Prop) : Prop := ∃ u, o = .next u ∧ P u

theorem GoesTo.next {P : State → Prop} {u : State} (h : P u) : GoesTo (.next u) P := ⟨u, rfl, h⟩

/-- The state machines are idle (rule R43). -/
def State.Resting (s : State) : Prop := s.trState = .idle ∧ s.gtPhase = .start ∧ s.upState = .idle

section
variable {s u : State}

/-- With the state machines idle, the invariant asks for the data and the error registers only. -/
theorem State.Resting.inv (h : s.Resting) (hd : s.DataOk) (herr : s.run = .error ↔ s.err ≠ none)
    (hop : s.err = none → s.errOp = 0) : s.Inv := by
  obtain ⟨htr, hgt, hup⟩ := h
  refine ⟨hd, herr, hop, fun _ => ⟨htr, hgt, hup⟩, fun hc => ?_, fun hc => absurd hup hc⟩
  rcases hc with hc | hc
  · exact absurd htr hc
  · exact absurd hgt hc

theorem State.DataOk.raiseError_inv (h : s.DataOk) (op : BitVec 8) (e : ErrorKind) : (s.raiseError op e).Inv :=
  State.Resting.inv ⟨rfl, rfl, rfl⟩ { h with } (by simp) fun hc => by cases hc

theorem State.DataOk.complete_inv (h : s.DataOk) (he : s.err = none) (ho : s.errOp = 0) : s.complete.Inv :=
  State.Resting.inv ⟨rfl, rfl, rfl⟩ { h with } (by simp [he]) fun _ => ho

theorem State.Inv.resting (h : s.Inv) (hr : s.run ≠ .busy) : s.Resting := h.notBusy hr

theorem State.Inv.err_eq_none (h : s.Inv) (hr : s.run ≠ .error) : s.err = none :=
  Classical.not_not.1 fun he => hr (h.errorIff.2 he)

theorem State.Inv.errOp_eq_zero (h : s.Inv) (hr : s.run ≠ .error) : s.errOp = 0 := h.errOpZero (h.err_eq_none hr)

/-- The host's queue and bus, and the count of free values, are no part of the invariant. -/
theorem State.Inv.withHost (h : s.Inv) (q : List HostAction) (b : Word) (n : Nat) :
    ({ s with inputs := q, busData := b, freeCount := n } : State).Inv :=
  { h with
    data := { h.data with }
    inTable := fun hc => { h.inTable hc with }
    inUnpack := fun hc => { h.inUnpack hc with } }

theorem State.Inv.withInputs (h : s.Inv) (q : List HostAction) : ({ s with inputs := q } : State).Inv :=
  h.withHost q s.busData s.freeCount

/-- The registers that say what the core is doing. -/
def State.control (s : State) := (s.run, s.err, s.errOp, s.trState, s.gtPhase, s.upState)

/-- A change of the data of a core that is not at work. -/
theorem State.Inv.of_control (h : s.Inv) (hr : s.run ≠ .busy) (hd : u.DataOk) (hc : u.control = s.control) : u.Inv := by
  simp only [State.control, Prod.mk.injEq] at hc
  obtain ⟨hrun, herr, hop, htr, hgt, hup⟩ := hc
  refine State.Resting.inv ?_ hd ?_ ?_
  · rw [State.Resting, htr, hgt, hup]
    exact h.resting hr
  · rw [hrun, herr]
    exact h.errorIff
  · rw [herr, hop]
    exact h.errOpZero

/-! ### Commands -/

theorem CommandOutcome.inv {i : Instr} (ho : CommandOutcome i s u) (h : s.Inv) : u.Inv := by
  cases ho with
  | ignored => exact h
  | cleared hr => exact State.Resting.inv (h.resting hr) { h.data with } (by simp) fun _ => rfl
  | done hr ht =>
    have hne : s.run ≠ .error := by simp [hr]
    exact ht.data.complete_inv (ht.err.trans (h.err_eq_none hne)) (ht.errOp.trans (h.errOp_eq_zero hne))
  | failed _ ht => exact ht.data.raiseError_inv _ _

theorem exec_command_inv {i : Instr} (h : s.Inv) (hi : isCommand i = true) (hr : s.run ≠ .busy) :
    GoesTo (exec i s) State.Inv := by
  obtain ⟨u, he, ho⟩ := exec_command_outcome h.data hi hr
  exact ⟨u, he, ho.inv h⟩

theorem launchIllegal_inv (h : s.Inv) (hr : s.run ≠ .busy) (op : BitVec 8) :
    GoesTo (launchIllegal op s) State.Inv := by
  cases hrun : s.run with
  | idle => exact ⟨_, launchIllegal_idle hrun, h.data.raiseError_inv _ _⟩
  | busy => exact absurd hrun hr
  | error => exact ⟨s, launchIllegal_error hrun, h⟩

/-- Between `IDLE` and `BUSY`, with the state machines idle, the invariant makes no difference. -/
theorem State.Inv.withRun (h : s.Inv) (hrest : s.Resting) (hne : s.run ≠ .error) (w : Word) {r : RunState}
    (hr : r ≠ .error) : ({ s with cmd := w, run := r } : State).Inv :=
  State.Resting.inv hrest { h.data with } (by simp [hr, h.err_eq_none hne]) h.errOpZero

theorem commandWrite_inv (h : s.Inv) (hr : s.run ≠ .busy) (w : Word) : GoesTo (commandWrite w s) State.Inv := by
  unfold commandWrite
  split
  · next i hi =>
    split
    · next hc => exact .next (h.withRun (h.resting hr) (by simp [hc.2]) w (by simp))
    · exact exec_command_inv h (decodeCommand_isCommand hi) hr
  · exact launchIllegal_inv h hr _

/-! ### Host registers, BUF and reset -/

/-- A write that the core takes (44_system.md rule R204). -/
theorem State.writeReg_inv {reg : HostReg} {v : Word} (h : s.Inv) (hr : s.run ≠ .busy)
    (hw : s.writeReg reg v = some u) : u.Inv := by
  have hd := h.data
  cases reg <;> simp only [State.writeReg, Option.ite_none_right_eq_some, Option.dite_none_right_eq_some,
    Option.some.injEq] at hw
  case bufLen =>
    subst hw
    exact h.of_control hr { hd with cursor := ⟨Nat.le_refl _, Nat.zero_le _, fun _ => rfl⟩ } rfl
  case levelCount =>
    obtain ⟨-, hle, rfl⟩ := hw
    exact h.of_control hr { hd with levels := hle } rfl
  case daData =>
    obtain ⟨⟨-, hi⟩, rfl⟩ := hw
    have hput := hd.putDa hi (v.truncate 5)
    exact h.of_control hr hput rfl
  case imgW | imgH | fmt | nsym =>
    obtain ⟨-, rfl⟩ := hw
    exact h.of_control hr { hd with } rfl
  case tSel =>
    split_ifs at hw <;> cases hw <;> exact h.of_control hr { hd with } rfl
  case arg0 | arg1 | tableOfs | lvlOfs | lvlSize | idx =>
    subst hw
    exact h.of_control hr { hd with } rfl

theorem State.hostWrite_inv (h : s.Inv) (hr : s.run ≠ .busy) (r : Nat) (v : Word) : (s.hostWrite r v).Inv := by
  unfold State.hostWrite
  split
  · exact h
  · cases hw : (hostReg s.cfg r).bind fun reg => s.writeReg reg v with
    | none => exact h.data.raiseError_inv _ _
    | some u =>
      obtain ⟨reg, -, hreg⟩ := Option.bind_eq_some_iff.1 hw
      exact State.writeReg_inv h hr hreg

theorem State.hostRead_inv (h : s.Inv) (r : Nat) : (s.hostRead r).Inv := by
  unfold State.hostRead
  split
  · exact h.withHost s.inputs _ _
  · exact h.withHost s.inputs _ s.freeCount

theorem State.hostPoke_inv (h : s.Inv) (hr : s.run ≠ .busy) (a : Word) (b : Byte) : (s.hostPoke a b).Inv :=
  h.of_control hr { h.data with bufWf := Memory.wf_write _ _ h.data.bufWf } rfl

/-- The reset values meet the invariant with every well-formed configuration and BUF (rule R47). -/
theorem State.applyReset_inv (hcfg : s.cfg.wf = true) (hbuf : Memory.wf s.buf = true) : s.applyReset.Inv :=
  State.Resting.inv ⟨rfl, rfl, rfl⟩
    { cfgWf := hcfg
      cursor := ⟨Nat.le_refl _, Nat.le_refl _, fun _ => rfl⟩
      slots := fun t hv => by cases t <;> cases hv
      bufWf := hbuf
      outWf := rfl
      daSorted := rfl
      daBound := fun c hc => by cases hc
      tdSorted := rfl
      tdBound := fun c hc => by cases hc
      lastnzLe := Nat.zero_le _
      levels := Nat.zero_le _
      outLenLe := Nat.le_refl _
      outWhole := fun _ => rfl
      expLenLe := Nat.zero_le _ }
    (by simp [State.applyReset, State.reset]) fun _ => rfl

end

end Sys2Proof.Machine

open Sys2Proof Sys2Proof.Machine

/-- Settles O54: the state right after reset is what the reset input makes of it, but for the count of resets. -/
theorem resetMeetsTheInvariant : Obligations.ResetMeetsTheInvariant :=
  have h : State.reset.applyReset.Inv := State.applyReset_inv rfl rfl
  { h with
    data := { h.data with }
    inTable := fun hc => { h.inTable hc with }
    inUnpack := fun hc => { h.inUnpack hc with } }

end

section
/-! The invariant in the middle of a command: the arrows of the table reader and of the unpacker (42_table_reader.md
rule R164, 43_level_unpacker.md rule R191) and the steps of whole symbols (42_table_reader.md rule R155). -/

namespace Sys2Proof.Machine

/-! ### Errors and ends -/

/-- What an error undoes keeps the data in order. -/
theorem State.DataOk.undoOnError {s : State} (h : s.DataOk) (hv : opByte s.cmd = 0x09 → s.outValid = false) :
    (undoOnError s).DataOk := by
  unfold Machine.undoOnError
  split
  · exact h.invalidate .t0
  · split
    · next hop =>
      exact { h with outLenLe := Nat.zero_le _
                     outWhole := fun hc => by rw [show _ = s.outValid from rfl, hv hop] at hc; cases hc }
    · exact h

theorem failCommand_inv {s : State} (h : (undoOnError s).DataOk) (e : ErrorKind) :
    GoesTo (failCommand e s) State.Inv := .next (h.raiseError_inv _ _)

/-- An arrow whose operation keeps the invariant, whether the command ends with it or goes on, and whose errors leave
data that `undoOnError` puts in order. -/
def ArrowKeeps (r : Res Bool) : Prop :=
  r.Meets (fun last u => (if last then u.complete else u).Inv) fun _ u => (undoOnError u).DataOk

theorem ArrowKeeps.endArrow {r : Res Bool} (h : ArrowKeeps r) : GoesTo (endArrow r) State.Inv := by
  rcases Res.Meets.ends h with ⟨last, u, rfl, hu⟩ | ⟨e, u, rfl, hu⟩
  · cases last <;> exact .next hu
  · exact failCommand_inv hu e

theorem ArrowKeeps.bind {α : Type} {r : Res α} {f : α → State → Res Bool} {Q : α → State → Prop}
    {E : ErrorKind → State → Prop} (h : r.Meets Q E) (hok : ∀ a u, Q a u → ArrowKeeps (f a u))
    (herr : ∀ e u, E e u → (undoOnError u).DataOk) : ArrowKeeps (r.bind f) :=
  (h.mono (fun _ _ hq => hq) herr).bind hok

/-! ### The table reader -/

/-- A table command that has been begun, without what depends on the place of the reader. -/
structure State.TableRun (s : State) : Prop where
  data    : s.DataOk
  run     : s.run = .busy
  err     : s.err = none
  errOp   : s.errOp = 0
  up      : s.upState = .idle
  command : opByte s.cmd = 0x06 ∧ s.gtPhase = .start ∨ opByte s.cmd = 0x07 ∧ s.gtPhase ≠ .start

/-- What holds where the table reader is, by `TR_STATE` (rule R164). -/
def State.AtTrState (s : State) : Prop :=
  match s.trState with
  | .idle => True
  | .count => s.ofs = 0
  | .tdepth => s.ofs = 0 ∧ s.trK.toNat < tmpNsym
  | .tbuild => s.ofs = 0
  | .sym => s.tmp.valid = true ∧ s.ofs.toNat ≤ s.nsym.toNat
  | .param => s.tmp.valid = true ∧ s.ofs.toNat ≤ s.nsym.toNat ∧ 17 ≤ s.trSymReg.toNat ∧ s.trSymReg.toNat ≤ 20
  | .fill => s.tmp.valid = true ∧ 0 < s.trRun.toNat ∧ s.ofs.toNat + s.trRun.toNat ≤ s.nsym.toNat
      ∧ s.trFillV.toNat ≤ maxDepth
  | .mbuild => s.tmp.valid = true ∧ s.ofs.toNat ≤ s.nsym.toNat

section
variable {s u : State}

theorem State.TableRun.tableOk (h : s.TableRun) (ha : s.AtTrState) : s.TableOk := by
  unfold State.AtTrState at ha
  refine ⟨h.up, h.command, ?_, fun hx => ?_, ?_, fun hx => ?_, fun hx => ?_⟩
  · rintro (hx | hx | hx) <;> simp only [hx] at ha
    · exact ha
    · exact ha.1
    · exact ha
  · simp only [hx] at ha
    exact ha.2
  · rintro (hx | hx | hx | hx) <;> simp only [hx] at ha
    · exact ha
    · exact ⟨ha.1, ha.2.1⟩
    · obtain ⟨hv, -, hroom, -⟩ := ha
      exact ⟨hv, by omega⟩
    · exact ha
  · simp only [hx] at ha
    exact ha.2.2
  · simp only [hx] at ha
    exact ha.2

theorem State.TableRun.inv (h : s.TableRun) (ha : s.AtTrState) : s.Inv where
  data := h.data
  errorIff := by simp [h.run, h.err]
  errOpZero _ := h.errOp
  notBusy hr := absurd h.run hr
  inTable _ := h.tableOk ha
  inUnpack hc := absurd h.up hc

theorem State.Inv.tableRun (h : s.Inv) (hr : s.run = .busy) (ht : s.TableOk) : s.TableRun :=
  have hne : s.run ≠ .error := by simp [hr]
  ⟨h.data, hr, h.err_eq_none hne, h.errOp_eq_zero hne, ht.upIdle, ht.command⟩

/-- A table command stays one through what the reader writes. -/
theorem State.TableRun.keep (h : s.TableRun) (hs : TableStep s u) : u.TableRun := by
  have hc := hs.field fun v => (v.run, v.err, v.errOp, v.upState, v.cmd, v.gtPhase)
  simp only [Prod.mk.injEq] at hc
  obtain ⟨hrun, herr, hop, hup, hcmd, hgt⟩ := hc
  exact ⟨hs.data, hrun.trans h.run, herr.trans h.err, hop.trans h.errOp, hup.trans h.up, by
    rw [hcmd, hgt]; exact h.command⟩

/-- The scratch registers are no part of it (10_state.md rule R43). -/
theorem State.TableRun.scratch (h : s.TableRun) (x : TrState) (k y : BitVec 5) (r : BitVec 8) (v : BitVec 5) :
    ({ s with trState := x, trK := k, trSymReg := y, trRun := r, trFillV := v } : State).TableRun :=
  { h with data := { h.data with } }

theorem State.TableRun.undo (h : s.TableRun) : (undoOnError s).DataOk := by
  refine h.data.undoOnError fun hop => ?_
  rcases h.command with ⟨hc, -⟩ | ⟨hc, -⟩ <;> rw [hc] at hop <;> cases hop

/-- The record being read is for a table slot (rule R166). -/
theorem State.TableRun.recordSlot (h : s.TableRun) : ∃ t, s.recordSlot = some t ∧ t ≠ .tmp := by
  unfold State.recordSlot
  rcases h.command with ⟨hop, -⟩ | ⟨hop, hgt⟩ <;> rw [hop]
  · exact ⟨s.treadSlot, rfl, slotOfT01_ne _⟩
  · cases hx : s.gtPhase with
    | start => exact absurd hx hgt
    | first => exact ⟨.t0, rfl, by decide⟩
    | second => exact ⟨.t1, rfl, by decide⟩

/-! ### The arrows of rule R164 -/

theorem trIdleArrow_keeps (h : s.TableRun) : ArrowKeeps (trIdleArrow s) := by
  obtain ⟨t, hslot, htmp⟩ := h.recordSlot
  unfold trIdleArrow
  rw [hslot]
  have hrun := h.keep (beginRecord_step h.data htmp).1.table
  exact (hrun.scratch .count _ _ _ _).inv rfl

/-- `GETTAB` before its first record (rule R166). -/
theorem trIdleArrow_gettab_keeps (h : s.Inv) (hr : s.run = .busy) (hup : s.upState = .idle)
    (hop : opByte s.cmd = 0x07) (hgt : s.gtPhase = .start) (htr : s.trState = .idle) : ArrowKeeps (trIdleArrow s) := by
  have hne : s.run ≠ .error := by simp [hr]
  have hslot : s.recordSlot = none := by
    unfold State.recordSlot
    rw [hop, hgt]
    rfl
  unfold trIdleArrow
  simp only [hslot, if_pos hop]
  refine .bind (gettabSeek_meets h.data) (fun _ u ⟨_, hs, _⟩ => ?_) fun e u ⟨_, _, hs, _⟩ => ?_
  · have hc := hs.field fun v => (v.run, v.err, v.errOp, v.upState, v.cmd, v.trState)
    simp only [Prod.mk.injEq] at hc
    obtain ⟨hrun, herr, hop', hup', hcmd, htr'⟩ := hc
    have hnext : ({ u with gtPhase := .first } : State).TableRun :=
      ⟨{ hs.data with }, hrun.trans hr, herr.trans (h.err_eq_none hne), hop'.trans (h.errOp_eq_zero hne),
        hup'.trans hup, .inr ⟨by rw [show _ = u.cmd from rfl, hcmd]; exact hop, by simp⟩⟩
    refine hnext.inv ?_
    unfold State.AtTrState
    rw [show _ = u.trState from rfl, htr', htr]
    trivial
  · refine hs.data.undoOnError fun hc => ?_
    rw [hs.field State.cmd, hop] at hc
    cases hc

theorem trCountArrow_keeps (h : s.TableRun) (ho : s.ofs = 0) : ArrowKeeps (trCountArrow s) := by
  refine .bind (readCount_meets .t0 h.data) (fun _ u hs => ?_) fun e u ⟨_, hs⟩ => (h.keep hs.reader.table).undo
  have hzero : (0 : BitVec 5).toNat < tmpNsym := by decide
  exact ((h.keep hs.reader.table).scratch .tdepth 0 _ _ _).inv ⟨hs.ofs.trans ho, hzero⟩

theorem trTdepthArrow_keeps (h : s.TableRun) (ho : s.ofs = 0) (hk : s.trK.toNat < tmpNsym) :
    ArrowKeeps (trTdepthArrow s) := by
  unfold trTdepthArrow
  split
  · have hlt : s.trK.toNat < tmpOrder.length := hk
    rw [List.getElem?_eq_getElem hlt]
    refine .bind (readTmpDepth_meets .t0 (tmpOrder_lt _ (List.getElem_mem hlt)) h.data) (fun _ u hs => ?_)
      fun e u ⟨_, hs⟩ => (h.keep hs.reader.table).undo
    have hofs : u.ofs = 0 := hs.ofs.trans ho
    refine ((h.keep hs.reader.table).scratch _ (u.trK + 1) _ _ _).inv ?_
    by_cases hlast : u.trK.toNat + 1 < tmpNsym
    · have hadd : (u.trK + 1).toNat < tmpNsym := by
        rw [BitVec.toNat_add]
        exact (Nat.mod_le _ _).trans_lt hlast
      rw [if_pos hlast]
      exact ⟨hofs, hadd⟩
    · rw [if_neg hlast]
      exact hofs
  · exact .bind (readTmpDepths_meets .t0 h.data)
      (fun _ u hs => ((h.keep hs.reader.table).scratch .tbuild _ _ _ _).inv (hs.ofs.trans ho))
      fun e u ⟨_, hs⟩ => (h.keep hs.reader.table).undo

theorem trTbuildArrow_keeps (h : s.TableRun) (ho : s.ofs = 0) : ArrowKeeps (trTbuildArrow s) := by
  refine .bind (build_meets (t := .t0) (u := .tmp) (.inr rfl) h.data (length_tdList s)) ?_
    fun e u ⟨_, hs, _⟩ => (h.keep hs.table).undo
  rintro _ u ⟨hs, sl, hsl, rfl⟩
  refine ((h.keep hs.table).scratch .sym _ _ _ _).inv ⟨builtSlot_valid hsl, ?_⟩
  show s.ofs.toNat ≤ s.nsym.toNat
  rw [ho]
  exact Nat.zero_le _

/-- After a symbol of a record: the temporary tree is there, and `OFS` keeps within `NSYM`. -/
theorem SymbolStep.inRoom {t : SlotId} (hs : SymbolStep t s u) (hv : s.tmp.valid = true) :
    u.tmp.valid = true ∧ u.ofs.toNat ≤ u.nsym.toNat := by
  have htmp : u.tmp = s.tmp := hs.slots .tmp
  exact ⟨by rw [htmp]; exact hv, hs.ofs.2⟩

theorem trSymArrow_keeps (h : s.TableRun) (hv : s.tmp.valid = true) (ho : s.ofs.toNat ≤ s.nsym.toNat) :
    ArrowKeeps (trSymArrow s) := by
  unfold trSymArrow
  split
  · next hlt =>
    refine .bind (fetchSymbol_meets .t0 h.data hv ho) (fun x u ⟨hx, hs, _, hofs, _⟩ => ?_)
      fun e u ⟨_, hs⟩ => (h.keep hs.reader.table).undo
    have hrun := h.keep hs.reader.table
    obtain ⟨hvu, hou⟩ := hs.inRoom hv
    have hreg : (BitVec.ofNat 5 x).toNat = x := by
      rw [BitVec.toNat_ofNat]
      omega
    simp only
    rcases escapeOf_cases s.cfg hx with ⟨hx16, he⟩ | ⟨hx17, e, he⟩ <;> rw [he]
    · have hlit : ({ u with trSymReg := BitVec.ofNat 5 x } : State).TableRun := hrun.scratch _ _ _ _ _
      have hltu : u.ofs.toNat < u.nsym.toNat := by rw [hofs, hs.nsym]; exact hlt
      have hs2 : SymbolStep .t0 _ (State.litAt { u with trSymReg := BitVec.ofNat 5 x } x) := .litAt hlit.data hx16 hltu
      exact ((hlit.keep hs2.reader.table).scratch .sym _ _ _ _).inv (hs2.inRoom hvu)
    · exact (hrun.scratch .param _ (BitVec.ofNat 5 x) _ _).inv ⟨hvu, hou, hx17.trans hreg.ge, hreg.le.trans (by omega)⟩
  · exact (h.scratch .mbuild _ _ _ _).inv ⟨hv, ho⟩

theorem Escape.value_le (e : Escape) (h : s.DataOk) : (e.value s).toNat ≤ maxDepth := by
  unfold Escape.value
  split
  · exact Nat.zero_le _
  · exact h.lastnzLe

theorem trParamArrow_keeps (h : s.TableRun) (hv : s.tmp.valid = true) (ho : s.ofs.toNat ≤ s.nsym.toNat)
    (h17 : 17 ≤ s.trSymReg.toNat) (h20 : s.trSymReg.toNat ≤ 20) : ArrowKeeps (trParamArrow s) := by
  unfold trParamArrow
  rcases escapeOf_cases s.cfg (show s.trSymReg.toNat < 21 by omega) with ⟨h16, -⟩ | ⟨-, e, he⟩
  · omega
  · rw [he]
    refine .bind (readRun_meets .t0 he h.data ho) (fun run u ⟨h255, hroom, hs⟩ => ?_)
      fun _ u hs => (h.keep hs.reader.table).undo
    have hrun := h.keep hs.reader.table
    obtain ⟨hvu, hou⟩ := hs.inRoom hv
    refine (hrun.scratch _ _ _ (BitVec.ofNat 8 run) (e.value u)).inv ?_
    by_cases h0 : run = 0
    · rw [if_pos h0]
      exact ⟨hvu, hou⟩
    · have hreg : (BitVec.ofNat 8 run).toNat = run := by
        rw [BitVec.toNat_ofNat]
        omega
      rw [if_neg h0]
      have hfit : u.ofs.toNat + (BitVec.ofNat 8 run).toNat ≤ u.nsym.toNat := by omega
      exact ⟨hvu, (Nat.pos_of_ne_zero h0).trans_eq hreg.symm, hfit, e.value_le hrun.data⟩

theorem trFillArrow_keeps (h : s.TableRun) (hv : s.tmp.valid = true) (hpos : 0 < s.trRun.toNat)
    (hroom : s.ofs.toNat + s.trRun.toNat ≤ s.nsym.toNat) (hval : s.trFillV.toNat ≤ maxDepth) :
    ArrowKeeps (trFillArrow s) := by
  have hlt : s.ofs.toNat < s.nsym.toNat := by omega
  have hofs := toNat_ofs_succ hlt
  have hleft : (s.trRun - 1).toNat = s.trRun.toNat - 1 := BitVec.toNat_sub_of_le (show 1 ≤ s.trRun.toNat from hpos)
  have hput : ({ s with da := Store.put s.da s.ofs.toNat s.trFillV, ofs := s.ofs + 1 } : State).TableRun :=
    have hd := h.data.putDa (Nat.lt_of_lt_of_le hlt (nsym_le s)) s.trFillV
    { h with data := { hd with } }
  unfold trFillArrow
  rw [if_pos ⟨hlt, hpos⟩]
  refine (hput.scratch _ _ _ (s.trRun - 1) _).inv ?_
  by_cases hlast : s.trRun.toNat = 1
  · rw [if_pos hlast]
    exact ⟨hv, by show (s.ofs + 1).toNat ≤ s.nsym.toNat; omega⟩
  · rw [if_neg hlast]
    exact ⟨hv, by show 0 < (s.trRun - 1).toNat; omega,
      by show (s.ofs + 1).toNat + (s.trRun - 1).toNat ≤ s.nsym.toNat; omega, hval⟩

theorem trMbuildArrow_keeps (h : s.TableRun) : ArrowKeeps (trMbuildArrow s) := by
  obtain ⟨t, hslot, htmp⟩ := h.recordSlot
  have hlen : if t = .tmp then s.daList.length = tmpNsym else s.daList.length ≤ daSize := by
    rw [if_neg htmp, length_daList]
    exact nsym_le s
  unfold trMbuildArrow
  rw [hslot]
  refine .bind (build_meets (t := t) (.inl rfl) h.data hlen) (fun _ u ⟨hs, _⟩ => ?_)
    fun e u ⟨_, hs, _⟩ => (h.keep hs.table).undo
  have hrun := h.keep hs.table
  split
  · next hfirst =>
    have hop : opByte u.cmd = 0x07 := by
      rcases hrun.command with ⟨-, hc⟩ | ⟨hc, -⟩
      · rw [hfirst] at hc
        cases hc
      · exact hc
    have hnext : ({ u with trState := .idle, gtPhase := .second } : State).TableRun :=
      { hrun with data := { hrun.data with }, command := .inr ⟨hop, by simp⟩ }
    exact hnext.inv trivial
  · exact hrun.data.complete_inv hrun.err hrun.errOp

theorem tableArrow_inv (h : s.TableRun) (ht : s.TableOk) : GoesTo (tableArrow s) State.Inv := by
  cases hx : s.trState with
  | idle =>
    rw [tableArrow_idle hx]
    exact (trIdleArrow_keeps h).endArrow
  | count =>
    rw [tableArrow_count hx]
    exact (trCountArrow_keeps h (ht.begun (by simp [hx]))).endArrow
  | tdepth =>
    rw [tableArrow_tdepth hx]
    exact (trTdepthArrow_keeps h (ht.begun (by simp [hx])) (ht.tdepth hx)).endArrow
  | tbuild =>
    rw [tableArrow_tbuild hx]
    exact (trTbuildArrow_keeps h (ht.begun (by simp [hx]))).endArrow
  | sym =>
    obtain ⟨hv, ho⟩ := ht.symbols (by simp [hx])
    rw [tableArrow_sym hx]
    exact (trSymArrow_keeps h hv ho).endArrow
  | param =>
    obtain ⟨hv, ho⟩ := ht.symbols (by simp [hx])
    obtain ⟨h17, h20⟩ := ht.param hx
    rw [tableArrow_param hx]
    exact (trParamArrow_keeps h hv ho h17 h20).endArrow
  | fill =>
    obtain ⟨hv, -⟩ := ht.symbols (by simp [hx])
    obtain ⟨hpos, hroom, hval⟩ := ht.fill hx
    rw [tableArrow_fill hx]
    exact (trFillArrow_keeps h hv hpos hroom hval).endArrow
  | mbuild =>
    rw [tableArrow_mbuild hx]
    exact (trMbuildArrow_keeps h).endArrow

/-! ### Whole symbols -/

/-- One whole symbol as a step: its fetch and its dispatch (rule R155). -/
theorem symbolStep_inv (h : s.TableRun) (hx : s.trState = .sym) (hv : s.tmp.valid = true)
    (hlt : s.ofs.toNat < s.nsym.toNat) : GoesTo (symbolStep s) State.Inv := by
  unfold symbolStep
  rcases (fetchSymbol_meets .t0 h.data hv hlt.le).ends with ⟨x, u, he, hx21, hs, -, hofs, htr⟩ | ⟨e, u, he, -, hs⟩ <;>
    rw [he]
  · obtain ⟨i, hi⟩ := decodeSymbol_lt hx21
    have hrun : ({ u with trSymReg := BitVec.ofNat 5 x } : State).TableRun := (h.keep hs.reader.table).scratch _ _ _ _ _
    have hltu : u.ofs.toNat < u.nsym.toNat := by rw [hofs, hs.nsym]; exact hlt
    have hsym : u.trState = .sym := htr.trans hx
    obtain ⟨hvu, -⟩ := hs.inRoom hv
    simp only [hi]
    rw [exec_symbol_eq hx21 hi hrun.run hsym hltu]
    rcases (dispatchSymbol_meets .t0 hx21 hrun.data hltu).ends with ⟨_, v, he2, hs2⟩ | ⟨e, v, he2, -, hs2⟩ <;> rw [he2]
    · have hat : v.AtTrState := by
        unfold State.AtTrState
        rw [State.field_of_sansReader State.trState hs2.reader.frame, show _ = TrState.sym from hsym]
        exact hs2.inRoom hvu
      exact .next ((hrun.keep hs2.reader.table).inv hat)
    · exact failCommand_inv (hrun.keep hs2.reader.table).undo e
  · exact failCommand_inv (h.keep hs.reader.table).undo e

end

end Sys2Proof.Machine
end

section
/-! The invariant in the middle of `UNPACK` (43_level_unpacker.md rule R191), and over every step. -/

namespace Sys2Proof.Machine

/-! ### The unpacker -/

/-- An `UNPACK` that has been written to `CMD`, without what depends on the place of the unpacker. -/
structure State.UnpackRun (s : State) : Prop where
  data    : s.DataOk
  run     : s.run = .busy
  err     : s.err = none
  errOp   : s.errOp = 0
  trIdle  : s.trState = .idle
  gtStart : s.gtPhase = .start
  command : opByte s.cmd = 0x09

/-- What holds where the unpacker is, by `UP_STATE` (rule R191). -/
def State.AtUpState (s : State) : Prop :=
  match s.upState with
  | .check => s.outLen = 0
  | .seek => s.outLen = 0
      ∧ (s.levelOfs s.unpackLevel).toNat + (s.levelSize s.unpackLevel).toNat ≤ s.bufLen.toNat
  | .emit bs => s.outLen.toNat + bs.length ≤ s.expLen.toNat
  | .done => s.outLen = s.expLen
  | _ => True

section
variable {s u : State}

theorem State.UnpackRun.unpackOk (h : s.UnpackRun) (hv : s.outValid = false) (ha : s.AtUpState) : s.UnpackOk := by
  unfold State.AtUpState at ha
  refine ⟨h.trIdle, h.gtStart, h.command, hv, ?_, fun hx => ?_, fun bs hx => ?_, fun hx => ?_⟩
  · rintro (hx | hx) <;> simp only [hx] at ha
    · exact ha
    · exact ha.1
  · simp only [hx] at ha
    exact ha.2
  · simpa only [hx] using ha
  · simpa only [hx] using ha

theorem State.UnpackRun.inv (h : s.UnpackRun) (hv : s.outValid = false) (ha : s.AtUpState) : s.Inv where
  data := h.data
  errorIff := by simp [h.run, h.err]
  errOpZero _ := h.errOp
  notBusy hr := absurd h.run hr
  inTable hc := by
    rcases hc with hc | hc
    · exact absurd h.trIdle hc
    · exact absurd h.gtStart hc
  inUnpack _ := h.unpackOk hv ha

theorem State.Inv.unpackRun (h : s.Inv) (hr : s.run = .busy) (htr : s.trState = .idle) (hgt : s.gtPhase = .start)
    (hop : opByte s.cmd = 0x09) : s.UnpackRun :=
  have hne : s.run ≠ .error := by simp [hr]
  ⟨h.data, hr, h.err_eq_none hne, h.errOp_eq_zero hne, htr, hgt, hop⟩

/-- `UNPACK` stays `UNPACK` through what its parts write. -/
theorem State.UnpackRun.keep (h : s.UnpackRun) (hs : UnpackStep s u) : u.UnpackRun := by
  have hc := State.field_of_sansUnpack (fun v => (v.run, v.err, v.errOp, v.trState, v.gtPhase, v.cmd)) hs.frame
  simp only [Prod.mk.injEq] at hc
  obtain ⟨hrun, herr, hop, htr, hgt, hcmd⟩ := hc
  exact ⟨hs.data, hrun.trans h.run, herr.trans h.err, hop.trans h.errOp, htr.trans h.trIdle, hgt.trans h.gtStart, by
    rw [hcmd]; exact h.command⟩

theorem State.UnpackRun.withUpState (h : s.UnpackRun) (x : UpState) : ({ s with upState := x } : State).UnpackRun :=
  { h with data := { h.data with } }

theorem State.UnpackRun.undo (h : s.UnpackRun) (hv : s.outValid = false) : (undoOnError s).DataOk :=
  h.data.undoOnError fun _ => hv

/-! ### The arrows of rule R191 -/

theorem unpackArrow_idle_inv (h : s.UnpackRun) (hx : s.upState = .idle) : GoesTo (unpackArrow s) State.Inv := by
  rw [unpackArrow_idle hx]
  exact .next (((h.keep (beginUnpack_step h.data)).withUpState .check).inv rfl rfl)

theorem unpackArrow_check_inv (h : s.UnpackRun) (hx : s.upState = .check) (hv : s.outValid = false)
    (ho : s.outLen = 0) : GoesTo (unpackArrow s) State.Inv := by
  rw [unpackArrow_check hx]
  refine ArrowKeeps.endArrow ?_
  rcases unpackCheck_cases s.unpackLevel s with
    ⟨-, he⟩ | ⟨-, -, he⟩ | ⟨-, -, -, he⟩ | ⟨-, -, -, -, he⟩ | ⟨b, -, hb, -, hw, he⟩ <;> rw [he]
  · exact h.undo hv
  · exact h.undo hv
  · exact h.undo hv
  · exact h.undo hv
  · exact ((h.keep (checked_step h.data ho hv hb).1).withUpState .seek).inv hv ⟨ho, hw⟩

theorem unpackArrow_seek_inv (h : s.UnpackRun) (hx : s.upState = .seek) (hv : s.outValid = false)
    (hw : (s.levelOfs s.unpackLevel).toNat + (s.levelSize s.unpackLevel).toNat ≤ s.bufLen.toNat) :
    GoesTo (unpackArrow s) State.Inv := by
  rw [unpackArrow_seek hx]
  exact .next (((h.keep (unpackSeek_step h.data hw)).withUpState .decode).inv hv trivial)

theorem unpackArrow_decode_inv (h : s.UnpackRun) (hx : s.upState = .decode) (hv : s.outValid = false) :
    GoesTo (unpackArrow s) State.Inv := by
  by_cases hlt : s.outLen.toNat < s.expLen.toNat
  · rw [unpackArrow_decode hx hlt]
    have hmoved : ∀ {v : State}, v.MovedFrom s → v.UnpackRun ∧ v.outValid = false := by
      rintro _ ⟨k, hk, rfl⟩
      exact ⟨h.keep (.moved h.data ⟨k, hk, rfl⟩), hv⟩
    refine (ArrowKeeps.bind (unpackDecode_meets h.data) (fun x v ⟨hm, _⟩ => ?_) fun e v ⟨_, hm⟩ => ?_).endArrow
    · obtain ⟨hrun, hvv⟩ := hmoved hm
      exact (hrun.withUpState (.expand x)).inv hvv trivial
    · obtain ⟨hrun, hvv⟩ := hmoved hm
      exact hrun.undo hvv
  · rw [unpackArrow_decode_last hx hlt]
    have hall : s.outLen = s.expLen := BitVec.eq_of_toNat_eq (Nat.le_antisymm h.data.outLenLe (Nat.not_lt.1 hlt))
    exact .next ((h.withUpState .done).inv hv hall)

theorem unpackArrow_expand_inv (h : s.UnpackRun) {x : Nat} (hx : s.upState = .expand x) (hv : s.outValid = false) :
    GoesTo (unpackArrow s) State.Inv := by
  rw [unpackArrow_expand hx]
  refine (ArrowKeeps.bind (unpackExpand_meets x h.data) (fun bs v ⟨hex, hlen⟩ => ?_)
    fun e v ⟨_, hs, _, hvv⟩ => (h.keep hs).undo (hvv.trans hv)).endArrow
  have hrun := h.keep (UnpackStep.expanded h.data hex)
  obtain ⟨k, c, -, rfl⟩ := hex
  exact (hrun.withUpState (.emit bs)).inv hv hlen

theorem unpackArrow_emit_inv (h : s.UnpackRun) {bs : List Byte} (hx : s.upState = .emit bs) (hv : s.outValid = false)
    (hlen : s.outLen.toNat + bs.length ≤ s.expLen.toNat) : GoesTo (unpackArrow s) State.Inv := by
  cases bs with
  | nil =>
    rw [unpackArrow_emit_nil hx]
    exact .next ((h.withUpState .decode).inv hv trivial)
  | cons b bs =>
    rw [unpackArrow_emit_cons hx]
    rw [List.length_cons] at hlen
    have hone : s.outLen.toNat + [b].length ≤ s.expLen.toNat := by
      rw [List.length_singleton]
      omega
    obtain ⟨hs, hout⟩ := outAppendAll_step h.data hone hv
    have hleft : (s.outAppend b).outLen.toNat + bs.length ≤ s.expLen.toNat := by
      rw [show (s.outAppend b).outLen.toNat = s.outLen.toNat + 1 from hout]
      omega
    exact .next (((h.keep hs).withUpState (.emit bs)).inv hv hleft)

theorem unpackArrow_done_inv (h : s.UnpackRun) (hx : s.upState = .done) (hall : s.outLen = s.expLen) :
    GoesTo (unpackArrow s) State.Inv := by
  rw [unpackArrow_done hx]
  have hd : ({ s with outValid := true } : State).DataOk := { h.data with outWhole := fun _ => hall }
  exact .next (hd.complete_inv h.err h.errOp)

theorem unpackArrow_inv (h : s.UnpackRun) (hu : s.UnpackOk) (hne : s.upState ≠ .idle) :
    GoesTo (unpackArrow s) State.Inv := by
  have hv := hu.outInvalid
  cases hx : s.upState with
  | idle => exact absurd hx hne
  | check => exact unpackArrow_check_inv h hx hv (hu.begun (.inl hx))
  | seek => exact unpackArrow_seek_inv h hx hv (hu.window hx)
  | decode => exact unpackArrow_decode_inv h hx hv
  | expand x => exact unpackArrow_expand_inv h hx hv
  | emit bs => exact unpackArrow_emit_inv h hx hv (hu.emit bs hx)
  | done => exact unpackArrow_done_inv h hx (hu.done hx)

/-! ### Every step -/

theorem opByte_of_decodeCommand {w : Word} {i : Instr} {op a : BitVec 8} (h : decodeCommand w = .ok i)
    (hi : encode i = .command (commandWord op a)) : opByte w = op := by
  obtain rfl : commandWord op a = w := Code.command.inj (hi.symm.trans (encode_of_decodeCommand h))
  exact opByte_commandWord op a

/-- The first step of a command that has been written to `CMD` (rule R80). -/
theorem beginCommand_inv (h : s.Inv) (hr : s.run = .busy) (hrest : s.Resting) : GoesTo (beginCommand s) State.Inv := by
  have hne : s.run ≠ .error := by simp [hr]
  have hwhole : ∀ i, decodeCommand s.cmd = .ok i → GoesTo (exec i { s with run := .idle }) State.Inv := fun i hi =>
    exec_command_inv (h.withRun hrest hne s.cmd (by simp)) (decodeCommand_isCommand hi) (by simp)
  obtain ⟨htr, hgt, hup⟩ := hrest
  unfold beginCommand
  split
  · next t hi =>
    split
    · have hop := opByte_of_decodeCommand hi rfl
      rw [tableArrow_idle htr]
      exact (trIdleArrow_keeps
        ⟨h.data, hr, h.err_eq_none hne, h.errOp_eq_zero hne, hup, .inl ⟨hop, hgt⟩⟩).endArrow
    · exact hwhole _ hi
  · next hi =>
    split
    · have hop := opByte_of_decodeCommand hi rfl
      rw [tableArrow_idle htr]
      exact (trIdleArrow_gettab_keeps h hr hup hop hgt htr).endArrow
    · exact hwhole _ hi
  · next k hi =>
    split
    · have hop := opByte_of_decodeCommand hi rfl
      exact unpackArrow_idle_inv (h.unpackRun hr htr hgt hop) hup
    · exact hwhole _ hi
  · next i _ _ _ hi => exact hwhole i hi
  · exact .next (h.data.raiseError_inv _ _)

/-- A step of a running command (70_reset_and_hazards.md rule R246). -/
theorem busyStep_inv (h : s.Inv) (hr : s.run = .busy) : GoesTo (busyStep s) State.Inv := by
  unfold busyStep
  split
  · next hc =>
    have ht := h.inTable hc
    have hrun := h.tableRun hr ht
    split
    · next hat =>
      simp only [State.atSymbol, Bool.and_eq_true, decide_eq_true_eq] at hat
      obtain ⟨⟨-, hsym⟩, hlt⟩ := hat
      obtain ⟨hv, -⟩ := ht.symbols (.inl hsym)
      exact symbolStep_inv hrun hsym hv hlt
    · exact tableArrow_inv hrun ht
  · next hc =>
    simp only [ne_eq, not_or, Classical.not_not] at hc
    obtain ⟨htr, hgt⟩ := hc
    split
    · next hup =>
      have hu := h.inUnpack hup
      exact unpackArrow_inv (h.unpackRun hr htr hgt hu.command) hu hup
    · next hup => exact beginCommand_inv h hr ⟨htr, hgt, Classical.not_not.1 hup⟩

/-- From a state that meets the invariant a step goes on, to a state that meets it. -/
theorem step_inv (h : s.Inv) : GoesTo (step s) State.Inv := by
  unfold step hostStep
  split
  · exact .next (State.applyReset_inv h.data.cfgWf h.data.bufWf)
  · next rest _ => exact .next (State.hostRead_inv (h.withInputs rest) _)
  · next rest _ =>
    split
    · next hr => exact busyStep_inv (h.withInputs rest) hr
    · exact .next (h.withInputs rest)
  · next r v rest _ =>
    split
    · next hr => exact busyStep_inv h hr
    · next hr =>
      split
      · exact commandWrite_inv (h.withInputs rest) hr v
      · exact .next (State.hostWrite_inv (h.withInputs rest) hr r v)
  · next a b rest _ =>
    split
    · next hr => exact busyStep_inv h hr
    · next hr => exact .next (State.hostPoke_inv (h.withInputs rest) hr a b)
  · split
    · next hr => exact busyStep_inv h hr
    · exact .next h

end

end Sys2Proof.Machine

open Sys2Proof Sys2Proof.Machine

/-- Settles O55: every action of the host and every step of a running command keeps the invariant. -/
theorem stepKeepsTheInvariant : Obligations.StepKeepsTheInvariant := by
  intro s u h hu
  obtain ⟨v, hv, hinv⟩ := step_inv h
  obtain rfl : v = u := by simpa [hv] using hu
  exact hinv

end

section
/-! The host's side of the core (44_system.md): an error stays until `CLRERR` or reset, what host writes and reads do,
and the fields of `STATUS`. -/

namespace Sys2Proof.Machine

/-! ### `ERROR` (10_state.md rules R27 and R28) -/

section
variable {s t u : State}

/-- In `ERROR` every command but `CLRERR` is ignored (60_exceptions.md rule R217). -/
theorem exec_command_error {i : Instr} (hd : s.DataOk) (hi : isCommand i = true) (hne : i ≠ .clrerr)
    (hr : s.run = .error) : exec i s = .next s := by
  obtain ⟨u, he, ho⟩ := exec_command_outcome hd hi (by simp [hr])
  cases ho with
  | ignored => exact he
  | cleared _ hi => exact absurd hi hne
  | done hidle => simp [hr] at hidle
  | failed hidle => simp [hr] at hidle

/-- In `ERROR` a command word other than that of `CLRERR` is ignored (rule R217). -/
theorem commandWrite_error {w : Word} (hd : s.DataOk) (hr : s.run = .error) (hw : w ≠ 0x0A000000) :
    commandWrite w s = .next s := by
  unfold commandWrite
  split
  · next i hi =>
    have hne : i ≠ .clrerr := by
      rintro rfl
      exact hw (Code.command.inj (encode_of_decodeCommand hi)).symm
    rw [if_neg (by simp [hr])]
    exact exec_command_error hd (decodeCommand_isCommand hi) hne hr
  · exact launchIllegal_error hr

theorem State.hostWrite_error (hr : s.run = .error) (r : Nat) (v : Word) : s.hostWrite r v = s := if_pos hr

theorem State.control_hostRead (s : State) (r : Nat) : (s.hostRead r).control = s.control := by
  unfold State.hostRead
  split <;> rfl

/-- In `ERROR` nothing but reset and `CLRERR` changes what the core is doing. -/
theorem step_error_control (h : s.Inv) (hr : s.run = .error) (hu : step s = .next u) :
    u.control = s.control ∨ (∃ rest, s.inputs = .reset :: rest) ∨ ∃ rest, s.inputs = .write 0 0x0A000000 :: rest := by
  have hidle : s.run ≠ .busy := by simp [hr]
  unfold step hostStep at hu
  split at hu
  · next rest hq => exact .inr (.inl ⟨rest, hq⟩)
  · cases hu
    exact .inl (State.control_hostRead _ _)
  · rw [if_neg hidle] at hu
    cases hu
    exact .inl rfl
  · next r v rest hq =>
    rw [if_neg hidle] at hu
    split at hu
    · next hr0 =>
      subst hr0
      by_cases hv : v = 0x0A000000
      · subst hv
        exact .inr (.inr ⟨rest, hq⟩)
      · rw [commandWrite_error (h.withInputs rest).data hr hv] at hu
        cases hu
        exact .inl rfl
    · cases hu
      rw [State.hostWrite_error (s := { s with inputs := rest }) hr]
      exact .inl rfl
  · rw [if_neg hidle] at hu
    cases hu
    exact .inl rfl
  · rw [if_neg hidle] at hu
    cases hu
    exact .inl rfl

/-! ### Host writes (44_system.md rule R204) -/

/-- A host write in `IDLE` to a register other than `CMD`. -/
theorem step_write_idle (hr : s.run = .idle) {r : Nat} (h0 : r ≠ 0) (v : Word) (rest : List HostAction) :
    step { s with inputs := .write r v :: rest } = .next (({ s with inputs := rest } : State).hostWrite r v) := by
  have hidle : s.run ≠ .busy := by simp [hr]
  exact (if_neg hidle).trans (if_neg h0)

theorem State.hostWrite_legal (hr : s.run = .idle) {r : Nat} {reg : HostReg} {v : Word}
    (hreg : hostReg s.cfg r = some reg) (hw : s.writeReg reg v = some u) : s.hostWrite r v = u := by
  unfold State.hostWrite
  rw [if_neg (by simp [hr]), hreg, Option.bind_some, hw, Option.getD_some]

theorem State.hostWrite_unassigned (hr : s.run = .idle) {r : Nat} (hreg : hostReg s.cfg r = none) (v : Word) :
    s.hostWrite r v = s.raiseError 0 .illegalCommand := by
  unfold State.hostWrite
  rw [if_neg (by simp [hr]), hreg]
  rfl

theorem State.hostWrite_illegal (hr : s.run = .idle) {r : Nat} {reg : HostReg} {v : Word}
    (hreg : hostReg s.cfg r = some reg) (hw : s.writeReg reg v = none) :
    s.hostWrite r v = s.raiseError 0 .illegalCommand := by
  unfold State.hostWrite
  rw [if_neg (by simp [hr]), hreg, Option.bind_some, hw]
  rfl

/-- The registers of the levels (10_state.md rule R30). -/
theorem hostReg_level {c : Config} {r : Nat} (h1 : 0x20 ≤ r) (h2 : r < 0x40) :
    hostReg c r = if 0x20 ≤ r ∧ r < 0x20 + c.maxLevels then some (.lvlOfs (r - 0x20))
      else if 0x30 ≤ r ∧ r < 0x30 + c.maxLevels then some (.lvlSize (r - 0x30)) else none := by
  interval_cases r <;> rfl

/-- The numbers that are no host read/write register (10_state.md rules R24 to R44). -/
theorem hostReg_eq_none {c : Config} (hc : c.maxLevels ≤ 16) {r : Nat}
    (h : r = 0x01 ∨ r = 0x04 ∨ 0x06 ≤ r ∧ r ≤ 0x08 ∨ 0x0F ≤ r ∧ r ≤ 0x1F ∨ 0x20 + c.maxLevels ≤ r ∧ r < 0x30
      ∨ 0x30 + c.maxLevels ≤ r ∧ r < 0x40 ∨ 0x43 ≤ r) : hostReg c r = none := by
  have hofs : ¬ (0x20 ≤ r ∧ r < 0x20 + c.maxLevels) := by omega
  have hsize : ¬ (0x30 ≤ r ∧ r < 0x30 + c.maxLevels) := by omega
  unfold hostReg
  split
  case h_13 => rw [if_neg hofs, if_neg hsize]
  all_goals omega

theorem setIfInBounds_eq_set {α : Type} {n : Nat} (xs : Vector α n) {i : Nat} (h : i < n) (v : α) :
    xs.setIfInBounds i v = xs.set i v h := by
  apply Vector.toArray_inj.1
  simp [Array.setIfInBounds_def, h]

/-! ### Host reads (44_system.md rule R203) -/

/-- A host read while not `BUSY` of a register that has a value. -/
theorem State.hostRead_eq (hr : s.run ≠ .busy) {r : Nat}
    (hp : r < 0x43 ∨ 0x46 < r ∨ (s.slot s.tSel).valid = true) : s.hostRead r = { s with busData := s.regValue r } := by
  have hfree : s.readIsFree r = false := by
    rcases hp with hp | hp | hp
    · simp [State.readIsFree, hr, show ¬ 0x43 ≤ r by omega]
    · simp [State.readIsFree, hr, show ¬ r ≤ 0x46 by omega]
    · simp [State.readIsFree, hp, hr]
  unfold State.hostRead
  rw [hfree]
  rfl

theorem State.slot_inputs (s : State) (q : List HostAction) (x : SlotId) :
    ({ s with inputs := q } : State).slot x = s.slot x := by
  cases x <;> rfl

/-- A port of an invalid slot reads as a free value (93_implementation_defined.md U13). -/
theorem State.hostRead_free {r : Nat} (h1 : 0x43 ≤ r) (h2 : r ≤ 0x46) (hv : (s.slot s.tSel).valid = false) :
    s.hostRead r = { s with busData := s.freeRead r, freeCount := s.freeCount + 1 } := by
  have hfree : s.readIsFree r = true := by simp [State.readIsFree, h1, h2, hv]
  unfold State.hostRead
  rw [hfree]
  rfl

theorem State.regValue_low {r : Nat} (h : r < 0x20) : s.regValue r = s.readLow r := if_pos h

theorem State.regValue_lvlOfs {i : Nat} (h : i < s.cfg.maxLevels) : s.regValue (0x20 + i) = s.levelOfs i := by
  unfold State.regValue
  rw [if_neg (by omega), if_pos (by omega), Nat.add_sub_cancel_left]

theorem State.regValue_lvlSize (hc : s.cfg.maxLevels ≤ 16) {i : Nat} (h : i < s.cfg.maxLevels) :
    s.regValue (0x30 + i) = s.levelSize i := by
  unfold State.regValue
  rw [if_neg (by omega), if_neg (by omega), if_pos (by omega), Nat.add_sub_cancel_left]

/-- Every number beyond the levels' registers is a port, or unassigned. -/
theorem State.regValue_port (hc : s.cfg.maxLevels ≤ 16) {r : Nat}
    (h : 0x20 + s.cfg.maxLevels ≤ r ∧ r < 0x30 ∨ 0x30 + s.cfg.maxLevels ≤ r) : s.regValue r = s.readPort r := by
  unfold State.regValue
  rw [if_neg (by omega), if_neg (by omega), if_neg (by omega)]

theorem State.readPort_unassigned {r : Nat} (h : r < 0x40 ∨ 0x49 ≤ r) : s.readPort r = 0 := by
  unfold State.readPort
  split
  case h_10 => rfl
  all_goals omega

/-- The numbers that no register has read 0 (rule R203). -/
theorem State.regValue_unassigned (hc : s.cfg.maxLevels ≤ 16) {r : Nat}
    (h : 0x17 ≤ r ∧ r ≤ 0x1F ∨ 0x20 + s.cfg.maxLevels ≤ r ∧ r < 0x30 ∨ 0x30 + s.cfg.maxLevels ≤ r ∧ r < 0x40
      ∨ 0x49 ≤ r) : s.regValue r = 0 := by
  by_cases hlow : r < 0x20
  · have h17 : 0x17 ≤ r := by omega
    rw [State.regValue_low hlow]
    interval_cases r <;> rfl
  · rw [State.regValue_port hc (by omega), State.readPort_unassigned (by omega)]

end

/-- The low word of a 33-bit register (10_state.md rules R40 and R41). -/
theorem extractLsb'_low (x : BitVec 33) : x.extractLsb' 0 32 = BitVec.ofNat 32 (x.toNat % 2 ^ 32) := by
  apply BitVec.eq_of_toNat_eq
  simp

/-- The high bit of a 33-bit register, zero-extended. -/
theorem extractLsb'_high (x : BitVec 33) :
    (x.extractLsb' 32 1).zeroExtend 32 = BitVec.ofNat 32 (x.toNat / 2 ^ 32) := by
  have hx := x.isLt
  apply BitVec.eq_of_toNat_eq
  simp only [BitVec.truncate_eq_setWidth, BitVec.toNat_setWidth, BitVec.extractLsb'_toNat, BitVec.toNat_ofNat,
    Nat.shiftRight_eq_div_pow]
  omega

/-! ### `STATUS` (10_state.md rule R26) -/

theorem flagBit_lt (b : Bool) : flagBit b < 2 := by
  cases b <;> decide

theorem RunState.code_lt (r : RunState) : r.code < 3 := by
  cases r <;> decide

theorem errCode_lt (e : Option ErrorKind) : errCode e < 13 := by
  cases e with
  | none => decide
  | some k => cases k <;> decide

/-- The fields of `STATUS` fit side by side. -/
theorem State.toNat_status (s : State) :
    s.status.toNat = s.run.code + 2 ^ 4 * flagBit s.t0.valid + 2 ^ 5 * flagBit s.t1.valid
      + 2 ^ 6 * flagBit s.tmp.valid + 2 ^ 7 * flagBit s.outValid + 2 ^ 8 * errCode s.err + 2 ^ 12 * s.errOp.toNat := by
  have hrun := s.run.code_lt
  have h0 := flagBit_lt s.t0.valid
  have h1 := flagBit_lt s.t1.valid
  have h2 := flagBit_lt s.tmp.valid
  have h3 := flagBit_lt s.outValid
  have herr := errCode_lt s.err
  have hop := s.errOp.isLt
  unfold State.status
  rw [BitVec.toNat_ofNat]
  exact Nat.mod_eq_of_lt (by omega)

theorem getLsbD_eq_flag {w : Word} {n : Nat} {b : Bool} (h : w.toNat / 2 ^ n % 2 = flagBit b) : w.getLsbD n = b := by
  rw [BitVec.getLsbD, Nat.testBit_eq_decide_div_mod_eq, h]
  cases b <;> rfl

end Sys2Proof.Machine

open Sys2Proof Sys2Proof.Machine

/-- Settles O46: in `ERROR` nothing but reset and `CLRERR` changes what the core is doing. -/
theorem errIsSticky : Obligations.ErrIsSticky := by
  intro s u e h he hu
  have hr : s.run = .error := h.errorIff.2 (by simp [he])
  rcases step_error_control h hr hu with hc | hc
  · simp only [State.control, Prod.mk.injEq] at hc
    obtain ⟨hrun, herr, hop, -⟩ := hc
    exact .inl ⟨herr.trans he, hop, hrun.trans hr⟩
  · exact .inr hc

/-- Settles O40: a write is taken where its number is a register's and its value is legal for it. -/
theorem hostWrites : Obligations.HostWrites := by
  intro s t v rest after hr hc ht hafter
  subst ht
  have taken : ∀ {r : Nat} (reg : HostReg) {u : State}, r ≠ 0 → hostReg s.cfg r = some reg →
      ({ s with inputs := rest } : State).writeReg reg v = some u → after r = .next u := by
    intro r reg u h0 hreg hw
    rw [hafter, step_write_idle hr h0, State.hostWrite_legal (s := { s with inputs := rest }) hr hreg hw]
  have refused : ∀ {r : Nat} (reg : HostReg), r ≠ 0 → hostReg s.cfg r = some reg →
      ({ s with inputs := rest } : State).writeReg reg v = none →
      after r = .next (({ s with inputs := rest } : State).raiseError 0 .illegalCommand) := by
    intro r reg h0 hreg hw
    rw [hafter, step_write_idle hr h0, State.hostWrite_illegal (s := { s with inputs := rest }) hr hreg hw]
  refine ⟨taken .arg0 (by decide) rfl rfl, taken .arg1 (by decide) rfl rfl, taken .bufLen (by decide) rfl rfl,
    taken .tableOfs (by decide) rfl rfl,
    fun hv => ⟨taken .imgW (by decide) rfl (if_pos hv), taken .imgH (by decide) rfl (if_pos hv)⟩,
    fun n hn hle => taken .levelCount (by decide) rfl ?_, fun hv => taken .fmt (by decide) rfl (if_pos hv),
    fun hv => taken .nsym (by decide) rfl (if_pos hv), fun i hi => ⟨?_, ?_⟩, taken .idx (by decide) rfl rfl,
    fun hv hidx => ?_, fun x hx => taken .tSel (by decide) rfl ?_, fun r h0 hcase => ?_⟩
  · have h17 : v.toNat < 17 := hn ▸ n.isLt
    have hfin : (⟨v.toNat, h17⟩ : Fin 17) = n := Fin.ext hn
    rw [← hfin]
    exact (dif_pos h17).trans (if_pos (hn ▸ hle))
  · have hi16 := i.isLt
    have hreg : hostReg s.cfg (0x20 + i.val) = some (.lvlOfs i.val) := by
      rw [hostReg_level (by omega) (by omega), if_pos (by omega), Nat.add_sub_cancel_left]
    refine taken (.lvlOfs i.val) (by omega) hreg ?_
    rw [← setIfInBounds_eq_set]
    rfl
  · have hi16 := i.isLt
    have hreg : hostReg s.cfg (0x30 + i.val) = some (.lvlSize i.val) := by
      rw [hostReg_level (by omega) (by omega), if_neg (by omega), if_pos (by omega), Nat.add_sub_cancel_left]
    refine taken (.lvlSize i.val) (by omega) hreg ?_
    rw [← setIfInBounds_eq_set]
    rfl
  · have hlegal : v.toNat < 2 ^ 5 ∧ s.idx.toNat < daSize := ⟨hv, Nat.lt_succ_of_le hidx⟩
    exact ⟨_, taken .daData (by decide) rfl (if_pos hlegal), fun k => Store.find_put _ _ _ _⟩
  · cases x with
    | t0 => exact if_pos (BitVec.eq_of_toNat_eq hx)
    | t1 =>
      obtain rfl : v = 1 := BitVec.eq_of_toNat_eq hx
      rfl
    | tmp =>
      obtain rfl : v = 2 := BitVec.eq_of_toNat_eq hx
      rfl
  · have unassigned : hostReg s.cfg r = none →
        after r = .next (({ s with inputs := rest } : State).raiseError 0 .illegalCommand) := fun hnone => by
      rw [hafter, step_write_idle hr h0, State.hostWrite_unassigned (s := { s with inputs := rest }) hr hnone]
    rcases hcase with h | h | h | h | h | h | h | ⟨hreg | hreg, hv⟩ | ⟨rfl, hv⟩ | ⟨rfl, hv⟩ | ⟨rfl, hv⟩ | ⟨rfl, hv⟩ |
      ⟨rfl, hv⟩
    iterate 7 exact unassigned (hostReg_eq_none hc (by omega))
    · subst hreg
      exact refused .imgW h0 rfl (if_neg (Nat.not_lt.2 hv))
    · subst hreg
      exact refused .imgH h0 rfl (if_neg (Nat.not_lt.2 hv))
    · refine refused .levelCount h0 rfl ?_
      by_cases h17 : v.toNat < 17
      · exact (dif_pos h17).trans (if_neg (show ¬ v.toNat ≤ s.cfg.maxLevels by omega))
      · exact dif_neg h17
    · exact refused .fmt h0 rfl (if_neg (Nat.not_lt.2 hv))
    · exact refused .nsym h0 rfl (if_neg (Nat.not_lt.2 hv))
    · refine refused .daData h0 rfl (if_neg ?_)
      show ¬ (v.toNat < 2 ^ 5 ∧ s.idx.toNat < 16383)
      omega
    · have hne : ∀ n : Word, n.toNat < 3 → v ≠ n := fun n hn hvn => by
        rw [hvn] at hv
        omega
      refine refused .tSel h0 rfl ?_
      exact (if_neg (hne 0 (by decide))).trans
        ((if_neg (hne 1 (by decide))).trans (if_neg (hne 2 (by decide))))

/-- Settles O41: the read answers with the register's value, but for the ports of an invalid slot. -/
theorem hostReads : Obligations.HostReads := by
  intro s t rest reads hr hc ht hreads
  subst ht
  have value : ∀ {r : Nat} {v : Word}, r < 0x43 ∨ 0x46 < r ∨ (s.slot s.tSel).valid = true → s.regValue r = v →
      reads r v := by
    intro r v hp hv
    have hslot := congrArg Slot.valid (s.slot_inputs rest s.tSel)
    rw [hreads, ← hv]
    exact congrArg Host.Outcome.next
      (State.hostRead_eq (s := { s with inputs := rest }) hr (hp.imp_right fun h => h.imp_right hslot.trans))
  have low : ∀ {r : Nat} {v : Word}, r < 0x20 → s.readLow r = v → reads r v := fun hlt hv =>
    value (.inl (by omega)) ((State.regValue_low hlt).trans hv)
  have port : ∀ {r : Nat} {v : Word}, 0x40 ≤ r → r < 0x43 ∨ 0x46 < r ∨ (s.slot s.tSel).valid = true →
      s.readPort r = v → reads r v := fun hle hp hv =>
    value hp ((State.regValue_port hc (by omega)).trans hv)
  refine ⟨low (by decide) rfl, low (by decide) rfl, low (by decide) rfl, low (by decide) rfl, low (by decide) rfl,
    low (by decide) rfl, low (by decide) rfl, low (by decide) rfl, low (by decide) rfl, low (by decide) rfl,
    low (by decide) rfl, low (by decide) rfl, low (by decide) rfl, low (by decide) rfl, low (by decide) rfl,
    low (by decide) rfl, low (by decide) rfl, low (by decide) rfl, low (by decide) rfl,
    low (by decide) (extractLsb'_low _), low (by decide) (extractLsb'_high _),
    low (by decide) (extractLsb'_low _), low (by decide) (extractLsb'_high _),
    fun i hi => ⟨value (.inl (by omega)) ?_, value (.inl (by omega)) ?_⟩,
    port (by decide) (.inl (by decide)) rfl, port (by decide) (.inl (by decide)) ?_,
    port (by decide) (.inl (by decide)) rfl, fun hv => ⟨?_, ?_, ?_, ?_⟩, fun hv r h1 h2 => ?_,
    port (by decide) (.inr (.inl (by decide))) rfl, port (by decide) (.inr (.inl (by decide))) rfl,
    fun r hr0 => value ?_ (State.regValue_unassigned hc hr0)⟩
  · rw [State.regValue_lvlOfs hi]
    simp [State.levelOfs]
  · rw [State.regValue_lvlSize hc hi]
    simp [State.levelSize]
  · exact if_congr (show s.idx.toNat < 16383 ↔ _ by omega) rfl rfl
  · exact port (by decide) (.inr (.inr hv)) rfl
  · refine port (by decide) (.inr (.inr hv)) ?_
    exact apply_ite (BitVec.ofNat 32) _ _ _
  · refine port (by decide) (.inr (.inr hv)) ?_
    exact apply_ite (BitVec.ofNat 32) _ _ _
  · exact port (by decide) (.inr (.inr hv)) rfl
  · exact ⟨_, congrArg Host.Outcome.next (State.hostRead_free (s := { s with inputs := rest }) h1 h2
      ((congrArg Slot.valid (s.slot_inputs rest s.tSel)).trans hv))⟩
  · omega

/-- Settles O42: the fields of `STATUS` lie side by side, each below the next. -/
theorem statusFields : Obligations.StatusFields := by
  intro s
  have hst := s.toNat_status
  have hrun := s.run.code_lt
  have h0 := flagBit_lt s.t0.valid
  have h1 := flagBit_lt s.t1.valid
  have h2 := flagBit_lt s.tmp.valid
  have h3 := flagBit_lt s.outValid
  have herr := errCode_lt s.err
  have hop := s.errOp.isLt
  have field : ∀ n w, (s.status.extractLsb' n w).toNat = s.status.toNat / 2 ^ n % 2 ^ w := fun n w => by
    rw [BitVec.extractLsb'_toNat, Nat.shiftRight_eq_div_pow]
  refine ⟨?_, getLsbD_eq_flag (b := false) ?_, getLsbD_eq_flag (b := false) ?_, getLsbD_eq_flag ?_, getLsbD_eq_flag ?_,
    getLsbD_eq_flag ?_, getLsbD_eq_flag ?_, ?_, BitVec.eq_of_toNat_eq ?_, BitVec.eq_of_toNat_eq ?_⟩
  · have hcode : (s.status.extractLsb' 0 2).toNat = s.run.code := by rw [field]; omega
    rw [hcode]
    cases s.run <;> rfl
  · show _ = 0
    omega
  · show _ = 0
    omega
  · omega
  · omega
  · omega
  · omega
  · have hcode : (s.status.extractLsb' 8 4).toNat = errCode s.err := by rw [field]; omega
    rw [hcode]
    cases s.err with
    | none => rfl
    | some k => cases k <;> rfl
  · rw [field]
    omega
  · rw [field]
    show _ = 0
    omega

end

section
/-! `ReadBits` in closed form (40_bitreader.md rules R112 and R115): when it answers a value, which binary digits the
value has, and that two reads make one. -/

namespace Sys2Proof.Machine

section
variable {s u : State} {a n v : Nat} {bits : List Nat}

/-- When `ReadBits(n)` answers a value, which, and where it leaves the cursor (rule R112). -/
theorem readBits_eq_ok_iff (h : s.cursorOk) :
    readBits n s = .ok v u ↔ n ≤ s.rem ∧ v = fieldValue s.cfg.bitOrder (s.nextBits n) ∧ u = s.skipBits n := by
  constructor
  · intro hv
    rcases readBits_cases n h with ⟨hn, he⟩ | ⟨-, he⟩ <;> rw [he] at hv <;> cases hv
    exact ⟨hn, rfl, rfl⟩
  · rintro ⟨hn, rfl, rfl⟩
    exact readBits_eq h hn

/-! ### The digits of a field -/

/-- The digit j of a field, least significant first, is the bit consumed after j others. -/
theorem testBit_lsbValue (hbits : ∀ b ∈ bits, b ≤ 1) {j : Nat} (hj : j < bits.length) :
    (lsbValue bits).testBit j = decide (bits[j] = 1) := by
  induction bits generalizing j with
  | nil => cases hj
  | cons c rest ih =>
    have hc : c ≤ 1 := hbits c List.mem_cons_self
    have hval : lsbValue (c :: rest) = c + 2 * lsbValue rest := rfl
    cases j with
    | zero =>
      rw [Nat.testBit_zero, hval, List.getElem_cons_zero, show (c + 2 * lsbValue rest) % 2 = c by omega]
    | succ j =>
      rw [Nat.testBit_succ, hval, List.getElem_cons_succ, show (c + 2 * lsbValue rest) / 2 = lsbValue rest by omega]
      exact ih (fun b hb => hbits b (List.mem_cons_of_mem _ hb)) (Nat.lt_of_succ_lt_succ hj)

theorem msbValue_eq_lsbValue_reverse (bits : List Nat) : msbValue bits = lsbValue bits.reverse := by
  unfold msbValue lsbValue
  rw [List.foldr_reverse]
  simp only [Nat.add_comm]

/-- The digit of a field, most significant first, that has j others before it. -/
theorem testBit_msbValue (hbits : ∀ b ∈ bits, b ≤ 1) {j : Nat} (hj : j < bits.length) :
    (msbValue bits).testBit (bits.length - 1 - j) = decide (bits[j] = 1) := by
  rw [msbValue_eq_lsbValue_reverse, testBit_lsbValue (fun b hb => hbits b (List.mem_reverse.1 hb))
    (by rw [List.length_reverse]; omega), List.getElem_reverse]
  congr
  omega

theorem State.getElem_nextBits (s : State) (n : Nat) {j : Nat} (hj : j < (s.nextBits n).length) :
    (s.nextBits n)[j] = s.bitAt (s.pos + j) := by
  simp [State.nextBits]

/-- The value read by n bits under `LSB_FIRST`, digit by digit (rule R112). -/
theorem testBit_fieldValue_lsb (ho : s.cfg.bitOrder = .lsbFirst) {j : Nat} (hj : j < n) :
    (fieldValue s.cfg.bitOrder (s.nextBits n)).testBit j
      = (Memory.read s.buf ((s.pos + j) / 8)).getLsbD ((s.pos + j) % 8) := by
  rw [ho, fieldValue, testBit_lsbValue State.nextBits_le (by rwa [State.length_nextBits]), State.getElem_nextBits]
  simp [State.bitAt, ho]

/-- The value read by n bits under `MSB_FIRST`, digit by digit (rule R112). -/
theorem testBit_fieldValue_msb (ho : s.cfg.bitOrder = .msbFirst) {j : Nat} (hj : j < n) :
    (fieldValue s.cfg.bitOrder (s.nextBits n)).testBit (n - 1 - j)
      = (Memory.read s.buf ((s.pos + j) / 8)).getLsbD (7 - (s.pos + j) % 8) := by
  have hdigit := testBit_msbValue (bits := s.nextBits n) State.nextBits_le (j := j) (by rwa [State.length_nextBits])
  rw [State.getElem_nextBits, State.length_nextBits] at hdigit
  rw [ho, fieldValue, hdigit]
  simp [State.bitAt, ho]

/-- Fields joined as rule R62 says. -/
theorem fieldValue_append (o : BitOrder) (l r : List Nat) :
    fieldValue o (l ++ r) = match o with
      | .msbFirst => fieldValue o l * 2 ^ r.length + fieldValue o r
      | .lsbFirst => fieldValue o l + fieldValue o r * 2 ^ l.length := by
  cases o with
  | msbFirst => exact msbValue_append l r
  | lsbFirst => exact (lsbValue_append l r).trans (by rw [Nat.mul_comm]; rfl)

/-- A field of a + b bits at the cursor is one of a bits and one of b bits, joined (rule R115 c). -/
theorem fieldValue_nextBits_add (b : Nat) (h : s.pos + a < 2 ^ 35) :
    fieldValue s.cfg.bitOrder (s.nextBits (a + b)) = match s.cfg.bitOrder with
      | .msbFirst => fieldValue s.cfg.bitOrder (s.nextBits a) * 2 ^ b
          + fieldValue s.cfg.bitOrder ((s.skipBits a).nextBits b)
      | .lsbFirst => fieldValue s.cfg.bitOrder (s.nextBits a)
          + fieldValue s.cfg.bitOrder ((s.skipBits a).nextBits b) * 2 ^ a := by
  rw [s.nextBits_add a b h, fieldValue_append, State.length_nextBits, State.length_nextBits]

end

end Sys2Proof.Machine

open Sys2Proof Sys2Proof.Machine

/-- Settles O4: the value is that of the bits at the cursor, whose digits they are under either bit order. -/
theorem readBitsTakesTheBitsAtTheCursor : Obligations.ReadBitsTakesTheBitsAtTheCursor := by
  intro s n h _
  refine ⟨readBits_short, fun hn => ⟨fieldValue s.cfg.bitOrder (s.nextBits n), (s.skipBits n).brByte,
    (s.skipBits n).brBit, readBits_eq h hn, s.pos_skipBits n (s.pos_add_lt h hn), fieldValue_lt s n, ?_, ?_⟩⟩
  · exact fun ho j hj => testBit_fieldValue_msb ho hj
  · exact fun ho j hj => testBit_fieldValue_lsb ho hj

/-- Settles O5: the bits of the long read are those of the two short ones, one after the other. -/
theorem readBitsComposes : Obligations.ReadBitsComposes := by
  intro s a b v u h _
  have hrem : ∀ {n}, n ≤ s.rem → (s.skipBits n).rem = s.rem - n := s.rem_skipBits h
  have hvalue := fun ha : a ≤ s.rem => fieldValue_nextBits_add b (s.pos_add_lt h ha)
  have hskip : a ≤ s.rem → (s.skipBits a).skipBits b = s.skipBits (a + b) := fun ha =>
    s.skipBits_skipBits a b (s.pos_add_lt h ha)
  rw [readBits_eq_ok_iff h]
  constructor
  · rintro ⟨hab, rfl, rfl⟩
    have ha : a ≤ s.rem := by omega
    have hb : b ≤ (s.skipBits a).rem := by rw [hrem ha]; omega
    refine ⟨_, _, _, readBits_eq h ha, ?_, hvalue ha⟩
    rw [readBits_eq (s.cursorOk_skipBits h ha) hb, hskip ha]
    rfl
  · rintro ⟨x, y, t, hx, hy, rfl⟩
    obtain ⟨ha, rfl, rfl⟩ := (readBits_eq_ok_iff h).1 hx
    obtain ⟨hb, rfl, rfl⟩ := (readBits_eq_ok_iff (s.cursorOk_skipBits h ha)).1 hy
    rw [hrem ha] at hb
    exact ⟨by omega, (hvalue ha).symm, hskip ha⟩

end

section
/-! What a change of BUF outside the window of the cursor can do to `ReadBits`, `Decode` and `UNPACK`: nothing
(20_memory.md rule R66, 40_bitreader.md rule R115, 43_level_unpacker.md rule R192). -/

namespace Sys2Proof.Machine

/-! ### The same run over another buffer -/

/-- The state with BUF replaced by m. -/
def State.withBuf (s : State) (m : Memory) : State := { s with buf := m }

/-- The same answer, over the buffer m. -/
def Res.withBuf {α : Type} (m : Memory) : Res α → Res α
  | .ok a s => .ok a (s.withBuf m)
  | .stop x s => .stop x (s.withBuf m)

/-- The cursor is a good one, and m reads as BUF does from `BR_BYTE` up to `BR_END`. -/
structure State.SameWindow (s : State) (m : Memory) : Prop where
  cursor : s.cursorOk
  same   : ∀ a, s.brByte.toNat ≤ a → a < s.brEnd.toNat → Memory.read m a = Memory.read s.buf a

/-- The operation reads BUF inside the window only, and an answer keeps what lies there alike. -/
def WindowOnly {α : Type} (op : State → Res α) : Prop :=
  ∀ (m : Memory) (s : State), s.SameWindow m →
    op (s.withBuf m) = (op s).withBuf m ∧ ∀ a u, op s = .ok a u → u.SameWindow m

section
variable {α β : Type}

theorem WindowOnly.ok {a : State → α} {f : State → State} (ha : ∀ m s, a (s.withBuf m) = a s)
    (hf : ∀ m s, f (s.withBuf m) = (f s).withBuf m) (hw : ∀ m s, s.SameWindow m → (f s).SameWindow m) :
    WindowOnly fun s => .ok (a s) (f s) := by
  intro m s h
  refine ⟨?_, fun b u hu => ?_⟩
  · show Res.ok _ _ = Res.ok _ _
    rw [ha, hf]
  · cases hu
    exact hw m s h

theorem WindowOnly.stop (x : Stop) : WindowOnly (α := α) (.stop x) := fun _ _ _ => ⟨rfl, fun _ _ h => by cases h⟩

theorem WindowOnly.raise (e : ErrorKind) : WindowOnly (α := α) (raise e) := .stop _

theorem WindowOnly.bind {op : State → Res α} {f : α → State → Res β} (h : WindowOnly op) (hf : ∀ a, WindowOnly (f a)) :
    WindowOnly fun s => (op s).bind f := by
  intro m s hs
  obtain ⟨heq, hok⟩ := h m s hs
  simp only [heq]
  cases hr : op s with
  | ok a u => exact hf a m u (hok a u hr)
  | stop x u => exact ⟨rfl, fun _ _ h => by cases h⟩

theorem WindowOnly.ite {P : State → Prop} [DecidablePred P] {f g : State → Res α}
    (hP : ∀ m s, P (s.withBuf m) ↔ P s) (hf : WindowOnly f) (hg : WindowOnly g) :
    WindowOnly fun s => if P s then f s else g s := by
  intro m s hs
  simp only [hP]
  by_cases h : P s
  · simpa only [if_pos h] using hf m s hs
  · simpa only [if_neg h] using hg m s hs

end

/-! ### The bit reader and the decoder -/

section
variable {s : State} {m : Memory} {n : Nat}

theorem State.SameWindow.skipBits (h : s.SameWindow m) (hn : n ≤ s.rem) : (s.skipBits n).SameWindow m := by
  refine ⟨s.cursorOk_skipBits h.cursor hn, fun a hlo hhi => h.same a ?_ hhi⟩
  have h1 := s.pos_div
  have h2 := (s.skipBits n).pos_div
  rw [s.pos_skipBits n (s.pos_add_lt h.cursor hn)] at h2
  omega

theorem State.bitAt_withBuf {p : Nat} (h : Memory.read m (p / 8) = Memory.read s.buf (p / 8)) :
    (s.withBuf m).bitAt p = s.bitAt p := by
  simp only [State.bitAt, State.withBuf, h]

/-- The bits at the cursor lie in the window. -/
theorem State.SameWindow.nextBits (h : s.SameWindow m) (hn : n ≤ s.rem) :
    (s.withBuf m).nextBits n = s.nextBits n := by
  have hend := s.pos_add_rem h.cursor
  have hbyte := s.pos_div
  refine List.map_congr_left fun k hk => State.bitAt_withBuf (h.same _ ?_ ?_)
  · show s.brByte.toNat ≤ (s.pos + k) / 8
    omega
  · have hk' : k < n := List.mem_range.1 hk
    show (s.pos + k) / 8 < s.brEnd.toNat
    omega

end

theorem readBits_windowOnly (n : Nat) : WindowOnly (readBits n) := by
  intro m s h
  rcases readBits_cases n h.cursor with ⟨hn, he⟩ | ⟨hn, he⟩ <;> rw [he]
  · refine ⟨?_, ?_⟩
    · rw [readBits_eq (s := s.withBuf m) h.cursor hn, h.nextBits hn]
      rfl
    · intro _ _ hu
      cases hu
      exact h.skipBits hn
  · exact ⟨readBits_short (s := s.withBuf m) hn, fun _ _ hu => by cases hu⟩

@[simp] theorem State.slot_withBuf (s : State) (m : Memory) (t : SlotId) : (s.withBuf m).slot t = s.slot t := by
  cases t <;> rfl

theorem decodeLoop_windowOnly (t : SlotId) (n len cand : Nat) : WindowOnly (decodeLoop t n len cand) := by
  induction n generalizing len cand with
  | zero => exact .raise _
  | succ n ih =>
    refine .bind (readBits_windowOnly 1) fun b m s h => ?_
    rw [State.slot_withBuf]
    cases (s.slot t).lookup (len + 1) (2 * cand + b) with
    | none => exact ih _ _ m s h
    | some x => exact WindowOnly.ok (a := fun _ => x) (f := id) (fun _ _ => rfl) (fun _ _ => rfl) (fun _ _ => id) m s h

theorem decodeSym_windowOnly (t : SlotId) : WindowOnly (decodeSym t) := by
  intro m s h
  unfold decodeSym
  rw [State.slot_withBuf]
  exact decodeLoop_windowOnly t _ 0 0 m s h

/-! ### The unpacker -/

theorem unpackDecode_windowOnly : WindowOnly unpackDecode :=
  .ite (fun _ _ => .rfl) (.raise _) (decodeSym_windowOnly .t0)

theorem runExpand_windowOnly {aux : Bool} (p : ExpandProg aux) : WindowOnly (runExpand p) := by
  induction p with
  | done bs ctx => exact .ok (fun _ _ => rfl) (fun _ _ => rfl) fun _ _ h => ⟨h.cursor, h.same⟩
  | expandError => exact .raise _
  | readBits n k ih => exact .bind (readBits_windowOnly _) ih
  | decodeMain k ih => exact .bind (decodeSym_windowOnly .t0) ih
  | decodeAux _ k ih => exact .bind (decodeSym_windowOnly .t1) ih

/-- Whatever `EXPAND` is: it consumes bits on the core's own cursor (rule R186). -/
theorem expandSym_windowOnly (x : Nat) : WindowOnly (expandSym x) := by
  intro m s h
  unfold expandSym
  rw [show (s.withBuf m).cfg = s.cfg from rfl]
  cases s.cfg.expand with
  | literal => exact runExpand_windowOnly _ m s h
  | other id aux ctx0 => exact runExpand_windowOnly _ m s h

theorem unpackExpand_windowOnly (x : Nat) : WindowOnly (unpackExpand x) :=
  .bind (expandSym_windowOnly x) fun _ =>
    .ite (fun _ _ => .rfl) (.raise _) (.ok (fun _ _ => rfl) (fun _ _ => rfl) fun _ _ h => h)

theorem State.outAppendAll_withBuf (s : State) (m : Memory) (bs : List Byte) :
    (s.withBuf m).outAppendAll bs = (s.outAppendAll bs).withBuf m := by
  induction bs generalizing s with
  | nil => rfl
  | cons b bs ih => exact ih (s.outAppend b)

theorem State.SameWindow.outAppendAll {s : State} {m : Memory} (h : s.SameWindow m) (bs : List Byte) :
    (s.outAppendAll bs).SameWindow m := by
  rw [s.outAppendAll_frame bs]
  exact ⟨h.cursor, h.same⟩

theorem unpackLoop_windowOnly (n : Nat) : WindowOnly (unpackLoop n) := by
  induction n with
  | zero => exact .stop _
  | succ n ih =>
    refine .ite (fun _ _ => .rfl)
      (.bind unpackDecode_windowOnly fun x => .bind (unpackExpand_windowOnly x) fun bs => ?_)
      (.ok (fun _ _ => rfl) (fun _ _ => rfl) fun _ _ h => h)
    intro m s h
    simp only [s.outAppendAll_withBuf]
    exact ih m _ (h.outAppendAll bs)

/-- The pre-checks do not read BUF (rule R184). -/
theorem unpackCheck_withBuf (i : Nat) (m : Memory) (s : State) :
    unpackCheck i (s.withBuf m) = (unpackCheck i s).withBuf m := by
  have hdims : levelDims (s.withBuf m) i = levelDims s i := rfl
  have hfmt : (s.withBuf m).fmt = s.fmt := rfl
  unfold unpackCheck
  rw [hdims, hfmt]
  cases levelDims s i with
  | none => rfl
  | some dims =>
    cases blockBytes s.fmt.toNat with
    | none => rfl
    | some b =>
      simp only [apply_ite (Res.withBuf m)]
      rfl

/-- m reads as BUF does in the window of level i (43_level_unpacker.md rule R183). -/
def State.SameLevel (s : State) (i : Nat) (m : Memory) : Prop :=
  ∀ a, (s.levelOfs i).toNat ≤ a → a < (s.levelOfs i).toNat + (s.levelSize i).toNat →
    Memory.read m a = Memory.read s.buf a

/-- The window of level i is the whole of what `UNPACK i` sees. -/
theorem unpackInner_withBuf {i : Nat} {m : Memory} {s : State} (h : s.SameLevel i m) :
    unpackInner i (s.withBuf m) = (unpackInner i s).withBuf m := by
  unfold unpackInner
  rw [unpackCheck_withBuf]
  rcases unpackCheck_cases i s with ⟨-, he⟩ | ⟨-, -, he⟩ | ⟨-, -, -, he⟩ | ⟨-, -, -, -, he⟩ | ⟨b, -, -, -, hw, he⟩ <;>
    rw [he]
  · rfl
  · rfl
  · rfl
  · rfl
  · have hlevel : (unpackSeek i (s.checked i b)).SameWindow m := by
      refine ⟨unpackSeek_cursorOk hw, fun a hlo hhi => h a hlo (Nat.lt_of_lt_of_le hhi ?_)⟩
      show (s.levelOfs i + s.levelSize i).toNat ≤ _
      rw [BitVec.toNat_add]
      exact Nat.mod_le _ _
    exact (unpackLoop_windowOnly _ m _ hlevel).1

theorem unpackBody_withBuf {i : Nat} {m : Memory} {s : State} (h : s.SameLevel i m) :
    unpackBody i (s.withBuf m) = (unpackBody i s).withBuf m := by
  unfold unpackBody
  rw [show beginUnpack (s.withBuf m) = (beginUnpack s).withBuf m from rfl, unpackInner_withBuf (s := beginUnpack s) h]
  rcases unpackInner i (beginUnpack s) with ⟨_, u⟩ | ⟨e | f, u⟩ <;> rfl

theorem finish_withBuf {r : Res Unit} {u : State} (m : Memory) (h : finish r = .next u) :
    finish (r.withBuf m) = .next (u.withBuf m) := by
  rcases r with ⟨_, t⟩ | ⟨e | f, t⟩ <;> cases h <;> rfl

end Sys2Proof.Machine

open Sys2Proof Sys2Proof.Machine

/-- Settles O6: the bits that `ReadBits` takes lie below `BR_END`. -/
theorem readBitsLooksOnlyAtTheWindow : Obligations.ReadBitsLooksOnlyAtTheWindow := by
  intro s m n h hm
  obtain ⟨heq, -⟩ := readBits_windowOnly n m s ⟨h, fun a _ ha => hm a ha⟩
  exact ⟨fun v u hu => heq.trans (by rw [hu]; rfl), fun x u hu => heq.trans (by rw [hu]; rfl)⟩

/-- Settles O35: `UNPACK` places the cursor at its level's window, and all that follows reads in the window only. -/
theorem unpackLooksOnlyAtItsLevel : Obligations.UnpackLooksOnlyAtItsLevel := by
  intro i s u m _ hr hm hu
  have hw := launch_idle (w := wordOf (.unpack i)) (body := unpackBody i.toNat) hr
  have hwm := launch_idle (w := wordOf (.unpack i)) (body := unpackBody i.toNat) (s := s.withBuf m) hr
  have hbody := unpackBody_withBuf (s := s.launched (wordOf (.unpack i))) hm
  exact hwm.trans ((congrArg finish hbody).trans (finish_withBuf m (hw.symm.trans hu)))

end

section
/-! A running command and the host (20_memory.md rules R70 and R73, 70_reset_and_hazards.md rules R245 and R248): no
step stops, and no step of a running command writes BUF, the host's queue, or what else only the host writes. -/

namespace Sys2Proof.Machine

/-! ### What an operation leaves, with a value or without -/

/-- The state that an operation leaves. -/
def Res.state {α : Type} : Res α → State
  | .ok _ s => s
  | .stop _ s => s

/-- The operation, however it ends, has left alone what only the host writes. -/
def LeavesHost {α : Type} (s : State) (r : Res α) : Prop := r.state.hostView = s.hostView

section
variable {s u : State}

theorem LeavesHost.bind {α β : Type} {r : Res α} {f : α → State → Res β} {Q : α → State → Prop}
    {E : ErrorKind → State → Prop} (h : r.Meets Q E) (hok : ∀ a u, Q a u → LeavesHost s (f a u))
    (herr : ∀ e u, E e u → u.hostView = s.hostView) : LeavesHost s (r.bind f) := by
  rcases h.ends with ⟨a, u, rfl, hu⟩ | ⟨e, u, rfl, hu⟩
  · exact hok a u hu
  · exact herr e u hu

theorem hostView_undoOnError (s : State) : (undoOnError s).hostView = s.hostView := by
  unfold undoOnError
  split
  · rfl
  · split <;> rfl

theorem failCommand_hostView {e : ErrorKind} (hu : failCommand e s = .next u) : u.hostView = s.hostView := by
  cases hu
  exact hostView_undoOnError s

theorem LeavesHost.endArrow {r : Res Bool} (h : LeavesHost s r) (hu : endArrow r = .next u) :
    u.hostView = s.hostView := by
  rcases r with ⟨last, t⟩ | ⟨e | f, t⟩
  · cases last <;> (cases hu; exact h)
  · exact (failCommand_hostView hu).trans h
  · cases hu

theorem TableStep.hostView (h : TableStep s u) : u.hostView = s.hostView := h.field State.hostView

theorem UnpackStep.hostView (h : UnpackStep s u) : u.hostView = s.hostView :=
  State.field_of_sansUnpack State.hostView h.frame

/-! ### The arrows of the table reader (42_table_reader.md rule R164) -/

theorem hostView_setSlot (s : State) (t : SlotId) (sl : Slot) : (s.setSlot t sl).hostView = s.hostView := by
  cases t <;> rfl

theorem beginRecord_hostView (t : SlotId) (s : State) : (beginRecord t s).hostView = s.hostView :=
  (hostView_setSlot _ _ _).trans (hostView_setSlot s t _)

theorem trIdleArrow_leavesHost (h : s.DataOk) : LeavesHost s (trIdleArrow s) := by
  unfold trIdleArrow
  split
  · next t _ => exact beginRecord_hostView t s
  · split
    · exact .bind (gettabSeek_meets h) (fun _ _ ⟨_, hs, _⟩ => hs.hostView) fun _ _ ⟨_, _, hs, _⟩ => hs.hostView
    · rfl

theorem trCountArrow_leavesHost (h : s.DataOk) : LeavesHost s (trCountArrow s) :=
  .bind (readCount_meets .t0 h) (fun _ _ hs => hs.reader.table.hostView) fun _ _ ⟨_, hs⟩ => hs.reader.table.hostView

theorem trTdepthArrow_leavesHost (h : s.DataOk) : LeavesHost s (trTdepthArrow s) := by
  unfold trTdepthArrow
  split
  · split
    · rfl
    · next x _ => rcases readTmpDepth_cases x h.cursor with ⟨-, he⟩ | ⟨-, he⟩ <;> rw [he] <;> rfl
  · exact .bind (readTmpDepths_meets .t0 h) (fun _ _ hs => hs.reader.table.hostView)
      fun _ _ ⟨_, hs⟩ => hs.reader.table.hostView

theorem trTbuildArrow_leavesHost (h : s.DataOk) : LeavesHost s (trTbuildArrow s) :=
  .bind (build_meets (t := .t0) (u := .tmp) (.inr rfl) h (length_tdList s)) (fun _ _ ⟨hs, _⟩ => hs.table.hostView)
    fun _ _ ⟨_, hs, _⟩ => hs.table.hostView

theorem trSymArrow_leavesHost (h : s.cursorOk) : LeavesHost s (trSymArrow s) := by
  unfold trSymArrow
  split
  · rcases fetchSymbol_cases h with ⟨x, k, -, -, he, -⟩ | ⟨-, he⟩ | ⟨-, he⟩ <;> rw [he]
    · rw [Res.bind_ok]
      cases escapeOf s.cfg x <;> rfl
    · rfl
    · rfl
  · rfl

theorem trParamArrow_leavesHost (h : s.cursorOk) : LeavesHost s (trParamArrow s) := by
  unfold trParamArrow
  split
  · rfl
  · next e _ =>
    rcases readRun_cases e h with ⟨-, he⟩ | ⟨-, -, -, he⟩ | ⟨-, -, -, he⟩ | ⟨-, -, -, he⟩ <;> rw [he] <;> rfl

theorem trFillArrow_leavesHost (s : State) : LeavesHost s (trFillArrow s) := by
  unfold trFillArrow
  split <;> rfl

theorem trMbuildArrow_leavesHost (s : State) : LeavesHost s (trMbuildArrow s) := by
  unfold trMbuildArrow
  split
  · rfl
  · next t _ =>
    rcases build_cases t s.daList s with ⟨-, he⟩ | ⟨sl, -, he⟩ <;> rw [he]
    · exact hostView_setSlot s t _
    · rw [Res.bind_ok]
      split <;> exact hostView_setSlot s t sl

theorem tableArrow_hostView (h : s.DataOk) (hu : tableArrow s = .next u) : u.hostView = s.hostView := by
  refine LeavesHost.endArrow ?_ hu
  cases s.trState with
  | idle => exact trIdleArrow_leavesHost h
  | count => exact trCountArrow_leavesHost h
  | tdepth => exact trTdepthArrow_leavesHost h
  | tbuild => exact trTbuildArrow_leavesHost h
  | sym => exact trSymArrow_leavesHost h.cursor
  | param => exact trParamArrow_leavesHost h.cursor
  | fill => exact trFillArrow_leavesHost s
  | mbuild => exact trMbuildArrow_leavesHost s

/-- A whole symbol as a step (42_table_reader.md rule R155). -/
theorem symbolStep_hostView (h : s.DataOk) (hu : symbolStep s = .next u) : u.hostView = s.hostView := by
  unfold symbolStep at hu
  rcases fetchSymbol_cases h.cursor with ⟨x, k, -, hk, he, -⟩ | ⟨-, he⟩ | ⟨-, he⟩ <;> rw [he] at hu
  · simp only at hu
    split at hu
    · have hd := h.skipBits hk
      exact exec_hostView (s := { s.skipBits k with trSymReg := BitVec.ofNat 5 x }) { hd with } hu
    · cases hu
  · exact failCommand_hostView (s := s.skipBits _) hu
  · exact failCommand_hostView (s := s.skipBits _) hu

/-! ### The arrows of the unpacker (43_level_unpacker.md rule R191) -/

theorem unpackArrowRes_leavesHost (h : s.DataOk) : LeavesHost s (unpackArrowRes s) := by
  unfold unpackArrowRes
  split
  · rfl
  · rcases unpackCheck_cases s.unpackLevel s with
      ⟨-, he⟩ | ⟨-, -, he⟩ | ⟨-, -, -, he⟩ | ⟨-, -, -, -, he⟩ | ⟨b, -, -, -, -, he⟩ <;> rw [he] <;> rfl
  · rfl
  · split
    · exact .bind (unpackDecode_meets h) (fun _ _ ⟨hm, _⟩ => (UnpackStep.moved h hm).hostView)
        fun _ _ ⟨_, hm⟩ => (UnpackStep.moved h hm).hostView
    · rfl
  · next x _ =>
    exact .bind (unpackExpand_meets x h) (fun _ _ ⟨hex, _⟩ => (UnpackStep.expanded h hex).hostView)
      fun _ _ ⟨_, hs, _⟩ => hs.hostView
  · rfl
  · rfl
  · rfl

theorem unpackArrow_hostView (h : s.DataOk) (hu : unpackArrow s = .next u) : u.hostView = s.hostView :=
  (unpackArrowRes_leavesHost h).endArrow hu

/-! ### Every step of a running command -/

theorem beginCommand_hostView (h : s.DataOk) (hu : beginCommand s = .next u) : u.hostView = s.hostView := by
  have hwhole : ∀ {i}, exec i { s with run := .idle } = .next u → u.hostView = s.hostView := fun he =>
    exec_hostView (s := { s with run := .idle }) { h with } he
  unfold beginCommand at hu
  split at hu
  · split at hu
    · exact tableArrow_hostView h hu
    · exact hwhole hu
  · split at hu
    · exact tableArrow_hostView h hu
    · exact hwhole hu
  · split at hu
    · exact unpackArrow_hostView h hu
    · exact hwhole hu
  · exact hwhole hu
  · cases hu
    rfl

/-- A step of a running command leaves BUF and the host's queue as they are (70_reset_and_hazards.md rule R246). -/
theorem busyStep_hostView (h : s.DataOk) (hu : busyStep s = .next u) : u.hostView = s.hostView := by
  unfold busyStep at hu
  split at hu
  · split at hu
    · exact symbolStep_hostView h hu
    · exact tableArrow_hostView h hu
  · split at hu
    · exact unpackArrow_hostView h hu
    · exact beginCommand_hostView h hu

end

/-! ### A change of BUF -/

/-- Between commands the change is made (20_memory.md rule R70). -/
theorem step_poke {s : State} (hr : s.run ≠ .busy) (a : Word) (b : Byte) (rest : List HostAction) :
    step { s with inputs := .poke a b :: rest }
      = .next { s with inputs := rest, buf := Memory.write s.buf a.toNat b } := if_neg hr

/-- While `BUSY` the change waits and the command goes on (70_reset_and_hazards.md rule R248). -/
theorem step_poke_busy {s : State} {a : Word} {b : Byte} {rest : List HostAction} (hr : s.run = .busy)
    (hq : s.inputs = .poke a b :: rest) : step s = busyStep s := by
  unfold step hostStep
  rw [hq]
  exact if_pos hr

end Sys2Proof.Machine

open Sys2Proof Sys2Proof.Machine

/-- Settles O56: a step from a state that meets the invariant leads to one that does, and so to some state. -/
theorem stepNeverStops : Obligations.StepNeverStops := by
  intro s h
  obtain ⟨u, hu, -⟩ := step_inv h
  exact ⟨u, hu⟩

/-- Settles O60: the change is one write of BUF, and a running command writes neither BUF nor the queue it waits in. -/
theorem hostChangesOneByteOfBuf : Obligations.HostChangesOneByteOfBuf := by
  intro s a b rest
  refine ⟨fun hr => ⟨_, step_poke hr a b rest, fun hwf => ?_⟩, fun t hr h hq ht => ?_⟩
  · exact ⟨Memory.wf_write _ _ hwf, fun k => Memory.read_write _ _ _ hwf⟩
  · rw [step_poke_busy hr hq] at ht
    have hview := busyStep_hostView h.data ht
    simp only [State.hostView, Prod.mk.injEq] at hview
    obtain ⟨hbuf, -, -, -, -, -, -, -, -, -, -, -, -, -, hinputs⟩ := hview
    exact ⟨hinputs.trans hq, hbuf⟩

end

section
/-! The two levels of encoding (30_encoding.md): `decode` and `encode` agree, and which command words are illegal. -/

namespace Sys2Proof.Machine

/-! ### Command words -/

theorem decodeCommand_commandWord (op a : BitVec 8) : decodeCommand (commandWord op a) = decodeOp op.toNat a := by
  unfold decodeCommand
  rw [zField_commandWord, opByte_commandWord, aByte_commandWord, if_pos rfl]

/-- Form N reads back its operand where it is legal (rule R83). -/
theorem formN_zeroExtend (n : BitVec 6) (mk : BitVec 6 → Instr) :
    formN (n.zeroExtend 8) mk = if legalBitCount n then .ok (mk n) else .error .badOperand := by
  have hback : ((n.zeroExtend 8).extractLsb' 0 6, decide ((n.zeroExtend 8).toNat ≤ 32)) = (n, legalBitCount n) := by
    revert n
    decide
  simp only [Prod.mk.injEq] at hback
  unfold formN
  rw [hback.1, ← hback.2]
  simp only [decide_eq_true_eq]

/-- Form T012 reads back its operand where it is legal (rule R83). -/
theorem formT012_zeroExtend (t : BitVec 2) (mk : BitVec 2 → Instr) :
    formT012 (t.zeroExtend 8) mk = if legalSlot012 t then .ok (mk t) else .error .badOperand := by
  have hback : ((t.zeroExtend 8).extractLsb' 0 2, decide ((t.zeroExtend 8).toNat ≤ 2)) = (t, legalSlot012 t) := by
    revert t
    decide
  simp only [Prod.mk.injEq] at hback
  unfold formT012
  rw [hback.1, ← hback.2]
  simp only [decide_eq_true_eq]

/-- Form T01 reads back its operand (rule R83). -/
theorem formT01_zeroExtend (t : BitVec 1) (mk : BitVec 1 → Instr) : formT01 (t.zeroExtend 8) mk = .ok (mk t) := by
  have hle : (t.zeroExtend 8).toNat ≤ 1 := by
    revert t
    decide
  unfold formT01
  rw [if_pos hle, extractLsb'_zeroExtend_t01]

/-- Decoding undoes encoding, and finds out an operand that is not legal (rules R81 to R85 and R89). -/
theorem decode_encode (i : Instr) : decode (encode i) = if i.wf then .ok i else .error .badOperand := by
  cases i with
  | rdbits n => exact (decodeCommand_commandWord _ _).trans (formN_zeroExtend n .rdbits)
  | hdec t => exact (decodeCommand_commandWord _ _).trans (formT012_zeroExtend t .hdec)
  | hbuild t => exact (decodeCommand_commandWord _ _).trans (formT01_zeroExtend t .hbuild)
  | tread t => exact (decodeCommand_commandWord _ _).trans (formT01_zeroExtend t .tread)
  | seek | align | gettab | lvlinfo | unpack | clrerr => exact decodeCommand_commandWord _ _
  | _ => rfl

/-! ### Every code that decodes -/

/-- A symbol is the symbol of the index it was decoded from (rule R89). -/
theorem encode_of_decodeSymbol {x : BitVec 5} {i : Instr} (h : decodeSymbol x.toNat = .ok i) : encode i = .symbol x := by
  have hindex : ∀ n, n < 32 → decodeSymbol n = .ok i → encode i = .symbol (BitVec.ofNat 5 n) := by
    intro n hn hd
    interval_cases n <;> cases hd <;> rfl
  rw [hindex x.toNat x.isLt h, BitVec.ofNat_toNat, BitVec.setWidth_eq]

theorem encode_of_decode {c : Code} {i : Instr} (h : decode c = .ok i) : encode i = c := by
  cases c with
  | command w => exact encode_of_decodeCommand h
  | symbol x => exact encode_of_decodeSymbol h

theorem decode_eq_ok_iff (c : Code) (i : Instr) : decode c = .ok i ↔ i.wf = true ∧ encode i = c := by
  constructor
  · intro h
    have he := encode_of_decode h
    subst he
    rw [decode_encode] at h
    exact ⟨by_contra fun hwf => by simp [hwf] at h, rfl⟩
  · rintro ⟨hwf, rfl⟩
    rw [decode_encode, if_pos hwf]

/-! ### Illegal command words -/

/-- The fields of an illegal command word (rule R84). -/
def IllegalFields (op z a : Nat) : Prop :=
  op = 0 ∨ 0x0B ≤ op ∨ z ≠ 0 ∨ (op = 1 ∨ op = 3 ∨ op = 7 ∨ op = 10) ∧ a ≠ 0 ∨ op = 2 ∧ 32 < a
    ∨ (op = 4 ∨ op = 6) ∧ 1 < a ∨ op = 5 ∧ 2 < a

theorem formZ_eq_error_iff {a : BitVec 8} {i : Instr} : (∃ e, formZ a i = .error e) ↔ a.toNat ≠ 0 := by
  unfold formZ
  split
  · next h => simp [h]
  · next h =>
    have hnat : a.toNat ≠ 0 := fun hc => h (BitVec.eq_of_toNat_eq hc)
    simp [hnat]

theorem formN_eq_error_iff {a : BitVec 8} {mk : BitVec 6 → Instr} : (∃ e, formN a mk = .error e) ↔ 32 < a.toNat := by
  unfold formN
  split <;> simp <;> omega

theorem formT01_eq_error_iff {a : BitVec 8} {mk : BitVec 1 → Instr} : (∃ e, formT01 a mk = .error e) ↔ 1 < a.toNat := by
  unfold formT01
  split <;> simp <;> omega

theorem formT012_eq_error_iff {a : BitVec 8} {mk : BitVec 2 → Instr} :
    (∃ e, formT012 a mk = .error e) ↔ 2 < a.toNat := by
  unfold formT012
  split <;> simp <;> omega

/-- The opcode bytes and operands that the opcode map does not give (rules R82 to R84). -/
theorem decodeOp_eq_error_iff {op : Nat} {a : BitVec 8} :
    (∃ e, decodeOp op a = .error e) ↔ IllegalFields op 0 a.toNat := by
  by_cases hop : 1 ≤ op ∧ op ≤ 10
  · obtain ⟨h1, h2⟩ := hop
    interval_cases op <;> simp only [decodeOp, formZ_eq_error_iff, formN_eq_error_iff, formT01_eq_error_iff,
      formT012_eq_error_iff, formL, IllegalFields] <;> simp
  · have hnone : decodeOp op a = .error .unknownOpcode := by
      unfold decodeOp
      split
      case h_11 => rfl
      all_goals omega
    have hill : IllegalFields op 0 a.toNat := by
      unfold IllegalFields
      omega
    simp [hnone, hill]

theorem decodeCommand_eq_error_iff {w : Word} :
    (∃ e, decodeCommand w = .error e) ↔ IllegalFields (opByte w).toNat (zField w).toNat (aByte w).toNat := by
  unfold decodeCommand
  by_cases hz : zField w = 0
  · rw [if_pos hz, hz]
    exact decodeOp_eq_error_iff
  · have hnat : (zField w).toNat ≠ 0 := fun hc => hz (BitVec.eq_of_toNat_eq hc)
    rw [if_neg hz]
    exact ⟨fun _ => .inr (.inr (.inl hnat)), fun _ => ⟨_, rfl⟩⟩

theorem toNat_opByte (w : Word) : (opByte w).toNat = w.toNat / 2 ^ 24 := by
  have hw := w.isLt
  rw [opByte, BitVec.extractLsb'_toNat, Nat.shiftRight_eq_div_pow]
  omega

theorem toNat_zField (w : Word) : (zField w).toNat = w.toNat / 2 ^ 8 % 2 ^ 16 := by
  rw [zField, BitVec.extractLsb'_toNat, Nat.shiftRight_eq_div_pow]

theorem toNat_aByte (w : Word) : (aByte w).toNat = w.toNat % 2 ^ 8 := by
  rw [aByte, BitVec.extractLsb'_toNat, Nat.shiftRight_eq_div_pow, pow_zero, Nat.div_one]

/-! ### The write of a command word -/

/-- A command word at the head of the host's queue is written while not `BUSY` (rule R80). -/
theorem step_write_command {s : State} (hr : s.run ≠ .busy) (w : Word) (rest : List HostAction) :
    step { s with inputs := .write 0 w :: rest } = commandWrite w { s with inputs := rest } :=
  (if_neg hr).trans (if_pos rfl)

theorem commandWrite_of_error {w : Word} {e : DecodeError} (hw : decodeCommand w = .error e) (s : State) :
    commandWrite w s = launchIllegal (opByte w) s := by
  unfold commandWrite
  rw [hw]

theorem commandWrite_of_ok {w : Word} {i : Instr} (hw : decodeCommand w = .ok i) (s : State) :
    commandWrite w s
      = if s.cfg.grain = .arrow ∧ s.run = .idle then .next { s with cmd := w, run := .busy } else exec i s := by
  unfold commandWrite
  rw [hw]

end Sys2Proof.Machine

open Sys2Proof Sys2Proof.Machine

/-- Settles O2: what decodes encodes back to its code, and of the encoded instructions just the legal ones decode. -/
theorem decodeInvertsEncode : Obligations.DecodeInvertsEncode := decode_eq_ok_iff

/-- Settles O1: each word is the encoding of the instruction it stands for. -/
theorem wordsDecodeAsTheOpcodeMapSays : Obligations.WordsDecodeAsTheOpcodeMapSays := by
  unfold Obligations.WordsDecodeAsTheOpcodeMapSays
  simp only [decode_eq_ok_iff]
  decide

/-- Settles O3: the decoder refuses just the words with illegal fields, and the write of such a word raises the error. -/
theorem illegalCommandWords : Obligations.IllegalCommandWords := by
  intro w op z a hop hz ha
  rw [← toNat_opByte] at hop
  rw [← toNat_zField] at hz
  rw [← toNat_aByte] at ha
  subst hop hz ha
  refine ⟨fun hill s rest hr => ?_, fun hlegal => ?_⟩
  · obtain ⟨e, he⟩ := decodeCommand_eq_error_iff.2 hill
    rw [step_write_command (by simp [hr]), commandWrite_of_error he,
      launchIllegal_idle (s := { s with inputs := rest }) hr, BitVec.ofNat_toNat, BitVec.setWidth_eq]
    rfl
  · cases hw : decodeCommand w with
    | error e => exact absurd (decodeCommand_eq_error_iff.1 ⟨e, hw⟩) hlegal
    | ok i =>
      obtain ⟨hwf, henc⟩ := (decode_eq_ok_iff (.command w) i).1 hw
      exact ⟨i, decodeCommand_isCommand hw, hwf, henc, rfl⟩

end

section
/-! The write of a command word and how its command ends (30_encoding.md rule R80): `RDBITS`, `CLRERR` and the step that
runs a decoded command. -/

namespace Sys2Proof.Machine

section
variable {s t : State} {w : Word} {body : State → Res Unit}

/-! ### A command whose body is known -/

theorem launch_of_ok (hr : s.run = .idle) (h : body (s.launched w) = .ok () t) : launch w body s = .next t.complete := by
  rw [launch_idle hr, h, finish_ok]

theorem launch_of_raise {e : ErrorKind} (hr : s.run = .idle) (h : body (s.launched w) = raise e t) :
    launch w body s = .next (t.raiseError (opByte t.cmd) e) := by
  rw [launch_idle hr, h, finish_raise]

/-! ### `RDBITS` (40_bitreader.md rule R113) -/

theorem exec_rdbits_legal {n : BitVec 6} (hn : n.toNat ≤ 32) (s : State) :
    exec (.rdbits n) s = launch (0x02000000 ||| n.zeroExtend 32) (rdbitsBody n.toNat) s := by
  rw [← commandWord_rdbits]
  exact if_pos (decide_eq_true hn)

theorem exec_rdbits_illegal {n : BitVec 6} (hn : 32 < n.toNat) (s : State) :
    exec (.rdbits n) s = launchIllegal 0x02 s := by
  have hop : opByte (wordOf (.rdbits n)) = 0x02 := opByte_commandWord _ _
  rw [← hop]
  exact if_neg (by simpa [legalBitCount] using hn)

theorem rdbitsBody_eq {n : Nat} (h : s.cursorOk) (hn : n ≤ s.rem) :
    rdbitsBody n s = .ok () { s.skipBits n with
      res := BitVec.ofNat 32 (fieldValue s.cfg.bitOrder (s.nextBits n)) } := by
  rw [rdbitsBody, readBits_eq h hn]
  rfl

theorem rdbitsBody_short {n : Nat} (hn : s.rem < n) : rdbitsBody n s = raise .unexpectedEnd s := by
  rw [rdbitsBody, readBits_short hn]
  rfl

/-! ### `CLRERR` (44_system.md rule R201) -/

theorem exec_clrerr (hr : s.run = .idle ∨ s.run = .error) :
    exec .clrerr s = .next ({ s with cmd := 0x0A000000 } : State).clearError := by
  show execClrerr s = _
  unfold execClrerr
  rcases hr with hr | hr <;> rw [hr] <;> rfl

/-! ### A step that runs a command -/

/-- With the state machines idle a busy core begins the command in `CMD`. -/
theorem busyStep_resting (h : s.Resting) : busyStep s = beginCommand s := by
  obtain ⟨htr, hgt, hup⟩ := h
  simp [busyStep, htr, hgt, hup]

/-- A command begins whole, unless steps are arrows and it has a state machine (rules R164 and R191). -/
theorem beginCommand_whole {i : Instr} (hi : decodeCommand s.cmd = .ok i)
    (h : s.cfg.grain = .whole ∨ (∀ t, i ≠ .tread t) ∧ i ≠ .gettab ∧ ∀ k, i ≠ .unpack k) :
    beginCommand s = exec i { s with run := .idle } := by
  have hnot : s.cfg.grain = .whole → ¬ s.cfg.grain = .arrow := fun hw => by simp [hw]
  unfold beginCommand
  rw [hi]
  cases i with
  | tread t => exact if_neg (hnot (h.resolve_right fun hc => hc.1 t rfl))
  | gettab => exact if_neg (hnot (h.resolve_right fun hc => hc.2.1 rfl))
  | unpack k => exact if_neg (hnot (h.resolve_right fun hc => hc.2.2 k rfl))
  | _ => rfl

end

end Sys2Proof.Machine

open Sys2Proof Sys2Proof.Machine

/-- Settles O8: the body is one `ReadBits`, and an operand above 32 makes the word illegal. -/
theorem rdbitsReturnsTheNextBits : Obligations.RdbitsReturnsTheNextBits := by
  intro s n hr h
  have hword : wordOf (.rdbits n) = 0x02000000 ||| n.zeroExtend 32 := commandWord_rdbits n
  refine ⟨fun _ => congrArg Code.command hword, fun hn hrem => ?_, fun hn hrem => ?_, fun hn => ?_⟩
  · rw [exec_rdbits_legal hn]
    exact launch_of_ok hr (rdbitsBody_eq (s := s.launched _) h hrem)
  · rw [exec_rdbits_legal hn]
    exact launch_of_raise hr (rdbitsBody_short (s := s.launched _) hrem)
  · rw [exec_rdbits_illegal hn, launchIllegal_idle hr]
    rfl

/-- Settles O37: `CLRERR` runs alike in `IDLE` and in `ERROR`, and clears the error registers. -/
theorem clrerrClearsTheError : Obligations.ClrerrClearsTheError := ⟨rfl, fun _ hr => exec_clrerr hr⟩

/-- Settles O51: the write of a word runs its command at once or only sets `BUSY`, and a busy core at rest begins it. -/
theorem stepRunsTheDecodedCommand : Obligations.StepRunsTheDecodedCommand := by
  intro s w i rest hi hr
  refine ⟨fun hcase => ?_, fun hg hidle => ?_, fun htr hgt hup hcase => ?_⟩
  · rw [step_write_command hr, commandWrite_of_ok hi]
    refine if_neg fun ⟨hg, hidle⟩ => ?_
    rcases hcase with hw | he
    · simp [hw] at hg
    · simp [he] at hidle
  · rw [step_write_command hr, commandWrite_of_ok hi]
    exact if_pos ⟨hg, hidle⟩
  · have hrest : ({ s with inputs := [], cmd := w, run := .busy } : State).Resting := ⟨htr, hgt, hup⟩
    exact (busyStep_resting hrest).trans (beginCommand_whole hi hcase)

end

section
/-! What lies in the bitstream (30_encoding.md rules R86 and R87): `ReadBits` on a field and `Decode` on a code that lie at
the cursor, `Decode` where no code does, and `HDEC` and the fetch of a symbol by them. -/

namespace Sys2Proof.Machine

section
variable {s : State} {l r : List Nat} {sl : Slot} {t : SlotId} {x y n k : Nat}

/-! ### Bits at the cursor -/

theorem State.nextBits_begins (s : State) (h : k ≤ n) : s.nextBits k <+: s.nextBits n := by
  obtain ⟨m, rfl⟩ := Nat.exists_eq_add_of_le h
  unfold State.nextBits
  rw [List.range_add, List.map_append]
  exact List.prefix_append _ _

/-- Two bit strings one after the other. -/
theorem State.hasBits_append (h : s.cursorOk) :
    s.hasBits (l ++ r) ↔ s.hasBits l ∧ (s.skipBits l.length).hasBits r := by
  unfold State.hasBits
  rw [List.length_append]
  constructor
  · rintro ⟨hlen, hbits⟩
    have hl : l.length ≤ s.rem := by omega
    rw [s.nextBits_add _ _ (s.pos_add_lt h hl)] at hbits
    obtain ⟨h1, h2⟩ := List.append_inj hbits (s.length_nextBits _)
    exact ⟨⟨hl, h1⟩, by rw [s.rem_skipBits h hl]; omega, h2⟩
  · rintro ⟨⟨hl, h1⟩, hlen, h2⟩
    rw [s.rem_skipBits h hl] at hlen
    rw [s.nextBits_add _ _ (s.pos_add_lt h hl), h1, h2]
    exact ⟨by omega, rfl⟩

theorem State.hasBits.cursorOk_skipBits (hb : s.hasBits l) (h : s.cursorOk) : (s.skipBits l.length).cursorOk :=
  s.cursorOk_skipBits h hb.1

theorem State.hasBits.skipBits_skipBits (hb : s.hasBits l) (h : s.cursorOk) (n : Nat) :
    (s.skipBits l.length).skipBits n = s.skipBits (l.length + n) :=
  s.skipBits_skipBits _ _ (s.pos_add_lt h hb.1)

/-- A field at the cursor is read as its number (rule R86). -/
theorem readBits_of_hasBits {w v : Nat} (h : s.cursorOk) (hv : v < 2 ^ w)
    (hb : s.hasBits (fieldBits s.cfg.bitOrder w v)) : readBits w s = .ok v (s.skipBits w) := by
  obtain ⟨hlen, hbits⟩ := hb
  rw [length_fieldBits] at hlen hbits
  rw [readBits_eq h hlen, hbits, fieldValue_fieldBits _ hv]

/-- Digits written most significant first read back. -/
theorem msbBits_msbValue {bits : List Nat} (h : ∀ b ∈ bits, b ≤ 1) : msbBits bits.length (msbValue bits) = bits := by
  induction bits using List.reverseRecOn with
  | nil => rfl
  | append_singleton bits c ih =>
    have hc : c ≤ 1 := h c (List.mem_append_right _ (List.mem_singleton_self c))
    have hvalue : msbValue (bits ++ [c]) = msbValue bits * 2 + c := by
      rw [msbValue_append]
      simp [msbValue]
    rw [hvalue, List.length_append, List.length_singleton, msbBits_succ,
      show (msbValue bits * 2 + c) / 2 = msbValue bits by omega,
      show (msbValue bits * 2 + c) % 2 = c by omega, ih fun b hb => h b (List.mem_append_left _ hb)]

/-! ### Codes at the cursor -/

@[simp] theorem Slot.length_codeBits (sl : Slot) (x : Nat) : (sl.codeBits x).length = sl.depthOf x := length_msbBits _ _

/-- What `Decode` looks up is the code that lies at the cursor. -/
theorem codeBits_eq_nextBits (hd : sl.depthOf x = k) (hc : sl.codeOf x = msbValue (s.nextBits k)) :
    sl.codeBits x = s.nextBits k := by
  have hback := msbBits_msbValue (State.nextBits_le (s := s) (n := k))
  rw [State.length_nextBits] at hback
  rw [Slot.codeBits, hd, hc, hback]

theorem Slot.builtFor.depthOf_le_maxlen (h : sl.builtFor t) (x : Nat) : sl.depthOf x ≤ sl.maxlen.toNat := by
  obtain ⟨d, hd, -⟩ := h
  rw [builtSlot_depthOf hd]
  exact (builtSlot_maxlen hd).2.2.1 x

/-- A symbol with a code is one of the alphabet. -/
theorem Slot.builtFor.lt_ns (h : sl.builtFor t) (hx : sl.depthOf x ≠ 0) : x < sl.ns.toNat := by
  obtain ⟨d, hd, hlen⟩ := h.exists_depths
  rw [builtSlot_ns hd hlen]
  by_contra hge
  rw [builtSlot_depthOf hd, depthAt, List.getD_eq_default _ _ (by omega)] at hx
  exact hx rfl

/-- Only one symbol's code can begin the bits at the cursor (10_state.md rule R37). -/
theorem Slot.builtFor.eq_of_begins {bits : List Nat} (h : sl.builtFor t) (hx0 : sl.depthOf x ≠ 0)
    (hy0 : sl.depthOf y ≠ 0) (hx : sl.codeBits x <+: bits) (hy : sl.codeBits y <+: bits) : x = y := by
  obtain ⟨-, -, -, -, -, -, -, -, hfree⟩ := validSlotsArePrefixCodes t sl h
  by_contra hne
  rcases List.prefix_or_prefix_of_prefix hx hy with hxy | hyx
  · exact hfree x y (h.lt_ns hx0) (h.lt_ns hy0) hx0 hy0 hne hxy
  · exact hfree y x (h.lt_ns hy0) (h.lt_ns hx0) hy0 hx0 (Ne.symm hne) hyx

/-! ### `Decode` -/

/-- `Decode` answers a symbol wherever some code lies within the bits it may read (41_huffman.md rule R137). -/
theorem decodeLoop_finds {len cand : Nat} (h : s.cursorOk) (hx : x < (s.slot t).ns.toNat) (h1 : 1 ≤ k) (hn : k ≤ n)
    (hr : k ≤ s.rem) (hd : (s.slot t).depthOf x = len + k)
    (hc : (s.slot t).codeOf x = cand * 2 ^ k + msbValue (s.nextBits k)) :
    ∃ y u, decodeLoop t n len cand s = .ok y u := by
  induction n generalizing s len cand k with
  | zero => omega
  | succ n ih =>
    obtain ⟨k, rfl⟩ := Nat.exists_eq_add_of_le' h1
    have hpos := s.pos_add_lt h (n := 1) (by omega)
    have hvalue : msbValue (s.nextBits (k + 1)) = s.bitAt s.pos * 2 ^ k + msbValue ((s.skipBits 1).nextBits k) := by
      rw [s.nextBits_succ k hpos, ← List.singleton_append, msbValue_append, State.length_nextBits]
      simp [msbValue]
    rw [decodeLoop, readBits_one h (by omega), Res.bind_ok]
    split
    · exact ⟨_, _, rfl⟩
    · next hnone =>
      rw [State.slot_skipBits] at hnone
      have hmore : k ≠ 0 := by
        rintro rfl
        refine lookup_eq_none hnone x hx hd ?_
        rw [hc, hvalue]
        simp [State.nextBits, msbValue]
        omega
      refine ih (s := s.skipBits 1) (k := k) (s.cursorOk_skipBits h (by omega)) (by rwa [State.slot_skipBits])
        (by omega) (by omega) (by rw [s.rem_skipBits h (by omega)]; omega) ?_ ?_
      · rw [State.slot_skipBits, hd]
        omega
      · rw [State.slot_skipBits, hc, hvalue]
        ring

/-- `Decode` on a code that lies at the cursor answers its symbol (rule R87). -/
theorem decodeSym_of_hasBits (h : s.cursorOk) (ht : (s.slot t).builtFor t) (hx : (s.slot t).depthOf x ≠ 0)
    (hb : s.hasBits ((s.slot t).codeBits x)) : decodeSym t s = .ok x (s.skipBits ((s.slot t).depthOf x)) := by
  obtain ⟨hlen, hbits⟩ := hb
  rw [Slot.length_codeBits] at hlen hbits
  have hcode : (s.slot t).codeOf x = msbValue (s.nextBits ((s.slot t).depthOf x)) := by
    obtain ⟨-, -, -, -, -, -, -, hlt, -⟩ := validSlotsArePrefixCodes t _ ht
    rw [hbits, Slot.codeBits, msbValue_msbBits (hlt x (ht.lt_ns hx) hx)]
  obtain ⟨y, u, hy⟩ := decodeLoop_finds (n := (s.slot t).maxlen.toNat) (len := 0) (cand := 0) h (ht.lt_ns hx)
    (Nat.one_le_iff_ne_zero.2 hx) (ht.depthOf_le_maxlen x) hlen (Nat.zero_add _).symm (by simpa using hcode)
  rcases decodeSym_cases t h with ⟨z, k, h1, hk, he, -, hzd, hzc⟩ | ⟨-, he⟩ | ⟨-, he⟩
  · have hz := codeBits_eq_nextBits hzd hzc
    have hmax := s.nextBits_begins (Nat.le_max_left k ((s.slot t).depthOf x))
    have hxz : x = z := ht.eq_of_begins hx (by omega)
      (hbits ▸ s.nextBits_begins (Nat.le_max_right k ((s.slot t).depthOf x))) (hz ▸ hmax)
    rw [he, hxz, hzd]
  · rw [decodeSym, hy] at he
    cases he
  · rw [decodeSym, hy] at he
    cases he

/-- `Decode` where none of the next `MAXLEN` bits' beginnings is a code (rule R137). -/
theorem decodeSym_of_noCode (h : s.cursorOk) (ht : (s.slot t).builtFor t) (hr : (s.slot t).maxlen.toNat ≤ s.rem)
    (hno : s.noCodeIn (s.slot t) (s.slot t).maxlen.toNat) :
    decodeSym t s = raise .corruptStream (s.skipBits (s.slot t).maxlen.toNat) := by
  rcases decodeSym_cases t h with ⟨z, k, h1, -, -, hzn, hzd, hzc⟩ | ⟨-, he⟩ | ⟨hlt, -⟩
  · refine absurd ?_ (hno z hzn (by omega))
    rw [codeBits_eq_nextBits hzd hzc]
    exact s.nextBits_begins (hzd ▸ ht.depthOf_le_maxlen z)
  · exact he
  · omega

/-- `Decode` where the window ends before a code does (rule R137). -/
theorem decodeSym_of_short (h : s.cursorOk) (hr : s.rem < (s.slot t).maxlen.toNat)
    (hno : s.noCodeIn (s.slot t) s.rem) : decodeSym t s = raise .unexpectedEnd (s.skipBits s.rem) := by
  rcases decodeSym_cases t h with ⟨z, k, h1, hk, -, hzn, hzd, hzc⟩ | ⟨hle, -⟩ | ⟨-, he⟩
  · refine absurd ?_ (hno z hzn (by omega))
    rw [codeBits_eq_nextBits hzd hzc]
    exact s.nextBits_begins hk
  · omega
  · exact he

/-! ### `HDEC` (41_huffman.md rule R138) -/

theorem exec_hdec_slot {t : BitVec 2} {r : SlotId} (hr : r.index = t.toNat) (s : State) :
    exec (.hdec t) s = launch (0x05000000 ||| t.zeroExtend 32) (hdecBody r) s := by
  show execHdec t s = _
  rw [← commandWord_hdec, execHdec, slotOfT012_index hr]
  rfl

theorem hdecBody_invalid (hv : (s.slot t).valid = false) : hdecBody t s = raise .illegalCommand s := by
  simp [hdecBody, hv]

theorem hdecBody_of_raise {e : ErrorKind} {u : State} (hv : (s.slot t).valid = true) (he : decodeSym t s = raise e u) :
    hdecBody t s = raise e u := by
  simp [hdecBody, hv, he]

theorem Slot.builtFor.valid (h : sl.builtFor t) : sl.valid = true := by
  obtain ⟨d, hd, -⟩ := h
  exact builtSlot_valid hd

@[simp] theorem State.slot_launched (s : State) (w : Word) (t : SlotId) : (s.launched w).slot t = s.slot t := by
  cases t <;> rfl

/-! ### The fetch of a symbol (42_table_reader.md rule R155) -/

theorem fetchSymbol_of_hasBits (h : s.cursorOk) (ht : s.tmp.builtFor .tmp) (hx : s.tmp.depthOf x ≠ 0)
    (hb : s.hasBits (s.tmp.codeBits x)) : fetchSymbol s = .ok x (s.skipBits (s.tmp.depthOf x)) := by
  have hdec : decodeSym .tmp s = .ok x (s.skipBits (s.tmp.depthOf x)) :=
    decodeSym_of_hasBits (t := .tmp) h ht hx hb
  rw [fetchSymbol, hdec, Res.renaming_ok]

theorem busyStep_atSymbol (htr : s.trState = .sym) (hs : s.atSymbol = true) : busyStep s = symbolStep s := by
  simp [busyStep, htr, hs]

theorem symbolStep_of_fetch {i : Instr} {u : State} (hf : fetchSymbol s = .ok x u) (hi : decodeSymbol x = .ok i) :
    symbolStep s = exec i { u with trSymReg := BitVec.ofNat 5 x } := by
  simp [symbolStep, hf, hi]

end

end Sys2Proof.Machine

open Sys2Proof Sys2Proof.Machine

/-- Settles O16: each failure is one of `Decode`, or found before it. -/
theorem hdecFails : Obligations.HdecFails := by
  intro t s hr h
  refine ⟨?_, fun r hrt => ?_⟩
  · rintro rfl
    exact launchIllegal_idle hr
  · rw [exec_hdec_slot hrt]
    have hslot := s.slot_launched (0x05000000 ||| t.zeroExtend 32) r
    refine ⟨fun hv => ?_, fun hb hlen hno => ?_, fun hb hlen hno => ?_⟩
    · exact launch_of_raise hr (hdecBody_invalid (hslot ▸ hv))
    · rw [← hslot] at hb hlen hno ⊢
      exact launch_of_raise hr (hdecBody_of_raise hb.valid (decodeSym_of_noCode (s := s.launched _) h hb hlen hno))
    · rw [← hslot] at hb hlen hno
      exact launch_of_raise hr (hdecBody_of_raise hb.valid (decodeSym_of_short (s := s.launched _) h hlen hno))

/-- Settles O52: the step fetches the symbol whose code lies at the cursor. -/
theorem stepRunsTheFetchedSymbol : Obligations.StepRunsTheFetchedSymbol := by
  intro s x i rest hg hr htr hlt h ht hi hx hb
  have hrun : ∀ q, busyStep { s with inputs := q }
      = exec i { s.skipBits (s.tmp.depthOf x) with trSymReg := BitVec.ofNat 5 x, inputs := q } := by
    intro q
    have hat : ({ s with inputs := q } : State).atSymbol = true := by simp [State.atSymbol, hg, htr, hlt]
    exact (busyStep_atSymbol (s := { s with inputs := q }) htr hat).trans
      (symbolStep_of_fetch (fetchSymbol_of_hasBits (s := { s with inputs := q }) h ht hx hb) hi)
  exact ⟨(if_pos hr).trans (hrun rest), (if_pos hr).trans (hrun [])⟩

end

section
/-! The run that an escape of a coded depth array writes (30_encoding.md rules R88 to R90, 42_table_reader.md rules R157 to
R161). -/

namespace Sys2Proof.Machine

/-! ### A run of entries -/

/-- `OFS` moves on by a run that keeps within 14 bits. -/
theorem add_ofNat_eq (o : BitVec 14) (n : Nat) : o + BitVec.ofNat 14 n = BitVec.ofNat 14 (o.toNat + n) := by
  apply BitVec.eq_of_toNat_eq
  simp

section
variable {s : State}

/-- An escape that may write its run, as an instruction of a running reader (rule R161). -/
theorem endSymbol_fillRun {e : Escape} {run : Nat} (h : s.cursorOk) (hw : e.width ≤ s.rem)
    (hlast : e.kind = .repeats → s.lastnz ≠ 0) (hrun : run = fieldValue s.cfg.bitOrder (s.nextBits e.width) + e.bias)
    (hroom : run ≤ s.nsym.toNat - s.ofs.toNat) :
    endSymbol (fillRun e s) = .next ((s.skipBits e.width).filled e run) := by
  subst hrun
  rw [fillRun_eq]
  rcases readRun_cases e h with ⟨hr, -⟩ | ⟨-, hk, h0, -⟩ | ⟨-, -, hover, -⟩ | ⟨-, -, -, he⟩
  · omega
  · exact absurd h0 (hlast hk)
  · exact absurd hover (by unfold Escape.runLength; omega)
  · rw [he, Res.bind_ok]
    rfl

/-- The four escapes write one run (rules R157 to R161). -/
theorem exec_escape {i : Instr} {x run : Nat} {e : Escape} {v : BitVec 5} (hi : decodeSymbol x = .ok i)
    (hx : escapeOf s.cfg x = some e) (hv : e.value s = v) (hr : s.run = .busy) (htr : s.trState = .sym)
    (hlt : s.ofs.toNat < s.nsym.toNat) (h : s.cursorOk) (hw : e.width ≤ s.rem)
    (hlast : e.kind = .repeats → s.lastnz ≠ 0) (hrun : run = fieldValue s.cfg.bitOrder (s.nextBits e.width) + e.bias)
    (hroom : run ≤ s.nsym.toNat - s.ofs.toNat) :
    ∃ da : Store (BitVec 5),
      exec i s = .next { s.skipBits e.width with da := da, ofs := BitVec.ofNat 14 (s.ofs.toNat + run) }
        ∧ (∀ k, s.ofs.toNat ≤ k → k < s.ofs.toNat + run → Store.find da k = some v)
        ∧ ∀ k, k < s.ofs.toNat ∨ s.ofs.toNat + run ≤ k → Store.find da k = Store.find s.da k := by
  have hx21 : x < 21 := by
    by_contra hge
    unfold escapeOf at hx
    split at hx
    case h_5 => cases hx
    all_goals omega
  refine ⟨Store.putRun s.da s.ofs.toNat run v, ?_, fun k h1 h2 => ?_, fun k hk => ?_⟩
  · rw [exec_symbol_eq hx21 hi hr htr hlt, dispatchSymbol, hx, ← hv, ← add_ofNat_eq]
    exact endSymbol_fillRun h hw hlast hrun hroom
  · rw [Store.find_putRun, if_pos ⟨h1, h2⟩]
  · rw [Store.find_putRun, if_neg (by omega)]

end

end Sys2Proof.Machine

open Sys2Proof Sys2Proof.Machine

/-- Settles O24: the two zero escapes write the value 0. -/
theorem zeroRunsWriteZeros : Obligations.ZeroRunsWriteZeros := by
  intro i w bias s hi hr htr hlt h hw run hrun hroom
  rcases hi with ⟨rfl, rfl, rfl⟩ | ⟨rfl, rfl, rfl⟩
  · exact exec_escape (x := 17) (e := shortZero s.cfg) rfl rfl rfl hr htr hlt h hw (fun hk => by cases hk) hrun hroom
  · exact exec_escape (x := 18) (e := longZero s.cfg) rfl rfl rfl hr htr hlt h hw (fun hk => by cases hk) hrun hroom

/-- Settles O25: the two repeat escapes write `LASTNZ`. -/
theorem repeatRunsWriteTheLastNonzero : Obligations.RepeatRunsWriteTheLastNonzero := by
  intro i w bias s hi hr htr hlt h hw hlast run hrun hroom
  rcases hi with ⟨rfl, rfl, rfl⟩ | ⟨rfl, rfl, rfl⟩
  · exact exec_escape (x := 19) (e := shortRepeat s.cfg) rfl rfl rfl hr htr hlt h hw (fun _ => hlast) hrun hroom
  · exact exec_escape (x := 20) (e := longRepeat s.cfg) rfl rfl rfl hr htr hlt h hw (fun _ => hlast) hrun hroom

end

section
/-! Step 4 of a table record (42_table_reader.md rules R155 to R161): an item at the cursor adds its entries to the depth
array, and a list of items their depth array. -/

namespace Sys2Proof.Machine

/-! ### A list of entries in a store -/

/-- Write the values of a list to consecutive indexes, from a on. -/
def Store.putList {α : Type} (m : Store α) (a : Nat) : List α → Store α
  | [] => m
  | v :: vs => Store.putList (Store.put m a v) (a + 1) vs

theorem Store.find_putList {α : Type} (m : Store α) (a k : Nat) (vs : List α) :
    Store.find (Store.putList m a vs) k = if a ≤ k ∧ k < a + vs.length then vs[k - a]? else Store.find m k := by
  induction vs generalizing m a with
  | nil => rw [Store.putList, if_neg (by rw [List.length_nil]; omega)]
  | cons v vs ih =>
    rw [Store.putList, ih, Store.find_put, List.length_cons]
    rcases Nat.lt_trichotomy k a with hlt | rfl | hgt
    · rw [if_neg (by omega), if_neg (by omega), if_neg (by omega)]
    · simp
    · rw [if_neg (show k ≠ a by omega), show k - a = (k - (a + 1)) + 1 by omega, List.getElem?_cons_succ]
      congr 1
      simp only [eq_iff_iff]
      omega

theorem Store.putList_append {α : Type} (m : Store α) (a : Nat) (vs ws : List α) :
    Store.putList m a (vs ++ ws) = Store.putList (Store.putList m a vs) (a + vs.length) ws := by
  induction vs generalizing m a with
  | nil => rfl
  | cons v vs ih =>
    rw [List.cons_append, Store.putList, ih, List.length_cons, Nat.add_right_comm a 1, Nat.add_assoc]
    rfl

theorem Store.putRun_eq_putList {α : Type} (m : Store α) (a n : Nat) (v : α) :
    Store.putRun m a n v = Store.putList m a (List.replicate n v) := by
  induction n generalizing m a with
  | zero => rfl
  | succ n ih => exact ih (Store.put m a v) (a + 1)

/-! ### The last nonzero entry (10_state.md rule R34) -/

@[simp] theorem lastNonzero_nil : lastNonzero [] = 0 := rfl

theorem lastNonzero_concat (l : List Nat) (v : Nat) : lastNonzero (l ++ [v]) = if v = 0 then lastNonzero l else v := by
  have hlast : [v].filter (fun u => decide (u ≠ 0)) = if v = 0 then [] else [v] := by by_cases hv : v = 0 <;> simp [hv]
  unfold lastNonzero
  rw [List.filter_append, hlast]
  split
  · rw [List.append_nil]
  · rw [List.getLastD_concat]

theorem lastNonzero_append (l r : List Nat) :
    lastNonzero (l ++ r) = if lastNonzero r = 0 then lastNonzero l else lastNonzero r := by
  induction r using List.reverseRecOn with
  | nil => simp
  | append_singleton r v ih =>
    rw [← List.append_assoc, lastNonzero_concat, lastNonzero_concat, ih]
    by_cases hv : v = 0 <;> simp [hv]

theorem lastNonzero_singleton (v : Nat) : lastNonzero [v] = v := by
  rw [← List.nil_append [v], lastNonzero_concat]
  by_cases hv : v = 0 <;> simp [hv]

theorem lastNonzero_replicate (n v : Nat) : lastNonzero (List.replicate n v) = if n = 0 then 0 else v := by
  induction n with
  | zero => rfl
  | succ n ih =>
    rw [List.replicate_succ', lastNonzero_concat, ih, if_neg (Nat.succ_ne_zero n)]
    split <;> simp_all

theorem lastNonzero_le {d : List Nat} {b : Nat} (h : ∀ v ∈ d, v ≤ b) : lastNonzero d ≤ b := by
  induction d using List.reverseRecOn with
  | nil => exact Nat.zero_le b
  | append_singleton d v ih =>
    rw [lastNonzero_concat]
    split
    · exact ih fun u hu => h u (List.mem_append_left _ hu)
    · exact h v (List.mem_append_right _ (List.mem_singleton_self v))

/-! ### The entries of an item -/

/-- The state with a list of entries added to the depth array (rules R156 and R161). -/
def State.produced (s : State) (l : List Nat) : State :=
  { s with da := Store.putList s.da s.ofs.toNat (l.map (BitVec.ofNat 5))
           ofs := s.ofs + BitVec.ofNat 14 l.length
           lastnz := if lastNonzero l = 0 then s.lastnz else BitVec.ofNat 5 (lastNonzero l) }

section
variable {s : State} {done d l r : List Nat} {v : Nat}

@[simp] theorem State.produced_nil (s : State) : s.produced [] = s := by
  simp [State.produced, Store.putList]

theorem State.skipBits_produced (s : State) (l : List Nat) (n : Nat) :
    (s.produced l).skipBits n = (s.skipBits n).produced l := rfl

theorem State.toNat_ofs_produced (h : s.ofs.toNat + l.length ≤ s.nsym.toNat) :
    (s.produced l).ofs.toNat = s.ofs.toNat + l.length := by
  have hn := s.nsym.isLt
  show (s.ofs + BitVec.ofNat 14 l.length).toNat = _
  rw [BitVec.toNat_add, BitVec.toNat_ofNat]
  omega

theorem State.produced_append (h : s.ofs.toNat + l.length ≤ s.nsym.toNat) :
    s.produced (l ++ r) = (s.produced l).produced r := by
  have hofs : (s.ofs + BitVec.ofNat 14 l.length).toNat = s.ofs.toNat + l.length := State.toNat_ofs_produced h
  unfold State.produced
  congr 1
  · rw [List.map_append, Store.putList_append, List.length_map, hofs]
  · rw [List.length_append, BitVec.ofNat_add, BitVec.add_assoc]
  · rw [lastNonzero_append]
    split <;> simp_all

/-- A literal adds its depth (rule R156). -/
theorem State.litAt_eq_produced (s : State) (v : Nat) : s.litAt v = s.produced [v] := by
  unfold State.litAt State.produced
  rw [lastNonzero_singleton]
  rfl

/-- An escape adds a run of its value (rule R161). -/
theorem State.filled_eq_produced {e : Escape} {n : Nat} (hv : e.value s = BitVec.ofNat 5 v)
    (hlast : v = 0 ∨ s.lastnz = BitVec.ofNat 5 v) : s.filled e n = s.produced (List.replicate n v) := by
  have hlastnz : s.lastnz = if lastNonzero (List.replicate n v) = 0 then s.lastnz
      else BitVec.ofNat 5 (lastNonzero (List.replicate n v)) := by
    rw [lastNonzero_replicate]
    by_cases hn : n = 0
    · simp [hn]
    · rw [if_neg hn]
      rcases hlast with rfl | hlast
      · rfl
      · rw [← hlast, ite_self]
  unfold State.filled State.produced
  rw [← hlastnz, hv, Store.putRun_eq_putList, List.map_replicate, List.length_replicate]

/-! ### An item at the cursor -/

/-- The bits of an item after its code (30_encoding.md rule R88). -/
def Item.paramBits (c : Config) : Item → List Nat
  | .literal _ => []
  | .escape x p =>
    match escapeOf c x with
    | some e => fieldBits c.bitOrder e.width p
    | none => []

theorem Item.bits_eq (c : Config) (tree : Slot) (i : Item) :
    i.bits c tree = tree.codeBits i.symbol ++ i.paramBits c := by
  cases i with
  | literal v => exact (List.append_nil _).symm
  | escape x p => rfl

theorem Item.legal_escape {c : Config} {x p : Nat} (h : (Item.escape x p).legal c = true) :
    ∃ e, escapeOf c x = some e ∧ p < 2 ^ e.width := by
  simp only [Item.legal] at h
  cases he : escapeOf c x with
  | none => simp [he] at h
  | some e => exact ⟨e, rfl, by simpa [he] using h⟩

/-- A literal's symbol is no escape (rule R89). -/
theorem escapeOf_literal (c : Config) (h : v ≤ 16) : escapeOf c v = none := by
  rcases escapeOf_cases c (show v < 21 by omega) with ⟨-, he⟩ | ⟨hge, -⟩
  · exact he
  · omega

/-- What an item may add: depths up to 16. -/
theorem Item.entries_le {c : Config} {i : Item} (hi : i.legal c = true) (hl : i.entries c done = some l)
    (hd : ∀ v ∈ done, v ≤ 16) : ∀ v ∈ l, v ≤ 16 := by
  cases i with
  | literal v =>
    obtain rfl := Option.some.inj hl
    simpa [Item.legal] using hi
  | escape x p =>
    obtain ⟨e, he, -⟩ := Item.legal_escape hi
    rw [Item.entries, he] at hl
    cases hk : e.kind <;> simp only [hk] at hl
    · obtain rfl := Option.some.inj hl
      intro v hv
      simp [List.eq_of_mem_replicate hv]
    · split at hl
      · cases hl
      · obtain rfl := Option.some.inj hl
        intro v hv
        rw [List.eq_of_mem_replicate hv]
        exact lastNonzero_le hd

/-- The reader is at step 4 with the entries `done` produced (rule R155). -/
structure State.AtItems (s : State) (done : List Nat) : Prop where
  cursor : s.cursorOk
  tree   : s.tmp.builtFor .tmp
  ofs    : s.ofs.toNat = done.length
  lastnz : s.lastnz = BitVec.ofNat 5 (lastNonzero done)
  small  : ∀ v ∈ done, v ≤ 16

theorem State.AtItems.lastnz_eq_zero_iff (h : s.AtItems done) : s.lastnz = 0 ↔ lastNonzero done = 0 := by
  have hle := lastNonzero_le h.small
  have hnat : s.lastnz.toNat = lastNonzero done := by
    rw [h.lastnz, BitVec.toNat_ofNat, Nat.mod_eq_of_lt (by omega)]
  rw [← hnat]
  exact ⟨fun h0 => by rw [h0]; rfl, fun h0 => BitVec.eq_of_toNat_eq h0⟩

theorem State.AtItems.skipBits (h : s.AtItems done) {n : Nat} (hn : n ≤ s.rem) : (s.skipBits n).AtItems done :=
  { h with cursor := s.cursorOk_skipBits h.cursor hn }

theorem State.AtItems.produced (h : s.AtItems done) (hl : ∀ v ∈ l, v ≤ 16)
    (hroom : (done ++ l).length ≤ s.nsym.toNat) : (s.produced l).AtItems (done ++ l) where
  cursor := h.cursor
  tree := h.tree
  ofs := by
    rw [List.length_append] at hroom ⊢
    rw [State.toNat_ofs_produced (by rw [h.ofs]; exact hroom), h.ofs]
  lastnz := by
    show (if lastNonzero l = 0 then s.lastnz else BitVec.ofNat 5 (lastNonzero l)) = _
    rw [lastNonzero_append, h.lastnz]
    split <;> rfl
  small := fun v hv => (List.mem_append.1 hv).elim (h.small v) (hl v)

/-- An escape whose parameter lies at the cursor adds its run (rule R161). -/
theorem State.AtItems.fillRun {e : Escape} {p : Nat} (h : s.AtItems done) (hp : p < 2 ^ e.width)
    (hb : s.hasBits (fieldBits s.cfg.bitOrder e.width p)) (hv : e.value s = BitVec.ofNat 5 v)
    (hlast : e.kind = .zeros ∧ v = 0 ∨ e.kind = .repeats ∧ v = lastNonzero done ∧ v ≠ 0)
    (hroom : (done ++ List.replicate (e.runLength p) v).length ≤ s.nsym.toNat) :
    Machine.fillRun e s = .ok () ((s.skipBits e.width).produced (List.replicate (e.runLength p) v)) := by
  have hcorrupt : ¬ (e.kind = .repeats ∧ s.lastnz = 0) := by
    rintro ⟨hk, h0⟩
    rcases hlast with ⟨hz, -⟩ | ⟨-, rfl, hne⟩
    · simp [hz] at hk
    · exact hne (h.lastnz_eq_zero_iff.1 h0)
  have hover : ¬ s.nsym.toNat - s.ofs.toNat < e.runLength p := by
    rw [List.length_append, List.length_replicate] at hroom
    rw [h.ofs]
    omega
  have hrun : readRun e s = .ok (e.runLength p) (s.skipBits e.width) := by
    rw [readRun, readBits_of_hasBits h.cursor hp hb, Res.renaming_ok, Res.bind_ok]
    exact (if_neg hcorrupt).trans (if_neg hover)
  have hfilled := State.filled_eq_produced (s := s.skipBits e.width) (e := e) (n := e.runLength p) hv
    (hlast.imp (fun hz => hz.2) fun ⟨_, hval, _⟩ => hval ▸ h.lastnz)
  rw [fillRun_eq, hrun, Res.bind_ok, hfilled]

/-- The dispatch of an item whose parameter, if it has one, lies at the cursor (rules R155 to R161). -/
theorem State.AtItems.dispatchSymbol {i : Item} (h : s.AtItems done) (hi : i.legal s.cfg = true)
    (hb : s.hasBits (i.paramBits s.cfg)) (hl : i.entries s.cfg done = some l)
    (hroom : (done ++ l).length ≤ s.nsym.toNat) :
    Machine.dispatchSymbol i.symbol s = .ok () ((s.skipBits (i.paramBits s.cfg).length).produced l) := by
  cases i with
  | literal v =>
    obtain rfl := Option.some.inj hl
    have hv : v ≤ 16 := of_decide_eq_true hi
    rw [Machine.dispatchSymbol, Item.symbol, escapeOf_literal _ hv]
    exact (lit_eq v s).trans (congrArg (Res.ok ()) ((s.litAt_eq_produced v).trans (by simp [Item.paramBits])))
  | escape x p =>
    obtain ⟨e, he, hp⟩ := Item.legal_escape hi
    have hparam : (Item.escape x p).paramBits s.cfg = fieldBits s.cfg.bitOrder e.width p := by
      simp [Item.paramBits, he]
    rw [hparam] at hb ⊢
    rw [Machine.dispatchSymbol, Item.symbol, he, length_fieldBits]
    rw [Item.entries, he] at hl
    cases hk : e.kind <;> simp only [hk] at hl
    · obtain rfl := Option.some.inj hl
      exact h.fillRun hp hb (by simp [Escape.value, hk]) (.inl ⟨hk, rfl⟩) hroom
    · split at hl
      · cases hl
      · next hne =>
        obtain rfl := Option.some.inj hl
        exact h.fillRun hp hb (by simp [Escape.value, hk, h.lastnz]) (.inr ⟨hk, rfl, hne⟩) hroom

/-- One item at the cursor, from the fetch of its symbol on (rule R155). -/
theorem State.AtItems.item {i : Item} (h : s.AtItems done) (hi : i.legal s.cfg = true)
    (hx : s.tmp.depthOf i.symbol ≠ 0) (hb : s.hasBits (i.bits s.cfg s.tmp)) (hl : i.entries s.cfg done = some l)
    (hroom : (done ++ l).length ≤ s.nsym.toNat) :
    ((fetchSymbol s).bind fun x s' => Machine.dispatchSymbol x s')
        = .ok () ((s.skipBits (i.bits s.cfg s.tmp).length).produced l)
      ∧ ((s.skipBits (i.bits s.cfg s.tmp).length).produced l).AtItems (done ++ l) := by
  have hle := hb.1
  rw [Item.bits_eq, State.hasBits_append h.cursor] at hb
  obtain ⟨hcode, hparam⟩ := hb
  have hskip := hcode.skipBits_skipBits h.cursor (i.paramBits s.cfg).length
  have hmid := h.skipBits hcode.1
  rw [Slot.length_codeBits] at hparam hskip hmid
  refine ⟨?_, (h.skipBits hle).produced (Item.entries_le hi hl h.small) hroom⟩
  rw [fetchSymbol_of_hasBits h.cursor h.tree hx hcode, Res.bind_ok, hmid.dispatchSymbol hi hparam hl hroom, Item.bits_eq,
    List.length_append, Slot.length_codeBits, ← hskip]
  rfl

/-! ### The items of a record -/

theorem expandItems_cons {c : Config} {n : Nat} {i : Item} {items : List Item}
    (h : expandItems c n done (i :: items) = some d) : done.length < n ∧ ∃ l, i.entries c done = some l
      ∧ (done ++ l).length ≤ n ∧ expandItems c n (done ++ l) items = some d := by
  rw [expandItems] at h
  split at h
  · next hlt =>
    split at h
    · next l hl =>
      split at h
      · next hle => exact ⟨hlt, l, hl, hle, h⟩
      · cases h
    · cases h
  · cases h

/-- The loop of step 4 takes one round for each item at the cursor (rule R155). -/
theorem depthLoop_items {items : List Item} (n : Nat) (h : s.AtItems done) (hi : itemsLegal s.cfg s.tmp items)
    (hd : expandItems s.cfg s.nsym.toNat done items = some d)
    (hb : s.hasBits (items.flatMap (Item.bits s.cfg s.tmp))) :
    ∃ l, d = done ++ l ∧ depthLoop (items.length + n) s
        = depthLoop n ((s.skipBits (items.flatMap (Item.bits s.cfg s.tmp)).length).produced l)
      ∧ ((s.skipBits (items.flatMap (Item.bits s.cfg s.tmp)).length).produced l).AtItems d := by
  induction items generalizing s done with
  | nil =>
    obtain rfl := Option.some.inj hd
    exact ⟨[], by simp, by simp, by simpa using h⟩
  | cons i items ih =>
    obtain ⟨hlt, l, hl, hroom, hrest⟩ := expandItems_cons hd
    obtain ⟨hlegal, hcode⟩ := hi i List.mem_cons_self
    rw [List.flatMap_cons, State.hasBits_append h.cursor] at hb
    obtain ⟨hbi, hbrest⟩ := hb
    obtain ⟨hround, hat⟩ := h.item hlegal hcode hbi hl hroom
    obtain ⟨l', rfl, hloop, hat'⟩ := ih hat (fun j hj => hi j (List.mem_cons_of_mem _ hj)) hrest hbrest
    have hofs : s.ofs.toNat + l.length ≤ s.nsym.toNat := by
      rw [h.ofs, ← List.length_append]
      exact hroom
    have hstate : (((s.skipBits (i.bits s.cfg s.tmp).length).produced l).skipBits
          (items.flatMap (Item.bits s.cfg s.tmp)).length).produced l'
        = (s.skipBits ((i :: items).flatMap (Item.bits s.cfg s.tmp)).length).produced (l ++ l') := by
      rw [State.skipBits_produced, hbi.skipBits_skipBits h.cursor, List.flatMap_cons, List.length_append]
      exact (State.produced_append (s := s.skipBits _) hofs).symm
    refine ⟨l ++ l', by rw [List.append_assoc], ?_, hstate ▸ hat'⟩
    calc depthLoop ((i :: items).length + n) s
        = ((fetchSymbol s).bind fun x s' => Machine.dispatchSymbol x s').bind fun _ s'' =>
            depthLoop (items.length + n) s'' := by
          rw [List.length_cons, Nat.add_right_comm, depthLoop, if_pos (by rw [h.ofs]; exact hlt), Res.bind_assoc]
      _ = depthLoop (items.length + n) ((s.skipBits (i.bits s.cfg s.tmp).length).produced l) := by
          rw [hround, Res.bind_ok]
      _ = _ := hloop
      _ = _ := congrArg (depthLoop n) hstate

theorem length_le_itemBits {c : Config} {tree : Slot} {items : List Item} (hi : itemsLegal c tree items) :
    items.length ≤ (items.flatMap (Item.bits c tree)).length := by
  induction items with
  | nil => exact Nat.le_refl _
  | cons i items ih =>
    have hrest := ih fun j hj => hi j (List.mem_cons_of_mem _ hj)
    have hcode := (hi i List.mem_cons_self).2
    rw [List.flatMap_cons, Item.bits_eq, List.length_cons, List.length_append, List.length_append, Slot.length_codeBits]
    omega

/-- Step 4 on the items of a whole depth array (rule R155). -/
theorem readDepths_of_items {items : List Item} (h : s.AtItems []) (hi : itemsLegal s.cfg s.tmp items)
    (hd : expandItems s.cfg s.nsym.toNat [] items = some d) (hall : d.length = s.nsym.toNat)
    (hb : s.hasBits (items.flatMap (Item.bits s.cfg s.tmp))) :
    readDepths s = .ok () ((s.skipBits (items.flatMap (Item.bits s.cfg s.tmp)).length).produced d)
      ∧ ∀ v ∈ d, v ≤ 16 := by
  have hlen := length_le_itemBits hi
  have hrem := hb.1
  obtain ⟨n, hn⟩ := Nat.exists_eq_add_of_le (show items.length ≤ s.rem by omega)
  obtain ⟨l, rfl, hloop, hat⟩ := depthLoop_items (n + 1) h hi hd hb
  refine ⟨?_, hat.small⟩
  rw [readDepths, hn, Nat.add_assoc, hloop, depthLoop]
  exact if_neg (by rw [hat.ofs, hall]; exact Nat.lt_irrefl _)

end

end Sys2Proof.Machine
end

section
/-! A table record at the cursor (30_encoding.md rules R88 to R94): the header that steps 1 to 3 read, `TREAD t` on one
record and `GETTAB` on two (42_table_reader.md rules R151 to R168). -/

namespace Sys2Proof.Machine

/-! ### Entries in any order -/

/-- Write `f x` at each index x of a list, in order. -/
def Store.putAll {α : Type} (m : Store α) (f : Nat → α) : List Nat → Store α
  | [] => m
  | x :: xs => Store.putAll (Store.put m x (f x)) f xs

theorem Store.find_putAll {α : Type} (m : Store α) (f : Nat → α) (xs : List Nat) (k : Nat) :
    Store.find (Store.putAll m f xs) k = if k ∈ xs then some (f k) else Store.find m k := by
  induction xs generalizing m with
  | nil => simp [Store.putAll]
  | cons x xs ih =>
    rw [Store.putAll, ih, Store.find_put]
    by_cases hk : k = x
    · subst hk; simp
    · simp [hk]

section
variable {s : State}

/-! ### Step 1 (rule R152) -/

theorem readCount_of_hasBits {count : Nat} (h : s.cursorOk) (h1 : 1 ≤ count) (h2 : count ≤ daSize)
    (hb : s.hasBits (fieldBits s.cfg.bitOrder 14 count)) :
    readCount s = .ok () { s.skipBits 14 with nsym := BitVec.ofNat 14 count } := by
  have hlt : count < 2 ^ 14 := by unfold daSize at h2; omega
  rw [readCount, readBits_of_hasBits h hlt hb, Res.bind_ok]
  exact if_neg (by omega)

/-! ### Step 2 (rules R153 and R168) -/

theorem readTmpDepth_of_hasBits {x v : Nat} (h : s.cursorOk) (hv : v < 2 ^ s.cfg.tmpDepthW)
    (hb : s.hasBits (fieldBits s.cfg.bitOrder s.cfg.tmpDepthW v)) :
    readTmpDepth x s = .ok () { s.skipBits s.cfg.tmpDepthW with td := Store.put s.td x v } := by
  rw [readTmpDepth, readBits_of_hasBits h hv hb]
  rfl

/-- Depth fields at the cursor, one for each symbol of a list. -/
theorem readTmpFields_of_hasBits {xs : List Nat} {f : Nat → Nat} (h : s.cursorOk) (hf : ∀ x, f x < 2 ^ s.cfg.tmpDepthW)
    (hb : s.hasBits (xs.flatMap fun x => fieldBits s.cfg.bitOrder s.cfg.tmpDepthW (f x))) :
    readTmpFields xs s
      = .ok () { s.skipBits (xs.flatMap fun x => fieldBits s.cfg.bitOrder s.cfg.tmpDepthW (f x)).length with
          td := Store.putAll s.td f xs } := by
  induction xs generalizing s with
  | nil => simp [readTmpFields, Store.putAll]
  | cons x xs ih =>
    rw [List.flatMap_cons, State.hasBits_append h] at hb
    obtain ⟨hbx, hbrest⟩ := hb
    have hskip := hbx.skipBits_skipBits h (xs.flatMap fun x => fieldBits s.cfg.bitOrder s.cfg.tmpDepthW (f x)).length
    have hok := hbx.cursorOk_skipBits h
    rw [length_fieldBits] at hbrest hskip hok
    have hrest := ih (s := { s.skipBits s.cfg.tmpDepthW with td := Store.put s.td x (f x) }) hok hf hbrest
    rw [readTmpFields, readTmpDepth_of_hasBits h (hf x) hbx, Res.bind_ok, hrest, List.flatMap_cons, List.length_append,
      length_fieldBits, ← hskip]
    rfl

theorem mem_tmpOrder {k : Nat} (hk : k < tmpNsym) : k ∈ tmpOrder := by
  have hall : ∀ k < tmpNsym, k ∈ tmpOrder := by decide
  exact hall k hk

theorem depthAt_lt {d : List Nat} {b : Nat} (h : ∀ v ∈ d, v < b) (hb : 0 < b) (x : Nat) : depthAt d x < b := by
  by_cases hx : x < d.length
  · exact h _ (depthAt_mem hx)
  · rw [depthAt, List.getD_eq_default _ _ (by omega)]
    exact hb

@[simp] theorem fieldBits_zero (o : BitOrder) (v : Nat) : fieldBits o 0 v = [] := by
  cases o <;> rfl

theorem clearTmpDepths_eq (s : State) :
    ∃ td, clearTmpDepths s = { s with td := td } ∧ ∀ k, k < tmpNsym → Store.find td k = some 0 :=
  ⟨_, rfl, fun k hk => by rw [Store.find_putRun, if_pos ⟨Nat.zero_le k, by omega⟩]⟩

/-- The temporary depths at the cursor, with or without a count field. -/
theorem readTmpDepths_of_hasBits {count : Nat} {depths : List Nat} (h : s.cursorOk)
    (hl : tmpPartLegal s.cfg count depths) (hb : s.hasBits (tmpPartBits s.cfg count depths)) :
    ∃ td, readTmpDepths s = .ok () { s.skipBits (tmpPartBits s.cfg count depths).length with td := td }
      ∧ ∀ k, k < tmpNsym → Store.find td k = some (depthAt depths k) := by
  obtain ⟨-, hsmall, hzero, h1, h21, hnone, hsome⟩ := hl
  have hf := depthAt_lt hsmall (Nat.two_pow_pos _)
  unfold readTmpDepths
  by_cases hw : s.cfg.tmpCountW = 0
  · have hall : tmpOrder.take count = tmpOrder := by rw [hnone hw]; rfl
    have hbits : tmpPartBits s.cfg count depths
        = tmpOrder.flatMap fun x => fieldBits s.cfg.bitOrder s.cfg.tmpDepthW (depthAt depths x) := by
      rw [tmpPartBits, hw, fieldBits_zero, List.nil_append, hall]
    rw [hbits] at hb ⊢
    refine ⟨_, (if_pos hw).trans (readTmpFields_of_hasBits h hf hb), fun k hk => ?_⟩
    rw [Store.find_putAll, if_pos (mem_tmpOrder hk)]
  · unfold tmpPartBits at hb ⊢
    rw [State.hasBits_append h] at hb
    obtain ⟨hbcount, hbfields⟩ := hb
    have hskip := hbcount.skipBits_skipBits h
      ((tmpOrder.take count).flatMap fun x => fieldBits s.cfg.bitOrder s.cfg.tmpDepthW (depthAt depths x)).length
    have hok := hbcount.cursorOk_skipBits h
    rw [length_fieldBits] at hbfields hskip hok
    obtain ⟨td0, hclear, htd0⟩ := clearTmpDepths_eq s
    have hcount := readBits_of_hasBits (s := { s with td := td0 }) h (hsome hw) hbcount
    have hfields := readTmpFields_of_hasBits (s := { s.skipBits s.cfg.tmpCountW with td := td0 }) hok hf hbfields
    refine ⟨Store.putAll td0 (depthAt depths) (tmpOrder.take count), ?_, fun k hk => ?_⟩
    · rw [if_neg hw, hclear, hcount, Res.bind_ok]
      refine (if_neg (by omega)).trans (hfields.trans ?_)
      rw [List.length_append, length_fieldBits, ← hskip]
      rfl
    · rw [Store.find_putAll]
      split
      · rfl
      · next hk' =>
        have hmem := mem_tmpOrder hk
        rw [← List.take_append_drop count tmpOrder] at hmem
        rw [hzero k ((List.mem_append.1 hmem).resolve_left hk')]
        exact htd0 k hk

/-! ### Step 3 (rule R154) -/

theorem build_of_some {t : SlotId} {d : List Nat} {sl : Slot} (h : buildSlot d = some sl) (s : State) :
    build t d s = .ok () (s.setSlot t sl) := by
  rw [build, h]

/-- Entries that have all been written are read back as a depth array. -/
theorem tdList_eq {depths : List Nat} (hlen : depths.length = tmpNsym)
    (h : ∀ k, k < tmpNsym → Store.find s.td k = some (depthAt depths k)) : s.tdList = depths := by
  rw [← map_depthAt_range depths, hlen]
  refine List.map_congr_left fun k hk => ?_
  rw [State.tdRead, h k (List.mem_range.1 hk), Option.getD_some]

/-- The state after steps 1 to 3 of a record. -/
def State.headerRead (s : State) (hd : Header) (td : Store Nat) : State :=
  { s.skipBits (hd.bits s.cfg).length with nsym := BitVec.ofNat 14 hd.count, td := td, tmp := hd.tree }

/-- Steps 1 to 3 on a header that lies at the cursor (rules R152 to R154). -/
theorem readHeader_of_hasBits {hd : Header} (h : s.cursorOk) (hl : hd.legal s.cfg) (hb : s.hasBits (hd.bits s.cfg)) :
    ∃ td, readHeader s = .ok () (s.headerRead hd td)
      ∧ ∀ k, k < tmpNsym → Store.find td k = some (depthAt hd.tmpDepths k) := by
  obtain ⟨h1, h2, hpart, htree⟩ := hl
  unfold State.headerRead
  unfold Header.bits at hb ⊢
  rw [State.hasBits_append h] at hb
  obtain ⟨hbcount, hbpart⟩ := hb
  have hskip := hbcount.skipBits_skipBits h (tmpPartBits s.cfg hd.fields hd.tmpDepths).length
  have hok := hbcount.cursorOk_skipBits h
  rw [length_fieldBits] at hbpart hskip hok
  obtain ⟨td, hread, htd⟩ := readTmpDepths_of_hasBits
    (s := { s.skipBits 14 with nsym := BitVec.ofNat 14 hd.count }) hok hpart hbpart
  refine ⟨td, ?_, htd⟩
  rw [readHeader, readCount_of_hasBits h h1 h2 hbcount, Res.bind_ok, hread, Res.bind_ok, buildTmp,
    tdList_eq hpart.1 htd, build_of_some htree, List.length_append, length_fieldBits, ← hskip]
  rfl

/-! ### A whole record (rule R151) -/

/-- The state in which the whole of a record is read and its main tree is still to be built. -/
def State.recordRead (s : State) (r : Record) (td : Store Nat) : State :=
  { s.skipBits (r.bits s.cfg).length with
      nsym := BitVec.ofNat 14 r.count, ofs := BitVec.ofNat 14 r.count
      lastnz := BitVec.ofNat 5 (lastNonzero r.depths), tmp := r.tree
      da := Store.putList s.da 0 (r.depths.map (BitVec.ofNat 5)), td := td }

/-- The state after a record whose main tree is built in slot t. -/
def State.recorded (s : State) (t : SlotId) (r : Record) (td : Store Nat) : State :=
  (s.recordRead r td).setSlot t r.main

/-- A depth array that is produced from its first entry on. -/
theorem State.produced_from_start {d : List Nat} (hofs : s.ofs = 0) (hlast : s.lastnz = 0) :
    s.produced d = { s with
      da := Store.putList s.da 0 (d.map (BitVec.ofNat 5)), ofs := BitVec.ofNat 14 d.length
      lastnz := BitVec.ofNat 5 (lastNonzero d) } := by
  have hlastnz : (if lastNonzero d = 0 then s.lastnz else BitVec.ofNat 5 (lastNonzero d))
      = BitVec.ofNat 5 (lastNonzero d) := by
    split
    · next h0 => rw [h0, hlast]; rfl
    · rfl
  unfold State.produced
  rw [hlastnz, hofs, show (0 : BitVec 14) + BitVec.ofNat 14 d.length = _ from BitVec.zero_add _]
  rfl

/-- The depth array of a record, entry by entry (rule R161). -/
theorem find_recorded_da (m : Store (BitVec 5)) (d : List Nat) (k : Nat) :
    Store.find (Store.putList m 0 (d.map (BitVec.ofNat 5))) k
      = if k < d.length then some (BitVec.ofNat 5 (depthAt d k)) else Store.find m k := by
  rw [Store.find_putList, List.length_map, Nat.zero_add, Nat.sub_zero]
  by_cases hk : k < d.length
  · rw [if_pos ⟨Nat.zero_le k, hk⟩, if_pos hk, List.getElem?_map, depthAt, List.getD_eq_getElem _ _ hk,
      List.getElem?_eq_getElem hk, Option.map_some]
  · rw [if_neg (fun hc => hk hc.2), if_neg hk]

theorem daList_eq {d : List Nat} (hlen : d.length = s.nsym.toNat) (hd : ∀ v ∈ d, v ≤ 16)
    (h : ∀ k, k < d.length → Store.find s.da k = some (BitVec.ofNat 5 (depthAt d k))) : s.daList = d := by
  rw [← map_depthAt_range d, hlen]
  refine List.map_congr_left fun k hk => ?_
  have hlt := List.mem_range.1 hk
  have hle := hd _ (depthAt_mem (hlen ▸ hlt))
  rw [State.daRead, h k (hlen ▸ hlt), Option.getD_some, BitVec.toNat_ofNat]
  omega

theorem skipBits_beginRecord {t : SlotId} (ht : t ≠ .tmp) (s : State) (n : Nat) :
    (beginRecord t s).skipBits n = beginRecord t (s.skipBits n) := by
  cases t with
  | tmp => exact absurd rfl ht
  | t0 | t1 => rfl

/-- What the bit reader sees of a state (40_bitreader.md rules R112 and R115 d). -/
def State.stream (s : State) := (s.cfg, s.buf, s.bufLen, s.brByte, s.brBit, s.brEnd)

theorem State.cursorOk_of_stream {u : State} (hw : u.stream = s.stream) (h : s.cursorOk) : u.cursorOk := by
  simp only [State.stream, Prod.mk.injEq] at hw
  obtain ⟨-, -, hlen, hbyte, hbit, hend⟩ := hw
  unfold State.cursorOk
  rw [hlen, hbyte, hbit, hend]
  exact h

theorem State.hasBits_of_stream {u : State} {bits : List Nat} (hw : u.stream = s.stream) (hb : s.hasBits bits) :
    u.hasBits bits := by
  simp only [State.stream, Prod.mk.injEq] at hw
  obtain ⟨hcfg, hbuf, -, hbyte, hbit, hend⟩ := hw
  unfold State.hasBits State.nextBits State.bitAt State.rem State.pos
  rw [hcfg, hbuf, hbyte, hbit, hend]
  exact hb

theorem stream_beginRecord (t : SlotId) (s : State) : (beginRecord t s).stream = s.stream := by
  cases t <;> rfl

theorem cfg_beginRecord (t : SlotId) (s : State) : (beginRecord t s).cfg = s.cfg := by
  cases t <;> rfl

/-- What is invalidated first is written again (rule R151). -/
theorem recorded_beginRecord {t : SlotId} (ht : t ≠ .tmp) (s : State) (r : Record) (td : Store Nat) :
    (beginRecord t s).recorded t r td = s.recorded t r td := by
  unfold State.recorded State.recordRead
  rw [skipBits_beginRecord ht, cfg_beginRecord]
  cases t with
  | tmp => exact absurd rfl ht
  | t0 | t1 => rfl

/-- Reading the items after the header is reading the record. -/
theorem produced_headerRead {r : Record} {td : Store Nat} (h : s.cursorOk) (hofs : s.ofs = 0) (hlast : s.lastnz = 0)
    (hlen : r.depths.length = r.count) (hb : s.hasBits (r.toHeader.bits s.cfg)) :
    ((s.headerRead r.toHeader td).skipBits (r.items.flatMap (Item.bits s.cfg r.tree)).length).produced r.depths
      = s.recordRead r td := by
  have hskip := hb.skipBits_skipBits h (r.items.flatMap (Item.bits s.cfg r.tree)).length
  rw [← List.length_append] at hskip
  rw [State.produced_from_start (s := (s.headerRead _ td).skipBits _) hofs hlast, hlen]
  unfold State.recordRead Record.bits
  rw [← hskip]
  rfl

/-- The table reader after its first line, on a record that lies at the cursor (rules R152 to R162). -/
theorem readRecord_of_hasBits {t : SlotId} {r : Record} (h : s.cursorOk) (hofs : s.ofs = 0) (hlast : s.lastnz = 0)
    (hl : r.legal s.cfg) (hb : s.hasBits (r.bits s.cfg)) :
    ∃ td, ((readHeader s).bind fun _ s1 => (readDepths s1).bind fun _ s2 => build t s2.daList s2)
        = .ok () (s.recorded t r td)
      ∧ ∀ k, k < tmpNsym → Store.find td k = some (depthAt r.tmpDepths k) := by
  obtain ⟨hheader, hitems, hexpand, hlen, hmain⟩ := hl
  obtain ⟨-, hmax, htmp, htree⟩ := id hheader
  have hnsym : (BitVec.ofNat 14 r.count).toNat = r.count := by
    unfold daSize at hmax
    rw [BitVec.toNat_ofNat]
    omega
  rw [Record.bits, State.hasBits_append h] at hb
  obtain ⟨hbheader, hbitems⟩ := hb
  obtain ⟨td, hread, htd⟩ := readHeader_of_hasBits h hheader hbheader
  refine ⟨td, ?_, htd⟩
  have hat : (s.headerRead r.toHeader td).AtItems [] :=
    { cursor := hbheader.cursorOk_skipBits h
      tree := ⟨r.tmpDepths, htree, htmp.1⟩
      ofs := congrArg BitVec.toNat hofs
      lastnz := hlast
      small := fun v hv => by cases hv }
  obtain ⟨hdepths, hsmall⟩ := readDepths_of_items hat hitems (hnsym.symm ▸ hexpand) (hlen.trans hnsym.symm) hbitems
  have hda : (s.recordRead r td).daList = r.depths :=
    daList_eq (hlen.trans hnsym.symm) hsmall fun k hk => (find_recorded_da s.da r.depths k).trans (if_pos hk)
  rw [hread, Res.bind_ok, hdepths, Res.bind_ok]
  refine (congrArg (fun s2 : State => build t s2.daList s2) (produced_headerRead h hofs hlast hlen hbheader)).trans ?_
  show build t (s.recordRead r td).daList (s.recordRead r td) = _
  rw [hda]
  exact build_of_some hmain _

/-- The table reader on a record that lies at the cursor (rules R151 to R162). -/
theorem treadBody_of_hasBits {t : SlotId} {r : Record} (ht : t ≠ .tmp) (h : s.cursorOk) (hl : r.legal s.cfg)
    (hb : s.hasBits (r.bits s.cfg)) : ∃ td, treadBody t s = .ok () (s.recorded t r td)
      ∧ ∀ k, k < tmpNsym → Store.find td k = some (depthAt r.tmpDepths k) := by
  have hcfg := cfg_beginRecord t s
  have h0 : (beginRecord t s).cursorOk := State.cursorOk_of_stream (stream_beginRecord t s) h
  have hb0 : (beginRecord t s).hasBits (r.bits (beginRecord t s).cfg) := by
    rw [hcfg]
    exact State.hasBits_of_stream (stream_beginRecord t s) hb
  obtain ⟨td, hread, htd⟩ := readRecord_of_hasBits (t := t) h0 rfl rfl (hcfg.symm ▸ hl) hb0
  exact ⟨td, hread.trans (congrArg (Res.ok ()) (recorded_beginRecord ht s r td)), htd⟩

/-! ### `TREAD t` and `GETTAB` -/

theorem recorded_launched (s : State) (w : Word) (t : SlotId) (r : Record) (td : Store Nat) :
    ((s.launched w).recorded t r td).complete
      = ({ (s.skipBits (r.bits s.cfg).length).ended w with
          nsym := BitVec.ofNat 14 r.count, ofs := BitVec.ofNat 14 r.count
          lastnz := BitVec.ofNat 5 (lastNonzero r.depths), tmp := r.tree
          da := Store.putList s.da 0 (r.depths.map (BitVec.ofNat 5)), td := td } : State).setSlot t r.main := by
  cases t <;> rfl

theorem exec_tread (t : BitVec 1) (s : State) :
    exec (.tread t) s = launch (0x06000000 ||| t.zeroExtend 32) (treadBody (slotOfT01 t)) s := by
  rw [← commandWord_tread]
  rfl

end

end Sys2Proof.Machine

open Sys2Proof Sys2Proof.Machine

/-- Settles O20: the header gives the temporary tree, the items the depth array, and that builds the slot. -/
theorem treadReadsARecord : Obligations.TreadReadsARecord := by
  intro t s r hr h hl hb
  refine ⟨congrArg Code.command (commandWord_tread t), ?_⟩
  obtain ⟨-, -, -, hlen, -⟩ := id hl
  obtain ⟨td, hbody, htd⟩ := treadBody_of_hasBits (s := s.launched (0x06000000 ||| t.zeroExtend 32)) (slotOfT01_ne t) h
    hl hb
  refine ⟨Store.putList s.da 0 (r.depths.map (BitVec.ofNat 5)), td, ?_, hlen, fun k hk => ?_, fun k hk => ?_, htd⟩
  · rw [exec_tread, launch_of_ok hr hbody, recorded_launched]
    rfl
  · rw [find_recorded_da, if_pos (hlen.symm ▸ hk)]
  · rw [find_recorded_da, if_neg (by omega)]

end

section
/-! `GETTAB` on two adjacent records (30_encoding.md rule R92, 42_table_reader.md rule R166). -/

namespace Sys2Proof.Machine

section
variable {s : State}

theorem gettabSeek_of_le (h : s.tableOfs.toNat ≤ s.bufLen.toNat) :
    gettabSeek s = .ok () (((s.invalidate .t0).invalidate .t1).seekTo s.tableOfs s.bufLen) :=
  if_neg (Nat.not_lt.2 h)

theorem State.cursorOk_seekTo {off : Word} (h : off.toNat ≤ s.bufLen.toNat) : (s.seekTo off s.bufLen).cursorOk :=
  ⟨h, Nat.le_refl _, fun _ => rfl⟩

theorem stream_recorded (s : State) (t : SlotId) (r : Record) (td : Store Nat) :
    (s.recorded t r td).stream = (s.skipBits (r.bits s.cfg).length).stream := by
  cases t <;> rfl

/-- Two records that lie one after the other, read into `T[0]` and `T[1]` (rule R166). -/
theorem treadBody_twice_of_hasBits {r0 r1 : Record} (h : s.cursorOk) (hl0 : r0.legal s.cfg) (hl1 : r1.legal s.cfg)
    (hb : s.hasBits (r0.bits s.cfg ++ r1.bits s.cfg)) :
    ∃ td0 td, ((treadBody .t0 s).bind fun _ s2 => (treadBody .t1 s2).onError fun s3 => s3.invalidate .t0)
        = .ok () ((s.recorded .t0 r0 td0).recorded .t1 r1 td)
      ∧ ∀ k, k < tmpNsym → Store.find td k = some (depthAt r1.tmpDepths k) := by
  obtain ⟨hb0, hb1⟩ := (State.hasBits_append h).1 hb
  obtain ⟨td0, hfirst, -⟩ := treadBody_of_hasBits (t := .t0) (by decide) h hl0 hb0
  have hstream := stream_recorded s .t0 r0 td0
  obtain ⟨td, hsecond, htd⟩ := treadBody_of_hasBits (s := s.recorded .t0 r0 td0) (t := .t1) (by decide)
    (State.cursorOk_of_stream hstream (hb0.cursorOk_skipBits h)) hl1 (State.hasBits_of_stream hstream hb1)
  refine ⟨td0, td, ?_, htd⟩
  rw [hfirst, Res.bind_ok, hsecond]
  rfl

theorem stream_gettabSeek (s : State) :
    (((s.invalidate .t0).invalidate .t1).seekTo s.tableOfs s.bufLen).stream = (s.seekTo s.tableOfs s.bufLen).stream := rfl

/-- `GETTAB` on two records from byte `TABLE_OFS` on (rule R166). -/
theorem gettabBody_of_hasBits {r0 r1 : Record} (h : s.tableOfs.toNat ≤ s.bufLen.toNat) (hl0 : r0.legal s.cfg)
    (hl1 : r1.legal s.cfg) (hb : (s.seekTo s.tableOfs s.bufLen).hasBits (r0.bits s.cfg ++ r1.bits s.cfg)) :
    ∃ td0 td, gettabBody s
        = .ok () (((((s.invalidate .t0).invalidate .t1).seekTo s.tableOfs s.bufLen).recorded .t0 r0 td0).recorded .t1 r1 td)
      ∧ ∀ k, k < tmpNsym → Store.find td k = some (depthAt r1.tmpDepths k) := by
  have hstream := stream_gettabSeek s
  obtain ⟨td0, td, hboth, htd⟩ := treadBody_twice_of_hasBits
    (State.cursorOk_of_stream hstream (State.cursorOk_seekTo h)) hl0 hl1 (State.hasBits_of_stream hstream hb)
  exact ⟨td0, td, by rw [gettabBody, gettabSeek_of_le h, Res.bind_ok, hboth], htd⟩

theorem recorded_both_launched (s : State) (w : Word) (r0 r1 : Record) (td0 td : Store Nat) :
    ((((((s.launched w).invalidate .t0).invalidate .t1).seekTo s.tableOfs s.bufLen).recorded .t0 r0 td0).recorded .t1 r1
        td).complete
      = { (((s.seekTo s.tableOfs s.bufLen).skipBits (r0.bits s.cfg).length).skipBits (r1.bits s.cfg).length).ended w with
          nsym := BitVec.ofNat 14 r1.count, ofs := BitVec.ofNat 14 r1.count
          lastnz := BitVec.ofNat 5 (lastNonzero r1.depths), t0 := r0.main, t1 := r1.main, tmp := r1.tree
          da := Store.putList (Store.putList s.da 0 (r0.depths.map (BitVec.ofNat 5))) 0
            (r1.depths.map (BitVec.ofNat 5)), td := td } := rfl

theorem exec_gettab (s : State) : exec .gettab s = launch 0x07000000 gettabBody s := rfl

end

end Sys2Proof.Machine

open Sys2Proof Sys2Proof.Machine

/-- Settles O28: the second record is read where the first one ends, and its depths are written over the first one's. -/
theorem gettabReadsTwoRecords : Obligations.GettabReadsTwoRecords := by
  refine ⟨rfl, fun s r0 r1 hr h hl0 hl1 hb => ?_⟩
  obtain ⟨-, -, -, hlen0, -⟩ := id hl0
  obtain ⟨-, -, -, hlen1, -⟩ := id hl1
  obtain ⟨td0, td, hbody, htd⟩ := gettabBody_of_hasBits (s := s.launched 0x07000000) h hl0 hl1 hb
  have hcursor := State.cursorOk_seekTo h
  have hskip := ((State.hasBits_append hcursor).1 hb).1.skipBits_skipBits hcursor (r1.bits s.cfg).length
  refine ⟨Store.putList (Store.putList s.da 0 (r0.depths.map (BitVec.ofNat 5))) 0 (r1.depths.map (BitVec.ofNat 5)), td, ?_,
    fun k hk => ?_, fun k hk hk0 => ?_, fun k hk hk0 => ?_, htd⟩
  · rw [exec_gettab, launch_of_ok hr hbody, List.length_append, ← hskip]
    exact congrArg _ (recorded_both_launched s _ r0 r1 td0 td)
  · rw [find_recorded_da, if_pos (hlen1.symm ▸ hk)]
  · rw [find_recorded_da, if_neg (by omega), find_recorded_da, if_pos (hlen0.symm ▸ hk0)]
  · rw [find_recorded_da, if_neg (by omega), find_recorded_da, if_neg (by omega)]

end

section
/-! `UNPACK i` (30_encoding.md rule R93, 43_level_unpacker.md rules R182 to R192): its pre-checks, its two ends for every
`EXPAND`, and under `LITERAL` the bytes that the level's data codes. -/

namespace Sys2Proof.Machine

section
variable {s : State}

/-! ### The command -/

theorem exec_unpack (i : BitVec 8) (s : State) :
    exec (.unpack i) s = launch (0x09000000 ||| i.zeroExtend 32) (unpackBody i.toNat) s := by
  rw [← commandWord_unpack]
  rfl

theorem opByte_unpack (i : BitVec 8) : opByte (0x09000000 ||| i.zeroExtend 32) = 0x09 := by
  rw [← commandWord_unpack, opByte_commandWord]

/-- The state with the registers of v that `UNPACK` writes, and its outcome (rule R184). -/
def State.withUnpack (s v : State) : State :=
  { s with brByte := v.brByte, brBit := v.brBit, brEnd := v.brEnd, liW := v.liW, liH := v.liH, expLen := v.expLen
           expCtx := v.expCtx, out := v.out, outLen := v.outLen, outValid := v.outValid, run := v.run, err := v.err
           errOp := v.errOp }

theorem UnpackStep.eq_withUnpack {u : State} (h : UnpackStep s u) : u = s.withUnpack u :=
  show u.sansUnpack.withUnpack u = s.sansUnpack.withUnpack u from congrArg (fun v : State => v.withUnpack u) h.frame

/-! ### The pre-checks (rule R184) -/

theorem blockBytes_eq_none_iff {fmt : Nat} : blockBytes fmt = none ↔ 2 < fmt := by
  constructor
  · intro h
    by_contra hle
    obtain rfl | rfl | rfl : fmt = 0 ∨ fmt = 1 ∨ fmt = 2 := by omega
    all_goals cases h
  · intro h
    unfold blockBytes
    rw [if_neg (by omega), if_neg (by omega), if_neg (by omega)]

theorem unpackCheck_of_level {i : Nat} (hi : s.levelCount.val ≤ i) :
    unpackCheck i s = raise .levelIndexOutOfRange s := by
  rw [unpackCheck, levelDims, if_pos hi]

theorem unpackCheck_of_no_format {i : Nat} (hi : i < s.levelCount.val) (hb : blockBytes s.fmt.toNat = none) :
    unpackCheck i s = raise .unsupportedFormat s := by
  rw [unpackCheck, levelDims, if_neg (Nat.not_le.2 hi), hb]

theorem unpackCheck_of_format {i b : Nat} (hi : i < s.levelCount.val) (hb : blockBytes s.fmt.toNat = some b) :
    unpackCheck i s =
      if s.t0.valid = false ∨ s.cfg.expand.usesAux = true ∧ s.t1.valid = false then raise .illegalCommand s
      else if s.bufLen.toNat < (s.levelOfs i).toNat + (s.levelSize i).toNat then raise .offsetOutOfRange s
      else .ok () (s.checked i b) := by
  rw [unpackCheck, levelDims, if_neg (Nat.not_le.2 hi), hb]
  rfl

/-- The slots that `UNPACK` needs are not invalid (rule R184). -/
theorem slots_of_valid (h0 : s.t0.valid = true) (h1 : s.cfg.expand.usesAux = true → s.t1.valid = true) :
    ¬ (s.t0.valid = false ∨ s.cfg.expand.usesAux = true ∧ s.t1.valid = false) := by
  rintro (h | ⟨haux, h⟩)
  · exact absurd (h0.symm.trans h) (by decide)
  · exact absurd ((h1 haux).symm.trans h) (by decide)

/-- A failed pre-check ends the command, with no output (rules R184 and R190). -/
theorem unpackBody_of_check {i : Nat} {e : ErrorKind} (h : unpackCheck i (beginUnpack s) = raise e (beginUnpack s)) :
    unpackBody i s = raise e (beginUnpack s) := by
  rw [unpackBody, unpackInner, h]
  rfl

theorem exec_unpack_of_check {i : BitVec 8} {e : ErrorKind} (hr : s.run = .idle)
    (h : unpackCheck i.toNat (beginUnpack (s.launched (0x09000000 ||| i.zeroExtend 32)))
      = raise e (beginUnpack (s.launched (0x09000000 ||| i.zeroExtend 32)))) :
    exec (.unpack i) s = .next ((beginUnpack s).failed (0x09000000 ||| i.zeroExtend 32) e) := by
  rw [exec_unpack, launch_of_raise hr (unpackBody_of_check h)]
  rfl

/-! ### The lengths (rules R181 and R182) -/

theorem levelDim_eq (d i : Nat) : levelDim d i = max 1 (d / 2 ^ i) := by
  rw [levelDim, Nat.shiftRight_eq_div_pow]

theorem expLenOf_eq (w h b : Nat) : expLenOf w h b = (w + 3) / 4 * ((h + 3) / 4) * b := by
  simp only [expLenOf, ceilDiv4, Nat.shiftRight_eq_div_pow, Nat.reducePow]

/-- `EXP_LEN` holds the length of a level (rules R39 and R182). -/
theorem toNat_expLenOf {fmt b i : Nat} {w h : BitVec 16} (hb : blockBytes fmt = some b) :
    (BitVec.ofNat 33 (expLenOf (levelDim w.toNat i) (levelDim h.toNat i) b)).toNat
      = expLenOf (levelDim w.toNat i) (levelDim h.toNat i) b := by
  have hbytes : 8 ≤ b ∧ b ≤ 16 := by rcases blockBytes_cases hb with ⟨-, rfl⟩ | ⟨-, rfl⟩ | ⟨-, rfl⟩ <;> omega
  obtain ⟨hw1, hw2⟩ := levelDim_bounds w.isLt i
  obtain ⟨hh1, hh2⟩ := levelDim_bounds h.isLt i
  obtain ⟨-, hmax⟩ := expLenOf_bounds hw1 hw2 hh1 hh2 hbytes.1 hbytes.2
  rw [BitVec.toNat_ofNat, Nat.mod_eq_of_lt (by omega)]

/-! ### The loop on coded bytes (rules R184 and R187) -/

/-- The bits of a list of bytes under `LITERAL` (rule R93). -/
def Slot.bytesBits (sl : Slot) (bytes : List Byte) : List Nat := bytes.flatMap fun x => sl.codeBits x.toNat

theorem unpackDecode_of_hasBits {x : Nat} (h : s.cursorOk) (ht : s.t0.builtFor .t0) (hx : s.t0.depthOf x ≠ 0)
    (hb : s.hasBits (s.t0.codeBits x)) : unpackDecode s = .ok x (s.skipBits (s.t0.depthOf x)) := by
  have hrem := hb.1
  rw [Slot.length_codeBits] at hrem
  rw [unpackDecode, if_neg (by omega)]
  exact decodeSym_of_hasBits (t := .t0) h ht hx hb

theorem unpackExpand_literal (he : s.cfg.expand = .literal) (x : Byte) (hlt : s.outLen.toNat < s.expLen.toNat) :
    unpackExpand x.toNat s = .ok [x] s := by
  have hx := x.isLt
  rw [unpackExpand, expandSym_literal he, if_pos (by omega), Res.bind_ok, BitVec.ofNat_toNat, BitVec.setWidth_eq]
  exact if_neg (Nat.not_lt.2 hlt)

/-- The loop takes one round for each byte whose code lies at the cursor (rule R184). -/
theorem unpackLoop_of_hasBits {bytes : List Byte} (n : Nat) (h : s.cursorOk) (he : s.cfg.expand = .literal)
    (ht : s.t0.builtFor .t0) (hx : ∀ x ∈ bytes, s.t0.depthOf x.toNat ≠ 0) (hb : s.hasBits (s.t0.bytesBits bytes))
    (hlen : s.outLen.toNat + bytes.length ≤ s.expLen.toNat) :
    unpackLoop (bytes.length + n) s
      = unpackLoop n ((s.skipBits (s.t0.bytesBits bytes).length).outAppendAll bytes) := by
  induction bytes generalizing s with
  | nil => simp [Slot.bytesBits, State.outAppendAll]
  | cons x bytes ih =>
    rw [List.length_cons] at hlen ⊢
    unfold Slot.bytesBits at hb ⊢
    rw [List.flatMap_cons, State.hasBits_append h] at hb
    obtain ⟨hbx, hbrest⟩ := hb
    have hok := hbx.cursorOk_skipBits h
    have hskip := hbx.skipBits_skipBits h (s.t0.bytesBits bytes).length
    rw [Slot.length_codeBits] at hbrest hok hskip
    have hexp := s.expLen.isLt
    have hone : ((s.skipBits (s.t0.depthOf x.toNat)).outAppendAll [x]).outLen.toNat = s.outLen.toNat + 1 :=
      State.outAppendAll_outLen (s.skipBits _) [x] (show s.outLen.toNat + 1 < 2 ^ 33 by omega)
    have hrest := ih (s := (s.skipBits (s.t0.depthOf x.toNat)).outAppendAll [x]) hok he ht
      (fun y hy => hx y (List.mem_cons_of_mem _ hy)) hbrest (by rw [hone]; show _ ≤ s.expLen.toNat; omega)
    rw [Nat.add_right_comm, unpackLoop, if_pos (by omega),
      unpackDecode_of_hasBits h ht (hx x List.mem_cons_self) hbx, Res.bind_ok,
      unpackExpand_literal (s := s.skipBits _) he x (show s.outLen.toNat < s.expLen.toNat by omega), Res.bind_ok, hrest,
      List.flatMap_cons, List.length_append, Slot.length_codeBits]
    exact congrArg (fun u : State => unpackLoop n ((u.outAppend x).outAppendAll bytes)) hskip

theorem Slot.length_le_bytesBits {sl : Slot} {bytes : List Byte} (hx : ∀ x ∈ bytes, sl.depthOf x.toNat ≠ 0) :
    bytes.length ≤ (sl.bytesBits bytes).length := by
  induction bytes with
  | nil => exact Nat.le_refl _
  | cons x bytes ih =>
    have hrest := ih fun y hy => hx y (List.mem_cons_of_mem _ hy)
    have hcode := hx x List.mem_cons_self
    unfold Slot.bytesBits at hrest ⊢
    rw [List.flatMap_cons, List.length_cons, List.length_append, Slot.length_codeBits]
    omega

/-- The whole loop, where the window codes as many bytes as are expected (rules R184 and R188). -/
theorem unpackLoop_whole {bytes : List Byte} (h : s.cursorOk) (he : s.cfg.expand = .literal) (ht : s.t0.builtFor .t0)
    (hx : ∀ x ∈ bytes, s.t0.depthOf x.toNat ≠ 0) (hb : s.hasBits (s.t0.bytesBits bytes)) (ho : s.outLen = 0)
    (hlen : s.expLen.toNat = bytes.length) :
    unpackLoop (s.rem + 1) s = .ok () ((s.skipBits (s.t0.bytesBits bytes).length).outAppendAll bytes) := by
  have hbits := Slot.length_le_bytesBits hx
  have hrem := hb.1
  have hexp := s.expLen.isLt
  have hzero : s.outLen.toNat = 0 := congrArg BitVec.toNat ho
  obtain ⟨n, hn⟩ := Nat.exists_eq_add_of_le (show bytes.length ≤ s.rem by omega)
  have houtLen : ((s.skipBits (s.t0.bytesBits bytes).length).outAppendAll bytes).outLen.toNat
      = s.outLen.toNat + bytes.length :=
    State.outAppendAll_outLen (s.skipBits _) bytes (show s.outLen.toNat + bytes.length < 2 ^ 33 by omega)
  have hframe := State.outAppendAll_frame (s.skipBits (s.t0.bytesBits bytes).length) bytes
  have hexpLen : ((s.skipBits (s.t0.bytesBits bytes).length).outAppendAll bytes).expLen = s.expLen := by
    rw [hframe]
    rfl
  rw [hn, Nat.add_assoc, unpackLoop_of_hasBits (n + 1) h he ht hx hb (by omega), unpackLoop]
  exact if_neg (by rw [houtLen, hexpLen]; omega)

/-- The state in which the loop of `UNPACK i` starts (rules R183 and R184). -/
def State.unpackStart (s : State) (i b : Nat) : State := unpackSeek i ((beginUnpack s).checked i b)

/-- `UNPACK i` under `LITERAL` on data that codes the bytes of the level (rules R184 and R187). -/
theorem unpackBody_of_hasBits {i b : Nat} {bytes : List Byte} (he : s.cfg.expand = .literal) (hi : i < s.levelCount.val)
    (hfmt : blockBytes s.fmt.toNat = some b) (ht : s.t0.builtFor .t0)
    (hwin : (s.levelOfs i).toNat + (s.levelSize i).toNat ≤ s.bufLen.toNat)
    (hlen : bytes.length = expLenOf (levelDim s.imgW.toNat i) (levelDim s.imgH.toNat i) b)
    (hx : ∀ x ∈ bytes, s.t0.depthOf x.toNat ≠ 0)
    (hb : (s.unpackStart i b).hasBits (s.t0.bytesBits bytes)) :
    unpackBody i s = .ok ()
      { ((s.unpackStart i b).skipBits (s.t0.bytesBits bytes).length).outAppendAll bytes with outValid := true } := by
  have hexp : (BitVec.ofNat 33 (expLenOf (levelDim s.imgW.toNat i) (levelDim s.imgH.toNat i) b)).toNat
      = bytes.length := by
    rw [toNat_expLenOf hfmt, hlen]
  have hnoAux : s.cfg.expand.usesAux = true → s.t1.valid = true := fun h => by
    rw [he] at h
    cases h
  have hcheck : unpackCheck i (beginUnpack s) = .ok () ((beginUnpack s).checked i b) := by
    rw [unpackCheck_of_format (s := beginUnpack s) hi hfmt]
    exact (if_neg (slots_of_valid (s := s) ht.valid hnoAux)).trans (if_neg (Nat.not_lt.2 hwin))
  have hloop := unpackLoop_whole (s := s.unpackStart i b) (unpackSeek_cursorOk hwin) he ht hx hb rfl hexp
  rw [unpackBody, unpackInner, hcheck, Res.bind_ok]
  change ((unpackLoop ((s.unpackStart i b).rem + 1) (s.unpackStart i b)).onError _).bind _ = _
  rw [hloop]
  rfl

/-- A list of bytes is the whole of OUT where OUT was empty (rule R185). -/
theorem State.outAppendAll_of_empty {bytes : List Byte} (ho : s.outLen = 0) (hlen : bytes.length < 2 ^ 33) :
    s.outAppendAll bytes
      = { s with out := (s.outAppendAll bytes).out, outLen := BitVec.ofNat 33 bytes.length } := by
  have hzero : s.outLen.toNat = 0 := congrArg BitVec.toNat ho
  have houtLen : (s.outAppendAll bytes).outLen = BitVec.ofNat 33 bytes.length := by
    apply BitVec.eq_of_toNat_eq
    rw [s.outAppendAll_outLen bytes (by omega), hzero, Nat.zero_add, BitVec.toNat_ofNat, Nat.mod_eq_of_lt hlen]
  rw [← houtLen]
  exact s.outAppendAll_frame bytes

theorem State.read_outAppendAll_of_empty {bytes : List Byte} (ho : s.outLen = 0) (hlen : bytes.length < 2 ^ 33)
    (hwf : Memory.wf s.out = true) (k : Nat) :
    Memory.read (s.outAppendAll bytes).out k = bytes[k]?.getD (Memory.read s.out k) := by
  have hzero : s.outLen.toNat = 0 := congrArg BitVec.toNat ho
  rw [s.outAppendAll_read bytes k hwf (by omega), hzero, if_pos (Nat.zero_le k), Nat.sub_zero]

/-- The end of an `UNPACK i` whose loop has read n bits and appended a list of bytes (rules R183 and R184). -/
theorem unpackStart_launched {bytes : List Byte} (w : Word) (i b n : Nat) (hlen : bytes.length < 2 ^ 33) :
    ({ (((s.launched w).unpackStart i b).skipBits n).outAppendAll bytes with outValid := true } : State).complete
      = { ((s.seekTo (s.levelOfs i) (s.levelOfs i + s.levelSize i)).skipBits n).ended w with
          liW := BitVec.ofNat 16 (levelDim s.imgW.toNat i), liH := BitVec.ofNat 16 (levelDim s.imgH.toNat i)
          expLen := BitVec.ofNat 33 (expLenOf (levelDim s.imgW.toNat i) (levelDim s.imgH.toNat i) b)
          outLen := BitVec.ofNat 33 bytes.length, outValid := true, expCtx := s.cfg.expand.ctx0
          out := ((((s.launched w).unpackStart i b).skipBits n).outAppendAll bytes).out } :=
  congrArg (fun v : State => ({ v with outValid := true } : State).complete) (State.outAppendAll_of_empty rfl hlen)

end

end Sys2Proof.Machine

open Sys2Proof Sys2Proof.Machine

/-- Settles O33: the command's body meets its contract of rule R192, and the launch adds the end of the command. -/
theorem unpackIsAllOrNothing : Obligations.UnpackIsAllOrNothing := by
  intro i s hd hr
  rcases launch_meets hr (unpackBody_meets i.toNat (hd.launched (0x09000000 ||| i.zeroExtend 32))) with
    ⟨t, ⟨ht, hvalid, hlen, hmin⟩, hexec⟩ | ⟨e, t, ⟨herr, ht, hvalid, hlen⟩, hexec⟩
  · have herr : t.err = s.err := (State.field_of_sansUnpack State.err ht.frame).trans rfl
    have herrOp : t.errOp = s.errOp := (State.field_of_sansUnpack State.errOp ht.frame).trans rfl
    exact ⟨t.complete, (exec_unpack i s).trans hexec, congrArg State.complete ht.eq_withUnpack,
      .inl ⟨rfl, herr, herrOp, hvalid, hlen, hmin⟩⟩
  · have hop : opByte t.cmd = 0x09 := by
      rw [State.field_of_sansUnpack State.cmd ht.frame]
      exact opByte_unpack i
    refine ⟨t.raiseError (opByte t.cmd) e, (exec_unpack i s).trans hexec,
      congrArg (fun v : State => v.raiseError (opByte t.cmd) e) ht.eq_withUnpack, .inr ⟨rfl, hop, hvalid, hlen, ?_⟩⟩
    show some e = _ ∨ _
    simp only [preError, loopError, streamError] at herr
    rcases herr with (rfl | rfl | rfl | rfl) | rfl | rfl | rfl <;> simp

/-- Settles O32: each pre-check raises its error in the state that the first line of `UNPACK` has left. -/
theorem unpackChecksInOrder : Obligations.UnpackChecksInOrder := by
  rintro i s t w hr rfl rfl
  refine ⟨fun hge => exec_unpack_of_check hr (unpackCheck_of_level hge), fun hi => ⟨fun hfmt =>
    exec_unpack_of_check hr (unpackCheck_of_no_format hi (blockBytes_eq_none_iff.2 hfmt)), fun hfmt => ?_⟩⟩
  obtain ⟨b, hb⟩ := Option.ne_none_iff_exists'.1 (mt blockBytes_eq_none_iff.1 (Nat.not_lt.2 hfmt))
  have hcheck := unpackCheck_of_format (s := beginUnpack (s.launched (0x09000000 ||| i.zeroExtend 32))) hi hb
  exact ⟨fun hslots => exec_unpack_of_check hr (hcheck.trans (if_pos hslots)), fun ⟨h0, h1⟩ hwin =>
    exec_unpack_of_check hr (hcheck.trans ((if_neg (slots_of_valid (s := s) h0 h1)).trans (if_pos hwin)))⟩

/-- Settles O31: the loop appends one byte for each code of the level's data, up to the expected length. -/
theorem unpackWritesTheCodedBytes : Obligations.UnpackWritesTheCodedBytes := by
  rintro i s w h b bytes hr hwf he hi rfl rfl hfmt ht hwin hlen hx hb
  refine ⟨congrArg Code.command (commandWord_unpack i), ?_⟩
  have hformat : blockBytes s.fmt.toNat = some b := by
    rcases hfmt with ⟨hf, rfl⟩ | ⟨hf, rfl⟩ | ⟨hf, rfl⟩ <;> rw [hf] <;> rfl
  rw [← levelDim_eq, ← levelDim_eq] at hlen ⊢
  rw [← expLenOf_eq] at hlen
  have hmax : bytes.length < 2 ^ 33 := by
    rw [hlen, ← toNat_expLenOf hformat]
    exact BitVec.isLt _
  have hbody := unpackBody_of_hasBits (s := s.launched (0x09000000 ||| i.zeroExtend 32)) he hi hformat ht hwin hlen hx hb
  have hend := unpackStart_launched (s := s) (0x09000000 ||| i.zeroExtend 32) i.toNat b (s.t0.bytesBits bytes).length hmax
  rw [← hlen, he] at hend
  have hread := State.read_outAppendAll_of_empty
    (s := ((s.launched (0x09000000 ||| i.zeroExtend 32)).unpackStart i.toNat b).skipBits (s.t0.bytesBits bytes).length)
    rfl hmax hwf
  refine ⟨_, (exec_unpack i s).trans ((launch_of_ok hr hbody).trans (congrArg _ hend)), fun k hk => ?_, fun k hk => ?_⟩
  · rw [hread, List.getElem?_eq_getElem hk, Option.getD_some]
  · rw [hread, List.getElem?_eq_none hk]
    rfl

end

section
/-! `SEEK` and `ALIGN` (40_bitreader.md rules R111 and R114): what each body does, case by case, and the end of its
command. -/

namespace Sys2Proof.Machine

section
variable {s : State}

/-! ### `SEEK` -/

theorem exec_seek (s : State) : exec .seek s = launch 0x01000000 seekBody s := rfl

theorem seekBody_inside (h : s.arg1.toNat ≤ s.bufLen.toNat ∧ s.arg0.toNat ≤ s.arg1.toNat) :
    seekBody s = .ok () (s.seekTo s.arg0 s.arg1) :=
  if_neg fun hout => hout.elim (Nat.not_lt.2 h.1) (Nat.not_lt.2 h.2)

theorem seekBody_outside (h : s.bufLen.toNat < s.arg1.toNat ∨ s.arg1.toNat < s.arg0.toNat) :
    seekBody s = raise .offsetOutOfRange s :=
  if_pos h

/-! ### `ALIGN` -/

theorem exec_align (s : State) : exec .align s = launch 0x03000000 alignBody s := rfl

theorem alignBody_aligned (h : s.brBit = 0) : alignBody s = .ok () s := if_pos h

theorem alignBody_unaligned (h : s.brBit ≠ 0) : alignBody s = .ok () { s with brBit := 0, brByte := s.brByte + 1 } :=
  if_neg h

/-- At a byte boundary the command only ends. -/
theorem exec_align_aligned (hr : s.run = .idle) (h : s.brBit = 0) : exec .align s = .next (s.ended 0x03000000) := by
  rw [exec_align]
  exact launch_of_ok hr (alignBody_aligned (s := s.launched _) h)

/-- Inside a byte the command goes on to the next one. -/
theorem exec_align_unaligned (hr : s.run = .idle) (h : s.brBit ≠ 0) :
    exec .align s = .next { s.ended 0x03000000 with brBit := 0, brByte := s.brByte + 1 } := by
  rw [exec_align]
  exact launch_of_ok hr (alignBody_unaligned (s := s.launched _) h)

/-- After an `ALIGN` that ended at a byte boundary another one changes nothing. -/
theorem exec_align_ended (h : s.brBit = 0) : exec .align (s.ended 0x03000000) = .next (s.ended 0x03000000) :=
  exec_align_aligned (s := s.ended _) rfl h

end

end Sys2Proof.Machine

open Sys2Proof Sys2Proof.Machine

/-- Settles O7: the one test of the body decides between the new window and the error. -/
theorem seekPlacesTheCursor : Obligations.SeekPlacesTheCursor := by
  refine ⟨rfl, fun s hr => ⟨fun hin => ?_, fun hout => ?_⟩⟩
  · rw [exec_seek]
    exact launch_of_ok hr (seekBody_inside (s := s.launched _) hin)
  · rw [exec_seek]
    exact launch_of_raise hr (seekBody_outside (s := s.launched _) hout)

/-- Settles O9: either way the cursor ends at a byte boundary, where `ALIGN` only ends. -/
theorem alignGoesToTheByteBoundary : Obligations.AlignGoesToTheByteBoundary := by
  refine ⟨rfl, fun s hr => ⟨exec_align_aligned hr, exec_align_unaligned hr, fun t ht => ?_⟩⟩
  by_cases hbit : s.brBit = 0
  · rw [exec_align_aligned hr hbit] at ht
    cases ht
    exact exec_align_ended hbit
  · rw [exec_align_unaligned hr hbit] at ht
    cases ht
    exact exec_align_ended (s := { s with brBit := 0, brByte := s.brByte + 1 }) rfl

end

section
/-! `Decode` on the code of a symbol, once and again and again (41_huffman.md rules R137 to R139). -/

namespace Sys2Proof.Machine

section
variable {s : State} {t : SlotId}

theorem hdecBody_of_ok {x : Nat} {u : State} (hv : (s.slot t).valid = true) (he : decodeSym t s = .ok x u) :
    hdecBody t s = .ok () { u with res := zext32 x } := by
  simp [hdecBody, hv, he]

/-- Codes one after the other are decoded one after the other (rule R139 b). -/
theorem decodeMany_of_hasBits {xs : List Nat} (h : s.cursorOk) (ht : (s.slot t).builtFor t)
    (hx : ∀ x ∈ xs, (s.slot t).depthOf x ≠ 0) (hb : s.hasBits (xs.flatMap (s.slot t).codeBits)) :
    decodeMany t xs.length s = .ok xs (s.skipBits (xs.flatMap (s.slot t).codeBits).length) := by
  induction xs generalizing s with
  | nil => simp [decodeMany]
  | cons x xs ih =>
    obtain ⟨hx0, hxs⟩ := List.forall_mem_cons.1 hx
    rw [List.flatMap_cons] at hb ⊢
    obtain ⟨hb0, hbs⟩ := (s.hasBits_append h).1 hb
    have hskip := hb0.skipBits_skipBits h (xs.flatMap (s.slot t).codeBits).length
    have hrest := ih (hb0.cursorOk_skipBits h) (by rwa [State.slot_skipBits]) (by rwa [State.slot_skipBits])
      (by rwa [State.slot_skipBits])
    rw [State.slot_skipBits, hskip] at hrest
    rw [List.length_cons, decodeMany, decodeSym_of_hasBits h ht hx0 hb0, Res.bind_ok, ← Slot.length_codeBits, hrest,
      Res.bind_ok, List.length_append]

end

end Sys2Proof.Machine

open Sys2Proof Sys2Proof.Machine

/-- Settles O15: `Decode` answers the symbol, and the body writes it into `RES`. -/
theorem hdecReturnsTheCodedSymbol : Obligations.HdecReturnsTheCodedSymbol := by
  intro t r s x hr h hrt hb _ hx hbits
  refine ⟨congrArg Code.command (commandWord_hdec t), ?_⟩
  rw [exec_hdec_slot hrt]
  rw [← s.slot_launched (0x05000000 ||| t.zeroExtend 32) r] at hb hx hbits ⊢
  exact launch_of_ok hr (hdecBody_of_ok hb.valid (decodeSym_of_hasBits (s := s.launched _) h hb hx hbits))

/-- Settles O17: each call consumes one code, and the codes that follow lie at the new cursor. -/
theorem decodingInvertsCoding : Obligations.DecodingInvertsCoding := fun _ _ _ h ht hx hb =>
  decodeMany_of_hasBits h ht (fun x hmem => (hx x hmem).2) hb

end

section
/-! The codes of a complete code leave no gap (41_huffman.md rule R139 d): their intervals fill the unit up to the Kraft
sum, and bits begin with a code where they lie in its interval. -/

namespace Sys2Proof.Machine

/-- The intervals fill all that lies between the sum k that was there before and the whole Kraft sum. -/
theorem codeIn_covers {d : List Nat} {k p : Nat} {xs : List Nat} (hs : xs.Pairwise (symbolBefore d)) (hnd : xs.Nodup)
    (hk : ∀ x ∈ xs, codeWidth d x ∣ k) (hlo : k ≤ p) (hhi : p < k + kraftSum d xs) :
    ∃ x ∈ xs, codeIn d k xs x * codeWidth d x ≤ p ∧ p < (codeIn d k xs x + 1) * codeWidth d x := by
  induction xs generalizing k with
  | nil => exact absurd hlo (Nat.not_le.2 hhi)
  | cons y ys ih =>
    have hsum : kraftSum d (y :: ys) = codeWidth d y + kraftSum d ys := kraftSum_cons d y ys
    by_cases hp : p < k + codeWidth d y
    · refine ⟨y, List.mem_cons_self, ?_⟩
      rw [codeIn_head, Nat.add_mul, Nat.div_mul_cancel (hk y List.mem_cons_self)]
      omega
    · obtain ⟨x, hx, hin⟩ := ih hs.of_cons hnd.of_cons (codeWidth_dvd_tail hs hk) (by omega) (by omega)
      have hyx : y ≠ x := fun he => (List.nodup_cons.1 hnd).1 (he ▸ hx)
      exact ⟨x, List.mem_cons_of_mem _ hx, by rwa [codeIn_tail hyx]⟩

/-- Bits whose value lies in the interval of the code u begin with its digits. -/
theorem msbBits_begins_of_value {a r u : Nat} {bits : List Nat} (hlen : bits.length = a + r) (hbits : ∀ b ∈ bits, b ≤ 1)
    (hlo : u * 2 ^ r ≤ msbValue bits) (hhi : msbValue bits < (u + 1) * 2 ^ r) : msbBits a u <+: bits := by
  have htake : (bits.take a).length = a := by simp [hlen]
  have hdrop : (bits.drop a).length = r := by simp [hlen]
  have hvalue : msbValue bits = msbValue (bits.take a) * 2 ^ r + msbValue (bits.drop a) := by
    conv_lhs => rw [← List.take_append_drop a bits]
    rw [msbValue_append, hdrop]
  have hrest : msbValue (bits.drop a) < 2 ^ r := hdrop ▸ msbValue_lt fun b hb => hbits b (List.mem_of_mem_drop hb)
  have hdiv : ∀ v w, v * 2 ^ r ≤ msbValue bits → msbValue bits < (w + 1) * 2 ^ r → v ≤ w := fun v w h1 h2 =>
    Nat.lt_succ_iff.1 (Nat.lt_of_mul_lt_mul_right (h1.trans_lt h2))
  have hu : u = msbValue (bits.take a) :=
    (hdiv _ _ hlo (by rw [Nat.add_mul]; omega)).antisymm (hdiv _ _ (by omega) hhi)
  have hdigits := msbBits_msbValue fun b hb => hbits b (List.mem_of_mem_take (i := a) hb)
  rw [htake, ← hu] at hdigits
  exact hdigits ▸ List.take_prefix a bits

/-- The width of an interval in units of 2^-m. -/
theorem codeWidth_eq_mul {d : List Nat} {x m : Nat} (hx : depthAt d x ≤ m) (hm : m ≤ 16) :
    codeWidth d x = 2 ^ (m - depthAt d x) * 2 ^ (16 - m) := by
  rw [codeWidth, ← pow_add]
  congr 1
  omega

section
variable {d : List Nat} {sl : Slot}

/-- Below the Kraft sum each place lies in the interval of a code. -/
theorem builtSlot_covers (h : buildSlot d = some sl) {p : Nat} (hp : p < kraft d) :
    ∃ x ∈ sortUsed d, sl.codeOf x * codeWidth d x ≤ p ∧ p < (sl.codeOf x + 1) * codeWidth d x := by
  rw [← kraftSum_sortUsed] at hp
  obtain ⟨x, hx, hin⟩ := codeIn_covers (k := 0) (sortUsed_sorted d) (sortUsed_nodup d) (fun _ _ => dvd_zero _)
    (Nat.zero_le p) (by omega)
  exact ⟨x, hx, by rwa [builtSlot_codeOf h hx]⟩

/-- No interval reaches beyond the Kraft sum. -/
theorem builtSlot_interval_le_kraft (h : buildSlot d = some sl) {x : Nat} (hx : x ∈ sortUsed d) :
    (sl.codeOf x + 1) * codeWidth d x ≤ kraft d := by
  rw [builtSlot_codeOf h hx, ← kraftSum_sortUsed]
  have := (codeIn_interval (k := 0) (sortUsed_sorted d) (sortUsed_nodup d) (fun _ _ => dvd_zero _) hx).2
  omega

theorem builtSlot_used_iff (h : buildSlot d = some sl) (hn : d.length ≤ daSize) {x : Nat} :
    x ∈ sortUsed d ↔ x < sl.ns.toNat ∧ sl.depthOf x ≠ 0 := by
  rw [mem_sortUsed, builtSlot_ns h hn, builtSlot_depthOf h]

/-- With the Kraft sum 1 the bits lie in the interval of some code. -/
theorem builtSlot_code_begins (h : buildSlot d = some sl) (hk : kraft d = 2 ^ 16) {bits : List Nat}
    (hlen : bits.length = sl.maxlen.toNat) (hbits : ∀ b ∈ bits, b ≤ 1) : ∃ x ∈ sortUsed d, sl.codeBits x <+: bits := by
  obtain ⟨-, hm, hle, -⟩ := builtSlot_maxlen h
  have hunit : 0 < 2 ^ (16 - sl.maxlen.toNat) := Nat.two_pow_pos _
  have hp : msbValue bits * 2 ^ (16 - sl.maxlen.toNat) < kraft d := by
    have hpow : 2 ^ bits.length * 2 ^ (16 - sl.maxlen.toNat) = 2 ^ 16 := by
      rw [hlen, ← pow_add, Nat.add_sub_of_le hm]
    rw [hk, ← hpow]
    exact Nat.mul_lt_mul_of_pos_right (msbValue_lt hbits) hunit
  obtain ⟨x, hx, hlo, hhi⟩ := builtSlot_covers h hp
  rw [codeWidth_eq_mul (hle x) hm, ← Nat.mul_assoc] at hlo hhi
  refine ⟨x, hx, ?_⟩
  rw [Slot.codeBits, builtSlot_depthOf h]
  exact msbBits_begins_of_value (hlen.trans (Nat.add_sub_of_le (hle x)).symm) hbits (Nat.le_of_mul_le_mul_right hlo hunit)
    (Nat.lt_of_mul_lt_mul_right hhi)

/-- With a Kraft sum below 1 the bits that are all 1 begin with no code: its interval would reach up to 1. -/
theorem builtSlot_not_begins_ones (h : buildSlot d = some sl) (hk : kraft d < 2 ^ 16) {x : Nat} (hx : x ∈ sortUsed d) :
    ¬ sl.codeBits x <+: msbBits sl.maxlen.toNat (2 ^ sl.maxlen.toNat - 1) := by
  intro hpre
  obtain ⟨-, hm, -⟩ := builtSlot_maxlen h
  have hpos : 0 < 2 ^ sl.maxlen.toNat := Nat.two_pow_pos _
  rw [Slot.codeBits, builtSlot_depthOf h] at hpre
  obtain ⟨r, hr, -, hhi⟩ := msbBits_begins (builtSlot_codeOf_lt h hx) (by omega) hpre
  have hend := builtSlot_interval_le_kraft h hx
  rw [codeWidth_eq_mul (hr ▸ Nat.le_add_right _ r) hm, hr, Nat.add_sub_cancel_left, ← hr, ← Nat.mul_assoc] at hend
  have hreach : 2 ^ 16 ≤ (sl.codeOf x + 1) * 2 ^ r * 2 ^ (16 - sl.maxlen.toNat) :=
    calc 2 ^ 16 = 2 ^ sl.maxlen.toNat * 2 ^ (16 - sl.maxlen.toNat) := by rw [← pow_add, Nat.add_sub_of_le hm]
      _ ≤ _ := Nat.mul_le_mul_right _ (by omega)
  omega

end

end Sys2Proof.Machine

open Sys2Proof Sys2Proof.Machine

/-- Settles O18: the intervals of the codes fill the unit up to the Kraft sum, and the bits that are all 1 lie at its end. -/
theorem completeCodesMatchEverything : Obligations.CompleteCodesMatchEverything := by
  intro d sl hn h
  refine ⟨fun hk bits hlen hbits => ?_, fun hk => ?_⟩
  · obtain ⟨x, hx, hpre⟩ := builtSlot_code_begins h hk hlen hbits
    obtain ⟨hxn, hx0⟩ := (builtSlot_used_iff h hn).1 hx
    exact ⟨x, hxn, hx0, hpre⟩
  · exact ⟨msbBits sl.maxlen.toNat (2 ^ sl.maxlen.toNat - 1), length_msbBits _ _, msbBits_le _ _, fun x hxn hx0 =>
      builtSlot_not_begins_ones h hk ((builtSlot_used_iff h hn).2 ⟨hxn, hx0⟩)⟩

end

section
/-! What `Build` makes of a depth array (41_huffman.md rules R131 to R135): which arrays it rejects, and the closed form of
the codes. -/

namespace Sys2Proof.Machine

/-! ### The arrays that are rejected -/

/-- The bound on K of rule R134. -/
theorem kraft_lt {d : List Nat} (hn : d.length ≤ 16383) : kraft d < 2 ^ 29 := by
  have hterm : ∀ w ∈ (d.filter fun v => decide (v ≠ 0)).map (fun v => 2 ^ (16 - v)), w ≤ 2 ^ 15 := by
    intro w hw
    obtain ⟨v, hv, rfl⟩ := List.mem_map.1 hw
    have hv0 : v ≠ 0 := of_decide_eq_true (List.mem_filter.1 hv).2
    exact Nat.pow_le_pow_right (by decide) (by omega)
  have hsum := List.sum_le_card_nsmul _ _ hterm
  have hcount := List.length_filter_le (fun v => decide (v ≠ 0)) d
  rw [List.length_map, smul_eq_mul] at hsum
  unfold kraft
  omega

/-- `Build` rejects what `Check` or the Kraft test rejects (rules R132 and R134). -/
theorem buildSlot_eq_none_iff {d : List Nat} : buildSlot d = none ↔ ¬ (checkDepths d = true ∧ kraft d ≤ 2 ^ 16) := by
  simp only [buildSlot_eq, kraftSum_sortUsed, ite_eq_right_iff, reduceCtorEq, imp_false]

theorem build_of_none {t : SlotId} {d : List Nat} (h : buildSlot d = none) (s : State) :
    build t d s = raise .invalidDepths (s.invalidate t) := by
  rw [build, h]

/-- The arrays that build, without the case of an empty one, which uses no symbol. -/
theorem builds_iff {d : List Nat} :
    checkDepths d = true ∧ kraft d ≤ 2 ^ 16 ↔ (∀ v ∈ d, v ≤ 16) ∧ (∃ v ∈ d, v ≠ 0) ∧ kraft d ≤ 2 ^ 16 := by
  rw [checkDepths_iff, maxDepth]
  exact ⟨fun ⟨⟨_, hle, hused⟩, hk⟩ => ⟨hle, hused, hk⟩, fun ⟨hle, hused, hk⟩ =>
    have ⟨_, hv, _⟩ := hused
    ⟨⟨List.ne_nil_of_mem hv, hle, hused⟩, hk⟩⟩

/-! ### The closed form of rule R133 -/

/-- y stands before x in the order of rule R133. -/
abbrev sortsBefore (d : List Nat) (y x : Nat) : Prop :=
  depthAt d y < depthAt d x ∨ depthAt d y = depthAt d x ∧ y < x

theorem sortsBefore_of_symbolBefore {d : List Nat} {x y : Nat} (h : symbolBefore d y x) (hne : y ≠ x) :
    sortsBefore d y x := by
  unfold symbolBefore at h
  unfold sortsBefore
  omega

theorem not_sortsBefore_of_symbolBefore {d : List Nat} {x y : Nat} (h : symbolBefore d x y) : ¬ sortsBefore d y x := by
  unfold symbolBefore at h
  unfold sortsBefore
  omega

/-- The interval of a symbol begins where those of the symbols before it end. -/
theorem codeIn_mul_codeWidth {d : List Nat} {k x : Nat} {xs : List Nat} (hs : xs.Pairwise (symbolBefore d))
    (hnd : xs.Nodup) (hk : ∀ y ∈ xs, codeWidth d y ∣ k) (hx : x ∈ xs) :
    codeIn d k xs x * codeWidth d x = k + kraftSum d (xs.filter fun y => decide (sortsBefore d y x)) := by
  induction xs generalizing k with
  | nil => cases hx
  | cons y ys ih =>
    obtain ⟨hy, hys⟩ := List.pairwise_cons.1 hs
    by_cases hyx : y = x
    · subst hyx
      have hnone : (y :: ys).filter (fun z => decide (sortsBefore d z y)) = [] := by
        refine List.filter_eq_nil_iff.2 fun z hz => ?_
        rw [decide_eq_true_eq]
        rcases List.mem_cons.1 hz with rfl | hz
        · simp [sortsBefore]
        · exact not_sortsBefore_of_symbolBefore (hy z hz)
      rw [codeIn_head, Nat.div_mul_cancel (hk y List.mem_cons_self), hnone, kraftSum_nil, Nat.add_zero]
    · have hx' : x ∈ ys := (List.mem_cons.1 hx).resolve_left (Ne.symm hyx)
      have hbefore : decide (sortsBefore d y x) = true :=
        decide_eq_true (sortsBefore_of_symbolBefore (hy x hx') hyx)
      rw [codeIn_tail hyx, ih hys hnd.of_cons (codeWidth_dvd_tail hs hk) hx', List.filter_cons, if_pos hbefore,
        kraftSum_cons, Nat.add_assoc]
      rfl

/-- The part of the Kraft sum before x, summed in the order of rule R133. -/
theorem kraftBefore_eq (d : List Nat) (x : Nat) :
    kraftBefore d x = kraftSum d ((sortUsed d).filter fun y => decide (sortsBefore d y x)) := by
  have hfilter : (usedSymbols d).filter (fun y => decide (sortsBefore d y x))
      = (List.range d.length).filter fun y => decide (depthAt d y ≠ 0 ∧ sortsBefore d y x) := by
    rw [usedSymbols, List.filter_filter]
    exact List.filter_congr fun y _ => by rw [Bool.decide_and, Bool.and_comm]
  have hperm := ((sortUsed_perm d).filter fun y => decide (sortsBefore d y x)).map fun y => 2 ^ (16 - depthAt d y)
  rw [hfilter] at hperm
  exact hperm.sum_eq.symm

/-- The codes of a built slot are those of the closed form. -/
theorem builtSlot_codeOf_closed {d : List Nat} {sl : Slot} (h : buildSlot d = some sl) {x : Nat} (hx : x ∈ sortUsed d) :
    sl.codeOf x * codeWidth d x = kraftBefore d x := by
  rw [builtSlot_codeOf h hx, codeIn_mul_codeWidth (sortUsed_sorted d) (sortUsed_nodup d) (fun _ _ => dvd_zero _) hx,
    Nat.zero_add, kraftBefore_eq]

/-! ### `HBUILD` (rule R135) -/

theorem exec_hbuild (t : BitVec 1) (s : State) :
    exec (.hbuild t) s = launch (0x04000000 ||| t.zeroExtend 32) (hbuildBody (slotOfT01 t)) s := by
  rw [← commandWord_hbuild]
  rfl

theorem complete_setSlot_launched (s : State) (w : Word) (t : SlotId) (sl : Slot) :
    ((s.launched w).setSlot t sl).complete = (s.ended w).setSlot t sl := by
  cases t <;> rfl

theorem raiseError_invalidate_launched (s : State) (w : Word) (t : SlotId) (e : ErrorKind) :
    ((s.launched w).invalidate t).raiseError (opByte ((s.launched w).invalidate t).cmd) e
      = (s.failed w e).invalidate t := by
  cases t <;> rfl

theorem exec_hbuild_of_some {t : BitVec 1} {s : State} {sl : Slot} (hr : s.run = .idle)
    (h : buildSlot s.daList = some sl) :
    exec (.hbuild t) s = .next ((s.ended (0x04000000 ||| t.zeroExtend 32)).setSlot (slotOfT01 t) sl) := by
  rw [exec_hbuild, ← complete_setSlot_launched]
  exact launch_of_ok hr (build_of_some h _)

theorem exec_hbuild_of_none {t : BitVec 1} {s : State} (hr : s.run = .idle) (h : buildSlot s.daList = none) :
    exec (.hbuild t) s
      = .next ((s.failed (0x04000000 ||| t.zeroExtend 32) .invalidDepths).invalidate (slotOfT01 t)) := by
  rw [exec_hbuild, ← raiseError_invalidate_launched]
  exact launch_of_raise hr (build_of_none h _)

theorem depthAt_daList {s : State} {x : Nat} (hx : x < s.nsym.toNat) : depthAt s.daList x = (s.daRead x).toNat := by
  rw [depthAt, List.getD_eq_getElem _ _ (by rwa [length_daList])]
  simp [State.daList]

end Sys2Proof.Machine

open Sys2Proof Sys2Proof.Machine

/-- Settles O12: an array that does not build fails `Check` or the Kraft test. -/
theorem buildRejectsExactlyTheMalformed : Obligations.BuildRejectsExactlyTheMalformed := by
  intro d
  rw [buildSlot_eq_none_iff, checkDepths_iff, maxDepth, not_and_or, not_and_or, not_and_or, or_assoc, or_assoc]
  push Not
  rfl

/-- Settles O13: `Assign` overflows where the sum of its closed form passes the unit, which is the Kraft test. -/
theorem overflowTestIsTheKraftTest : Obligations.OverflowTestIsTheKraftTest := by
  intro d hn hc
  refine ⟨kraftSum_sortUsed d, kraft_lt hn, ?_, ?_⟩
  · simp only [assign_eq hc, kraftSum_sortUsed, ite_eq_right_iff, reduceCtorEq, imp_false, Nat.not_le]
  · rw [buildSlot_eq_none_iff, and_iff_right hc, Nat.not_le]

/-- Settles O11: the array builds or not, and the built slot's codes are the starts of their intervals. -/
theorem hbuildBuildsTheCanonicalCode : Obligations.HbuildBuildsTheCanonicalCode := by
  intro t s hr
  refine ⟨congrArg Code.command (commandWord_hbuild t), fun hd => ?_, fun hd => ?_⟩
  · obtain ⟨sl, h⟩ := Option.ne_none_iff_exists'.1 fun hnone => buildSlot_eq_none_iff.1 hnone (builds_iff.2 hd)
    have hlen := length_daList s
    have hns := builtSlot_ns h (hlen.trans_le (nsym_le s))
    obtain ⟨-, -, hle, x0, hx0, hmax⟩ := builtSlot_maxlen h
    rw [hlen] at hx0 hns
    refine ⟨sl, exec_hbuild_of_some hr h, builtSlot_valid h, BitVec.eq_of_toNat_eq hns, ?_⟩
    simp only [builtSlot_depthOf h]
    exact ⟨fun x hx => depthAt_daList hx, fun x _ => hle x, ⟨x0, hx0, hmax⟩, fun x hx hused =>
      builtSlot_codeOf_closed h (mem_sortUsed.2 ⟨hlen ▸ hx, hused⟩)⟩
  · exact ⟨_, exec_hbuild_of_none hr (buildSlot_eq_none_iff.2 fun hb => hd (builds_iff.1 hb)), rfl⟩

/-- Settles O19: the first array's Kraft sum is above 1, and the second one builds by evaluation. -/
theorem sourceScenario : Obligations.SourceScenario :=
  ⟨buildSlot_eq_none_iff.2 fun ⟨_, hk⟩ => absurd hk (by decide), _, rfl, by decide +kernel⟩

end

section
/-! A record that fails after its header (42_table_reader.md rules R155, R159 to R163 and R167): the items before the
failure are produced, and then step 4 breaks off or step 5 rejects the depth array. -/

namespace Sys2Proof.Machine

section
variable {s u : State} {t : SlotId} {tree : Slot} {count n x p : Nat} {done : List Nat} {e : ErrorKind} {f : Escape}
  {items : List Item} {hd : Header} {td : Store Nat}

/-! ### An escape at the cursor -/

/-- What an escape whose parameter lies at the cursor tests (rule R161). -/
theorem readRun_of_hasBits (h : s.cursorOk) (hp : p < 2 ^ f.width)
    (hb : s.hasBits (fieldBits s.cfg.bitOrder f.width p)) :
    readRun f s =
      if f.kind = .repeats ∧ s.lastnz = 0 then raise .corruptStream (s.skipBits f.width)
      else if s.nsym.toNat - s.ofs.toNat < f.runLength p then raise .depthArrayOverrun (s.skipBits f.width)
      else .ok (f.runLength p) (s.skipBits f.width) := by
  rw [readRun, readBits_of_hasBits h hp hb, Res.renaming_ok, Res.bind_ok]
  rfl

/-- An escape whose parameter the window cuts off (rule R163). -/
theorem readRun_of_short (hr : s.rem < f.width) : readRun f s = raise .depthArrayUnderrun s := by
  rw [readRun, readBits_short hr]
  rfl

theorem dispatchSymbol_of_readRun (hx : escapeOf s.cfg x = some f) (hrun : readRun f s = raise e u) :
    dispatchSymbol x s = raise e u := by
  simp only [dispatchSymbol, hx, fillRun_eq, hrun, Res.bind_raise]

/-! ### Step 4 breaks off -/

/-- Where no code begins the bits at the cursor, the fetch of a symbol fails (rules R155 and R163). -/
theorem fetchSymbol_of_noCode (h : s.cursorOk) (ht : s.tmp.builtFor .tmp) (hr : s.tmp.maxlen.toNat ≤ s.rem)
    (hno : s.noCodeIn s.tmp s.tmp.maxlen.toNat) :
    fetchSymbol s = raise .corruptStream (s.skipBits s.tmp.maxlen.toNat) := by
  rw [fetchSymbol, decodeSym_of_noCode (t := .tmp) h ht hr hno]
  rfl

theorem fetchSymbol_of_short (h : s.cursorOk) (hr : s.rem < s.tmp.maxlen.toNat) (hno : s.noCodeIn s.tmp s.rem) :
    fetchSymbol s = raise .depthArrayUnderrun (s.skipBits s.rem) := by
  rw [fetchSymbol, decodeSym_of_short (t := .tmp) h hr hno]
  rfl

/-- One round of step 4. -/
def symbolRound (s : State) : Res Unit := (fetchSymbol s).bind fun x s' => dispatchSymbol x s'

theorem depthLoop_succ (n : Nat) (h : s.ofs.toNat < s.nsym.toNat) :
    depthLoop (n + 1) s = (symbolRound s).bind fun _ s' => depthLoop n s' := by
  rw [depthLoop, if_pos h, symbolRound, Res.bind_assoc]

/-- An escape whose code lies at the cursor fails as its parameter does. -/
theorem State.AtItems.round_of_escape (h : s.AtItems done) (hf : escapeOf s.cfg x = some f) (hx : s.tmp.depthOf x ≠ 0)
    (hb : s.hasBits (s.tmp.codeBits x)) (hrun : readRun f (s.skipBits (s.tmp.depthOf x)) = raise e u) :
    symbolRound s = raise e u := by
  rw [symbolRound, fetchSymbol_of_hasBits h.cursor h.tree hx hb, Res.bind_ok]
  exact dispatchSymbol_of_readRun hf hrun

/-- An escape that lies at the cursor with its parameter fails by one of the two tests of rule R161. -/
theorem State.AtItems.round_of_tests (h : s.AtItems done) (hlt : done.length < s.nsym.toNat)
    (hf : escapeOf s.cfg x = some f) (hx : s.tmp.depthOf x ≠ 0) (hp : p < 2 ^ f.width)
    (hb : s.hasBits ((Item.escape x p).bits s.cfg s.tmp))
    (hwhy : (e = .corruptStream ∧ f.kind = .repeats ∧ lastNonzero done = 0)
      ∨ (e = .depthArrayOverrun ∧ (f.kind = .repeats → lastNonzero done ≠ 0)
          ∧ s.nsym.toNat < done.length + f.runLength p)) :
    symbolRound s = raise e (s.skipBits ((Item.escape x p).bits s.cfg s.tmp).length) := by
  have hbits : (Item.escape x p).bits s.cfg s.tmp = s.tmp.codeBits x ++ fieldBits s.cfg.bitOrder f.width p := by
    simp only [Item.bits, hf]
  rw [hbits, State.hasBits_append h.cursor] at hb
  obtain ⟨hcode, hparam⟩ := hb
  have hskip := hcode.skipBits_skipBits h.cursor f.width
  have hmid := h.skipBits hcode.1
  rw [Slot.length_codeBits] at hparam hskip hmid
  rw [hbits, List.length_append, Slot.length_codeBits, length_fieldBits, ← hskip]
  refine h.round_of_escape hf hx hcode ((readRun_of_hasBits hmid.cursor hp hparam).trans ?_)
  have hlast : (s.skipBits (s.tmp.depthOf x)).lastnz = 0 ↔ lastNonzero done = 0 := hmid.lastnz_eq_zero_iff
  rcases hwhy with ⟨rfl, hk, h0⟩ | ⟨rfl, hk, hover⟩
  · exact if_pos ⟨hk, hlast.2 h0⟩
  · have hroom : s.nsym.toNat - s.ofs.toNat < f.runLength p := by
      rw [h.ofs]
      omega
    exact (if_neg fun ⟨hr, h0⟩ => hk hr (hlast.1 h0)).trans (if_pos hroom)

/-- A round of step 4 that breaks off (rules R155, R159 to R161 and R163). -/
theorem State.AtItems.round_of_breaksOff (h : s.AtItems done) (hlt : done.length < s.nsym.toNat)
    (hbreak : s.breaksOff s.tmp s.nsym.toNat done n e) : symbolRound s = raise e (s.skipBits n) := by
  rcases hbreak with ⟨rfl, rfl, hr, hno⟩ | ⟨rfl, rfl, hr, hno⟩ | ⟨x, f, hf, hx, hparam⟩
  · rw [symbolRound, fetchSymbol_of_noCode h.cursor h.tree hr hno, Res.bind_raise]
  · rw [symbolRound, fetchSymbol_of_short h.cursor hr hno, Res.bind_raise]
  · rcases hparam with ⟨rfl, rfl, hb, hr⟩ | ⟨p, hlegal, rfl, hb, hwhy⟩
    · have hle := hb.1
      rw [Slot.length_codeBits] at hle
      refine h.round_of_escape hf hx hb (readRun_of_short ?_)
      rw [s.rem_skipBits h.cursor hle]
      omega
    · obtain ⟨f', hf', hp⟩ := Item.legal_escape hlegal
      obtain rfl : f = f' := Option.some.inj (hf.symm.trans hf')
      exact h.round_of_tests hlt hf hx hp hb hwhy

/-- Step 4 on items after which it breaks off: the entries of the items are produced. -/
theorem readDepths_of_breaksOff {d : List Nat} (h : s.AtItems []) (hi : itemsLegal s.cfg s.tmp items)
    (hx : expandItems s.cfg s.nsym.toNat [] items = some d) (hb : s.hasBits (items.flatMap (Item.bits s.cfg s.tmp)))
    (hu : u = (s.skipBits (items.flatMap (Item.bits s.cfg s.tmp)).length).produced d) (hlt : d.length < s.nsym.toNat)
    (hbreak : u.breaksOff s.tmp s.nsym.toNat d n e) : readDepths s = raise e (u.skipBits n) := by
  have hlen := length_le_itemBits hi
  have hrem := hb.1
  obtain ⟨m, hm⟩ := Nat.exists_eq_add_of_le (show items.length ≤ s.rem by omega)
  obtain ⟨l, rfl, hloop, hat⟩ := depthLoop_items (m + 1) h hi hx hb
  subst hu
  rw [readDepths, hm, Nat.add_assoc, hloop, depthLoop_succ _ (by rw [hat.ofs]; exact hlt),
    State.AtItems.round_of_breaksOff hat hlt hbreak, Res.bind_raise]

theorem State.breaksOff_of_stream (hw : u.stream = s.stream) (hb : s.breaksOff tree count done n e) :
    u.breaksOff tree count done n e := by
  simp only [State.stream, Prod.mk.injEq] at hw
  obtain ⟨hcfg, hbuf, -, hbyte, hbit, hend⟩ := hw
  unfold State.breaksOff State.noCodeIn State.hasBits State.nextBits State.bitAt State.rem State.pos
  rw [hcfg, hbuf, hbyte, hbit, hend]
  exact hb

/-! ### A record that fails after its header (rule R167) -/

/-- The state in which a header and the items of `done` are read, n bits in all. -/
def State.itemsRead (s : State) (hd : Header) (done : List Nat) (n : Nat) (td : Store Nat) : State :=
  { s.skipBits n with
      nsym := BitVec.ofNat 14 hd.count, ofs := BitVec.ofNat 14 done.length
      lastnz := BitVec.ofNat 5 (lastNonzero done), tmp := hd.tree
      da := Store.putList s.da 0 (done.map (BitVec.ofNat 5)), td := td }

/-- The items after a header, from its end on. -/
theorem produced_headerRead_eq {m : Nat} (h : s.cursorOk) (hofs : s.ofs = 0) (hlast : s.lastnz = 0)
    (hb : s.hasBits (hd.bits s.cfg)) (done : List Nat) (td : Store Nat) :
    ((s.headerRead hd td).skipBits m).produced done = s.itemsRead hd done ((hd.bits s.cfg).length + m) td := by
  rw [State.produced_from_start (s := (s.headerRead hd td).skipBits m) hofs hlast, State.itemsRead,
    ← hb.skipBits_skipBits h m]
  rfl

/-- After a legal header the reader is at step 4 with nothing produced, and `NSYM` holds the count. -/
theorem headerRead_atItems (h : s.cursorOk) (hofs : s.ofs = 0) (hlast : s.lastnz = 0) (hl : hd.legal s.cfg)
    (hb : s.hasBits (hd.bits s.cfg)) (td : Store Nat) :
    (s.headerRead hd td).AtItems [] ∧ (s.headerRead hd td).nsym.toNat = hd.count := by
  obtain ⟨-, hmax, htmp, htree⟩ := hl
  refine ⟨⟨hb.cursorOk_skipBits h, ⟨hd.tmpDepths, htree, htmp.1⟩, congrArg BitVec.toNat hofs, hlast,
    fun v hv => by cases hv⟩, ?_⟩
  show (BitVec.ofNat 14 hd.count).toNat = hd.count
  unfold daSize at hmax
  rw [BitVec.toNat_ofNat]
  omega

/-- After its first line the reader fails after a header and items: step 4 breaks off, or step 5 rejects the depths. -/
theorem readRecord_fails {bits : List Nat} (h : s.cursorOk) (hofs : s.ofs = 0) (hlast : s.lastnz = 0)
    (hl : hd.legal s.cfg) (hi : itemsLegal s.cfg hd.tree items) (hx : expandItems s.cfg hd.count [] items = some done)
    (hbits : bits = hd.bits s.cfg ++ items.flatMap (Item.bits s.cfg hd.tree)) (hb : s.hasBits bits)
    (hwhy : done.length < hd.count ∧ (s.skipBits bits.length).breaksOff hd.tree hd.count done n e
      ∨ done.length = hd.count ∧ buildSlot done = none ∧ n = 0 ∧ e = .invalidDepths) :
    ∃ td v, ((readHeader s).bind fun _ s1 => (readDepths s1).bind fun _ s2 => build t s2.daList s2) = raise e v
      ∧ (v = s.itemsRead hd done (bits.length + n) td ∨ v = (s.itemsRead hd done (bits.length + n) td).invalidate t)
      ∧ ∀ k, k < tmpNsym → Store.find td k = some (depthAt hd.tmpDepths k) := by
  have hskip := hb.skipBits_skipBits h n
  subst hbits
  obtain ⟨hbheader, hbitems⟩ := (State.hasBits_append h).1 hb
  rw [List.length_append] at hwhy hskip ⊢
  obtain ⟨td, hread, htd⟩ := readHeader_of_hasBits h hl hbheader
  obtain ⟨hat, hnsym⟩ := headerRead_atItems h hofs hlast hl hbheader td
  have hend := produced_headerRead_eq (m := (items.flatMap (Item.bits s.cfg hd.tree)).length) h hofs hlast hbheader
    done td
  rw [hread, Res.bind_ok]
  rcases hwhy with ⟨hlt, hbreak⟩ | ⟨hall, hnone, rfl, rfl⟩
  · have hdepths := readDepths_of_breaksOff hat hi (hnsym.symm ▸ hx) hbitems hend.symm (hnsym.symm ▸ hlt)
      (hnsym.symm ▸ State.breaksOff_of_stream rfl hbreak)
    refine ⟨td, _, by rw [hdepths, Res.bind_raise], .inl ?_, htd⟩
    unfold State.itemsRead
    rw [← hskip]
    rfl
  · obtain ⟨hdepths, hsmall⟩ := readDepths_of_items hat hi (hnsym.symm ▸ hx) (hall.trans hnsym.symm) hbitems
    have hda : (s.itemsRead hd done ((hd.bits s.cfg).length + (items.flatMap (Item.bits s.cfg hd.tree)).length)
        td).daList = done :=
      daList_eq (hall.trans hnsym.symm) hsmall fun k hk => (find_recorded_da s.da done k).trans (if_pos hk)
    refine ⟨td, _, ?_, .inr rfl, htd⟩
    rw [hdepths, Res.bind_ok]
    refine (congrArg (fun s2 : State => build t s2.daList s2) hend).trans ?_
    rw [hda, build, hnone]
    rfl

/-- What is invalidated first stays invalid (rule R151). -/
theorem itemsRead_beginRecord (ht : t ≠ .tmp) (s : State) (hd : Header) (done : List Nat) (n : Nat) (td : Store Nat) :
    (beginRecord t s).itemsRead hd done n td = (s.itemsRead hd done n td).invalidate t
      ∧ ((beginRecord t s).itemsRead hd done n td).invalidate t = (s.itemsRead hd done n td).invalidate t := by
  unfold State.itemsRead
  rw [skipBits_beginRecord ht]
  cases t with
  | tmp => exact absurd rfl ht
  | t0 | t1 => exact ⟨rfl, rfl⟩

/-- A record that fails after its header (rules R151 and R167). -/
theorem treadBody_fails {bits : List Nat} (ht : t ≠ .tmp) (h : s.cursorOk) (hl : hd.legal s.cfg)
    (hi : itemsLegal s.cfg hd.tree items) (hx : expandItems s.cfg hd.count [] items = some done)
    (hbits : bits = hd.bits s.cfg ++ items.flatMap (Item.bits s.cfg hd.tree)) (hb : s.hasBits bits)
    (hwhy : done.length < hd.count ∧ (s.skipBits bits.length).breaksOff hd.tree hd.count done n e
      ∨ done.length = hd.count ∧ buildSlot done = none ∧ n = 0 ∧ e = .invalidDepths) :
    ∃ td, treadBody t s = raise e ((s.itemsRead hd done (bits.length + n) td).invalidate t)
      ∧ ∀ k, k < tmpNsym → Store.find td k = some (depthAt hd.tmpDepths k) := by
  have hcfg := cfg_beginRecord t s
  have hstream := stream_beginRecord t s
  have hstream' : ((beginRecord t s).skipBits bits.length).stream = (s.skipBits bits.length).stream := by
    rw [skipBits_beginRecord ht, stream_beginRecord]
  obtain ⟨td, v, hread, hv, htd⟩ := readRecord_fails (s := beginRecord t s) (t := t)
    (State.cursorOk_of_stream hstream h) rfl rfl (hcfg.symm ▸ hl) (hcfg.symm ▸ hi) (hcfg.symm ▸ hx) (hcfg.symm ▸ hbits)
    (State.hasBits_of_stream hstream hb)
    (hwhy.imp_left fun ⟨hlt, hbreak⟩ => ⟨hlt, State.breaksOff_of_stream hstream' hbreak⟩)
  obtain ⟨hbegin, hbegin'⟩ := itemsRead_beginRecord ht s hd done (bits.length + n) td
  refine ⟨td, hread.trans (congrArg (raise e) ?_), htd⟩
  rcases hv with rfl | rfl
  · exact hbegin
  · exact hbegin'

theorem itemsRead_launched (s : State) (w : Word) (t : BitVec 1) (hd : Header) (done : List Nat) (n : Nat)
    (td : Store Nat) (e : ErrorKind) :
    (((s.launched w).itemsRead hd done n td).invalidate (slotOfT01 t)).raiseError
        (opByte (((s.launched w).itemsRead hd done n td).invalidate (slotOfT01 t)).cmd) e
      = ({ (s.skipBits n).failed w e with
          nsym := BitVec.ofNat 14 hd.count, ofs := BitVec.ofNat 14 done.length
          lastnz := BitVec.ofNat 5 (lastNonzero done), tmp := hd.tree
          da := Store.putList s.da 0 (done.map (BitVec.ofNat 5)), td := td } : State).setSlot (slotOfT01 t)
            { (s.itemsRead hd done n td).slot (slotOfT01 t) with valid := false } := by
  cases slotOfT01 t <;> rfl

end

end Sys2Proof.Machine

open Sys2Proof Sys2Proof.Machine

/-- Settles O59: the header and the items are read, and what follows them fails. -/
theorem treadFailsAfterItsHeader : Obligations.TreadFailsAfterItsHeader := by
  intro t s u h items done bits n e hr hc hl hi hx hbits hb hu hwhy
  subst hu
  obtain ⟨td, hbody, htd⟩ := treadBody_fails (s := s.launched (0x06000000 ||| t.zeroExtend 32)) (slotOfT01_ne t) hc hl
    hi hx hbits hb hwhy
  refine ⟨{ (s.itemsRead h done (bits.length + n) td).slot (slotOfT01 t) with valid := false },
    Store.putList s.da 0 (done.map (BitVec.ofNat 5)), td, ?_, rfl, fun k hk => ?_, fun k hk => ?_, htd⟩
  · rw [exec_tread, launch_of_raise hr hbody, hb.skipBits_skipBits hc]
    exact congrArg _ (itemsRead_launched s _ t h done _ td e)
  · rw [find_recorded_da, if_pos hk]
  · rw [find_recorded_da, if_neg (by omega)]

end

section
/-! The symbols as instructions of a running table reader (42_table_reader.md rules R155 to R163): where they are
refused, what a literal writes, and the errors of a fetch and of the four escapes. -/

namespace Sys2Proof.Machine

section
variable {s u : State} {i : Instr} {v x : Nat} {e : ErrorKind} {f : Escape}

/-! ### An error inside a record -/

/-- An error of a symbol ends the `TREAD` or the `GETTAB` in `CMD` (rules R164 and R166). -/
theorem failCommand_inRecord (h : opByte s.cmd = 0x06 ∨ opByte s.cmd = 0x07) (e : ErrorKind) :
    failCommand e s = .next (s.failedInRecord e) := by
  rcases h with h | h
  · rw [failCommand, undoOnError_tread h, State.failedInRecord, if_neg (by rw [h]; decide)]
    rfl
  · rw [failCommand, undoOnError, if_pos h, State.failedInRecord, if_pos h]
    rfl

/-! ### The fetch as a step -/

/-- Where the fetch fails, so does the step, be it a whole symbol or one arrow (rules R155 and R164). -/
theorem busyStep_of_fetch_raise (htr : s.trState = .sym) (hlt : s.ofs.toNat < s.nsym.toNat)
    (hf : fetchSymbol s = raise e u) : busyStep s = failCommand e u := by
  have hgo : s.trState ≠ .idle ∨ s.gtPhase ≠ .start := .inl (by simp [htr])
  unfold busyStep
  rw [if_pos hgo]
  split
  · rw [symbolStep, hf]
    rfl
  · rw [tableArrow_sym htr, trSymArrow, if_pos hlt, hf]
    rfl

theorem step_of_no_input (hi : s.inputs = []) (hr : s.run = .busy) : step s = busyStep s := by
  show hostStep s = _
  unfold hostStep
  rw [hi]
  exact if_pos hr

/-! ### The escapes -/

/-- The errors of an escape as an instruction, in their order (rule R161). -/
theorem exec_escape_raise (hx : x < 21) (hi : decodeSymbol x = .ok i) (hf : escapeOf s.cfg x = some f)
    (hr : s.run = .busy) (htr : s.trState = .sym) (hlt : s.ofs.toNat < s.nsym.toNat)
    (hcmd : opByte u.cmd = 0x06 ∨ opByte u.cmd = 0x07) (hrun : readRun f s = raise e u) :
    exec i s = .next (u.failedInRecord e) := by
  rw [exec_symbol_eq hx hi hr htr hlt, dispatchSymbol_of_readRun hf hrun, endSymbol_raise]
  exact failCommand_inRecord hcmd e

/-- The three errors of an escape, the first that applies (rule R161). -/
theorem exec_escape_fails {repeats : Bool} (hx : x < 21) (hi : decodeSymbol x = .ok i) (hf : escapeOf s.cfg x = some f)
    (hkind : f.kind = if repeats then .repeats else .zeros) (hr : s.run = .busy) (htr : s.trState = .sym)
    (hlt : s.ofs.toNat < s.nsym.toNat) (h : s.cursorOk) (hcmd : opByte s.cmd = 0x06 ∨ opByte s.cmd = 0x07) :
    (s.rem < f.width → exec i s = .next (s.failedInRecord .depthArrayUnderrun)) ∧
    (f.width ≤ s.rem → repeats = true → s.lastnz = 0 →
      exec i s = .next ((s.skipBits f.width).failedInRecord .corruptStream)) ∧
    (f.width ≤ s.rem → (repeats = true → s.lastnz ≠ 0) →
      s.nsym.toNat - s.ofs.toNat < fieldValue s.cfg.bitOrder (s.nextBits f.width) + f.bias →
      exec i s = .next ((s.skipBits f.width).failedInRecord .depthArrayOverrun)) := by
  have hrep : f.kind = .repeats ↔ repeats = true := by rw [hkind]; cases repeats <;> simp
  have hraise := fun {e u} => exec_escape_raise (e := e) (u := u) hx hi hf hr htr hlt
  rw [← hrep]
  rcases readRun_cases f h with ⟨hr, he⟩ | ⟨hr, hk, h0, he⟩ | ⟨hr, hk, hover, he⟩ | ⟨hr, hk, hroom, he⟩
  · exact ⟨fun _ => hraise hcmd he, fun hw => by omega, fun hw => by omega⟩
  · exact ⟨fun hw => by omega, fun _ _ _ => hraise hcmd he, fun _ hne => absurd h0 (hne hk)⟩
  · exact ⟨fun hw => by omega, fun _ hk' h0 => absurd ⟨hk', h0⟩ hk, fun _ _ _ => hraise hcmd he⟩
  · refine ⟨fun hw => by omega, fun _ hk' h0 => absurd ⟨hk', h0⟩ hk, fun _ _ hover => absurd hover ?_⟩
    exact Nat.not_lt.2 hroom

end

end Sys2Proof.Machine

open Sys2Proof Sys2Proof.Machine

/-- Settles O27: every symbol runs by `runSymbol`, which asks for the running reader. -/
theorem symbolsNeedARunningReader : Obligations.SymbolsNeedARunningReader := by
  intro i s hi hnot
  obtain ⟨hx, hdec⟩ := decodeSymbol_symbolIndex hi
  rw [exec_symbol hx hdec]
  exact if_neg hnot

/-- Settles O23: a symbol up to 16 is no escape, so it writes its own depth. -/
theorem literalsWriteOneEntry : Obligations.LiteralsWriteOneEntry := by
  intro v i s hv hi hr htr hlt
  refine ⟨Store.put s.da s.ofs.toNat (BitVec.ofNat 5 v), ?_, Store.find_put_self _ _ _,
    fun k hk => Store.find_put_ne _ _ hk⟩
  rw [exec_symbol_eq (by omega) hi hr htr hlt, dispatchSymbol, escapeOf_literal _ hv]
  rfl

/-- Settles O26: the fetch fails first, and an escape fails as its parameter and its two tests do. -/
theorem symbolErrorsInOrder : Obligations.SymbolErrorsInOrder := by
  intro s hr htr hlt h hcmd
  refine ⟨fun hin ht => ⟨fun hlen hno => ?_, fun hlen hno => ?_⟩, fun i w bias repeats hi => ?_⟩
  · rw [step_of_no_input hin hr, busyStep_of_fetch_raise htr hlt (fetchSymbol_of_noCode h ht hlen hno)]
    exact failCommand_inRecord (s := s.skipBits _) hcmd _
  · rw [step_of_no_input hin hr, busyStep_of_fetch_raise htr hlt (fetchSymbol_of_short h hlen hno)]
    exact failCommand_inRecord (s := s.skipBits _) hcmd _
  · rcases hi with ⟨rfl, rfl, rfl, rfl⟩ | ⟨rfl, rfl, rfl, rfl⟩ | ⟨rfl, rfl, rfl, rfl⟩ | ⟨rfl, rfl, rfl, rfl⟩
    · exact exec_escape_fails (x := 17) (f := shortZero s.cfg) (by decide) rfl rfl rfl hr htr hlt h hcmd
    · exact exec_escape_fails (x := 18) (f := longZero s.cfg) (by decide) rfl rfl rfl hr htr hlt h hcmd
    · exact exec_escape_fails (x := 19) (f := shortRepeat s.cfg) (by decide) rfl rfl rfl hr htr hlt h hcmd
    · exact exec_escape_fails (x := 20) (f := longRepeat s.cfg) (by decide) rfl rfl rfl hr htr hlt h hcmd

end

section
/-! What steps 1 to 3 of a table record read, whatever lies at the cursor (42_table_reader.md rules R152 to R154, R163
and R168): the number of depth fields, the fields, and where the window cuts them off. -/

namespace Sys2Proof.Machine

section
variable {s u : State} {t : SlotId} {c k m n w x : Nat} {e : ErrorKind} {depths : List Nat}

/-! ### Fields of the window -/

/-- The number in the w bits that lie m bits after the cursor. -/
def State.fieldAt (s : State) (m w : Nat) : Nat := fieldValue s.cfg.bitOrder ((s.skipBits m).nextBits w)

theorem State.fieldAt_lt (s : State) (m w : Nat) : s.fieldAt m w < 2 ^ w := fieldValue_lt (s.skipBits m) w

theorem lsbBits_lsbValue {bits : List Nat} (h : ∀ b ∈ bits, b ≤ 1) : lsbBits bits.length (lsbValue bits) = bits := by
  induction bits with
  | nil => rfl
  | cons b bits ih =>
    have hb : b ≤ 1 := h b List.mem_cons_self
    have hvalue : lsbValue (b :: bits) = b + 2 * lsbValue bits := rfl
    rw [hvalue, List.length_cons, lsbBits_succ, show (b + 2 * lsbValue bits) % 2 = b by omega,
      show (b + 2 * lsbValue bits) / 2 = lsbValue bits by omega, ih fun a ha => h a (List.mem_cons_of_mem _ ha)]

/-- The bits of the window are the field of their number (30_encoding.md rule R86). -/
theorem State.hasBits_field (hn : n ≤ s.rem) :
    s.hasBits (fieldBits s.cfg.bitOrder n (fieldValue s.cfg.bitOrder (s.nextBits n))) := by
  refine ⟨by rwa [length_fieldBits], ?_⟩
  rw [length_fieldBits]
  have hle : ∀ b ∈ s.nextBits n, b ≤ 1 := State.nextBits_le
  have hmsb := msbBits_msbValue hle
  have hlsb := lsbBits_lsbValue hle
  rw [State.length_nextBits] at hmsb hlsb
  cases s.cfg.bitOrder
  · exact hmsb.symm
  · exact hlsb.symm

/-- Fields of the window one after the other. -/
theorem State.hasBits_fields {xs : List Nat} {f : Nat → Nat} (h : s.cursorOk) (hr : m + xs.length * w ≤ s.rem)
    (hf : ∀ j, j < xs.length → f (xs.getD j 0) = s.fieldAt (m + j * w) w) :
    (s.skipBits m).hasBits (xs.flatMap fun x => fieldBits s.cfg.bitOrder w (f x)) := by
  have hm := s.cursorOk_skipBits h (n := m) (by omega)
  have hrem := s.rem_skipBits h (n := m) (by omega)
  induction xs generalizing m with
  | nil => exact ⟨Nat.zero_le _, rfl⟩
  | cons x xs ih =>
    rw [List.length_cons, Nat.add_mul, Nat.one_mul] at hr
    have hfirst : f x = s.fieldAt m w := by simpa using hf 0 (Nat.zero_lt_succ _)
    have hrest := ih (m := m + w) (by omega)
      (fun j hj => by
        have hj' := hf (j + 1) (Nat.succ_lt_succ hj)
        rw [List.getD_cons_succ, Nat.add_mul, Nat.one_mul, Nat.add_comm (j * w) w, ← Nat.add_assoc] at hj'
        exact hj')
      (s.cursorOk_skipBits h (by omega)) (s.rem_skipBits h (by omega))
    rw [List.flatMap_cons, State.hasBits_append hm, length_fieldBits,
      s.skipBits_skipBits m w (s.pos_add_lt h (by omega)), hfirst]
    exact ⟨State.hasBits_field (s := s.skipBits m) (by omega), hrest⟩

theorem length_fields (o : BitOrder) (w : Nat) (f : Nat → Nat) (xs : List Nat) :
    (xs.flatMap fun x => fieldBits o w (f x)).length = xs.length * w := by
  induction xs with
  | nil => simp
  | cons x xs ih => rw [List.flatMap_cons, List.length_append, length_fieldBits, ih, List.length_cons]; ring

/-- Fields of w bits fit into r bits, or one of them is cut off. -/
theorem fields_fit_or_cut (n w r : Nat) : n * w ≤ r ∨ ∃ k, k < n ∧ k * w ≤ r ∧ r < k * w + w := by
  induction n with
  | zero => exact .inl (by omega)
  | succ n ih =>
    rw [Nat.add_mul, Nat.one_mul]
    rcases ih with hfit | ⟨k, hk, hcut⟩
    · by_cases h : n * w + w ≤ r
      · exact .inl h
      · exact .inr ⟨n, Nat.lt_succ_self n, hfit, by omega⟩
    · exact .inr ⟨k, Nat.lt_succ_of_lt hk, hcut⟩

/-! ### Transmission positions (30_encoding.md rule R88) -/

theorem idxOf_tmpOrder {j : Nat} (hj : j < tmpNsym) : tmpOrder.idxOf (tmpOrder.getD j 0) = j := by
  have hall : ∀ j < tmpNsym, tmpOrder.idxOf (tmpOrder.getD j 0) = j := by decide
  exact hall j hj

theorem getD_take_tmpOrder {j : Nat} (hj : j < k) : (tmpOrder.take k).getD j 0 = tmpOrder.getD j 0 := by
  simp only [List.getD_eq_getElem?_getD, List.getElem?_take_of_lt hj]

theorem length_take_tmpOrder (hk : k ≤ tmpNsym) : (tmpOrder.take k).length = k := by
  rw [List.length_take]
  exact Nat.min_eq_left hk

/-- A symbol of the first k positions is at one of them. -/
theorem mem_take_tmpOrder (hk : k ≤ tmpNsym) : x ∈ tmpOrder.take k ↔ ∃ j, j < k ∧ tmpOrder.getD j 0 = x := by
  rw [List.mem_iff_getElem]
  constructor
  · rintro ⟨j, hj, rfl⟩
    rw [length_take_tmpOrder hk] at hj
    exact ⟨j, hj, by rw [← getD_take_tmpOrder hj, List.getD_eq_getElem]⟩
  · rintro ⟨j, hj, rfl⟩
    have hj' : j < (tmpOrder.take k).length := by rwa [length_take_tmpOrder hk]
    exact ⟨j, hj', by rw [← getD_take_tmpOrder hj, List.getD_eq_getElem _ _ hj']⟩

theorem mem_drop_tmpOrder (hx : x < tmpNsym) : x ∈ tmpOrder.drop k ↔ x ∉ tmpOrder.take k := by
  have hnodup : (tmpOrder.take k ++ tmpOrder.drop k).Nodup := by
    rw [List.take_append_drop]
    decide
  have hmem := mem_tmpOrder hx
  rw [← List.take_append_drop k tmpOrder] at hmem
  exact ⟨fun hd ht => (List.nodup_append.1 hnodup).2.2 x ht x hd rfl, (List.mem_append.1 hmem).resolve_left⟩

/-! ### Step 2 (rules R153 and R168) -/

/-- The number of depth fields that follow the cursor: a count field, or all 21. -/
def State.fieldCount (s : State) : Nat :=
  if s.cfg.tmpCountW = 0 then tmpNsym else fieldValue s.cfg.bitOrder (s.nextBits s.cfg.tmpCountW)

/-- `TD` before the first field is read: as before, or cleared (rule R168). -/
def State.tdBase (s : State) : Store Nat :=
  if s.cfg.tmpCountW = 0 then s.td else Store.putRun s.td 0 tmpNsym 0

/-- The depth field j after the cursor, in transmission order. -/
def State.depthField (s : State) (j : Nat) : Nat := s.fieldAt (s.cfg.tmpCountW + j * s.cfg.tmpDepthW) s.cfg.tmpDepthW

/-- The state in which the count field and k depth fields are read. -/
def State.tmpRead (s : State) (k : Nat) : State :=
  { s.skipBits (s.cfg.tmpCountW + k * s.cfg.tmpDepthW) with
      td := Store.putAll s.tdBase (fun x => s.depthField (tmpOrder.idxOf x)) (tmpOrder.take k) }

theorem find_tdBase (s : State) (x : Nat) :
    Store.find s.tdBase x = if s.cfg.tmpCountW = 0 ∨ 21 ≤ x then Store.find s.td x else some 0 := by
  unfold State.tdBase
  by_cases hw : s.cfg.tmpCountW = 0
  · rw [if_pos hw, if_pos (.inl hw)]
  · rw [if_neg hw, Store.find_putRun]
    by_cases hx : 21 ≤ x
    · rw [if_neg (by unfold tmpNsym; omega), if_pos (.inr hx)]
    · rw [if_pos (by unfold tmpNsym; omega), if_neg (by omega)]

theorem find_tmpRead_field {j : Nat} (hk : k ≤ tmpNsym) (hj : j < k) :
    Store.find (s.tmpRead k).td (tmpOrder.getD j 0) = some (s.depthField j) := by
  show Store.find (Store.putAll _ _ _) _ = _
  rw [Store.find_putAll, if_pos ((mem_take_tmpOrder hk).2 ⟨j, hj, rfl⟩), idxOf_tmpOrder (by omega)]

theorem find_tmpRead_other (hx : x ∉ tmpOrder.take k) : Store.find (s.tmpRead k).td x = Store.find s.tdBase x := by
  show Store.find (Store.putAll _ _ _) _ = _
  rw [Store.find_putAll, if_neg hx]

theorem tmpRead_zero (s : State) : s.tmpRead 0 = { s.skipBits s.cfg.tmpCountW with td := s.tdBase } := by
  unfold State.tmpRead
  rw [Nat.zero_mul]
  rfl

/-- The first k fields, all inside the window. -/
theorem readTmpFields_tmpRead (h : s.cursorOk) (hk : k ≤ tmpNsym)
    (hr : s.cfg.tmpCountW + k * s.cfg.tmpDepthW ≤ s.rem) :
    readTmpFields (tmpOrder.take k) (s.tmpRead 0) = .ok () (s.tmpRead k) := by
  have hlen := length_take_tmpOrder hk
  have hbits := State.hasBits_fields (f := fun x => s.depthField (tmpOrder.idxOf x)) h (xs := tmpOrder.take k)
    (hlen.symm ▸ hr) fun j hj => by
      rw [hlen] at hj
      show s.depthField (tmpOrder.idxOf ((tmpOrder.take k).getD j 0)) = s.depthField j
      rw [getD_take_tmpOrder hj, idxOf_tmpOrder (by omega)]
  have hcut := s.cursorOk_skipBits h (n := s.cfg.tmpCountW) (by omega)
  rw [tmpRead_zero]
  refine (readTmpFields_of_hasBits (s := { s.skipBits s.cfg.tmpCountW with td := s.tdBase }) hcut
    (fun x => s.fieldAt_lt _ _) hbits).trans (congrArg (Res.ok ()) ?_)
  rw [length_fields, hlen]
  unfold State.tmpRead
  rw [← s.skipBits_skipBits _ _ (s.pos_add_lt h (n := s.cfg.tmpCountW) (by omega))]
  rfl

theorem readTmpFields_append (xs ys : List Nat) (s : State) :
    readTmpFields (xs ++ ys) s = (readTmpFields xs s).bind fun _ s' => readTmpFields ys s' := by
  induction xs generalizing s with
  | nil => rfl
  | cons x xs ih =>
    rw [List.cons_append, readTmpFields, readTmpFields, Res.bind_assoc]
    exact congrArg _ (funext fun _ => funext fun s' => ih s')

theorem rem_tmpRead (h : s.cursorOk) (hr : s.cfg.tmpCountW + k * s.cfg.tmpDepthW ≤ s.rem) :
    (s.tmpRead k).rem = s.rem - (s.cfg.tmpCountW + k * s.cfg.tmpDepthW) := s.rem_skipBits h hr

/-- The window ends inside the field after k whole ones (rule R163). -/
theorem readTmpFields_tmpRead_short (h : s.cursorOk) (hn : n ≤ tmpNsym) (hk : k < n)
    (hr : s.cfg.tmpCountW + k * s.cfg.tmpDepthW ≤ s.rem)
    (hcut : s.rem < s.cfg.tmpCountW + k * s.cfg.tmpDepthW + s.cfg.tmpDepthW) :
    readTmpFields (tmpOrder.take n) (s.tmpRead 0) = raise .unexpectedEnd (s.tmpRead k) := by
  have hsplit : tmpOrder.take n = tmpOrder.take k ++ (tmpOrder.take n).drop k := by
    rw [← Nat.min_eq_left hk.le, ← List.take_take, Nat.min_eq_left hk.le, List.take_append_drop]
  have hlt : k < (tmpOrder.take n).length := by rwa [length_take_tmpOrder hn]
  have hshort : readTmpDepth (tmpOrder.take n)[k] (s.tmpRead k) = raise .unexpectedEnd (s.tmpRead k) := by
    rw [readTmpDepth, readBits_short, Res.bind_raise]
    rw [rem_tmpRead h hr]
    show _ < s.cfg.tmpDepthW
    omega
  rw [hsplit, readTmpFields_append, readTmpFields_tmpRead h (by omega) hr, Res.bind_ok, List.drop_eq_getElem_cons hlt,
    readTmpFields, hshort, Res.bind_raise]

theorem clearTmpDepths_eq_tdBase (hw : s.cfg.tmpCountW ≠ 0) : clearTmpDepths s = { s with td := s.tdBase } := by
  rw [clearTmpDepths, State.tdBase, if_neg hw]

theorem readTmpDepths_short (hr : s.rem < s.cfg.tmpCountW) :
    readTmpDepths s = raise .unexpectedEnd { s with td := s.tdBase } := by
  have hw : s.cfg.tmpCountW ≠ 0 := by omega
  rw [readTmpDepths, if_neg hw, clearTmpDepths_eq_tdBase hw, readBits_short (s := { s with td := s.tdBase }) hr,
    Res.bind_raise]

/-- Step 2 with its count field inside the window. -/
theorem readTmpDepths_eq (h : s.cursorOk) (hr : s.cfg.tmpCountW ≤ s.rem) :
    readTmpDepths s =
      if s.fieldCount = 0 ∨ tmpNsym < s.fieldCount then raise .invalidDepths (s.tmpRead 0)
      else readTmpFields (tmpOrder.take s.fieldCount) (s.tmpRead 0) := by
  rw [readTmpDepths, tmpRead_zero, State.fieldCount]
  by_cases hw : s.cfg.tmpCountW = 0
  · rw [if_pos hw, if_pos hw, if_neg (by decide), State.tdBase, if_pos hw, hw, State.skipBits_zero]
    rfl
  · rw [if_neg hw, if_neg hw, clearTmpDepths_eq_tdBase hw, readBits_eq (s := { s with td := s.tdBase }) h hr,
      Res.bind_ok]
    rfl

/-- Everything step 2 can do. -/
theorem readTmpDepths_cases (h : s.cursorOk) :
    (∃ e n td, readTmpDepths s = raise e { s.skipBits n with td := td }) ∨
    (1 ≤ s.fieldCount ∧ s.fieldCount ≤ tmpNsym ∧ s.cfg.tmpCountW + s.fieldCount * s.cfg.tmpDepthW ≤ s.rem
      ∧ readTmpDepths s = .ok () (s.tmpRead s.fieldCount)) := by
  by_cases hw : s.cfg.tmpCountW ≤ s.rem
  · rw [readTmpDepths_eq h hw]
    by_cases hbad : s.fieldCount = 0 ∨ tmpNsym < s.fieldCount
    · exact .inl ⟨_, _, _, if_pos hbad⟩
    · rw [if_neg hbad]
      rcases fields_fit_or_cut s.fieldCount s.cfg.tmpDepthW (s.rem - s.cfg.tmpCountW) with hfit | ⟨k, hk, hfit, hcut⟩
      · exact .inr ⟨by omega, by omega, by omega, readTmpFields_tmpRead h (by omega) (by omega)⟩
      · exact .inl ⟨_, _, _, readTmpFields_tmpRead_short h (by omega) hk (by omega) (by omega)⟩
  · exact .inl ⟨_, 0, _, by rw [readTmpDepths_short (by omega), State.skipBits_zero]⟩

/-! ### The temporary depths that the fields give -/

/-- The depths that the first c fields after the cursor give, the others being 0 (rules R153 and R168). -/
structure State.DepthsLie (s : State) (c : Nat) (depths : List Nat) : Prop where
  length : depths.length = tmpNsym
  fields : ∀ j, j < c → depthAt depths (tmpOrder.getD j 0) = s.depthField j
  others : ∀ x ∈ tmpOrder.drop c, depthAt depths x = 0

/-- What `TD` holds once all fields are read. -/
theorem State.DepthsLie.find (hd : s.DepthsLie s.fieldCount depths) (hc : s.fieldCount ≤ tmpNsym) (hx : x < tmpNsym) :
    Store.find (s.tmpRead s.fieldCount).td x = some (depthAt depths x) := by
  by_cases hmem : x ∈ tmpOrder.take s.fieldCount
  · obtain ⟨j, hj, rfl⟩ := (mem_take_tmpOrder hc).1 hmem
    rw [find_tmpRead_field hc hj, hd.fields j hj]
  · rw [find_tmpRead_other hmem, find_tdBase, hd.others x ((mem_drop_tmpOrder hx).2 hmem), if_neg]
    rintro (hw | hge)
    · rw [State.fieldCount, if_pos hw] at hmem
      exact hmem (mem_tmpOrder hx)
    · unfold tmpNsym at hx
      omega

theorem State.DepthsLie.tdList_eq (hd : s.DepthsLie s.fieldCount depths) (hc : s.fieldCount ≤ tmpNsym) :
    (s.tmpRead s.fieldCount).tdList = depths :=
  Machine.tdList_eq hd.length fun _ hk => hd.find hc hk

theorem depthAt_tdList (hx : x < tmpNsym) : depthAt s.tdList x = s.tdRead x := by
  have hlen : x < s.tdList.length := by rwa [length_tdList]
  rw [depthAt, List.getD_eq_getElem _ _ hlen]
  simp [State.tdList]

theorem tmpOrder_getD_lt {j : Nat} (hj : j < tmpNsym) : tmpOrder.getD j 0 < tmpNsym := by
  have hmem : tmpOrder.getD j 0 ∈ tmpOrder.take tmpNsym := (mem_take_tmpOrder (Nat.le_refl _)).2 ⟨j, hj, rfl⟩
  exact tmpOrder_lt _ (List.mem_of_mem_take hmem)

/-- The entries of `TD` are such depths. -/
theorem tdList_depthsLie (hc : s.fieldCount ≤ tmpNsym) : s.DepthsLie s.fieldCount (s.tmpRead s.fieldCount).tdList where
  length := length_tdList _
  fields j hj := by
    rw [depthAt_tdList (tmpOrder_getD_lt (by omega)), State.tdRead, find_tmpRead_field hc hj, Option.getD_some]
  others x hx := by
    have hlt := tmpOrder_lt x (List.mem_of_mem_drop hx)
    have hw : s.cfg.tmpCountW ≠ 0 := by
      intro hw
      rw [State.fieldCount, if_pos hw] at hx
      cases hx
    rw [depthAt_tdList hlt, State.tdRead, find_tmpRead_other ((mem_drop_tmpOrder hlt).1 hx), find_tdBase, if_neg,
      Option.getD_some]
    unfold tmpNsym at hlt
    omega

/-- Such depths are the temporary-tree part that lies at the cursor (30_encoding.md rules R88 and R94). -/
theorem State.DepthsLie.tmpPart (hd : s.DepthsLie s.fieldCount depths) (h : s.cursorOk) (h1 : 1 ≤ s.fieldCount)
    (hc : s.fieldCount ≤ tmpNsym) (hr : s.cfg.tmpCountW + s.fieldCount * s.cfg.tmpDepthW ≤ s.rem) :
    tmpPartLegal s.cfg s.fieldCount depths ∧ s.hasBits (tmpPartBits s.cfg s.fieldCount depths) := by
  have hfields := State.hasBits_fields (f := depthAt depths) h (xs := tmpOrder.take s.fieldCount)
    ((length_take_tmpOrder hc).symm ▸ hr) fun j hj => by
      rw [length_take_tmpOrder hc] at hj
      rw [getD_take_tmpOrder hj]
      exact hd.fields j hj
  have hcount : s.hasBits (fieldBits s.cfg.bitOrder s.cfg.tmpCountW s.fieldCount) := by
    by_cases hw : s.cfg.tmpCountW = 0
    · rw [hw, fieldBits_zero]
      exact ⟨Nat.zero_le _, rfl⟩
    · rw [State.fieldCount, if_neg hw]
      exact State.hasBits_field (by omega)
  refine ⟨⟨hd.length, fun v hv => ?_, hd.others, h1, hc, fun hw => if_pos hw, fun hw => ?_⟩, ?_⟩
  · obtain ⟨x, hx, rfl⟩ := List.getElem_of_mem hv
    have hv' : depths[x] = depthAt depths x := by rw [depthAt, List.getD_eq_getElem]
    rw [hd.length] at hx
    rw [hv']
    by_cases hmem : x ∈ tmpOrder.take s.fieldCount
    · obtain ⟨j, hj, rfl⟩ := (mem_take_tmpOrder hc).1 hmem
      rw [hd.fields j hj]
      exact s.fieldAt_lt _ _
    · rw [hd.others x ((mem_drop_tmpOrder hx).2 hmem)]
      exact Nat.two_pow_pos _
  · rw [State.fieldCount, if_neg hw]
    exact fieldValue_lt s _
  · rw [tmpPartBits, State.hasBits_append h, length_fieldBits]
    exact ⟨hcount, hfields⟩

end

end Sys2Proof.Machine

end

section
/-! The end of steps 1 to 3 of a table record (42_table_reader.md rules R152 to R154 and R163): a header that lies at the
cursor, or the first error. -/

namespace Sys2Proof.Machine

section
variable {s u : State} {t : SlotId} {count k n : Nat} {e : ErrorKind} {td : Store Nat}

/-! ### Steps 2 and 3 break off -/

/-- Steps 2 and 3 break off at the cursor of s, with k depth fields read, n bits consumed and error e: the window ends
inside the count field; the number of fields is no legal one; the window ends inside a field; or the depths
build no tree. -/
def State.tmpBreaksOff (s : State) (k n : Nat) (e : ErrorKind) : Prop :=
  (s.rem < s.cfg.tmpCountW ∧ k = 0 ∧ n = 0 ∧ e = .unexpectedEnd)
    ∨ (s.cfg.tmpCountW ≤ s.rem ∧ (s.fieldCount = 0 ∨ tmpNsym < s.fieldCount) ∧ k = 0 ∧ n = s.cfg.tmpCountW
        ∧ e = .invalidDepths)
    ∨ (s.fieldCount ≤ tmpNsym ∧ k < s.fieldCount ∧ n = s.cfg.tmpCountW + k * s.cfg.tmpDepthW ∧ n ≤ s.rem
        ∧ s.rem < n + s.cfg.tmpDepthW ∧ e = .unexpectedEnd)
    ∨ (1 ≤ s.fieldCount ∧ s.fieldCount ≤ tmpNsym ∧ k = s.fieldCount ∧ n = s.cfg.tmpCountW + k * s.cfg.tmpDepthW
        ∧ n ≤ s.rem ∧ e = .invalidDepths ∧ ∃ depths, s.DepthsLie s.fieldCount depths ∧ buildSlot depths = none)

/-- `TD` with k fields read and the rest as step 2 begins (rules R153 and R168). -/
structure State.TdRead (s : State) (k : Nat) (td : Store Nat) : Prop where
  fields : ∀ j, j < k → Store.find td (tmpOrder.getD j 0) = some (s.depthField j)
  others : ∀ x, x ∉ tmpOrder.take k → Store.find td x = Store.find s.tdBase x

theorem tmpRead_tdRead (s : State) (hk : k ≤ tmpNsym) : s.TdRead k (s.tmpRead k).td :=
  ⟨fun _ hj => find_tmpRead_field hk hj, fun _ hx => find_tmpRead_other hx⟩

/-- Steps 2 and 3 where they break off, with `T[2]` invalid. -/
theorem tmpPart_breaksOff (h : s.cursorOk) (hv : s.tmp.valid = false) (hwhy : s.tmpBreaksOff k n e) :
    ∃ td, ((readTmpDepths s).bind fun _ s2 => buildTmp s2) = raise e { s.skipBits n with td := td }
      ∧ s.TdRead k td := by
  rcases hwhy with ⟨hr, rfl, rfl, rfl⟩ | ⟨hr, hbad, rfl, rfl, rfl⟩ | ⟨hc, hk, rfl, hr, hcut, rfl⟩
    | ⟨h1, hc, rfl, rfl, hr, rfl, depths, hd, hnone⟩
  · refine ⟨s.tdBase, by rw [readTmpDepths_short hr, Res.bind_raise, State.skipBits_zero], ?_⟩
    exact ⟨fun j hj => absurd hj (Nat.not_lt_zero j), fun _ _ => rfl⟩
  · refine ⟨_, ?_, tmpRead_tdRead s (Nat.zero_le _)⟩
    rw [readTmpDepths_eq h hr, if_pos hbad, Res.bind_raise, tmpRead_zero]
  · refine ⟨_, ?_, tmpRead_tdRead s (hk.le.trans hc)⟩
    rw [readTmpDepths_eq h (by omega), if_neg (by omega), readTmpFields_tmpRead_short h hc hk hr hcut, Res.bind_raise]
    rfl
  · refine ⟨_, ?_, tmpRead_tdRead s hc⟩
    rw [readTmpDepths_eq h (by omega), if_neg (by omega), readTmpFields_tmpRead h hc hr, Res.bind_ok, buildTmp,
      hd.tdList_eq hc, build, hnone]
    exact congrArg (raise _) (State.invalidate_of_invalid (s := s.tmpRead s.fieldCount) (t := .tmp) hv)

/-! ### After the count -/

/-- The state after step 1 (rule R152). -/
def State.counted (s : State) (count : Nat) : State := { s.skipBits 14 with nsym := BitVec.ofNat 14 count }

theorem cursorOk_counted (h : s.cursorOk) (hr : 14 ≤ s.rem) (count : Nat) : (s.counted count).cursorOk :=
  s.cursorOk_skipBits h hr

theorem readHeader_of_count (h : s.cursorOk) (hr : 14 ≤ s.rem)
    (hcount : count = fieldValue s.cfg.bitOrder (s.nextBits 14)) (h0 : count ≠ 0) :
    readHeader s = (readTmpDepths (s.counted count)).bind fun _ s2 => buildTmp s2 := by
  subst hcount
  rcases readCount_cases h with ⟨-, -, he⟩ | ⟨-, hz, -⟩ | ⟨hlt, -⟩
  · rw [readHeader, he, Res.bind_ok]
    rfl
  · exact absurd hz h0
  · omega

/-- A header that a whole temporary-tree part after the count makes (30_encoding.md rule R88). -/
theorem header_of_tmpRead {tree : Slot} (h : s.cursorOk) (hr : 14 ≤ s.rem)
    (hcount : count = fieldValue s.cfg.bitOrder (s.nextBits 14)) (h0 : count ≠ 0) (hu : u = s.counted count)
    (h1 : 1 ≤ u.fieldCount) (hc : u.fieldCount ≤ tmpNsym)
    (hfit : u.cfg.tmpCountW + u.fieldCount * u.cfg.tmpDepthW ≤ u.rem)
    (htree : buildSlot (u.tmpRead u.fieldCount).tdList = some tree) :
    ∃ hd : Header, hd.legal s.cfg ∧ s.hasBits (hd.bits s.cfg) := by
  obtain ⟨hlegal, hpart⟩ := (tdList_depthsLie hc).tmpPart (hu ▸ cursorOk_counted h hr count) h1 hc hfit
  have hmax : count ≤ daSize := Nat.le_of_lt_succ (hcount ▸ fieldValue_lt s 14)
  subst hu
  refine ⟨⟨count, _, _, tree⟩, ⟨Nat.one_le_iff_ne_zero.2 h0, hmax, hlegal, htree⟩, ?_⟩
  rw [Header.bits, State.hasBits_append h, length_fieldBits]
  exact ⟨hcount ▸ State.hasBits_field hr, State.hasBits_of_stream (s := s.counted count) rfl hpart⟩

/-! ### What steps 1 to 3 say of the header at the cursor -/

/-- What `NSYM` and `T[2]` hold after steps 1 to 3 begun in s, however they end (rules R152 to R154 and R167). -/
structure State.HeaderEnd (s u : State) : Prop where
  short  : s.rem < 14 → u.nsym = s.nsym
  count  : 14 ≤ s.rem → u.nsym = BitVec.ofNat 14 (fieldValue s.cfg.bitOrder (s.nextBits 14))
  exists_of_valid : u.tmp.valid = true → ∃ hd : Header, hd.legal s.cfg ∧ s.hasBits (hd.bits s.cfg)
  tree   : ∀ hd : Header, hd.legal s.cfg → s.hasBits (hd.bits s.cfg) → u.tmp = hd.tree ∧ u.tmp.valid = true

theorem State.HeaderEnd.keep {v : State} (h : s.HeaderEnd u) (hn : v.nsym = u.nsym) (ht : v.tmp = u.tmp) :
    s.HeaderEnd v :=
  ⟨fun hr => hn.trans (h.short hr), fun hr => hn.trans (h.count hr), fun hv => h.exists_of_valid (ht ▸ hv),
    fun hd hl hb => ht ▸ h.tree hd hl hb⟩

/-- A header that lies at the cursor is read (rules R152 to R154). -/
theorem headerEnd_headerRead {hd : Header} (h : s.cursorOk) (hl : hd.legal s.cfg) (hb : s.hasBits (hd.bits s.cfg))
    (hread : readHeader s = .ok () (s.headerRead hd td)) : s.HeaderEnd (s.headerRead hd td) := by
  obtain ⟨⟨hlen, hbits⟩, -⟩ := (State.hasBits_append h).1 hb
  obtain ⟨-, hmax, -, -⟩ := id hl
  rw [length_fieldBits] at hlen hbits
  refine ⟨fun hr => by omega, fun _ => ?_, fun _ => ⟨hd, hl, hb⟩, fun hd' hl' hb' => ?_⟩
  · rw [hbits, fieldValue_fieldBits _ (by unfold daSize at hmax; omega)]
    rfl
  · obtain ⟨td', hread', -⟩ := readHeader_of_hasBits h hl' hb'
    have hsame : s.headerRead hd td = s.headerRead hd' td' := (Res.ok.inj (hread.symm.trans hread')).2
    obtain ⟨-, -, -, htree⟩ := hl'
    rw [hsame]
    exact ⟨rfl, builtSlot_valid htree⟩

/-- Where no header lies at the cursor, steps 1 to 3 fail. -/
theorem headerEnd_of_no_header (h : s.cursorOk) (hv : s.tmp.valid = false)
    (hno : ¬ ∃ hd : Header, hd.legal s.cfg ∧ s.hasBits (hd.bits s.cfg)) :
    ∃ e u, readHeader s = raise e u ∧ s.HeaderEnd u := by
  have hend : ∀ v : State, v.tmp.valid = false → (s.rem < 14 → v.nsym = s.nsym) →
      (14 ≤ s.rem → v.nsym = BitVec.ofNat 14 (fieldValue s.cfg.bitOrder (s.nextBits 14))) → s.HeaderEnd v :=
    fun v hinv hshort hcount =>
      ⟨hshort, hcount, fun hval => absurd hval (hinv ▸ Bool.false_ne_true), fun hd hl hb => absurd ⟨hd, hl, hb⟩ hno⟩
  rcases readCount_cases h with ⟨hr, h0, -⟩ | ⟨hr, h0, he⟩ | ⟨hr, he⟩
  · rw [readHeader_of_count h hr rfl h0]
    rcases readTmpDepths_cases (cursorOk_counted h hr _) with ⟨e, n, td, he⟩ | ⟨h1, hc, hfit, he⟩
    · rw [he]
      exact ⟨e, _, rfl, hend _ hv (by omega) fun _ => rfl⟩
    · rw [he, Res.bind_ok, buildTmp]
      rcases build_cases .tmp (State.tdList _) (State.tmpRead _ _) with ⟨-, hb⟩ | ⟨tree, htree, -⟩
      · exact ⟨_, _, hb, hend _ rfl (by omega) fun _ => rfl⟩
      · exact absurd (header_of_tmpRead h hr rfl h0 rfl h1 hc hfit htree) hno
  · exact ⟨_, _, congrArg (Res.bind · _) he, hend _ hv (by omega) fun _ => by rw [h0]; rfl⟩
  · exact ⟨_, _, congrArg (Res.bind · _) he, hend _ hv (fun _ => rfl) (by omega)⟩

theorem readHeader_headerEnd (h : s.cursorOk) (hv : s.tmp.valid = false) :
    (readHeader s).Meets (fun _ => s.HeaderEnd) (fun _ => s.HeaderEnd) := by
  by_cases hex : ∃ hd : Header, hd.legal s.cfg ∧ s.hasBits (hd.bits s.cfg)
  · obtain ⟨hd, hl, hb⟩ := hex
    obtain ⟨td, hread, -⟩ := readHeader_of_hasBits h hl hb
    have hend := headerEnd_headerRead h hl hb hread
    rw [hread]
    exact hend
  · obtain ⟨e, u, hread, hend⟩ := headerEnd_of_no_header h hv hex
    rw [hread]
    exact hend

/-! ### A record -/

theorem State.rem_of_stream {v : State} (hw : v.stream = s.stream) : v.rem = s.rem := by
  simp only [State.stream, Prod.mk.injEq] at hw
  obtain ⟨-, -, -, hbyte, hbit, hend⟩ := hw
  unfold State.rem
  rw [hbyte, hbit, hend]

theorem State.nextBits_of_stream {v : State} (hw : v.stream = s.stream) (n : Nat) : v.nextBits n = s.nextBits n := by
  simp only [State.stream, Prod.mk.injEq] at hw
  obtain ⟨hcfg, hbuf, -, hbyte, hbit, -⟩ := hw
  unfold State.nextBits State.bitAt State.pos
  rw [hcfg, hbuf, hbyte, hbit]

theorem State.cfg_of_stream {v : State} (hw : v.stream = s.stream) : v.cfg = s.cfg := (Prod.mk.inj hw).1

theorem State.HeaderEnd.of_stream {v : State} (hw : v.stream = s.stream) (hn : v.nsym = s.nsym) (h : v.HeaderEnd u) :
    s.HeaderEnd u := by
  obtain ⟨hshort, hcount, hex, htree⟩ := h
  rw [State.rem_of_stream hw] at hshort hcount
  rw [State.nextBits_of_stream hw] at hcount
  rw [State.cfg_of_stream hw] at hcount hex htree
  refine ⟨fun hr => (hshort hr).trans hn, hcount, fun hv => ?_,
    fun hd hl hb => htree hd hl (State.hasBits_of_stream hw hb)⟩
  obtain ⟨hd, hl, hb⟩ := hex hv
  exact ⟨hd, hl, State.hasBits_of_stream hw.symm hb⟩

/-- Steps 4 and 5 leave `NSYM` and `T[2]` as steps 1 to 3 left them (rules R155 to R162). -/
theorem treadBody_headerEnd (ht : t ≠ .tmp) (h : s.DataOk) :
    (treadBody t s).Meets (fun _ => s.HeaderEnd) (fun _ => s.HeaderEnd) := by
  obtain ⟨h0, -, hv0⟩ := beginRecord_step h ht
  have hw := stream_beginRecord t s
  have hn : (beginRecord t s).nsym = s.nsym := by cases t <;> rfl
  refine Res.Meets.mono (Q := fun _ => (beginRecord t s).HeaderEnd) (E := fun _ => (beginRecord t s).HeaderEnd) ?_
    (fun _ _ hu => hu.of_stream hw hn) (fun _ _ hu => hu.of_stream hw hn)
  refine (((readHeader_meets ht h0.data).and (readHeader_headerEnd h0.data.cursor hv0)).mono (fun _ _ h1 => h1)
    fun _ _ h1 => h1.2).bind fun _ s1 ⟨⟨h1, _, hv1, ho1, _⟩, hend1⟩ => ?_
  have hle1 : s1.ofs.toNat ≤ s1.nsym.toNat := by
    rw [ho1]
    exact Nat.zero_le _
  refine ((depthLoop_meets t (s1.rem + 1) h1.data hv1 hle1 (Nat.lt_succ_self _)).mono
    (fun _ _ h2 => hend1.keep h2.1.nsym (h2.1.slots .tmp))
    fun _ _ h2 => hend1.keep h2.2.nsym (h2.2.slots .tmp)).bind fun _ s2 hend2 => ?_
  rcases build_cases t s2.daList s2 with ⟨-, he⟩ | ⟨sl, -, he⟩ <;> rw [he]
  · exact hend2.keep (State.setSlot_nsym _ _ _) (State.slot_setSlot_other s2 (u := .tmp) _ (Ne.symm ht))
  · exact hend2.keep (State.setSlot_nsym _ _ _) (State.slot_setSlot_other s2 (u := .tmp) _ (Ne.symm ht))

end

end Sys2Proof.Machine

end

section
/-! `TREAD t` in terms of what lies at the cursor (42_table_reader.md rules R151 to R154, R163 and R168): the errors of
steps 1 to 3. -/

namespace Sys2Proof.Machine

section
variable {s u : State} {count k n : Nat} {e : ErrorKind} {td : Store Nat}

/-! ### Errors of steps 1 to 3 -/

/-- The state in which a header is cut off: n bits are consumed, and `NSYM` and `TD` are what steps 1 and 2 left. -/
def State.headerCut (s : State) (n : Nat) (nsym : BitVec 14) (td : Store Nat) : State :=
  { s.skipBits n with nsym := nsym, td := td }

/-- Fewer than 14 bits (rule R152). -/
theorem readHeader_of_short (hr : s.rem < 14) : readHeader s = raise .unexpectedEnd (s.headerCut 0 s.nsym s.td) := by
  rw [readHeader, readCount, readBits_short hr, State.headerCut, State.skipBits_zero]
  rfl

/-- A count of 0 (rule R152). -/
theorem readHeader_of_zero_count (h : s.cursorOk) (hr : 14 ≤ s.rem) (h0 : ∀ b ∈ s.nextBits 14, b = 0) :
    readHeader s = raise .invalidDepths (s.headerCut 14 0 s.td) := by
  have hbits : s.nextBits 14 = fieldBits s.cfg.bitOrder 14 0 := by
    rw [List.eq_replicate_of_mem h0, State.length_nextBits]
    cases s.cfg.bitOrder <;> decide
  have hvalue : fieldValue s.cfg.bitOrder (s.nextBits 14) = 0 := by
    rw [hbits]
    exact fieldValue_fieldBits _ (by decide)
  rcases readCount_cases h with ⟨-, hne, -⟩ | ⟨-, -, he⟩ | ⟨hlt, -⟩
  · exact absurd hvalue hne
  · rw [readHeader, he]
    rfl
  · omega

/-- Steps 2 and 3 break off after the count (rules R153, R154, R163 and R168). -/
theorem readHeader_of_breaksOff (h : s.cursorOk) (hv : s.tmp.valid = false) (hr : 14 ≤ s.rem)
    (hcount : count = fieldValue s.cfg.bitOrder (s.nextBits 14)) (h0 : count ≠ 0)
    (hwhy : (s.counted count).tmpBreaksOff k n e) :
    ∃ td, readHeader s = raise e (s.headerCut (14 + n) (BitVec.ofNat 14 count) td) ∧ (s.counted count).TdRead k td := by
  obtain ⟨td, hread, htd⟩ := tmpPart_breaksOff (cursorOk_counted h hr count) hv hwhy
  refine ⟨td, ?_, htd⟩
  rw [readHeader_of_count h hr hcount h0, hread, State.headerCut, ← s.skipBits_skipBits 14 n (s.pos_add_lt h hr)]
  rfl

theorem headerCut_launched (s : State) (w : Word) (t : BitVec 1) (n : Nat) (nsym : BitVec 14) (td : Store Nat)
    (e : ErrorKind) :
    ((beginRecord (slotOfT01 t) (s.launched w)).headerCut n nsym td).raiseError
        (opByte ((beginRecord (slotOfT01 t) (s.launched w)).headerCut n nsym td).cmd) e
      = ({ (s.skipBits n).failed w e with
          nsym := nsym, ofs := 0, lastnz := 0, tmp := { s.tmp with valid := false }, td := td } : State).setSlot
            (slotOfT01 t) { s.slot (slotOfT01 t) with valid := false } := by
  unfold slotOfT01
  split <;> rfl

/-- `TREAD t` whose header is cut off (rule R167). -/
theorem exec_tread_of_headerCut {t : BitVec 1} {nsym : BitVec 14} (hr : s.run = .idle)
    (hread : readHeader (beginRecord (slotOfT01 t) (s.launched (0x06000000 ||| t.zeroExtend 32)))
      = raise e ((beginRecord (slotOfT01 t) (s.launched (0x06000000 ||| t.zeroExtend 32))).headerCut n nsym td)) :
    exec (.tread t) s = .next (({ (s.skipBits n).failed (0x06000000 ||| t.zeroExtend 32) e with
      nsym := nsym, ofs := 0, lastnz := 0, tmp := { s.tmp with valid := false }, td := td } : State).setSlot
        (slotOfT01 t) { s.slot (slotOfT01 t) with valid := false }) := by
  rw [exec_tread, ← headerCut_launched]
  exact launch_of_raise hr (congrArg (Res.bind · _) hread)

/-! ### The same bits seen from the start of the record -/

theorem depthField_of_stream {v : State} (hw : v.stream = s.stream) (j : Nat) : v.depthField j = s.depthField j := by
  have hcfg := State.cfg_of_stream hw
  have hpos : v.pos = s.pos := by
    simp only [State.stream, Prod.mk.injEq] at hw
    obtain ⟨-, -, -, hbyte, hbit, -⟩ := hw
    rw [State.pos, State.pos, hbyte, hbit]
  have hskip : ∀ m, (v.skipBits m).stream = (s.skipBits m).stream := fun m => by
    simp only [State.stream, Prod.mk.injEq] at hw ⊢
    obtain ⟨hcfg, hbuf, hlen, -, -, hend⟩ := hw
    exact ⟨hcfg, hbuf, hlen, by simp [hpos], by simp [hpos], hend⟩
  rw [State.depthField, State.depthField, State.fieldAt, State.fieldAt, hcfg, State.nextBits_of_stream (hskip _)]

/-- The temporary-tree part that begins in u is the one 14 bits after the cursor of s: its number of fields, and
each of them. -/
structure State.TmpPartFrom (s u : State) : Prop where
  cfg    : u.cfg = s.cfg
  rem    : u.rem = s.rem - 14
  count  : u.fieldCount = if s.cfg.tmpCountW = 0 then 21
    else fieldValue s.cfg.bitOrder ((s.skipBits 14).nextBits s.cfg.tmpCountW)
  fields : ∀ j, u.depthField j = fieldValue s.cfg.bitOrder
    ((s.skipBits (14 + s.cfg.tmpCountW + j * s.cfg.tmpDepthW)).nextBits s.cfg.tmpDepthW)

theorem tmpPartFrom_of_stream (h : s.cursorOk) (hr : 14 ≤ s.rem) (hu : u.stream = (s.skipBits 14).stream) :
    s.TmpPartFrom u := by
  have hcfg : u.cfg = s.cfg := State.cfg_of_stream (s := s.skipBits 14) hu
  refine ⟨hcfg, (State.rem_of_stream hu).trans (s.rem_skipBits h hr), ?_, fun j => ?_⟩
  · rw [State.fieldCount, hcfg, State.nextBits_of_stream hu]
    rfl
  · rw [depthField_of_stream hu, State.depthField, State.fieldAt, s.skipBits_skipBits _ _ (s.pos_add_lt h hr),
      ← Nat.add_assoc]
    rfl

/-- Steps 2 and 3 of the record at the cursor of s break off, with k depth fields read, n bits of the record consumed
and error e; the fields begin at bit `start`, and there are `fields` of them (rules R153, R154, R163 and R168). -/
def State.headerBreaksOff (s : State) (start fields k n : Nat) (e : ErrorKind) : Prop :=
  (s.rem < start ∧ k = 0 ∧ n = 14 ∧ e = .unexpectedEnd)
    ∨ (start ≤ s.rem ∧ (fields = 0 ∨ 21 < fields) ∧ k = 0 ∧ n = start ∧ e = .invalidDepths)
    ∨ (start ≤ s.rem ∧ fields ≤ 21 ∧ k < fields ∧ n = start + k * s.cfg.tmpDepthW ∧ n ≤ s.rem
        ∧ s.rem < n + s.cfg.tmpDepthW ∧ e = .unexpectedEnd)
    ∨ (1 ≤ fields ∧ fields ≤ 21 ∧ k = fields ∧ n = start + k * s.cfg.tmpDepthW ∧ n ≤ s.rem ∧ e = .invalidDepths
        ∧ ∃ depths : List Nat, depths.length = 21 ∧ buildSlot depths = none
          ∧ (∀ j, j < fields → depthAt depths (tmpOrder.getD j 0)
              = fieldValue s.cfg.bitOrder ((s.skipBits (start + j * s.cfg.tmpDepthW)).nextBits s.cfg.tmpDepthW))
          ∧ ∀ x ∈ tmpOrder.drop fields, depthAt depths x = 0)

/-- Where the record breaks off, its temporary-tree part does, 14 bits further on. -/
theorem State.headerBreaksOff.tmpBreaksOff (hwhy : s.headerBreaksOff (14 + s.cfg.tmpCountW) u.fieldCount k n e)
    (hr : 14 ≤ s.rem) (hp : s.TmpPartFrom u) : ∃ m, n = 14 + m ∧ u.tmpBreaksOff k m e := by
  unfold State.tmpBreaksOff
  rw [hp.cfg, hp.rem]
  rcases hwhy with ⟨hlt, hk, rfl, he⟩ | ⟨hle, hbad, hk, rfl, he⟩ | ⟨hle, hc, hk, rfl, hn, hcut, he⟩
    | ⟨h1, hc, hk, rfl, hn, he, depths, hlen, hnone, hd, hz⟩
  · exact ⟨0, rfl, .inl ⟨by omega, hk, rfl, he⟩⟩
  · exact ⟨_, rfl, .inr (.inl ⟨by omega, hbad, hk, rfl, he⟩)⟩
  · exact ⟨_, Nat.add_assoc _ _ _, .inr (.inr (.inl ⟨hc, hk, rfl, by omega, by omega, he⟩))⟩
  · exact ⟨_, Nat.add_assoc _ _ _, .inr (.inr (.inr ⟨h1, hc, hk, rfl, by omega, he, depths,
      ⟨hlen, fun j hj => (hd j hj).trans (hp.fields j).symm, hz⟩, hnone⟩))⟩

/-- The temporary-tree part of the record that a `TREAD` in s reads. -/
theorem tmpPartFrom_counted (h : s.cursorOk) (hr : 14 ≤ s.rem) (w : Word) (t : SlotId) (count : Nat) :
    s.TmpPartFrom ((beginRecord t (s.launched w)).counted count) :=
  tmpPartFrom_of_stream h hr (by cases t <;> rfl)

theorem find_tdBase_counted (s : State) (w : Word) (t : SlotId) (count x : Nat) :
    Store.find ((beginRecord t (s.launched w)).counted count).tdBase x
      = if s.cfg.tmpCountW = 0 ∨ 21 ≤ x then Store.find s.td x else some 0 := by
  rw [find_tdBase]
  cases t <;> rfl

end

end Sys2Proof.Machine

open Sys2Proof Sys2Proof.Machine

/-- Settles O22: step 1 fails by itself, and after it steps 2 and 3 break off at the part 14 bits further on. -/
theorem treadHeaderErrors : Obligations.TreadHeaderErrors := by
  intro t s hr h
  have hstream : (beginRecord (slotOfT01 t) (s.launched (0x06000000 ||| t.zeroExtend 32))).stream = s.stream :=
    stream_beginRecord _ _
  have hrem := State.rem_of_stream hstream
  have hbits := State.nextBits_of_stream hstream 14
  have hbegun := State.cursorOk_of_stream hstream h
  refine ⟨⟨{ s.slot (slotOfT01 t) with valid := false }, { s.tmp with valid := false }, rfl, rfl, fun hlt => ?_,
    fun hge hzero => ?_⟩, ?_⟩
  · have hexec := exec_tread_of_headerCut hr (readHeader_of_short (hrem.trans_lt hlt))
    rw [State.skipBits_zero] at hexec
    rw [hexec]
    unfold slotOfT01
    split <;> rfl
  · rw [exec_tread_of_headerCut hr (readHeader_of_zero_count hbegun (hrem.symm ▸ hge) (hbits.symm ▸ hzero))]
    unfold slotOfT01
    split <;> rfl
  · intro count start fields k n e hge hcount hne hstart hfields hwhy
    have hpart := tmpPartFrom_counted h hge (0x06000000 ||| t.zeroExtend 32) (slotOfT01 t) count
    obtain rfl := hfields.trans hpart.count.symm
    subst hstart
    obtain ⟨m, rfl, hbreak⟩ := State.headerBreaksOff.tmpBreaksOff hwhy hge hpart
    obtain ⟨td, hread, htd⟩ := readHeader_of_breaksOff hbegun rfl (hrem.symm ▸ hge)
      (by rw [State.cfg_of_stream hstream, hbits]; exact hcount) hne hbreak
    refine ⟨{ s.slot (slotOfT01 t) with valid := false }, { s.tmp with valid := false }, td, rfl, rfl,
      exec_tread_of_headerCut hr hread, fun j hj => ?_, fun x hx => ?_⟩
    · rw [htd.fields j hj, hpart.fields]
    · rw [htd.others x hx, find_tdBase_counted]

end

section
/-! What any outcome of `TREAD t` leaves (42_table_reader.md rules R151 to R154, R167 and R216). -/

namespace Sys2Proof.Machine

section
variable {s u v : State} {w : Word} {r : SlotId} {e : ErrorKind}

/-- The state with the registers of v that a table record may write (rule R151). -/
def State.withReader (s v : State) : State :=
  { s with brByte := v.brByte, brBit := v.brBit, nsym := v.nsym, ofs := v.ofs, lastnz := v.lastnz, td := v.td,
           da := v.da, t0 := v.t0, t1 := v.t1, tmp := v.tmp }

theorem ReaderStep.eq_withReader (h : ReaderStep r s v) : v = s.withReader v :=
  show v.sansReader.withReader v = s.sansReader.withReader v from congrArg (fun x : State => x.withReader v) h.frame

/-- The state v of a command that has ended, with its outcome u: the machines of 10_state.md rule R43 are idle. -/
def State.EndedAs (v u : State) : Prop :=
  ∃ (run : RunState) (err : Option ErrorKind) (errOp : BitVec 8),
    u = { v with run := run, err := err, errOp := errOp, trState := .idle, upState := .idle, gtPhase := .start }

theorem complete_endedAs (v : State) : v.EndedAs v.complete := ⟨.idle, v.err, v.errOp, rfl⟩

theorem raiseError_endedAs (v : State) (op : BitVec 8) (e : ErrorKind) : v.EndedAs (v.raiseError op e) :=
  ⟨.error, some e, op, rfl⟩

/-- The frame of a record for slot r, launched as a command (rule R151). -/
theorem ReaderStep.frame_of_ended (hr : r ≠ .tmp) (h : ReaderStep r (s.launched w) v) (hu : v.EndedAs u) :
    u = ({ s with cmd := w, run := u.run, err := u.err, errOp := u.errOp,
                  brByte := u.brByte, brBit := u.brBit, nsym := u.nsym, ofs := u.ofs, lastnz := u.lastnz, td := u.td,
                  da := u.da, tmp := u.tmp, trState := .idle, upState := .idle, gtPhase := .start } : State).setSlot r
            (u.slot r) := by
  obtain ⟨run, err, errOp, rfl⟩ := hu
  have hv := congrArg (fun x : State => { x with
    run := run, err := err, errOp := errOp, trState := .idle, upState := .idle, gtPhase := .start }) h.eq_withReader
  cases r with
  | tmp => exact absurd rfl hr
  | t0 =>
    have h1 : v.t1 = s.t1 := h.other .t1 (by decide) (by decide)
    rw [← h1]
    exact hv
  | t1 =>
    have h0 : v.t0 = s.t0 := h.other .t0 (by decide) (by decide)
    rw [← h0]
    exact hv

theorem opByte_tread (t : BitVec 1) : opByte (0x06000000 ||| t.zeroExtend 32) = 0x06 := by
  rw [← commandWord_tread, opByte_commandWord]

theorem State.HeaderEnd.of_launched (h : (s.launched w).HeaderEnd u) : s.HeaderEnd u :=
  h.of_stream (v := s.launched w) rfl rfl

/-- How `TREAD t` can end: the record is read, or fails, and either way the header at the cursor is found. -/
theorem exec_tread_ends (t : BitVec 1) (hd : s.DataOk) (hr : s.run = .idle) :
    ∃ v, RecordStep (slotOfT01 t) (s.launched (0x06000000 ||| t.zeroExtend 32)) v ∧ s.HeaderEnd v ∧
      ((v.slot (slotOfT01 t)).valid = true ∧ v.tmp.valid = true ∧ v.ofs = v.nsym ∧ exec (.tread t) s = .next v.complete
        ∨ ∃ e, tableError e ∧ (v.slot (slotOfT01 t)).valid = false
          ∧ exec (.tread t) s = .next (v.raiseError 0x06 e)) := by
  have hne := slotOfT01_ne t
  have hdw := hd.launched (0x06000000 ||| t.zeroExtend 32)
  rw [exec_tread, launch_idle hr]
  rcases ((treadBody_meets hne hdw).and (treadBody_headerEnd hne hdw)).ends with
    ⟨_, v, he, ⟨hstep, hval, htmp, hofs⟩, hend⟩ | ⟨e, v, he, ⟨hkind, hstep, hval⟩, hend⟩
  · rw [he, finish_ok]
    exact ⟨v, hstep, hend.of_launched, .inl ⟨hval, htmp, hofs, rfl⟩⟩
  · have hcmd : v.cmd = 0x06000000 ||| t.zeroExtend 32 := State.field_of_sansReader State.cmd hstep.reader.frame
    rw [he, finish_raise, hcmd, opByte_tread]
    exact ⟨v, hstep, hend.of_launched, .inr ⟨e, hkind, hval, rfl⟩⟩

end

end Sys2Proof.Machine

open Sys2Proof Sys2Proof.Machine

/-- Settles O21: a record writes the reader's registers and its own slot, and `T[2]` tells whether a header was read. -/
theorem treadFrameAndFailure : Obligations.TreadFrameAndFailure := by
  intro t r s u hd hr hrt he
  obtain rfl : r = slotOfT01 t := hrt
  have hne := slotOfT01_ne t
  obtain ⟨v, hstep, hend, ⟨hval, htmp, hofs, hnext⟩ | ⟨e, hkind, hval, hnext⟩⟩ := exec_tread_ends t hd hr
  · obtain rfl : v.complete = u := Host.Outcome.next.inj (hnext.symm.trans he)
    have herr := State.field_of_sansReader State.err hstep.reader.frame
    have herrOp := State.field_of_sansReader State.errOp hstep.reader.frame
    refine ⟨hstep.reader.frame_of_ended hne (complete_endedAs v), hstep.above, hend.short, hend.count,
      hend.exists_of_valid, hend.tree, .inl ⟨rfl, herr, herrOp, ?_, htmp, hofs⟩⟩
    rw [← hval]
    cases slotOfT01 t <;> rfl
  · obtain rfl : v.raiseError 0x06 e = u := Host.Outcome.next.inj (hnext.symm.trans he)
    refine ⟨hstep.reader.frame_of_ended hne (raiseError_endedAs v _ e), hstep.above, hend.short, hend.count,
      hend.exists_of_valid, hend.tree, .inr ⟨rfl, rfl, ?_, ?_⟩⟩
    · rw [← hval]
      cases slotOfT01 t <;> rfl
    · rcases hkind with rfl | rfl | rfl | rfl | rfl <;> simp

end

section
/-! `GETTAB` as two `TREAD`s (42_table_reader.md rules R166 and R167). The table reader neither reads nor writes
`CMD` and the places of the state machines (10_state.md rule R43), so a record reads alike in a `GETTAB` and in a `TREAD`. -/

namespace Sys2Proof.Machine

/-! ### What a running command keeps for its control -/

/-- `s`, with `CMD` and the places of the state machines as in c. -/
def State.withControl (s c : State) : State :=
  { s with cmd := c.cmd, trState := c.trState, upState := c.upState, gtPhase := c.gtPhase }

/-- The same answer, with the control as in c. -/
def Res.withControl {α : Type} (r : Res α) (c : State) : Res α :=
  match r with
  | .ok a s => .ok a (s.withControl c)
  | .stop x s => .stop x (s.withControl c)

section
variable {α β : Type} {c : State}

theorem Res.bind_withControl {r : Res α} {f : α → State → Res β}
    (hf : ∀ a s, f a (s.withControl c) = (f a s).withControl c) :
    (r.withControl c).bind f = (r.bind f).withControl c := by
  cases r with
  | ok a s => exact hf a s
  | stop x s => rfl

theorem Res.ite_withControl {P : Prop} [Decidable P] {r1 r2 q1 q2 : Res α} (h1 : r1 = q1.withControl c)
    (h2 : r2 = q2.withControl c) : (if P then r1 else r2) = (if P then q1 else q2).withControl c := by
  split
  · exact h1
  · exact h2

theorem Res.renaming_withControl (r : Res α) (e1 e2 : ErrorKind) :
    (r.withControl c).renaming e1 e2 = (r.renaming e1 e2).withControl c := by
  rcases r with ⟨a, s⟩ | ⟨e | f, s⟩
  · rfl
  · exact Res.ite_withControl (P := e = e1) (q1 := raise e2 s) (q2 := raise e s) rfl rfl
  · rfl

variable (s : State) (t : SlotId)

theorem State.slot_withControl : (s.withControl c).slot t = s.slot t := by
  cases t <;> rfl

theorem State.setSlot_withControl (x : Slot) : (s.withControl c).setSlot t x = (s.setSlot t x).withControl c := by
  cases t <;> rfl

theorem State.invalidate_withControl : (s.withControl c).invalidate t = (s.invalidate t).withControl c := by
  rw [State.invalidate, State.slot_withControl, State.setSlot_withControl]
  rfl

/-! ### The parts of the table reader -/

theorem readBit_withControl : readBit (s.withControl c) = (readBit s).withControl c := by
  unfold readBit
  refine Res.ite_withControl (P := s.brByte.toNat < s.bufLen.toNat) (congrArg (Res.ok _) ?_) rfl
  rw [State.advance_eq_skipBits, State.advance_eq_skipBits]
  rfl

theorem readLoop_withControl (n k r : Nat) : readLoop n k r (s.withControl c) = (readLoop n k r s).withControl c := by
  induction n generalizing k r s with
  | zero => rfl
  | succ n ih =>
    rw [readLoop, readBit_withControl]
    exact Res.bind_withControl fun b s' => ih s' (k + 1) _

theorem readBits_withControl (n : Nat) : readBits n (s.withControl c) = (readBits n s).withControl c := by
  unfold readBits
  exact Res.ite_withControl (P := s.rem < n) rfl (readLoop_withControl s n 0 0)

theorem decodeLoop_withControl (n len cand : Nat) :
    decodeLoop t n len cand (s.withControl c) = (decodeLoop t n len cand s).withControl c := by
  induction n generalizing len cand s with
  | zero => rfl
  | succ n ih =>
    rw [decodeLoop, readBits_withControl]
    refine Res.bind_withControl fun b s' => ?_
    rw [State.slot_withControl]
    cases (s'.slot t).lookup (len + 1) (2 * cand + b) with
    | none => exact ih s' _ _
    | some x => rfl

theorem fetchSymbol_withControl : fetchSymbol (s.withControl c) = (fetchSymbol s).withControl c := by
  rw [fetchSymbol, decodeSym, State.slot_withControl, decodeLoop_withControl, Res.renaming_withControl]
  rfl

theorem build_withControl (d : List Nat) : build t d (s.withControl c) = (build t d s).withControl c := by
  unfold build
  cases buildSlot d with
  | none => exact congrArg (raise _) (State.invalidate_withControl s t)
  | some x => exact congrArg (Res.ok ()) (State.setSlot_withControl s t x)

theorem readCount_withControl : readCount (s.withControl c) = (readCount s).withControl c := by
  rw [readCount, readBits_withControl]
  exact Res.bind_withControl fun n s' => Res.ite_withControl (P := n = 0) rfl rfl

theorem readTmpFields_withControl (xs : List Nat) :
    readTmpFields xs (s.withControl c) = (readTmpFields xs s).withControl c := by
  induction xs generalizing s with
  | nil => rfl
  | cons x xs ih =>
    have hfield : readTmpDepth x (s.withControl c) = (readTmpDepth x s).withControl c := by
      rw [readTmpDepth, readBits_withControl]
      exact Res.bind_withControl fun _ _ => rfl
    rw [readTmpFields, hfield]
    exact Res.bind_withControl fun _ s' => ih s'

theorem readTmpDepths_withControl : readTmpDepths (s.withControl c) = (readTmpDepths s).withControl c := by
  have hclear : clearTmpDepths (s.withControl c) = (clearTmpDepths s).withControl c := by
    simp only [clearTmpDepths, State.withControl]
  unfold readTmpDepths
  refine Res.ite_withControl (P := s.cfg.tmpCountW = 0) (readTmpFields_withControl s _) ?_
  rw [hclear, readBits_withControl]
  exact Res.bind_withControl fun n s' =>
    Res.ite_withControl (P := n = 0 ∨ tmpNsym < n) rfl (readTmpFields_withControl s' _)

theorem readRun_withControl (e : Escape) : readRun e (s.withControl c) = (readRun e s).withControl c := by
  rw [readRun, readBits_withControl, Res.renaming_withControl]
  exact Res.bind_withControl fun p s' => Res.ite_withControl (P := e.kind = .repeats ∧ s'.lastnz = 0) rfl
    (Res.ite_withControl (P := s'.nsym.toNat - s'.ofs.toNat < e.runLength p) rfl rfl)

theorem dispatchSymbol_withControl (x : Nat) :
    dispatchSymbol x (s.withControl c) = (dispatchSymbol x s).withControl c := by
  unfold dispatchSymbol
  rw [show (s.withControl c).cfg = s.cfg from rfl]
  cases escapeOf s.cfg x with
  | none => rfl
  | some e =>
    simp only [fillRun_eq, readRun_withControl]
    exact Res.bind_withControl fun _ s' => rfl

theorem depthLoop_withControl (n : Nat) : depthLoop n (s.withControl c) = (depthLoop n s).withControl c := by
  induction n generalizing s with
  | zero => rfl
  | succ n ih =>
    unfold depthLoop
    refine Res.ite_withControl (P := s.ofs.toNat < s.nsym.toNat) ?_ rfl
    rw [fetchSymbol_withControl]
    refine Res.bind_withControl fun x s' => ?_
    rw [dispatchSymbol_withControl]
    exact Res.bind_withControl fun _ s'' => ih s''

/-- A record reads alike whatever the control (rule R151). -/
theorem treadBody_withControl : treadBody t (s.withControl c) = (treadBody t s).withControl c := by
  have hbegin : beginRecord t (s.withControl c) = (beginRecord t s).withControl c := by cases t <;> rfl
  have hheader : ∀ s : State, readHeader (s.withControl c) = (readHeader s).withControl c := fun s => by
    rw [readHeader, readCount_withControl]
    refine Res.bind_withControl fun _ s1 => ?_
    rw [readTmpDepths_withControl]
    exact Res.bind_withControl fun _ s2 => build_withControl s2 .tmp s2.tdList
  rw [treadBody, hbegin, hheader]
  refine Res.bind_withControl fun _ s1 => ?_
  rw [show readDepths (s1.withControl c) = _ from depthLoop_withControl s1 _]
  exact Res.bind_withControl fun _ s2 => build_withControl s2 t s2.daList

end

end Sys2Proof.Machine

end

section
/-! `GETTAB` ends as the `TREAD`s of its two records end (42_table_reader.md rules R166 and R167). -/

namespace Sys2Proof.Machine

section
variable {s u v : State} {e : ErrorKind}

/-! ### One record of a `GETTAB` and the `TREAD` that reads it -/

/-- An error inside a `GETTAB` and inside the `TREAD` that reads the same record. -/
theorem raiseError_of_withControl (hcmd : v.cmd = 0x07000000) (c : State) (op : BitVec 8) (e : ErrorKind) :
    v.raiseError (opByte v.cmd) e
      = { (v.withControl c).raiseError op e with cmd := 0x07000000, errOp := 0x07 } := by
  have hop : opByte v.cmd = 0x07 := by rw [hcmd]; decide
  rw [hop, ← hcmd]
  rfl

theorem complete_of_withControl (hcmd : v.cmd = 0x07000000) (c : State) :
    v.complete = { (v.withControl c).complete with cmd := 0x07000000 } := by
  rw [← hcmd]
  rfl

/-- The `TREAD` after another one begins with the data that the first one left. -/
theorem launched_complete_withControl (hrun : v.run = .busy) (c : State) (w : Word) :
    (v.withControl c).complete.launched w = v.withControl ((v.withControl c).complete.launched w) := by
  simp only [State.launched, State.complete, State.withControl, hrun]

/-- `TREAD t` on the data of a command that reads a record. -/
theorem exec_tread_of_withControl {t : BitVec 1} (hr : s.run = .idle)
    (hv : s.launched (0x06000000 ||| t.zeroExtend 32) = v.withControl (s.launched (0x06000000 ||| t.zeroExtend 32))) :
    exec (.tread t) s
      = finish ((treadBody (slotOfT01 t) v).withControl (s.launched (0x06000000 ||| t.zeroExtend 32))) := by
  rw [exec_tread, launch_idle hr, hv, treadBody_withControl, ← hv]

/-! ### The command -/

/-- The state in which the first record of a `GETTAB` begins, seen from outside the command (rule R166). -/
def State.tableSought (s : State) : State := ((s.invalidate .t0).invalidate .t1).seekTo s.tableOfs s.bufLen

theorem State.DataOk.tableSought (h : s.DataOk) (hle : s.tableOfs.toNat ≤ s.bufLen.toNat) : s.tableSought.DataOk :=
  ((h.invalidate .t0).invalidate .t1).seekTo hle (Nat.le_refl _)

/-- A table offset beyond the buffer (rule R166). -/
theorem exec_gettab_beyond (hr : s.run = .idle) (hlt : s.bufLen.toNat < s.tableOfs.toNat) :
    exec .gettab s = .next (((s.failed 0x07000000 .offsetOutOfRange).invalidate .t0).invalidate .t1) := by
  have hseek : gettabSeek (s.launched 0x07000000)
      = raise .offsetOutOfRange (((s.launched 0x07000000).invalidate .t0).invalidate .t1) := if_pos hlt
  rw [exec_gettab, launch_idle hr, gettabBody, hseek]
  rfl

theorem exec_gettab_within (hr : s.run = .idle) (hle : s.tableOfs.toNat ≤ s.bufLen.toNat) :
    exec .gettab s = finish ((treadBody .t0 (s.tableSought.launched 0x07000000)).bind fun _ s2 =>
      (treadBody .t1 s2).onError fun s3 => s3.invalidate .t0) := by
  rw [exec_gettab, launch_idle hr, gettabBody, gettabSeek_of_le (s := s.launched 0x07000000) hle]
  rfl

/-- The second record of a `GETTAB` ends it as `TREAD 1` ends (rule R166). -/
theorem second_record_ends (hd : v.DataOk) (hcmd : v.cmd = 0x07000000) (hrun : v.run = .busy) (c : State) :
    ∃ u x, finish ((treadBody .t1 v).onError fun s3 => s3.invalidate .t0) = .next u
      ∧ exec (.tread 1) (v.withControl c).complete = .next x
      ∧ (u.run = .error → ∃ e, tableError e ∧ u.err = some e)
      ∧ (x.run = .error ∧ u = ({ x with cmd := 0x07000000, errOp := 0x07 } : State).invalidate .t0
        ∨ x.run = .idle ∧ u = { x with cmd := 0x07000000 }) := by
  have hexec := exec_tread_of_withControl (s := (v.withControl c).complete) (t := 1) rfl
    (launched_complete_withControl hrun c _)
  rw [hexec, show slotOfT01 1 = .t1 from rfl]
  rcases (treadBody_meets (t := .t1) (by decide) hd).ends with ⟨_, y, he, hstep, -⟩ | ⟨e, y, he, hkind, hstep, -⟩
    <;> rw [he]
  · have hy := (State.field_of_sansReader State.cmd hstep.reader.frame).trans hcmd
    exact ⟨_, _, rfl, rfl, (fun hrun => by cases hrun), .inr ⟨rfl, complete_of_withControl hy _⟩⟩
  · have hy := (State.field_of_sansReader State.cmd hstep.reader.frame).trans hcmd
    exact ⟨_, _, rfl, rfl, fun _ => ⟨e, hkind, rfl⟩,
      .inl ⟨rfl, congrArg (State.invalidate · .t0) (raiseError_of_withControl hy _ _ e)⟩⟩

/-- `GETTAB` with its table inside the buffer: its records are read as `TREAD 0` and `TREAD 1` read them (rule R166). -/
theorem exec_gettab_records (hd : s.DataOk) (hr : s.run = .idle) (hle : s.tableOfs.toNat ≤ s.bufLen.toNat) :
    ∃ u b, exec .gettab s = .next u ∧ (u.run = .error → ∃ e, tableError e ∧ u.err = some e)
      ∧ exec (.tread 0) s.tableSought = .next b
      ∧ (b.run = .error ∧ u = { b with cmd := 0x07000000, errOp := 0x07 }
        ∨ b.run = .idle ∧ ∃ x, exec (.tread 1) b = .next x
          ∧ (x.run = .error ∧ u = ({ x with cmd := 0x07000000, errOp := 0x07 } : State).invalidate .t0
            ∨ x.run = .idle ∧ u = { x with cmd := 0x07000000 })) := by
  have hexec := exec_tread_of_withControl (s := s.tableSought) (v := s.tableSought.launched 0x07000000) (t := 0) hr rfl
  rw [exec_gettab_within hr hle, hexec, show slotOfT01 0 = .t0 from rfl]
  rcases (treadBody_meets (t := .t0) (by decide) ((hd.tableSought hle).launched 0x07000000)).ends with
    ⟨_, v, he, hstep, -⟩ | ⟨e, v, he, hkind, hstep, -⟩ <;> rw [he]
  · have hcmd : v.cmd = 0x07000000 := State.field_of_sansReader State.cmd hstep.reader.frame
    have hrun : v.run = .busy := State.field_of_sansReader State.run hstep.reader.frame
    obtain ⟨u, x, hu, hx, herr, hcase⟩ := second_record_ends hstep.reader.data hcmd hrun
      (s.tableSought.launched (0x06000000 ||| BitVec.zeroExtend 32 (0 : BitVec 1)))
    exact ⟨u, _, hu, herr, rfl, .inr ⟨rfl, x, hx, hcase⟩⟩
  · have hcmd : v.cmd = 0x07000000 := State.field_of_sansReader State.cmd hstep.reader.frame
    exact ⟨_, _, rfl, fun _ => ⟨e, hkind, rfl⟩, rfl, .inl ⟨rfl, raiseError_of_withControl hcmd _ _ e⟩⟩

/-! ### What any outcome leaves -/

theorem TableStep.eq_withTable (h : TableStep s v) : v = { s.withReader v with brEnd := v.brEnd } :=
  show ({ ({ v.sansReader with brEnd := 0 } : State).withReader v with brEnd := v.brEnd } : State)
    = { ({ s.sansReader with brEnd := 0 } : State).withReader v with brEnd := v.brEnd } from
      congrArg (fun x : State => { x.withReader v with brEnd := v.brEnd }) h.frame

/-- The frame of `GETTAB`, launched as a command (rule R166). -/
theorem TableStep.frame_of_ended {w : Word} (h : TableStep (s.launched w) v) (hu : v.EndedAs u) :
    u = { s with cmd := w, run := u.run, err := u.err, errOp := u.errOp, brByte := u.brByte, brBit := u.brBit,
                 brEnd := u.brEnd, nsym := u.nsym, ofs := u.ofs, lastnz := u.lastnz, td := u.td, da := u.da, t0 := u.t0,
                 t1 := u.t1, tmp := u.tmp, trState := .idle, upState := .idle, gtPhase := .start } := by
  obtain ⟨run, err, errOp, rfl⟩ := hu
  exact congrArg (fun x : State => { x with
    run := run, err := err, errOp := errOp, trState := .idle, upState := .idle, gtPhase := .start }) h.eq_withTable

/-- How `GETTAB` can end: with a Table, or with an error and no Table (rules R166 and R216). -/
theorem exec_gettab_ends (hd : s.DataOk) (hr : s.run = .idle) (he : exec .gettab s = .next u) :
    ∃ v, TableStep (s.launched 0x07000000) v ∧ v.EndedAs u ∧
      (u.run = .idle ∧ u.err = s.err ∧ u.errOp = s.errOp ∧ u.t0.valid = true ∧ u.t1.valid = true
        ∨ u.run = .error ∧ u.errOp = 0x07 ∧ u.t0.valid = false ∧ u.t1.valid = false
          ∧ ∃ e, (e = .offsetOutOfRange ∨ tableError e) ∧ u.err = some e) := by
  rw [exec_gettab, launch_idle hr] at he
  rcases (gettabBody_meets (hd.launched 0x07000000)).ends with
    ⟨_, v, hbody, hstep, h0, h1⟩ | ⟨e, v, hbody, hkind, hstep, h0, h1⟩ <;> rw [hbody] at he <;> cases he
  · exact ⟨v, hstep, complete_endedAs v, .inl ⟨rfl, hstep.field State.err, hstep.field State.errOp, h0, h1⟩⟩
  · have hcmd : v.cmd = 0x07000000 := hstep.field State.cmd
    have hop : opByte v.cmd = 0x07 := by rw [hcmd]; decide
    exact ⟨v, hstep, raiseError_endedAs v _ e, .inr ⟨rfl, hop, h0, h1, e, hkind, rfl⟩⟩

end

end Sys2Proof.Machine

open Sys2Proof Sys2Proof.Machine

/-- Settles O29: the offset is tested first, and each record reads as its `TREAD` does, whatever `CMD` holds. -/
theorem gettabGivesATableOrNone : Obligations.GettabGivesATableOrNone := by
  intro s u hd hr he
  obtain ⟨v, hstep, hended, hout⟩ := exec_gettab_ends hd hr he
  refine ⟨hstep.frame_of_ended hended, ?_, ?_⟩
  · refine hout.imp_right fun ⟨hrun, hop, h0, h1, e, hkind, herr⟩ => ⟨hrun, hop, h0, h1, ?_⟩
    rcases hkind with rfl | rfl | rfl | rfl | rfl | rfl <;> simp [herr]
  · by_cases hlt : s.bufLen.toNat < s.tableOfs.toNat
    · obtain rfl := Host.Outcome.next.inj ((exec_gettab_beyond hr hlt).symm.trans he)
      exact ⟨iff_of_true hlt ⟨rfl, rfl⟩, fun _ => rfl, fun hle => absurd hlt (Nat.not_lt.2 hle)⟩
    · obtain ⟨u', b, hu, herr, hb, hcase⟩ := exec_gettab_records hd hr (Nat.not_lt.1 hlt)
      obtain rfl : u' = u := Host.Outcome.next.inj (hu.symm.trans he)
      refine ⟨iff_of_false hlt fun ⟨hoff, hrun⟩ => ?_, fun h => absurd h hlt, fun _ => ⟨b, hb, hcase⟩⟩
      obtain ⟨e, hkind, he'⟩ := herr hrun
      obtain rfl : ErrorKind.offsetOutOfRange = e := Option.some.inj (hoff.symm.trans he')
      simp [tableError] at hkind

end

section
/-! The level unpacker under `LITERAL` where it fails, and its parameter `EXPAND` (43_level_unpacker.md rules R181 and
R184 to R190): `LVLINFO`, the expansion of a symbol, and how the loop of `UNPACK i` breaks off. -/

namespace Sys2Proof.Machine

section
variable {s u : State}

/-! ### `LVLINFO` (rule R181) -/

theorem exec_lvlinfo (i : BitVec 8) (s : State) :
    exec (.lvlinfo i) s = launch (0x08000000 ||| i.zeroExtend 32) (lvlinfoBody i.toNat) s := by
  rw [← commandWord_lvlinfo]
  rfl

theorem lvlinfoBody_of_level {i : Nat} (hi : i < s.levelCount.val) :
    lvlinfoBody i s = .ok () { s with
      liW := BitVec.ofNat 16 (levelDim s.imgW.toNat i), liH := BitVec.ofNat 16 (levelDim s.imgH.toNat i) } := by
  rw [lvlinfoBody, levelDims, if_neg (Nat.not_le.2 hi)]

theorem lvlinfoBody_beyond {i : Nat} (hi : s.levelCount.val ≤ i) :
    lvlinfoBody i s = raise .levelIndexOutOfRange s := by
  rw [lvlinfoBody, levelDims, if_pos hi]

/-! ### The expansion of a symbol (rules R186 to R189) -/

theorem runExpand_readBits_short {aux : Bool} {n : Fin 33} (k : Nat → ExpandProg aux) (hn : s.rem < n.val) :
    runExpand (.readBits n k) s = raise .unexpectedEnd s := by
  rw [runExpand, readBits_short hn, Res.bind_raise]

theorem runExpand_decodeMain_stop {aux : Bool} {y : Stop} (k : Nat → ExpandProg aux)
    (h : decodeSym .t0 s = .stop y u) : runExpand (.decodeMain k) s = .stop y u := by
  rw [runExpand, h, Res.bind_stop]

theorem runExpand_decodeAux_stop {aux : Bool} {y : Stop} (ha : aux = true) (k : Nat → ExpandProg aux)
    (h : decodeSym .t1 s = .stop y u) : runExpand (.decodeAux ha k) s = .stop y u := by
  rw [runExpand, h, Res.bind_stop]

theorem unpackExpand_of_stop {x : Nat} {y : Stop} (h : expandSym x s = .stop y u) : unpackExpand x s = .stop y u := by
  rw [unpackExpand, h, Res.bind_stop]

/-- What a call of `EXPAND` returns passes the "more bytes" test or not (rule R188). -/
theorem unpackExpand_of_ok {x : Nat} {bs : List Byte} (h : expandSym x s = .ok bs u) :
    unpackExpand x s =
      if u.expLen.toNat < u.outLen.toNat + bs.length then raise .levelSizeMismatch u else .ok bs u := by
  rw [unpackExpand, h, Res.bind_ok]

theorem expandSym_ok_expandedFrom {x : Nat} {bs : List Byte} (h : s.cursorOk) (hx : expandSym x s = .ok bs u) :
    u.ExpandedFrom s := by
  have hmeets := expandSym_meets x h
  rwa [hx] at hmeets

/-- The expansion moves the cursor and sets the context, and nothing of OUT (rule R186). -/
theorem State.ExpandedFrom.out_eq (h : u.ExpandedFrom s) :
    u.out = s.out ∧ u.outLen = s.outLen ∧ u.expLen = s.expLen := by
  obtain ⟨k, c, -, rfl⟩ := h
  exact ⟨rfl, rfl, rfl⟩

/-- Under `LITERAL` a symbol above 255 stands for no byte (rules R187 and R189). -/
theorem unpackExpand_literal_beyond (he : s.cfg.expand = .literal) {x : Nat} (hx : 256 ≤ x) :
    unpackExpand x s = raise .corruptStream s :=
  unpackExpand_of_stop ((expandSym_literal he x).trans (if_neg (by omega)))

/-! ### The round in which the loop breaks off (rules R187 to R189) -/

theorem Slot.builtFor.one_le_maxlen {t : SlotId} {sl : Slot} (h : sl.builtFor t) : 1 ≤ sl.maxlen.toNat := by
  obtain ⟨d, hd, -⟩ := h
  exact (builtSlot_maxlen hd).1

/-- The loop where output is still owed and the data breaks off at the cursor. -/
theorem unpackLoop_of_levelBreaksOff {n : Nat} {e : ErrorKind} (m : Nat) (h : s.cursorOk) (he : s.cfg.expand = .literal)
    (ht : s.t0.builtFor .t0) (hlt : s.outLen.toNat < s.expLen.toNat) (hbreak : s.levelBreaksOff n e) :
    unpackLoop (m + 1) s = raise e (s.skipBits n) := by
  have hmax := ht.one_le_maxlen
  rw [unpackLoop, if_pos hlt]
  rcases hbreak with ⟨rfl, rfl, hr⟩ | ⟨rfl, rfl, hpos, hlen, hno⟩ | ⟨rfl, rfl, hlen, hno⟩ |
    ⟨rfl, x, hx, -, hd, rfl, hb⟩
  · rw [unpackDecode, if_pos hr, Res.bind_raise, State.skipBits_zero]
  · rw [unpackDecode, if_neg (by omega), decodeSym_of_short (t := .t0) h hlen hno, Res.bind_raise]
  · rw [unpackDecode, if_neg (by omega), decodeSym_of_noCode (t := .t0) h ht hlen hno, Res.bind_raise]
    rfl
  · rw [unpackDecode_of_hasBits h ht hd hb, Res.bind_ok, unpackExpand_literal_beyond (s := s.skipBits _) he hx,
      Res.bind_raise]

/-! ### The loop on coded bytes after which the data breaks off -/

/-- The state in which the loop has decoded a list of bytes from the cursor of s and appended them (rules R184 and
R187). -/
def State.bytesRead (s : State) (bytes : List Byte) : State :=
  (s.skipBits (s.t0.bytesBits bytes).length).outAppendAll bytes

theorem State.bytesRead_frame (s : State) (bytes : List Byte) :
    s.bytesRead bytes = { s.skipBits (s.t0.bytesBits bytes).length with
      out := (s.bytesRead bytes).out, outLen := (s.bytesRead bytes).outLen } :=
  State.outAppendAll_frame _ bytes

theorem State.bytesRead_outLen {bytes : List Byte} (hlen : s.outLen.toNat + bytes.length < 2 ^ 33) :
    (s.bytesRead bytes).outLen.toNat = s.outLen.toNat + bytes.length :=
  State.outAppendAll_outLen (s.skipBits _) bytes hlen

/-- The whole loop, where the window codes fewer bytes than are expected and then breaks off (rules R188 and R189). -/
theorem unpackLoop_breaksOff {bytes : List Byte} {n : Nat} {e : ErrorKind} (h : s.cursorOk)
    (he : s.cfg.expand = .literal) (ht : s.t0.builtFor .t0) (hx : ∀ x ∈ bytes, s.t0.depthOf x.toNat ≠ 0)
    (hb : s.hasBits (s.t0.bytesBits bytes)) (hlen : s.outLen.toNat + bytes.length < s.expLen.toNat)
    (hbreak : (s.skipBits (s.t0.bytesBits bytes).length).levelBreaksOff n e) :
    unpackLoop (s.rem + 1) s = raise e ((s.bytesRead bytes).skipBits n) := by
  have hbits := Slot.length_le_bytesBits hx
  have hrem := hb.1
  have hexp := s.expLen.isLt
  obtain ⟨m, hm⟩ := Nat.exists_eq_add_of_le (show bytes.length ≤ s.rem by omega)
  have hlt : (s.bytesRead bytes).outLen.toNat < s.expLen.toNat := by
    rw [State.bytesRead_outLen (by omega)]
    exact hlen
  rw [hm, Nat.add_assoc, unpackLoop_of_hasBits (m + 1) h he ht hx hb (Nat.le_of_lt hlen)]
  change unpackLoop (m + 1) (s.bytesRead bytes) = _
  rw [State.bytesRead_frame]
  exact unpackLoop_of_levelBreaksOff m (hb.cursorOk_skipBits h) he ht hlt hbreak

/-- Under `LITERAL` the pre-checks of `UNPACK i` ask for `T[0]` and not for `T[1]` (rules R184 and R187). -/
theorem unpackCheck_literal {i b : Nat} (he : s.cfg.expand = .literal) (hi : i < s.levelCount.val)
    (hfmt : blockBytes s.fmt.toNat = some b) (ht : s.t0.valid = true)
    (hwin : (s.levelOfs i).toNat + (s.levelSize i).toNat ≤ s.bufLen.toNat) :
    unpackCheck i s = .ok () (s.checked i b) := by
  have hnoAux : s.cfg.expand.usesAux = true → s.t1.valid = true := fun h => by
    rw [he] at h
    cases h
  rw [unpackCheck_of_format hi hfmt, if_neg (slots_of_valid ht hnoAux), if_neg (Nat.not_lt.2 hwin)]

/-- An error in the loop leaves no output (rule R190). -/
theorem unpackBody_of_loop_raise {i b : Nat} {e : ErrorKind}
    (hcheck : unpackCheck i (beginUnpack s) = .ok () ((beginUnpack s).checked i b))
    (hloop : unpackLoop ((s.unpackStart i b).rem + 1) (s.unpackStart i b) = raise e u) :
    unpackBody i s = raise e { u with outLen := 0 } := by
  rw [unpackBody, unpackInner, hcheck, Res.bind_ok]
  change ((unpackLoop ((s.unpackStart i b).rem + 1) (s.unpackStart i b)).onError _).bind _ = _
  rw [hloop]
  rfl

/-- The end of an `UNPACK i` whose loop has decoded a list of bytes and failed n bits further on (rules R184 and
R190). -/
theorem bytesRead_launched (s : State) (w : Word) (i b n : Nat) (e : ErrorKind) (bytes : List Byte) :
    ({ (((s.launched w).unpackStart i b).bytesRead bytes).skipBits n with outLen := 0 } : State).raiseError
        (opByte (((s.launched w).unpackStart i b).bytesRead bytes).cmd) e
      = { (((s.seekTo (s.levelOfs i) (s.levelOfs i + s.levelSize i)).skipBits
            (s.t0.bytesBits bytes).length).skipBits n).failed w e with
          liW := BitVec.ofNat 16 (levelDim s.imgW.toNat i), liH := BitVec.ofNat 16 (levelDim s.imgH.toNat i)
          expLen := BitVec.ofNat 33 (expLenOf (levelDim s.imgW.toNat i) (levelDim s.imgH.toNat i) b)
          outLen := 0, outValid := false, expCtx := s.cfg.expand.ctx0
          out := (((s.launched w).unpackStart i b).bytesRead bytes).out } :=
  congrArg (fun v : State => ({ v.skipBits n with outLen := 0 } : State).raiseError (opByte v.cmd) e)
    (State.bytesRead_frame _ bytes)

end

end Sys2Proof.Machine

open Sys2Proof Sys2Proof.Machine

/-- Settles O34: the loop appends the coded bytes, and the round that comes then fails as the data breaks off. -/
theorem unpackFailsInsideTheLoop : Obligations.UnpackFailsInsideTheLoop := by
  rintro i s u w h b n bytes e hr he hi rfl rfl hfmt ht hwin hlen hx hb rfl hbreak
  have hformat : blockBytes s.fmt.toNat = some b := by
    rcases hfmt with ⟨hf, rfl⟩ | ⟨hf, rfl⟩ | ⟨hf, rfl⟩ <;> rw [hf] <;> rfl
  rw [← levelDim_eq, ← levelDim_eq] at hlen ⊢
  rw [← expLenOf_eq] at hlen ⊢
  have hroom : ((s.launched (0x09000000 ||| i.zeroExtend 32)).unpackStart i.toNat b).outLen.toNat + bytes.length
      < ((s.launched (0x09000000 ||| i.zeroExtend 32)).unpackStart i.toNat b).expLen.toNat :=
    (Nat.zero_add _).trans_lt (hlen.trans_eq (toNat_expLenOf hformat).symm)
  have hcheck := unpackCheck_literal (s := beginUnpack (s.launched (0x09000000 ||| i.zeroExtend 32))) he hi hformat
    ht.valid hwin
  have hloop := unpackLoop_breaksOff (s := (s.launched (0x09000000 ||| i.zeroExtend 32)).unpackStart i.toNat b)
    (unpackSeek_cursorOk hwin) he ht hx hb hroom hbreak
  have hbody := unpackBody_of_loop_raise hcheck hloop
  have hend := bytesRead_launched s (0x09000000 ||| i.zeroExtend 32) i.toNat b n e bytes
  rw [he] at hend
  exact ⟨_, (exec_unpack i s).trans ((launch_of_raise hr hbody).trans (congrArg _ hend))⟩

/-- Settles O36: an `EXPAND` stops as its reads do, and the one test on what it returns is that of its length. -/
theorem expansionOfASymbol : Obligations.ExpansionOfASymbol := by
  refine fun s x => ⟨fun he => ⟨fun hle => ?_, fun hge => ?_, by rw [he]; rfl, by rw [he]; rfl⟩,
    fun aux => ⟨rfl, fun n k => runExpand_readBits_short k, fun k y t => runExpand_decodeMain_stop k,
      fun ha k y t => runExpand_decodeAux_stop ha k⟩,
    fun y t => unpackExpand_of_stop, fun bs t h hok => ?_⟩
  · exact (expandSym_literal he x).trans (if_pos hle)
  · exact (expandSym_literal he x).trans (if_neg (by omega))
  · obtain ⟨hout, houtLen, hexpLen⟩ := (expandSym_ok_expandedFrom h hok).out_eq
    have htest := unpackExpand_of_ok hok
    rw [houtLen, hexpLen] at htest
    exact ⟨hout, houtLen, hexpLen, fun hlt => htest.trans (if_pos hlt),
      fun hle => htest.trans (if_neg (Nat.not_lt.2 hle))⟩

/-- Settles O30: the level exists or not, and where it does the dimensions are those of `LevelDims`. -/
theorem lvlinfoHalvesWithAFloorOfOne : Obligations.LvlinfoHalvesWithAFloorOfOne := by
  refine fun i s hr => ⟨congrArg Code.command (commandWord_lvlinfo i), fun hi => ?_, fun hi => ?_⟩
  · rw [← levelDim_eq, ← levelDim_eq, exec_lvlinfo]
    exact launch_of_ok hr (lvlinfoBody_of_level (s := s.launched _) hi)
  · rw [exec_lvlinfo]
    exact launch_of_raise hr (lvlinfoBody_beyond (s := s.launched _) hi)

end

section
/-! What every state answers alike: a read while `BUSY` (70_reset_and_hazards.md rule R247) and the reset input
(10_state.md rule R47, 44_system.md rule R202). -/

namespace Sys2Proof.Machine

section
variable {s : State}

/-! ### A read while `BUSY` -/

/-- What a read of register number r returns while `BUSY`, n free values having been read before (rule R247). -/
def busyRead (r n : Nat) : Word := if r = 0x01 then busyStatus (Config.freeWord n) else Config.freeWord n

theorem State.freeRead_busy (hr : s.run = .busy) (r : Nat) : s.freeRead r = busyRead r s.freeCount := if_pos hr

/-- While `BUSY` every register reads as a free value (93_implementation_defined.md U10). -/
theorem State.hostRead_busy (hr : s.run = .busy) (r : Nat) :
    s.hostRead r = { s with busData := busyRead r s.freeCount, freeCount := s.freeCount + 1 } := by
  have hfree : s.readIsFree r = true := by simp [State.readIsFree, hr]
  unfold State.hostRead
  rw [if_pos hfree, State.freeRead_busy hr]

/-- The field `STATE` reads 1, whatever is free in the rest of `STATUS`: the mask clears bits 0 and 1. -/
theorem busyStatus_state (free : Word) : (busyStatus free).extractLsb' 0 2 = 1 := by
  have hmask : (0xFFFFFFFC : Word).extractLsb' 0 2 = 0#2 := by decide
  have hone : (1 : Word).extractLsb' 0 2 = 1 := by decide
  rw [busyStatus, BitVec.extractLsb'_or, BitVec.extractLsb'_and, hmask, hone, BitVec.and_zero, BitVec.zero_or]

theorem step_read (s : State) (r : Nat) (rest : List HostAction) :
    step { s with inputs := .read r :: rest } = .next (({ s with inputs := rest } : State).hostRead r) := rfl

/-! ### Reset -/

theorem step_reset (s : State) (rest : List HostAction) :
    step { s with inputs := .reset :: rest } = .next ({ s with inputs := rest } : State).applyReset := rfl

/-- The registers of the levels after reset (10_state.md rules R30 and R47). -/
theorem State.applyReset_levels (s : State) (i : Fin 16) :
    s.applyReset.lvlOfs[i] = 0 ∧ s.applyReset.lvlSize[i] = 0 :=
  ⟨Vector.getElem_replicate i.isLt, Vector.getElem_replicate i.isLt⟩

end

end Sys2Proof.Machine

open Sys2Proof Sys2Proof.Machine

/-- Settles O43: what a busy core answers is `busyRead`, of the register's number and the count of free values alone. -/
theorem busyReadsShowOnlyState : Obligations.BusyReadsShowOnlyState :=
  ⟨busyRead, fun n => busyStatus_state (Config.freeWord n), fun s r rest hr =>
    (step_read s r rest).trans (congrArg _ (State.hostRead_busy (s := { s with inputs := rest }) hr r))⟩

/-- Settles O44: reset writes the record of the reset values, and keeps the parameters, BUF and the host's queue. -/
theorem resetInputRestoresTheResetValues : Obligations.ResetInputRestoresTheResetValues := fun s rest =>
  have hlevels := State.applyReset_levels { s with inputs := rest }
  ⟨_, step_reset s rest, rfl, rfl, rfl, rfl, rfl, rfl, rfl, rfl, rfl, rfl, rfl, rfl, rfl, rfl, rfl, rfl, hlevels,
    rfl, rfl, rfl, rfl, rfl, rfl, rfl, rfl, rfl, rfl, rfl, rfl, rfl, rfl, rfl, rfl, rfl, rfl, rfl⟩

end

section
/-! How every command runs and ends (60_exceptions.md): it ends in `IDLE` or in `ERROR` (rule R210), an error records
its kind and the command (rules R212 and R214), and in `ERROR` only `CLRERR` is taken (rule R217). -/

namespace Sys2Proof.Machine

section
variable {i : Instr} {s u : State} {body : State → Res Unit} {e : ErrorKind}

/-! ### The errors that a body raises -/

/-- The error kinds that the core raises: all but the two of rule R212. -/
abbrev commandError (e : ErrorKind) : Prop := e ≠ .badMagic ∧ e ≠ .truncatedHeader

theorem commandError_of_streamError (h : streamError e) : commandError e := by
  rcases h with rfl | rfl <;> decide

theorem commandError_of_tableError (h : tableError e) : commandError e := by
  rcases h with rfl | rfl | rfl | rfl | rfl <;> decide

theorem commandError_of_loopError (h : loopError e) : commandError e := by
  rcases h with rfl | h
  · decide
  · exact commandError_of_streamError h

theorem commandError_of_preError (h : preError e) : commandError e := by
  rcases h with rfl | rfl | rfl | rfl <;> decide

/-- The body ends, and where it fails the core can raise its error. -/
def RaisesCommandErrors (body : State → Res Unit) : Prop :=
  ∀ s : State, s.DataOk → (body s).Meets (fun _ _ => True) fun e _ => commandError e

/-- What a body meets tells which errors it raises. -/
theorem RaisesCommandErrors.of_meets {Q : State → Unit → State → Prop} {E : State → ErrorKind → State → Prop}
    (h : ∀ s : State, s.DataOk → (body s).Meets (Q s) (E s)) (he : ∀ s e t, E s e t → commandError e) :
    RaisesCommandErrors body := fun s hd =>
  (h s hd).mono (fun _ _ _ => trivial) (he s)

theorem seekBody_errors : RaisesCommandErrors seekBody :=
  .of_meets (fun _ => seekBody_meets) fun _ _ _ ⟨he, _⟩ => he ▸ by decide

theorem rdbitsBody_errors (n : Nat) : RaisesCommandErrors (rdbitsBody n) :=
  .of_meets (fun _ => rdbitsBody_meets n) fun _ _ _ ⟨he, _⟩ => he ▸ by decide

theorem alignBody_errors : RaisesCommandErrors alignBody :=
  .of_meets (fun _ => alignBody_meets) fun _ _ _ hnone => hnone.elim

theorem hbuildBody_errors (t : BitVec 1) : RaisesCommandErrors (hbuildBody (slotOfT01 t)) :=
  .of_meets (fun _ => hbuildBody_meets (slotOfT01_ne t)) fun _ _ _ ⟨he, _⟩ => he ▸ by decide

theorem hdecBody_errors (t : SlotId) : RaisesCommandErrors (hdecBody t) := by
  intro s hd
  unfold hdecBody
  split
  · exact ((decodeSym_moves t hd.cursor).mono (fun _ _ h => h) fun _ _ ⟨he, _⟩ => commandError_of_streamError he).bind
      fun _ _ _ => trivial
  · show commandError .illegalCommand
    decide

theorem treadBody_errors (t : BitVec 1) : RaisesCommandErrors (treadBody (slotOfT01 t)) :=
  .of_meets (fun _ => treadBody_meets (slotOfT01_ne t)) fun _ _ _ ⟨he, _⟩ => commandError_of_tableError he

theorem gettabBody_errors : RaisesCommandErrors gettabBody := by
  refine .of_meets (fun _ => gettabBody_meets) ?_
  rintro _ _ _ ⟨rfl | he, -⟩
  · decide
  · exact commandError_of_tableError he

theorem lvlinfoBody_errors (k : Nat) : RaisesCommandErrors (lvlinfoBody k) :=
  .of_meets (fun _ => lvlinfoBody_meets k) fun _ _ _ ⟨he, _⟩ => he ▸ by decide

theorem unpackBody_errors (k : Nat) : RaisesCommandErrors (unpackBody k) :=
  .of_meets (fun _ => unpackBody_meets k) fun _ _ _ ⟨he, _⟩ =>
    he.elim commandError_of_preError commandError_of_loopError

/-! ### How a command runs -/

/-- The three ways in which the meaning of a command is given: its body is launched under its word, its word is illegal
(30_encoding.md rule R84), or it is `CLRERR`. -/
inductive CommandForm (i : Instr) : Prop where
  | launches {body : State → Res Unit} (hrun : ∀ s, exec i s = launch (wordOf i) body s) (hbody : IsBodyOf i body)
      (herr : RaisesCommandErrors body)
  | illegal (hrun : ∀ s, exec i s = launchIllegal (opByte (wordOf i)) s)
  | clears (hi : i = .clrerr)

theorem commandForm (hi : isCommand i = true) : CommandForm i := by
  cases i with
  | seek => exact .launches (fun _ => rfl) seek_isBody seekBody_errors
  | rdbits n =>
    by_cases hn : legalBitCount n
    · exact .launches (fun _ => if_pos hn) (rdbits_isBody n) (rdbitsBody_errors _)
    · exact .illegal fun _ => if_neg hn
  | align => exact .launches (fun _ => rfl) align_isBody alignBody_errors
  | hbuild t => exact .launches (fun _ => rfl) (hbuild_isBody t) (hbuildBody_errors t)
  | hdec t =>
    cases hx : slotOfT012 t with
    | some x =>
      have hrun : ∀ s, execHdec t s = launch (wordOf (.hdec t)) (hdecBody x) s := fun s => by rw [execHdec, hx]
      exact .launches hrun (hdec_isBody t x) (hdecBody_errors x)
    | none =>
      have hrun : ∀ s, execHdec t s = launchIllegal (opByte (wordOf (.hdec t))) s := fun s => by rw [execHdec, hx]
      exact .illegal hrun
  | tread t => exact .launches (fun _ => rfl) (tread_isBody t) (treadBody_errors t)
  | gettab => exact .launches (fun _ => rfl) gettab_isBody gettabBody_errors
  | lvlinfo k => exact .launches (fun _ => rfl) (lvlinfo_isBody k) (lvlinfoBody_errors _)
  | unpack k => exact .launches (fun _ => rfl) (unpack_isBody k) (unpackBody_errors _)
  | clrerr => exact .clears rfl
  | _ => cases hi

/-! ### How a command ends -/

/-- A command that ends leaves `IDLE` or `ERROR` (rule R210). -/
theorem CommandOutcome.run_eq (h : CommandOutcome i s u) : u.run = .idle ∨ u.run = .error := by
  cases h with
  | ignored hr => exact .inr hr
  | cleared => exact .inl rfl
  | done => exact .inl rfl
  | failed => exact .inr rfl

theorem CommandStep.cmd_eq (h : CommandStep i s u) : u.cmd = s.cmd :=
  h.field State.cmd fun _ => by cases i <;> rfl

/-- A command launched in `IDLE` that ends in `ERROR` has taken an error under its own opcode byte (rule R214). -/
theorem exec_command_raises (hd : s.DataOk) (hi : isCommand i = true) (hr : s.run = .idle) (he : exec i s = .next u)
    (hu : u.run = .error) : ∃ (e : ErrorKind) (t : State), commandError e ∧ u = t.raiseError (opByte (wordOf i)) e := by
  cases commandForm hi with
  | @launches body hrun hbody herr =>
    rw [hrun] at he
    have hstart := hd.launched (wordOf i)
    rcases launch_next he with ⟨herror, -⟩ | ⟨-, t, -, rfl⟩ | ⟨-, e, t, hraise, rfl⟩
    · simp [hr] at herror
    · cases hu
    · have hstep := hbody _ hstart
      have hkind := herr _ hstart
      rw [hraise, Res.meets_raise] at hstep hkind
      have hcmd : t.cmd = wordOf i := hstep.1.cmd_eq
      exact ⟨e, t, hkind, by rw [hcmd]⟩
  | illegal hrun =>
    rw [hrun, launchIllegal_idle hr] at he
    cases he
    exact ⟨.illegalCommand, s, by decide, rfl⟩
  | clears hclr =>
    subst hclr
    rw [exec_clrerr (.inl hr)] at he
    cases he
    cases hu

theorem wordOf_eq {w : Word} (h : encode i = .command w) : wordOf i = w := by
  rw [wordOf, h]

theorem isCommand_of_encode {w : Word} (h : encode i = .command w) : isCommand i = true := by
  rw [isCommand, h]

theorem opByte_eq_ofNat (w : Word) : opByte w = BitVec.ofNat 8 (w.toNat / 2 ^ 24) := by
  rw [← toNat_opByte, BitVec.ofNat_toNat, BitVec.setWidth_eq]

/-! ### While `STATE = ERROR` (rule R217), whatever the data -/

theorem exec_command_ignored (hi : isCommand i = true) (hne : i ≠ .clrerr) (hr : s.run = .error) :
    exec i s = .next s := by
  cases commandForm hi with
  | launches hrun => exact (hrun s).trans (launch_error hr)
  | illegal hrun => exact (hrun s).trans (launchIllegal_error hr)
  | clears hclr => exact absurd hclr hne

theorem commandWrite_ignored {w : Word} (hr : s.run = .error) (hw : w ≠ 0x0A000000) : commandWrite w s = .next s := by
  cases hdec : decodeCommand w with
  | error e => rw [commandWrite_of_error hdec, launchIllegal_error hr]
  | ok i =>
    have hne : i ≠ .clrerr := by
      rintro rfl
      exact hw (Code.command.inj (encode_of_decodeCommand hdec)).symm
    rw [commandWrite_of_ok hdec, if_neg (by simp [hr])]
    exact exec_command_ignored (decodeCommand_isCommand hdec) hne hr

theorem step_write_ignored (hr : s.run = .error) {r : Nat} {v : Word} (h : ¬ (r = 0 ∧ v = 0x0A000000))
    (rest : List HostAction) : step { s with inputs := .write r v :: rest } = .next { s with inputs := rest } := by
  have hbusy : s.run ≠ .busy := by simp [hr]
  by_cases hr0 : r = 0
  · subst hr0
    rw [step_write_command hbusy]
    exact commandWrite_ignored hr fun hv => h ⟨rfl, hv⟩
  · have hwrite := State.hostWrite_error (s := { s with inputs := rest }) hr r v
    exact ((if_neg hbusy).trans (if_neg hr0)).trans (congrArg _ hwrite)

/-- A read is answered as usual while not `BUSY` (44_system.md rule R203). -/
theorem step_read_value (hr : s.run ≠ .busy) {r : Nat} (hp : 0x43 ≤ r → r ≤ 0x46 → (s.slot s.tSel).valid = true)
    (rest : List HostAction) :
    step { s with inputs := .read r :: rest } = .next { s with inputs := rest, busData := s.regValue r } := by
  have hport : r < 0x43 ∨ 0x46 < r ∨ (({ s with inputs := rest } : State).slot s.tSel).valid = true := by
    rw [s.slot_inputs]
    by_cases hlow : 0x43 ≤ r
    · by_cases hhigh : r ≤ 0x46
      · exact .inr (.inr (hp hlow hhigh))
      · exact .inr (.inl (Nat.not_le.1 hhigh))
    · exact .inl (Nat.not_le.1 hlow)
  rw [step_read]
  exact congrArg _ (State.hostRead_eq (s := { s with inputs := rest }) hr hport)

end

end Sys2Proof.Machine

open Sys2Proof Sys2Proof.Machine

/-- Settles O53: a launched body ends with a value or with an error, and in `ERROR` a command is ignored or clears. -/
theorem everyCommandEnds : Obligations.EveryCommandEnds := by
  intro i s hd hi hr
  obtain ⟨u, he, hout⟩ := exec_command_outcome hd hi hr
  exact ⟨u, he, hout.run_eq⟩

/-- Settles O38: a launch and an illegal word are ignored alike, and so is the write of every other register. -/
theorem errorStateRefusesEverythingElse : Obligations.ErrorStateRefusesEverythingElse := fun _ rest hr =>
  ⟨fun _ hi hne => exec_command_ignored hi hne hr, fun _ _ h => step_write_ignored hr h rest,
    fun _ hp => step_read_value (by simp [hr]) hp rest⟩

/-- Settles O45: a body keeps the word in `CMD`, whose opcode byte the error records. -/
theorem raisingRecordsTheCommand : Obligations.RaisingRecordsTheCommand := by
  intro i w s u hd hr hw he hu
  obtain ⟨e, t, hkind, rfl⟩ := exec_command_raises hd (isCommand_of_encode hw) hr he hu
  refine ⟨⟨e, rfl, hkind⟩, ?_, rfl, rfl⟩
  rw [State.raiseError_errOp, wordOf_eq hw, opByte_eq_ofNat]

end

section
/-! A write of the host while a command runs (70_reset_and_hazards.md rule R245). -/

namespace Sys2Proof.Machine

section
variable {s u : State}

/-- A running command takes nothing from the host's queue. -/
theorem busyStep_inputs (h : s.DataOk) (hu : busyStep s = .next u) : u.inputs = s.inputs := by
  have hview := busyStep_hostView h hu
  simp only [State.hostView, Prod.mk.injEq] at hview
  obtain ⟨-, -, -, -, -, -, -, -, -, -, -, -, -, -, hinputs⟩ := hview
  exact hinputs

/-- While `BUSY` a write waits and the command goes on (rule R246). -/
theorem step_write_busy {r : Nat} {v : Word} {rest : List HostAction} (hr : s.run = .busy)
    (hq : s.inputs = .write r v :: rest) : step s = busyStep s := by
  unfold step hostStep
  rw [hq]
  exact if_pos hr

end

end Sys2Proof.Machine

open Sys2Proof Sys2Proof.Machine

/-- Settles O39: every launch is refused while `BUSY`, and a waiting write leaves the step to the running command, which
does not touch the queue. -/
theorem busyAcceptsNoWrite : Obligations.BusyAcceptsNoWrite := by
  refine fun s hr => ⟨fun i hi _ => exec_command_busy hi hr, fun r v rest t h hq ht => ?_⟩
  rw [step_write_busy hr hq] at ht
  exact (busyStep_inputs h.data ht).trans hq

end
